-- ==== Sys2Proof/Word.lean ====
section
/-! DEFINITION. Word.lean: the widths of the N640 and its indices. Management data are 16-bit words,
ring frames are octets, ring time is a 32-bit cycle number (12_formats.md, R177). -/

namespace Sys2Proof

/-- A word of the management object space. -/
abbrev Word := BitVec 16

/-- An octet of a ring frame. -/
abbrev Octet := BitVec 8

/-- A node address as the ring header carries it: bits 0 to 5 (12.1). -/
abbrev Node := BitVec 6

/-- Ring time, the cycle number of R177. -/
abbrev RingTime := BitVec 32

/-- Index of a signal record (R11). -/
abbrev SigIx := Fin 96

/-- Index of a Sample Map entry (R1). -/
abbrev MapIx := Fin 128

/-- Index of a Limit Table entry (R23). -/
abbrev LimIx := Fin 48

/-- Number of a sequencer channel (R38). -/
abbrev ChanIx := Fin 8

/-- Index of a step of the Step List (R41). -/
abbrev StepIx := Fin 256

/-- Index of a load tag (R65). -/
abbrev TagIx := Fin 16

/-- An event code (R151). -/
abbrev Code := Fin 128

/-- A contributor slot (R11). -/
abbrev SlotIx := Fin 3

/-- A cooling stage (R135). -/
abbrev StageIx := Fin 6

/-- An output index of an actuator node (R41). -/
abbrev OutIx := Fin 16

/-- The indices below `k` of a table of `n` entries, ahead of `acc`. -/
def indicesFrom (n : Nat) : (k : Nat) → k ≤ n → List (Fin n) → List (Fin n)
  | 0, _, acc => acc
  | k + 1, h, acc => indicesFrom n k (Nat.le_of_succ_le h) (⟨k, h⟩ :: acc)

/-- All indices of a table of `n` entries, lowest first. -/
def indices (n : Nat) : List (Fin n) := indicesFrom n n (Nat.le_refl n) []

theorem indicesFrom_eq (n k : Nat) (h : k ≤ n) (acc : List (Fin n)) :
    indicesFrom n k h acc = (List.finRange k).map (Fin.castLE h) ++ acc := by
  induction k generalizing acc with
  | zero => simp [indicesFrom]
  | succ k ih =>
    rw [indicesFrom, ih, List.finRange_succ_last]
    simp
    rfl

theorem indices_eq (n : Nat) : indices n = List.finRange n := by
  simp [indices, indicesFrom_eq]

theorem mem_indices {n : Nat} (i : Fin n) : i ∈ indices n := by
  simp [indices_eq]

/-- The table whose entry `i` is `f i`. -/
def tabulate {α : Type} (n : Nat) (f : Fin n → α) : Vector α n :=
  ⟨((indices n).map f).toArray, by simp [indices_eq]⟩

@[simp] theorem tabulate_get {α : Type} {n : Nat} (f : Fin n → α) (i : Fin n) :
    (tabulate n f)[i] = f i := by
  simp [tabulate, indices_eq]

/-- The indices of the entries that satisfy `p`, lowest first. -/
def selectIx {α : Type} {n : Nat} (p : α → Bool) (v : Vector α n) : List (Fin n) :=
  ((indices n).zip v.toList).filterMap fun x => if p x.2 then some x.1 else none

theorem mem_selectIx {α : Type} {n : Nat} (p : α → Bool) (v : Vector α n) (i : Fin n) :
    i ∈ selectIx p v ↔ p v[i] = true := by
  simp only [selectIx, List.mem_filterMap, indices_eq]
  constructor
  · rintro ⟨⟨j, x⟩, hx, h⟩
    obtain ⟨k, hk, he⟩ := List.mem_iff_getElem.mp hx
    simp at he
    obtain ⟨rfl, rfl⟩ := he
    simp at h
    obtain ⟨h, rfl⟩ := h
    exact h
  · intro h
    refine ⟨(i, v[i]), ?_, by simpa using h⟩
    refine List.mem_iff_getElem.mpr ⟨i, by simp, ?_⟩
    simp

end Sys2Proof
end

