-- ==== Sys2Proof/Syntax.lean ====
section
/-! DEFINITION. Syntax.lean: the commands of the N640, one constructor for each row of
spec/opcode_table.json, with the operands the row's rule names. Management Requests carry the node
that sent them, since R180 sends the answer to it. -/

namespace Sys2Proof

/-- The two ring ports (R167). -/
inductive Port where
  | inn
  | out
  deriving DecidableEq, Repr

/-- The rates a capability word offers (R167). -/
inductive Rates where
  | base
  | fast
  | both
  deriving DecidableEq, Repr

/-- The role a capability word states (R167). -/
inductive Role where
  | head
  | inline
  | leaf
  deriving DecidableEq, Repr

/-- The part of a capability word that R168 and R169 compare: the acknowledge flag is left aside. -/
structure CapWord where
  rates : Rates
  role : Role
  deriving DecidableEq, Repr

/-- Why a port leaves UP (R171). -/
inductive LossCause where
  | lock
  | brk
  deriving DecidableEq, Repr

/-- Node quality of a Sample Frame item (R6); code 3 is handled as FAILED (R190). -/
inductive NodeQuality where
  | good
  | suspect
  | failed
  deriving DecidableEq, Repr

/-- One item of a Sample Frame (12.1). -/
structure SampleItem where
  channel : Fin 16
  quality : NodeQuality
  raw : Word
  deriving DecidableEq, Repr

/-- A frame as RIF receives it on IN (R173): its octets, and whether it ends with an abort mark. -/
structure RxFrame where
  octets : List Octet
  aborted : Bool
  deriving DecidableEq, Repr

/-- A command to the part: one constructor per row of the opcode table. -/
inductive Instr where
  -- resets and start-up
  | powerOnReset
  | pinReset
  | bootEnd
  -- link alignment
  | lineActivity (p : Port)
  | alignmentBurstTimer (p : Port)
  /-- A burst whose marker was received inverted or not, its word and its acknowledge flag. -/
  | burstReceived (p : Port) (inverted : Bool) (w : CapWord) (flag : Bool)
  | acknowledgeBurstsSent (p : Port)
  | lineNoActivity (p : Port)
  | dataLock (p : Port)
  | verifyTimeout (p : Port)
  | stuckTimeout (p : Port)
  /-- `transit`: the octets already received (IN) or sent (OUT) of a frame then in transit. -/
  | linkLoss (p : Port) (cause : LossCause) (transit : List Octet)
  /-- `active`: whether the line shows activity at the end of the 50 ms. -/
  | silentEnd (p : Port) (active : Bool)
  -- frames and ring time
  | frameReceived (f : RxFrame)
  | cycleMark (n : RingTime)
  | cycleMarksLost
  | localCycleEvent
  | frameInsertion
  /-- A Sample Frame as handed to SIN: source, sequence, item count field, and its items. -/
  | sampleFrame (src : Node) (sequence : Octet) (count : Octet) (items : List SampleItem)
  | contributorStale (i : SigIx) (k : SlotIx)
  -- the Step Engine
  | stepEngineGrant
  | emit
  | await
  | awaitTimeout (c : ChanIx)
  | dwell
  | dwellComplete (c : ChanIx)
  | claim
  | claimTimeout (c : ChanIx)
  | free
  | link
  -- expiries of the jobs
  | stallWindow
  | restElapsed
  | stageDwellElapsed
  | flowWindow
  -- management reads: `qual` is the qualifier of 12.1
  | read (src : Node) (addr : Word) (len : Octet) (qual : Word)
  | portStatusRead (src : Node) (p : Port) (off : Word) (len : Octet)
  | logRead (src : Node) (start : Word) (off : Word) (len : Octet)
  -- management writes: `off` counts words from the start of the named region
  | sampleMapWrite (src : Node) (off : Word) (len : Octet) (data : List Word)
  | signalRecordWrite (src : Node) (off : Word) (len : Octet) (data : List Word)
  | limitTableWrite (src : Node) (off : Word) (len : Octet) (data : List Word)
  | channelDescriptorWrite (src : Node) (off : Word) (len : Octet) (data : List Word)
  | prioritySchemeWrite (src : Node) (off : Word) (len : Octet) (data : List Word)
  | stepListWrite (src : Node) (off : Word) (len : Octet) (data : List Word)
  | capacityWrite (src : Node) (off : Word) (len : Octet) (data : List Word)
  | loadTagWrite (src : Node) (off : Word) (len : Octet) (data : List Word)
  | conversionParameterWrite (src : Node) (off : Word) (len : Octet) (data : List Word)
  | allowanceParameterWrite (src : Node) (off : Word) (len : Octet) (data : List Word)
  | yawParameterWrite (src : Node) (off : Word) (len : Octet) (data : List Word)
  /-- `off` counts from the first twist word, 324A (12.3). -/
  | twistPreset (src : Node) (off : Word) (len : Octet) (data : List Word)
  /-- `off` counts from 3300: the cooling parameters, then the Cooling Stage Table from 0020. -/
  | coolingWrite (src : Node) (off : Word) (len : Octet) (data : List Word)
  | eventDescriptorWrite (src : Node) (off : Word) (len : Octet) (data : List Word)
  | eventControlWrite (src : Node) (off : Word) (len : Octet) (data : List Word)
  | ringControlWrite (src : Node) (off : Word) (len : Octet) (data : List Word)
  | managementControlWrite (src : Node) (off : Word) (len : Octet) (data : List Word)
  | write (src : Node) (addr : Word) (len : Octet) (data : List Word)
  -- management requests; `qual` is the qualifier of 12.1
  | start (src : Node) (qual : Word)
  | abort (src : Node) (qual : Word)
  | mask (src : Node) (qual : Word)
  | unmask (src : Node) (qual : Word)
  | ack (src : Node) (qual : Word)
  | clearTrip (src : Node)
  | clearYaw (src : Node)
  | clearFirstOut (src : Node)
  | clearEventCounts (src : Node)
  | clearPending (src : Node) (qual : Word)
  | conversionStart (src : Node)
  | conversionRun (src : Node)
  | conversionStop (src : Node)
  | yawEnable (src : Node)
  | yawDisable (src : Node)
  | save (src : Node)
  | saveCompletion
  /-- `offset`: the failing image offset the memory reports (R186). -/
  | saveFailure (offset : Word)
  | commission (src : Node)
  | decommission (src : Node)
  | reset (src : Node)
  deriving DecidableEq, Repr

end Sys2Proof
end

