-- ==== Sys2Proof/Config.lean ====
section
/-! DEFINITION. Config.lean: what an implementation of the N640 fixes and the spec does not state.
Each constant is free: it has no body, so a theorem about it holds for every value. -/

namespace Sys2Proof.Config

/-- Vendor code of the identity object, "fixed for the vendor" (R187); the spec gives no number. -/
opaque vendorCode : Word

/-- Part code of the identity object, "fixed for the N640" (R187); the spec gives no number. -/
opaque partCode : Word

/-- Silicon revision number of the identity object (R187). -/
opaque revision : Word

/-- The number that names the requester in the detail of event 7 (R43): who asks is given by a kind
(0 YAW, 1 CNV, 2 CLC, 3 Limit Table entry, 4 ALA, 5 linking channel, 6 management) and an index. The
spec gives no numbers for requesters. -/
opaque requesterNumber : Nat → Nat → Int

/-- The number that stands for a flow of NONE in the detail of event 20 (R143 reached from R145). -/
opaque noFlowNumber : Int

/-- What the log header reads as its oldest held sequence while the log is empty (R163, 12.3). -/
opaque emptyLogOldest : Word

end Sys2Proof.Config
end

