-- ==== Sys2Proof/Machine/Types.lean ====
section
/-! DEFINITION. Types.lean: the records of the N640, as the field tables of the chapters give them.
First the configuration fields (the settings of R186), then the runtime fields of each block. -/

namespace Sys2Proof.Machine

/-! ### Signals (chapter 1) -/

/-- Feed of a signal: SAMPLED, or DERIVED with its (owner, quantity) pair of R17. -/
inductive Feed where
  | sampled
  | gridMagnitude
  | allowance
  | coolantFlow
  | coolingFactor
  | twist
  | yawErrorLong
  deriving DecidableEq, Repr

/-- Merge mode (R11, R13). -/
inductive MergeMode where
  | last
  | max
  | min
  | mean
  | primary
  deriving DecidableEq, Repr

/-- Signal quality (R14). -/
inductive Quality where
  | good
  | degraded
  | lost
  | unused
  deriving DecidableEq, Repr

/-- Contributor quality (R11). -/
inductive SlotQuality where
  | good
  | suspect
  | stale
  | absent
  deriving DecidableEq, Repr

/-- Cause of the latest non-GOOD contributor quality (R11). -/
inductive Reason where
  | none
  | node
  | range
  | jump
  deriving DecidableEq, Repr

/-- Cause of a signal update (R19). -/
inductive Cause where
  | sample
  | derived
  | change
  deriving DecidableEq, Repr

/-- Configuration of one Sample Map entry (R1). -/
structure SampleEntry where
  valid : Bool
  source : Node
  channel : Fin 16
  target : SigIx
  slot : SlotIx
  decimation : Nat
  gain : Int
  offset : Int
  low : Int
  high : Int
  rate : Nat
  deriving DecidableEq, Repr

/-- Configuration of one signal record (R11). -/
structure SignalCfg where
  feed : Feed
  merge : MergeMode
  staleLimit : Nat
  lossCode : Code
  deriving DecidableEq, Repr

/-- A contributor sub-record (R11). -/
structure Contributor where
  quality : SlotQuality
  value : Int
  reference : Int
  age : Nat
  jumps : Nat
  reason : Reason
  deriving DecidableEq, Repr

/-- Runtime fields of one signal record (R11), with the stale limit in force: a stored one takes effect at
the next cycle event (R12). -/
structure SignalRt where
  value : Int
  quality : Quality
  lastSlot : Option SlotIx
  lossRaised : Bool
  limit : Nat
  slots : Vector Contributor 3
  deriving DecidableEq, Repr

/-! ### Limits (chapter 2) -/

inductive LimitKind where
  | above
  | below
  | outside
  deriving DecidableEq, Repr

inductive OnLoss where
  | hold
  | trip
  | release
  deriving DecidableEq, Repr

inductive LimitAction where
  | eventOnly
  | converterBlock
  | yawStop
  | coolingFull
  | startChannel
  deriving DecidableEq, Repr

/-- Configuration of one Limit Table entry (R23). The event code is kept as written, since R34 checks
it for valid entries only. -/
structure LimitCfg where
  valid : Bool
  signal : SigIx
  kind : LimitKind
  trip : Int
  release : Int
  lowTrip : Int
  lowRelease : Int
  persistence : Nat
  latching : Bool
  onLoss : OnLoss
  action : LimitAction
  channel : ChanIx
  code : Nat
  deriving DecidableEq, Repr

/-- Runtime fields of one Limit Table entry (R23). -/
structure LimitRt where
  tripped : Bool
  counter : Nat
  latch : Bool
  deriving DecidableEq, Repr

/-- The three holds of R32, as last told to their targets. -/
structure Holds where
  converter : Bool
  yaw : Bool
  cooling : Bool
  deriving DecidableEq, Repr

/-! ### Sequencer (chapter 3) -/

inductive RunMode where
  | single
  | block
  | demand
  deriving DecidableEq, Repr

/-- Sense of a level condition (R38, R41). -/
inductive Sense where
  | above
  | below
  deriving DecidableEq, Repr

/-- Owner of a channel (R38); a load tag's owner is one of the first four (R65). -/
inductive Owner where
  | none
  | yaw
  | conversion
  | cooling
  | allocator
  deriving DecidableEq, Repr

/-- Channel descriptor (R38). -/
structure ChanCfg where
  valid : Bool
  base : StepIx
  count : Nat
  mode : RunMode
  demandSignal : SigIx
  demandSense : Sense
  demandLevel : Int
  reload : Bool
  link : Option ChanIx
  owner : Owner
  deriving DecidableEq, Repr

/-- A step of the Step List (R41). -/
inductive Step where
  | emit (node : Node) (output : OutIx) (value : Int)
  | await (signal : SigIx) (sense : Sense) (level : Int) (timeout : Nat)
  | dwell (duration : Nat)
  | claim (tag : TagIx) (amount : Nat) (timeout : Nat)
  | free (tag : TagIx)
  | link (channel : ChanIx)
  deriving DecidableEq, Repr

/-- Wait kind of a WAITING channel (R40). -/
inductive WaitKind where
  | await
  | dwell
  | claim
  | queue
  deriving DecidableEq, Repr

/-- Channel state with the wait kind of WAITING; the wait kind is NONE in every other state (R40). -/
inductive ChanState where
  | masked
  | idle
  | requested
  | running
  | waiting (k : WaitKind)
  | suspended
  deriving DecidableEq, Repr

/-- One command item (R50). -/
structure CmdItem where
  output : OutIx
  value : Int
  deriving DecidableEq, Repr

/-- A closed Command Frame (section 3.9). -/
structure CmdFrame where
  dest : Node
  items : List CmdItem
  deriving DecidableEq, Repr

/-- The open frame of the Frame Builder (section 3.9). -/
structure OpenFrame where
  dest : Node
  items : List CmdItem
  chan : ChanIx
  deriving DecidableEq, Repr

/-- Runtime fields of a channel (R40). -/
structure ChanRt where
  state : ChanState
  timer : Nat
  current : StepIx
  remaining : Nat
  held : Option CmdFrame
  terminal : Bool
  fault : Bool
  aborted : Bool
  deriving DecidableEq, Repr

/-- Cause of a step fault (R57). -/
inductive StepFault where
  | awaitTimeout
  | claimTimeout
  | claimRefused
  deriving DecidableEq, Repr

/-- Outcome of a run as the owner is told of it (R59). -/
inductive RunEnd where
  | terminal
  | fault (step : StepIx) (cause : StepFault)
  | aborted
  deriving DecidableEq, Repr

/-- Who asks for a channel (R43). -/
inductive Requester where
  | yaw
  | conversion
  | cooling
  | limit (i : LimIx)
  | allocator
  | link (c : ChanIx)
  | management
  deriving DecidableEq, Repr

/-- The aborting party of event 9 (R58). -/
inductive Party where
  | management
  | owner
  deriving DecidableEq, Repr

/-- Sequencer state (R40, R46, section 3.9). -/
structure SeqRt where
  chans : Vector ChanRt 8
  holder : Option ChanIx
  lastGranted : ChanIx
  opened : Option OpenFrame
  deriving DecidableEq, Repr

/-! ### Allocator (chapter 4) -/

inductive SupplyMode where
  | grid
  | sag
  | backup
  deriving DecidableEq, Repr

/-- Configuration of a load tag (R65). -/
structure TagCfg where
  valid : Bool
  name : Nat
  cls : Fin 5
  owner : Owner
  shed : Option ChanIx
  deriving DecidableEq, Repr

/-- Runtime fields of a load tag (R65). -/
structure TagRt where
  grant : Nat
  time : RingTime
  rank : Option Nat
  shedding : Bool
  deriving DecidableEq, Repr

/-- Requester of a claim (R67). -/
inductive Claimant where
  | chan (c : ChanIx)
  | clc
  deriving DecidableEq, Repr

/-- An entry of the Claim Queue (R68). -/
structure Claim where
  tag : TagIx
  amount : Nat
  who : Claimant
  increase : Bool
  deriving DecidableEq, Repr

/-- ALA's answer to a claim (R67). -/
inductive Answer where
  | granted
  | queued
  | refused
  deriving DecidableEq, Repr

/-- Allocator state (R64, R65, R68). -/
structure AlaRt where
  mode : SupplyMode
  tags : Vector TagRt 16
  queue : List Claim
  deriving DecidableEq, Repr

/-! ### Conversion (chapter 5) and allowance (chapter 6) -/

inductive ConvState where
  | off
  | charging
  | standby
  | running
  | rideThrough
  | postDip
  | stopping
  | tripped
  deriving DecidableEq, Repr

inductive ConvAwait where
  | none
  | precharge
  | run
  | stop
  | trip
  deriving DecidableEq, Repr

inductive TripCause where
  | none
  | limit
  | curve
  | blind
  | channelFault
  | channelAborted
  | channelRefused
  | shed
  deriving DecidableEq, Repr

/-- Conversion parameter object (R77). -/
structure ConvCfg where
  gridA : SigIx
  gridB : SigIx
  gridC : SigIx
  temps : List SigIx
  setpoint : SigIx
  heartbeat : SigIx
  group : Node
  precharge : ChanIx
  run : ChanIx
  stop : ChanIx
  trip : ChanIx
  dipEntry : Nat
  dipExit : Nat
  absent : Nat
  absentPersistence : Nat
  levels : Vector Nat 4
  times : Vector Nat 4
  blindLimit : Nat
  autonomousCap : Nat
  autostart : Bool
  shedTrips : Bool
  deriving DecidableEq, Repr

/-- Conversion record (R79). -/
structure CnvRt where
  state : ConvState
  awaited : ConvAwait
  breaker : Bool
  cause : TripCause
  detail : Nat
  time : RingTime
  further : Nat
  dip : Nat
  blind : Nat
  absent : Nat
  hold : Bool
  autonomous : Bool
  autostartPending : Bool
  deriving DecidableEq, Repr

/-- Allowance parameter object (R99). -/
structure AlwCfg where
  length : Nat
  temps : Vector Int 8
  levels : Vector Nat 8
  blind : Nat
  deadBand : Nat
  gain : Nat
  iqMax : Nat
  ramp : Nat
  deriving DecidableEq, Repr

/-- Allowance record (R101). -/
structure AlwRt where
  history : List Nat
  m : Nat
  mf : Nat
  tmax : Option Int
  a : Nat
  cfUsed : Nat
  ith : Nat
  iq : Nat
  ipCap : Nat
  ipReq : Nat
  ipLimit : Nat
  ramp : Nat
  rideLimit : Nat
  lastIq : Nat
  lastIp : Nat
  lastBlind : Bool
  deriving DecidableEq, Repr

/-! ### Yaw (chapter 7) -/

inductive YawState where
  | held
  | releasing
  | driving
  | stopping
  | fault
  deriving DecidableEq, Repr

inductive Purpose where
  | none
  | track
  | unwind
  deriving DecidableEq, Repr

inductive Direction where
  | none
  | cw
  | ccw
  deriving DecidableEq, Repr

inductive YawAwait where
  | none
  | releaseCw
  | releaseCcw
  | stop
  deriving DecidableEq, Repr

inductive StopCause where
  | none
  | trackDone
  | unwindDone
  | hardLimit
  | inhibit
  | windLost
  | shed
  | stall
  | headingLost
  | releaseFailed
  | noGrant
  deriving DecidableEq, Repr

inductive FaultCause where
  | none
  | stall
  | headingLost
  | releaseFailed
  | noGrant
  | releaseRefused
  | stopRefused
  | stopFailed
  deriving DecidableEq, Repr

/-- An inhibit reason (R119). -/
inductive Inhibit where
  | management
  | headingLost
  | roll
  | rest
  | shed
  | limit
  | config
  deriving DecidableEq, Repr

/-- The inhibit set, one flag per member in the order of R115. -/
structure InhibitSet where
  management : Bool
  headingLost : Bool
  roll : Bool
  rest : Bool
  shed : Bool
  limit : Bool
  config : Bool
  deriving DecidableEq, Repr

/-- Yaw parameter object (R113). -/
structure YawCfg where
  windDir : SigIx
  heading : SigIx
  windSpeed : SigIx
  roll : SigIx
  releaseCw : ChanIx
  releaseCcw : ChanIx
  stop : ChanIx
  tag : TagIx
  amount : Nat
  eLong : Nat
  eShort : Nat
  eLongStorm : Nat
  eShortStorm : Nat
  eStop : Nat
  vMin : Nat
  vStorm : Nat
  vUnwind : Nat
  unwindLevel : Nat
  unwindTarget : Nat
  hardLimit : Nat
  stallWindow : Nat
  minMove : Nat
  rollLimit : Nat
  restTime : Nat
  deriving DecidableEq, Repr

/-- Yaw record (R115); the window's sum and means are computed from it. -/
structure YawRt where
  state : YawState
  purpose : Purpose
  direction : Direction
  awaited : YawAwait
  faultPending : Bool
  stopConfirmed : Bool
  stopCause : StopCause
  faultCause : FaultCause
  inhibit : InhibitSet
  hardBlocked : Bool
  window : List Int
  twist : Int
  lastHeading : Option Int
  stallTimer : Nat
  stallBase : Int
  restTimer : Nat
  deriving DecidableEq, Repr

/-! ### Cooling (chapter 8) -/

inductive Duty where
  | a
  | b
  | changeover
  | noFlow
  deriving DecidableEq, Repr

inductive ChangeFrom where
  | none
  | a
  | b
  deriving DecidableEq, Repr

inductive Heater where
  | off
  | claiming
  | on
  deriving DecidableEq, Repr

/-- One stage of the Cooling Stage Table (R135). -/
structure Stage where
  entry : Int
  exit : Int
  fan : Int
  pump : Int
  amount : Nat
  capacity : Nat
  dwell : Nat
  deriving DecidableEq, Repr

/-- Cooling parameter object (R134). -/
structure ClcCfg where
  coolant : SigIx
  flowCount : SigIx
  humidity : SigIx
  fanTag : Option TagIx
  pumpATag : TagIx
  pumpBTag : TagIx
  heaterTag : Option TagIx
  pumpAmount : Nat
  heaterAmount : Nat
  node : Node
  fanOutput : OutIx
  pumpAOutput : OutIx
  pumpBOutput : OutIx
  heaterNode : Node
  heaterOutput : OutIx
  window : Nat
  flowMin : Nat
  lowWindows : Nat
  aToB : Option ChanIx
  bToA : Option ChanIx
  noFlowFactor : Nat
  humOn : Nat
  humOff : Nat
  deriving DecidableEq, Repr

/-- Cooling record (R137), with the model's mark `dwellDue`: the dwell elapsed at the last cycle event
and its stage tests are still to be taken. -/
structure ClcRt where
  actual : StageIx
  target : StageIx
  dwell : Nat
  dwellDue : Bool
  stageClaim : Option StageIx
  heldReported : Bool
  fullHold : Bool
  duty : Duty
  changeFrom : ChangeFrom
  pumpClaim : Bool
  flowTimer : Nat
  prevCount : Option Int
  flow : Option Nat
  low : Nat
  heater : Heater
  heldStage : Option CmdFrame
  heldHeater : Option CmdFrame
  cf : Nat
  deriving DecidableEq, Repr

/-! ### Events (chapter 9) -/

/-- Kind of a raise or of a Notice (R151, R154). -/
inductive EventKind where
  | occurred
  | recovered
  | recurred
  deriving DecidableEq, Repr

/-- Event descriptor (R152). -/
structure EventCfg where
  enabled : Bool
  group : Fin 8
  notify : Bool
  acknowledged : Bool
  log : Bool
  firstOut : Bool
  snapshot : List SigIx
  deriving DecidableEq, Repr

/-- Event state of one code (R154). -/
structure EventRt where
  pending : Bool
  kind : EventKind
  inService : Bool
  recurred : Bool
  count : Nat
  time : RingTime
  detail : List Int
  deriving DecidableEq, Repr

/-- A Fault Record (R161). -/
structure FaultRecord where
  sequence : Word
  time : RingTime
  code : Code
  kind : EventKind
  count : Nat
  conv : ConvState
  yaw : YawState
  detail : List Int
  snapshot : List Int
  deriving DecidableEq, Repr

/-- A First-Out entry (R164). -/
structure FirstOut where
  code : Code
  time : RingTime
  kind : EventKind
  detail : List Int
  snapshot : List Int
  deriving DecidableEq, Repr

/-- Event Unit state (section 9.3). -/
structure EvuRt where
  events : Vector EventRt 128
  nextSeq : Word
  log : List FaultRecord
  firstOut : List FirstOut
  deriving DecidableEq, Repr

/-! ### Ring (chapter 10) -/

inductive PortState where
  | down
  | listen
  | acknowledge
  | verify
  | up
  | silent
  deriving DecidableEq, Repr

/-- A chosen rate (R167); NONE is `none`. -/
inductive Rate where
  | base
  | fast
  deriving DecidableEq, Repr

/-- The offered rates of the ring control object (R172). -/
inductive Offer where
  | fastAndBase
  | baseOnly
  | fastOnly
  deriving DecidableEq, Repr

/-- A port record (R167) with what R168 to R170 make it remember: the burst before, the further
bursts sent, and whether the stuck timer runs. -/
structure PortRt where
  state : PortState
  rate : Option Rate
  partnerRates : Option Rates
  partnerRole : Option Role
  inverted : Bool
  stuck : Bool
  linkLost : Bool
  bursts : Nat
  before : Option CapWord
  further : Nat
  stuckTimer : Bool
  deriving DecidableEq, Repr

/-- Free-run cause (R177). -/
inductive FreeCause where
  | start
  | loss
  deriving DecidableEq, Repr

/-- Cycle state; FREE_RUN holds its cause (R177). -/
inductive CycleState where
  | synchronised
  | freeRun (c : FreeCause)
  deriving DecidableEq, Repr

/-- A frame of Insertion Queue class 0 (R176). -/
inductive Class0 where
  | block (dest : Node)
  | ref (dest : Node) (iq ip : Nat)
  deriving DecidableEq, Repr

/-- A Notice (R158). -/
structure Notice where
  dest : Node
  code : Code
  kind : EventKind
  count : Nat
  time : RingTime
  detail : List Int
  snapshot : List Int
  deriving DecidableEq, Repr

/-- Answer status (R180). -/
inductive Status where
  | ok
  | okClamped
  | noObject
  | readOnly
  | busy
  | state
  | range
  | duplicate
  | notInService
  | gone
  | stillActive
  deriving DecidableEq, Repr

/-- A Management Answer (R180). -/
structure MgtAnswer where
  dest : Node
  kind : Octet
  status : Status
  addr : Word
  data : List Word
  deriving DecidableEq, Repr

/-- What the part puts on a line; the model's record of its output. -/
inductive LineOut where
  | probe (p : Port)
  | burst (p : Port) (w : CapWord) (flag : Bool)
  | forwarded (octets : List Octet) (abortMark : Bool)
  | inserted (octets : List Octet)
  | cut (octets : List Octet)
  deriving DecidableEq, Repr

/-- Ring Interface state (chapter 10). -/
structure RifRt where
  portIn : PortRt
  portOut : PortRt
  class0 : List Class0
  class1 : List CmdFrame
  class2 : List Notice
  class3 : List MgtAnswer
  buffer : Option RxFrame
  ringTime : RingTime
  cycle : CycleState
  line : List LineOut
  deriving DecidableEq, Repr

/-! ### Part (chapter 11) -/

inductive PartState where
  | boot
  | configuration
  | operating
  deriving DecidableEq, Repr

inductive ResetCause where
  | power
  | pin
  | soft
  deriving DecidableEq, Repr

/-- The configuration fields of every table and parameter object: what the settings image holds
(section 11.5). -/
structure Settings where
  sampleMap : Vector SampleEntry 128
  signals : Vector SignalCfg 96
  limits : Vector LimitCfg 48
  chans : Vector ChanCfg 8
  rotating : Bool
  steps : Vector Step 256
  gridCap : Nat
  sagCap : Nat
  backupCap : Nat
  tags : Vector TagCfg 16
  conv : ConvCfg
  alw : AlwCfg
  yaw : YawCfg
  clc : ClcCfg
  stages : Vector Stage 6
  events : Vector EventCfg 128
  noticeDest : Node
  offer : Offer
  bootAutostart : Bool
  deriving DecidableEq, Repr

/-- A reader of signal updates (R20). -/
inductive Reader where
  | lim
  | seq
  | cnv
  | yaw
  | clc
  deriving DecidableEq, Repr

/-- A hand-over from one block to another that has not been taken yet. -/
inductive Work where
  /-- A signal update for the readers (R19). -/
  | update (i : SigIx) (value : Int) (quality : Quality) (cause : Cause)
  /-- A run's end for the channel's owner (R59). -/
  | outcome (owner : Owner) (c : ChanIx) (e : RunEnd)
  /-- A release notice for the tag's owner (R70). -/
  | released (owner : Owner) (t : TagIx)
  /-- CNV tells CLC of a change of its state (R147). -/
  | convChanged
  /-- CLC's stage tests at the end of a stage claim (R138, R139). -/
  | stageTest
  deriving DecidableEq, Repr

end Sys2Proof.Machine
end

