-- ==== Sys2Proof/Machine/Defaults.lean ====
section
/-! DEFINITION. Defaults.lean: the values every table and parameter object holds when the part leaves
BOOT without a valid settings image (R183), chapter by chapter. -/

namespace Sys2Proof.Machine

/-- Defaults of R1. -/
def defaultSampleEntry : SampleEntry :=
  { valid := false, source := 0, channel := 0, target := 0, slot := 0, decimation := 1,
    gain := 4096, offset := 0, low := -32768, high := 32767, rate := 0 }

/-- Defaults of R11. -/
def defaultSignal : SignalCfg :=
  { feed := .sampled, merge := .last, staleLimit := 5000, lossCode := 0 }

/-- Defaults of R23. -/
def defaultLimit : LimitCfg :=
  { valid := false, signal := 0, kind := .above, trip := 32767, release := 32767,
    lowTrip := -32768, lowRelease := -32768, persistence := 1, latching := false,
    onLoss := .hold, action := .eventOnly, channel := 0, code := 32 }

/-- Defaults of R38. -/
def defaultChan : ChanCfg :=
  { valid := false, base := 0, count := 1, mode := .block, demandSignal := 0,
    demandSense := .above, demandLevel := 0, reload := true, link := none, owner := .none }

/-- The default step of R41. -/
def defaultStep : Step := .dwell 1

/-- Defaults of R65. -/
def defaultTag : TagCfg :=
  { valid := false, name := 0, cls := 4, owner := .none, shed := none }

/-- Defaults of R77. -/
def defaultConv : ConvCfg :=
  { gridA := 0, gridB := 1, gridC := 2, temps := [], setpoint := 3, heartbeat := 4, group := 60,
    precharge := 0, run := 1, stop := 2, trip := 3, dipEntry := 13926, dipExit := 14746,
    absent := 4915, absentPersistence := 50,
    levels := #v[3277, 8192, 11469, 13926], times := #v[750, 3500, 7500, 15000],
    blindLimit := 10, autonomousCap := 8192, autostart := false, shedTrips := false }

/-- Defaults of R99. -/
def defaultAlw : AlwCfg :=
  { length := 4, temps := #v[0, 400, 600, 700, 800, 900, 1000, 1100],
    levels := #v[18432, 17408, 16384, 15360, 12288, 8192, 4096, 0],
    blind := 8192, deadBand := 14746, gain := 512, iqMax := 16384, ramp := 64 }

/-- Defaults of R113. -/
def defaultYaw : YawCfg :=
  { windDir := 20, heading := 21, windSpeed := 22, roll := 23, releaseCw := 4, releaseCcw := 5,
    stop := 6, tag := 1, amount := 450, eLong := 800, eShort := 2500, eLongStorm := 500,
    eShortStorm := 1500, eStop := 200, vMin := 300, vStorm := 2500, vUnwind := 1200,
    unwindLevel := 72000, unwindTarget := 18000, hardLimit := 90000, stallWindow := 5000,
    minMove := 20, rollLimit := 800, restTime := 10 }

/-- Defaults of R134. -/
def defaultClc : ClcCfg :=
  { coolant := 30, flowCount := 31, humidity := 32, fanTag := some 8, pumpATag := 5, pumpBTag := 6,
    heaterTag := some 12, pumpAmount := 400, heaterAmount := 200, node := 24, fanOutput := 0,
    pumpAOutput := 1, pumpBOutput := 2, heaterNode := 25, heaterOutput := 0, window := 5000,
    flowMin := 100, lowWindows := 3, aToB := some 7, bToA := none, noFlowFactor := 4096,
    humOn := 750, humOff := 650 }

/-- The default Cooling Stage Table of R135. -/
def defaultStages : Vector Stage 6 :=
  #v[⟨-32768, -32768, 0, 400, 0, 10240, 0⟩,
     ⟨300, 250, 300, 600, 150, 12288, 5⟩,
     ⟨350, 310, 500, 800, 300, 13312, 5⟩,
     ⟨400, 360, 700, 1000, 450, 14336, 5⟩,
     ⟨450, 410, 850, 1000, 600, 15360, 5⟩,
     ⟨500, 460, 1000, 1000, 800, 16384, 5⟩]

/-- Group, service mode ACKNOWLEDGED and first-out attribute of a code in the table of R152. -/
def defaultEventClass (c : Code) : Fin 8 × Bool × Bool :=
  if c = 12 ∨ c = 15 then (0, true, true)
  else if c = 13 ∨ c = 14 then (0, false, false)
  else if c = 16 ∨ c = 17 then (1, true, true)
  else if c = 19 then (1, true, false)
  else if c = 18 then (1, false, false)
  else if c = 11 ∨ c = 21 then (2, true, true)
  else if c = 10 ∨ c = 20 ∨ c = 22 then (2, false, false)
  else if c = 7 ∨ c = 8 then (3, true, false)
  else if c = 9 then (3, false, false)
  else if c = 3 then (4, true, false)
  else if c = 1 ∨ c = 2 ∨ c = 4 ∨ c = 5 ∨ c = 6 ∨ c = 27 then (4, false, false)
  else if c = 26 ∨ c = 28 then (6, true, false)
  else if c = 0 ∨ c = 23 ∨ c = 24 ∨ c = 25 ∨ c = 31 then (6, false, false)
  else if c = 29 ∨ c = 30 then (7, false, false)
  else (5, false, false)

/-- The default descriptor of a code (R152): enabled, notify, logged except code 27. -/
def defaultEvent (c : Code) : EventCfg :=
  let k := defaultEventClass c
  { enabled := true, group := k.1, notify := true, acknowledged := k.2.1, log := c ≠ 27,
    firstOut := k.2.2, snapshot := [] }

/-- Every table and object at its defaults (R183, image invalid). -/
def defaultSettings : Settings :=
  { sampleMap := Vector.replicate 128 defaultSampleEntry
    signals := Vector.replicate 96 defaultSignal
    limits := Vector.replicate 48 defaultLimit
    chans := Vector.replicate 8 defaultChan
    rotating := false
    steps := Vector.replicate 256 defaultStep
    gridCap := 3000
    sagCap := 1200
    backupCap := 600
    tags := Vector.replicate 16 defaultTag
    conv := defaultConv
    alw := defaultAlw
    yaw := defaultYaw
    clc := defaultClc
    stages := defaultStages
    events := tabulate 128 defaultEvent
    noticeDest := 63
    offer := .fastAndBase
    bootAutostart := false }

end Sys2Proof.Machine
end

