-- ==== Sys2Proof/Machine/ResetValues.lean ====
section
/-! DEFINITION. ResetValues.lean: the runtime fields of each block after a power-on or pin reset, from
the reset table of its chapter. Where they depend on the configuration (R22, R63, R150) they are
functions of the settings. -/

namespace Sys2Proof.Machine

/-- A contributor after reset (R11, R22). -/
def resetContributor : Contributor :=
  { quality := .absent, value := 0, reference := 0, age := 0, jumps := 0, reason := .none }

/-- A contributor slot is configured while a valid Sample Map entry targets it (R1). -/
def slotConfigured (st : Settings) (i : SigIx) (k : SlotIx) : Bool :=
  st.sampleMap.toList.any fun e => e.valid && e.target == i && e.slot == k

/-- At least one contributor of the signal is configured. -/
def anyConfigured (st : Settings) (i : SigIx) : Bool :=
  st.sampleMap.toList.any fun e => e.valid && e.target == i

/-- Signal quality after reset: LOST if SAMPLED with a configured contributor, or DERIVED; UNUSED
otherwise (R22). -/
def resetQuality (st : Settings) (i : SigIx) : Quality :=
  if st.signals[i].feed ≠ .sampled ∨ anyConfigured st i then .lost else .unused

/-- A signal record's runtime after reset (R22). -/
def resetSignal (st : Settings) (i : SigIx) : SignalRt :=
  { value := 0, quality := resetQuality st i, lastSlot := none, lossRaised := false,
    limit := st.signals[i].staleLimit, slots := Vector.replicate 3 resetContributor }

def resetSignals (st : Settings) : Vector SignalRt 96 :=
  tabulate 96 (resetSignal st)

/-- R37. -/
def resetLimit : LimitRt := { tripped := false, counter := 0, latch := false }

def resetHolds : Holds := { converter := false, yaw := false, cooling := false }

/-- A channel after reset (R63). -/
def resetChan (c : ChanCfg) : ChanRt :=
  { state := .masked, timer := 0, current := c.base, remaining := c.count, held := none,
    terminal := false, fault := false, aborted := false }

/-- R63. -/
def resetSeq (st : Settings) : SeqRt :=
  { chans := st.chans.map resetChan, holder := none, lastGranted := 7, opened := none }

/-- R76. -/
def resetTag : TagRt := { grant := 0, time := 0, rank := none, shedding := false }

def resetAla : AlaRt :=
  { mode := .grid, tags := Vector.replicate 16 resetTag, queue := [] }

/-- R97, power-on and pin column. -/
def resetCnv : CnvRt :=
  { state := .off, awaited := .none, breaker := false, cause := .none, detail := 0, time := 0,
    further := 0, dip := 0, blind := 0, absent := 0, hold := false, autonomous := false,
    autostartPending := false }

/-- R112. -/
def resetAlw : AlwRt :=
  { history := [], m := 0, mf := 0, tmax := none, a := 0, cfUsed := 0, ith := 0, iq := 0,
    ipCap := 0, ipReq := 0, ipLimit := 0, ramp := 0, rideLimit := 0, lastIq := 0, lastIp := 0,
    lastBlind := false }

def noInhibit : InhibitSet :=
  { management := false, headingLost := false, roll := false, rest := false, shed := false,
    limit := false, config := false }

/-- R133, power-on and pin column. -/
def resetYaw : YawRt :=
  { state := .held, purpose := .none, direction := .none, awaited := .none, faultPending := false,
    stopConfirmed := false, stopCause := .none, faultCause := .none,
    inhibit := { noInhibit with config := true }, hardBlocked := false, window := [], twist := 0,
    lastHeading := none, stallTimer := 0, stallBase := 0, restTimer := 0 }

/-- R150. -/
def resetClc (st : Settings) : ClcRt :=
  { actual := 0, target := 0, dwell := 0, dwellDue := false, stageClaim := none,
    heldReported := false, fullHold := false, duty := .a, changeFrom := .none, pumpClaim := false,
    flowTimer := 0, prevCount := none, flow := none, low := 0, heater := .off, heldStage := none,
    heldHeater := none, cf := st.stages[0].capacity }

/-- Event state of a code after a power-on or pin reset (R166). -/
def resetEvent : EventRt :=
  { pending := false, kind := .occurred, inService := false, recurred := false, count := 0,
    time := 0, detail := [] }

/-- R166, power-on column. -/
def resetEvu : EvuRt :=
  { events := Vector.replicate 128 resetEvent, nextSeq := 0, log := [], firstOut := [] }

/-- A port in BOOT (R178, R179). -/
def resetPort : PortRt :=
  { state := .down, rate := none, partnerRates := none, partnerRole := none, inverted := false,
    stuck := false, linkLost := false, bursts := 0, before := none, further := 0,
    stuckTimer := false }

/-- R179, power-on and pin column. -/
def resetRif : RifRt :=
  { portIn := resetPort, portOut := resetPort, class0 := [], class1 := [], class2 := [],
    class3 := [], buffer := none, ringTime := 0, cycle := .freeRun .start, line := [] }

/-- The own address a strap value gives: 1 to 55 as it is, every other value 55 (R183). -/
def addressOfStraps (v : Node) : Node :=
  if 1 ≤ v.toNat ∧ v.toNat ≤ 55 then v else 55

end Sys2Proof.Machine
end

