-- ==== Sys2Proof/Machine/State.lean ====
section
/-! DEFINITION. State.lean: the state of the N640 and the state right after a power-on reset. -/

namespace Sys2Proof.Machine

/-- Nothing in the spec stops the part: refused requests are answered with a status, discarded frames
have no effect and results saturate, so no fault is ever raised and the type is empty (safe). -/
inductive Fault
  deriving DecidableEq, Repr

/-- Why a command has no meaning in the model. -/
inductive Refusal where
  /-- Raised by `exec` alone, for a row that has no meaning yet; safe, since the run stops there. -/
  | notModelled (mnemonic : String)
  deriving DecidableEq, Repr

/-- The state of the part, block by block, and the queue of commands that wait. -/
structure State where
  /-- Pins ADDR0 to ADDR5. -/
  addrStraps : Node
  /-- BYPASS output, asserted in BOOT (R178). -/
  bypass : Bool
  part : PartState
  /-- Contents of the non-volatile image when its check value matches them (R183, R186). -/
  image : Option Settings
  /-- What a save in flight has captured; save state SAVING while it is there (R186). -/
  capture : Option Settings
  imageValid : Bool
  ownAddress : Node
  lastReset : ResetCause
  settings : Settings
  rif : RifRt
  /-- Phase counters of the Sample Map entries (R1). -/
  phases : Vector Nat 128
  /-- Last sequence memories, node 1 first (R4). -/
  sequences : Vector (Option Octet) 55
  signals : Vector SignalRt 96
  limits : Vector LimitRt 48
  holds : Holds
  seq : SeqRt
  ala : AlaRt
  cnv : CnvRt
  alw : AlwRt
  yaw : YawRt
  clc : ClcRt
  evu : EvuRt
  /-- Hand-overs between blocks that have not been taken yet, oldest first. -/
  work : List Work
  /-- Orders of the readers of the coming signal updates: R19 defines none, so it is free. -/
  schedule : List (List Reader)
  /-- The commands that wait, first in, first out. -/
  pending : List Instr
  deriving DecidableEq, Repr

/-- The part right after a power-on reset (R189, R178): in BOOT, tables at their defaults. -/
def State.reset : State :=
  { addrStraps := 1
    bypass := true
    part := .boot
    image := none
    capture := none
    imageValid := false
    ownAddress := 1
    lastReset := .power
    settings := defaultSettings
    rif := resetRif
    phases := Vector.replicate 128 0
    sequences := Vector.replicate 55 none
    signals := resetSignals defaultSettings
    limits := Vector.replicate 48 resetLimit
    holds := resetHolds
    seq := resetSeq defaultSettings
    ala := resetAla
    cnv := resetCnv
    alw := resetAlw
    yaw := resetYaw
    clc := resetClc defaultSettings
    evu := resetEvu
    work := []
    schedule := []
    pending := [] }

end Sys2Proof.Machine
end

