-- ==== Sys2Proof/Machine/Ops.lean ====
section
/-! DEFINITION. Ops.lean: the operations every block shares: saturation and rounding (00_scope.md,
Numbers and units), one-entry updates of the tables, and the list of hand-overs. -/

namespace Sys2Proof.Machine

/-! ### Numbers -/

/-- Saturation to a signed 16-bit value (R7). -/
def sat16 (x : Int) : Int := max (-32768) (min 32767 x)

/-- `x` limited to `lo` to `hi`. -/
def limitTo (lo hi x : Int) : Int := max lo (min hi x)

/-- A counter that increases by one and saturates at `top`. -/
def satSucc (top n : Nat) : Nat := if n < top then n + 1 else n

/-- Integer square root by its bits, highest first: `r` is the root found so far. -/
def isqrtBits : Nat → Nat → Nat → Nat
  | 0, r, _ => r
  | b + 1, r, x =>
    if (r + 2 ^ b) * (r + 2 ^ b) ≤ x then isqrtBits b (r + 2 ^ b) x else isqrtBits b r x

/-- isqrt (00_scope.md, Terms): the largest r with r * r at most x, for x below 2 ^ 34. -/
def isqrt (x : Nat) : Nat := isqrtBits 17 0 x

/-- A 32-bit number read as signed, as a detail value carries it (R151). -/
def signed32 (x : RingTime) : Int := x.toInt

/-! ### Tables -/

/-- The table with entry `i` changed by `f`. -/
def updAt {α : Type} {n : Nat} (v : Vector α n) (i : Fin n) (f : α → α) : Vector α n :=
  v.set i (f v[i])

def State.modSignal (s : State) (i : SigIx) (f : SignalRt → SignalRt) : State :=
  { s with signals := updAt s.signals i f }

def State.modSlot (s : State) (i : SigIx) (k : SlotIx) (f : Contributor → Contributor) : State :=
  s.modSignal i fun r => { r with slots := updAt r.slots k f }

def State.modLimit (s : State) (i : LimIx) (f : LimitRt → LimitRt) : State :=
  { s with limits := updAt s.limits i f }

def State.modSeq (s : State) (f : SeqRt → SeqRt) : State := { s with seq := f s.seq }

def State.modChan (s : State) (c : ChanIx) (f : ChanRt → ChanRt) : State :=
  s.modSeq fun q => { q with chans := updAt q.chans c f }

def State.modAla (s : State) (f : AlaRt → AlaRt) : State := { s with ala := f s.ala }

def State.modTag (s : State) (t : TagIx) (f : TagRt → TagRt) : State :=
  s.modAla fun a => { a with tags := updAt a.tags t f }

def State.modCnv (s : State) (f : CnvRt → CnvRt) : State := { s with cnv := f s.cnv }

def State.modAlw (s : State) (f : AlwRt → AlwRt) : State := { s with alw := f s.alw }

def State.modYaw (s : State) (f : YawRt → YawRt) : State := { s with yaw := f s.yaw }

def State.modClc (s : State) (f : ClcRt → ClcRt) : State := { s with clc := f s.clc }

def State.modEvu (s : State) (f : EvuRt → EvuRt) : State := { s with evu := f s.evu }

def State.modEvent (s : State) (c : Code) (f : EventRt → EventRt) : State :=
  s.modEvu fun e => { e with events := updAt e.events c f }

def State.modRif (s : State) (f : RifRt → RifRt) : State := { s with rif := f s.rif }

def RifRt.port (r : RifRt) : Port → PortRt
  | .inn => r.portIn
  | .out => r.portOut

def State.port (s : State) (p : Port) : PortRt := s.rif.port p

def State.modPort (s : State) (p : Port) (f : PortRt → PortRt) : State :=
  s.modRif fun r =>
    match p with
    | .inn => { r with portIn := f r.portIn }
    | .out => { r with portOut := f r.portOut }

/-- The channel's runtime record. -/
def State.chan (s : State) (c : ChanIx) : ChanRt := s.seq.chans[c]

/-- The channel's descriptor. -/
def State.desc (s : State) (c : ChanIx) : ChanCfg := s.settings.chans[c]

/-- The tag's runtime record. -/
def State.tag (s : State) (t : TagIx) : TagRt := s.ala.tags[t]

/-- The step the channel stands on. -/
def State.stepAt (s : State) (c : ChanIx) : Step := s.settings.steps[(s.chan c).current]

/-- One more hand-over, taken after those that wait already. -/
def State.hand (s : State) (w : Work) : State := { s with work := s.work ++ [w] }

/-- The part puts something on a line. -/
def State.emitLine (s : State) (o : LineOut) : State :=
  s.modRif fun r => { r with line := r.line ++ [o] }

/-! ### Conditions -/

/-- The part is in CONFIGURATION or OPERATING. -/
def State.awake (s : State) : Bool := s.part != .boot

def State.operating (s : State) : Bool := s.part == .operating

/-- Save state SAVING (R186). -/
def State.saving (s : State) : Bool := s.capture.isSome

/-- Quality GOOD or DEGRADED. -/
def Quality.usable : Quality → Bool
  | .good => true
  | .degraded => true
  | .lost => false
  | .unused => false

/-- A level condition: true above (or below) the level, for a usable quality (R49, R51). -/
def levelHolds (sense : Sense) (level value : Int) (q : Quality) : Bool :=
  q.usable &&
    match sense with
    | .above => decide (level < value)
    | .below => decide (value < level)

/-- A value shown to readers of a signal: the held value, 0 if UNUSED (R158). -/
def State.shown (s : State) (i : SigIx) : Int :=
  if s.signals[i].quality = .unused then 0 else s.signals[i].value

/-- The result of a command that has its meaning. -/
def done (s : State) : Host.Outcome State Fault Refusal := .next s

end Sys2Proof.Machine
end

