-- ==== Sys2Proof/Machine/Allowance.lean ====
section
/-! DEFINITION. Allowance.lean: the arithmetic of ALW (chapter 6), stage by stage, as functions of the
values each stage reads. CNV takes them together in one computation (Computation.lean). -/

namespace Sys2Proof.Machine

/-- Stage 1: instantaneous magnitude (R103). -/
def magnitude (va vb vc : Int) : Nat :=
  min 32767 (isqrt (2 * (va * va + vb * vb + vc * vc).toNat / 3))

/-- Stage 2: the history after `m` joins it, at most `len` values, the oldest leaving (R104). -/
def joinHistory (len : Nat) (h : List Nat) (m : Nat) : List Nat :=
  let h := h ++ [m]
  h.drop (h.length - len)

/-- Stage 2: mf, the floor of the mean (R104). -/
def meanOf (h : List Nat) : Nat := h.sum / h.length

/-- The segment of the derating table between two breakpoints (R105). -/
def deratedOn (t0 : Int) (a0 : Nat) (t1 : Int) (a1 : Nat) (t : Int) : Nat :=
  ((a0 : Int) + ((a1 : Int) - a0) * (t - t0) / (t1 - t0)).toNat

/-- The table from its breakpoint `t0`, at or below `t`, on (R105). -/
def deratedFrom (t0 : Int) (a0 : Nat) : List (Int × Nat) → Int → Nat
  | [], _ => a0
  | (t1, a1) :: rest, t => if t < t1 then deratedOn t0 a0 t1 a1 t else deratedFrom t1 a1 rest t

/-- Stage 4: the derating table at Tmax (R105). -/
def AlwCfg.derate (c : AlwCfg) (t : Int) : Nat :=
  if t ≤ c.temps[0] then c.levels[0]
  else deratedFrom c.temps[0] c.levels[0] ((c.temps.toList.zip c.levels.toList).tail) t

/-- Stage 4: Tmax, the largest of the usable temperatures (R105). -/
def hottest : List Int → Option Int
  | [] => none
  | t :: ts => some (ts.foldl max t)

/-- Stage 4: the thermal allowance (R105). -/
def AlwCfg.allowance (c : AlwCfg) : Option Int → Nat
  | none => c.blind
  | some t => c.derate t

/-- Stage 5: the allowance after cooling (R106). -/
def cooled (a cf : Nat) : Nat := a * cf / 16384

/-- Stage 6: the reactive current, support below the dead band in RIDE_THROUGH only (R107). -/
def AlwCfg.reactive (c : AlwCfg) (st : ConvState) (mf ith : Nat) : Nat :=
  let iq := if st = .rideThrough then c.gain * (c.deadBand - mf) / 256 else 0
  min iq (min c.iqMax ith)

/-- Stage 7: the active capacity (R108). -/
def activeCap (ith iq : Nat) : Nat := isqrt (ith * ith - iq * iq)

/-- Stage 8: the request clamped to 0 to ip_cap (R109). -/
def clampRequest (cap : Nat) (req : Int) : Nat := (limitTo 0 cap req).toNat

/-- Stage 8: the ramp step of a computation in POST_DIP; the one that entered it begins from the
ride-through limit (R109). -/
def AlwCfg.rampStep (c : AlwCfg) (entered : Bool) (ramp rideLimit : Nat) : Nat :=
  min ((if entered then rideLimit else ramp) + c.ramp) 32767

end Sys2Proof.Machine
end

