-- ==== Sys2Proof/Machine/Codes.lean ====
section
/-! DEFINITION. Codes.lean: the numbers of enumerated values, from 0 in the order the chapter lists them
(R190). The same numbers stand in object words and in event details [8]. -/

namespace Sys2Proof.Machine

def yesNo (b : Bool) : Nat := if b then 1 else 0

def Feed.code : Feed → Nat
  | .sampled => 0
  | .gridMagnitude => 1
  | .allowance => 2
  | .coolantFlow => 3
  | .coolingFactor => 4
  | .twist => 5
  | .yawErrorLong => 6

def feedOf : Nat → Option Feed
  | 0 => some .sampled
  | 1 => some .gridMagnitude
  | 2 => some .allowance
  | 3 => some .coolantFlow
  | 4 => some .coolingFactor
  | 5 => some .twist
  | 6 => some .yawErrorLong
  | _ => none

def MergeMode.code : MergeMode → Nat
  | .last => 0
  | .max => 1
  | .min => 2
  | .mean => 3
  | .primary => 4

def mergeOf : Nat → Option MergeMode
  | 0 => some .last
  | 1 => some .max
  | 2 => some .min
  | 3 => some .mean
  | 4 => some .primary
  | _ => none

def Quality.code : Quality → Nat
  | .good => 0
  | .degraded => 1
  | .lost => 2
  | .unused => 3

def SlotQuality.code : SlotQuality → Nat
  | .good => 0
  | .suspect => 1
  | .stale => 2
  | .absent => 3

def Reason.code : Reason → Nat
  | .none => 0
  | .node => 1
  | .range => 2
  | .jump => 3

def LimitKind.code : LimitKind → Nat
  | .above => 0
  | .below => 1
  | .outside => 2

def limitKindOf : Nat → Option LimitKind
  | 0 => some .above
  | 1 => some .below
  | 2 => some .outside
  | _ => none

def OnLoss.code : OnLoss → Nat
  | .hold => 0
  | .trip => 1
  | .release => 2

def onLossOf : Nat → Option OnLoss
  | 0 => some .hold
  | 1 => some .trip
  | 2 => some .release
  | _ => none

def LimitAction.code : LimitAction → Nat
  | .eventOnly => 0
  | .converterBlock => 1
  | .yawStop => 2
  | .coolingFull => 3
  | .startChannel => 4

def limitActionOf : Nat → Option LimitAction
  | 0 => some .eventOnly
  | 1 => some .converterBlock
  | 2 => some .yawStop
  | 3 => some .coolingFull
  | 4 => some .startChannel
  | _ => none

def RunMode.code : RunMode → Nat
  | .single => 0
  | .block => 1
  | .demand => 2

def runModeOf : Nat → Option RunMode
  | 0 => some .single
  | 1 => some .block
  | 2 => some .demand
  | _ => none

def Sense.code : Sense → Nat
  | .above => 0
  | .below => 1

def senseOf : Nat → Option Sense
  | 0 => some .above
  | 1 => some .below
  | _ => none

/-- NONE is a listed value of the owner field and takes the number 0 [11]. -/
def Owner.code : Owner → Nat
  | .none => 0
  | .yaw => 1
  | .conversion => 2
  | .cooling => 3
  | .allocator => 4

def ownerOf : Nat → Option Owner
  | 0 => some .none
  | 1 => some .yaw
  | 2 => some .conversion
  | 3 => some .cooling
  | 4 => some .allocator
  | _ => none

/-- Order of the state list of R40. -/
def ChanState.code : ChanState → Nat
  | .masked => 0
  | .idle => 1
  | .requested => 2
  | .running => 3
  | .waiting _ => 4
  | .suspended => 5

/-- Wait kind NONE, AWAIT, DWELL, CLAIM, QUEUE of R40. -/
def ChanState.waitCode : ChanState → Nat
  | .waiting .await => 1
  | .waiting .dwell => 2
  | .waiting .claim => 3
  | .waiting .queue => 4
  | _ => 0

def StepFault.code : StepFault → Nat
  | .awaitTimeout => 0
  | .claimTimeout => 1
  | .claimRefused => 2

def Party.code : Party → Nat
  | .management => 0
  | .owner => 1

/-- The free number of a requester in event 7 [8]. -/
def Requester.number : Requester → Int
  | .yaw => Config.requesterNumber 0 0
  | .conversion => Config.requesterNumber 1 0
  | .cooling => Config.requesterNumber 2 0
  | .limit i => Config.requesterNumber 3 i
  | .allocator => Config.requesterNumber 4 0
  | .link c => Config.requesterNumber 5 c
  | .management => Config.requesterNumber 6 0

def SupplyMode.code : SupplyMode → Nat
  | .grid => 0
  | .sag => 1
  | .backup => 2

/-- Channels 0 to 7, then CLC [11]. -/
def Claimant.code : Claimant → Nat
  | .chan c => c
  | .clc => 8

def ConvState.code : ConvState → Nat
  | .off => 0
  | .charging => 1
  | .standby => 2
  | .running => 3
  | .rideThrough => 4
  | .postDip => 5
  | .stopping => 6
  | .tripped => 7

def ConvAwait.code : ConvAwait → Nat
  | .none => 0
  | .precharge => 1
  | .run => 2
  | .stop => 3
  | .trip => 4

def TripCause.code : TripCause → Nat
  | .none => 0
  | .limit => 1
  | .curve => 2
  | .blind => 3
  | .channelFault => 4
  | .channelAborted => 5
  | .channelRefused => 6
  | .shed => 7

def YawState.code : YawState → Nat
  | .held => 0
  | .releasing => 1
  | .driving => 2
  | .stopping => 3
  | .fault => 4

def Purpose.code : Purpose → Nat
  | .none => 0
  | .track => 1
  | .unwind => 2

def Direction.code : Direction → Nat
  | .none => 0
  | .cw => 1
  | .ccw => 2

def YawAwait.code : YawAwait → Nat
  | .none => 0
  | .releaseCw => 1
  | .releaseCcw => 2
  | .stop => 3

def StopCause.code : StopCause → Nat
  | .none => 0
  | .trackDone => 1
  | .unwindDone => 2
  | .hardLimit => 3
  | .inhibit => 4
  | .windLost => 5
  | .shed => 6
  | .stall => 7
  | .headingLost => 8
  | .releaseFailed => 9
  | .noGrant => 10

def FaultCause.code : FaultCause → Nat
  | .none => 0
  | .stall => 1
  | .headingLost => 2
  | .releaseFailed => 3
  | .noGrant => 4
  | .releaseRefused => 5
  | .stopRefused => 6
  | .stopFailed => 7

/-- The inhibit set as one word, one bit per member in the order of R115, bit 0 first (R190). -/
def InhibitSet.code (i : InhibitSet) : Nat :=
  yesNo i.management + 2 * yesNo i.headingLost + 4 * yesNo i.roll + 8 * yesNo i.rest
    + 16 * yesNo i.shed + 32 * yesNo i.limit + 64 * yesNo i.config

def Duty.code : Duty → Nat
  | .a => 0
  | .b => 1
  | .changeover => 2
  | .noFlow => 3

def ChangeFrom.code : ChangeFrom → Nat
  | .none => 0
  | .a => 1
  | .b => 2

def Heater.code : Heater → Nat
  | .off => 0
  | .claiming => 1
  | .on => 2

/-- 0 OCCURRED, 1 RECOVERED, 2 RECURRED (12.1). -/
def EventKind.code : EventKind → Nat
  | .occurred => 0
  | .recovered => 1
  | .recurred => 2

def Port.code : Port → Nat
  | .inn => 0
  | .out => 1

def PortState.code : PortState → Nat
  | .down => 0
  | .listen => 1
  | .acknowledge => 2
  | .verify => 3
  | .up => 4
  | .silent => 5

/-- NONE, BASE, FAST (R167). -/
def rateCode : Option Rate → Nat
  | none => 0
  | some .base => 1
  | some .fast => 2

/-- NONE, BASE, FAST, both (R167). -/
def ratesCode : Option Rates → Nat
  | none => 0
  | some .base => 1
  | some .fast => 2
  | some .both => 3

/-- NONE, HEAD, INLINE, LEAF (R167). -/
def roleCode : Option Role → Nat
  | none => 0
  | some .head => 1
  | some .inline => 2
  | some .leaf => 3

def LossCause.code : LossCause → Nat
  | .lock => 0
  | .brk => 1

def Offer.code : Offer → Nat
  | .fastAndBase => 0
  | .baseOnly => 1
  | .fastOnly => 2

def offerOf : Nat → Option Offer
  | 0 => some .fastAndBase
  | 1 => some .baseOnly
  | 2 => some .fastOnly
  | _ => none

def CycleState.code : CycleState → Nat
  | .synchronised => 0
  | .freeRun _ => 1

def FreeCause.code : FreeCause → Nat
  | .start => 0
  | .loss => 1

def Status.code : Status → Nat
  | .ok => 0
  | .okClamped => 1
  | .noObject => 2
  | .readOnly => 3
  | .busy => 4
  | .state => 5
  | .range => 6
  | .duplicate => 7
  | .notInService => 8
  | .gone => 9
  | .stillActive => 10

def PartState.code : PartState → Nat
  | .boot => 0
  | .configuration => 1
  | .operating => 2

/-- POWER, PIN, SOFT as 0, 1, 2 (R151). -/
def ResetCause.code : ResetCause → Nat
  | .power => 0
  | .pin => 1
  | .soft => 2

end Sys2Proof.Machine
end

