-- ==== Sys2Proof/Machine/Events.lean ====
section
/-! DEFINITION. Events.lean: EVU's shared operations (chapter 9): a raise, the Fault Record Log, the
First-Out Store, the dispatch test and the build of a Notice. -/

namespace Sys2Proof.Machine

/-- The snapshot values of a code as the signals stand (R158). -/
def State.snapshot (s : State) (c : Code) : List Int :=
  s.settings.events[c].snapshot.map s.shown

/-- The codes in service. -/
def State.inService (s : State) : List Code := selectIx EventRt.inService s.evu.events

/-- The lowest group that has a code in service, 8 if none has. -/
def State.serviceFloor (s : State) : Nat :=
  s.inService.foldl (fun g c => min g s.settings.events[c].group) 8

/-- A pending code with notify yes of a group below every group in service is dispatchable: a code of
group g is blocked while any code of group g or of a lower-numbered group is in service (R156). -/
def State.dispatchable (s : State) (c : Code) : Bool :=
  s.evu.events[c].pending && s.settings.events[c].notify &&
    decide ((s.settings.events[c].group : Nat) < s.serviceFloor)

/-- The dispatchable code of the lowest-numbered group, and in it the lowest code (R157). -/
def State.chooseCode (s : State) : Option Code :=
  (selectIx EventRt.pending s.evu.events).foldl
    (fun best c =>
      if s.dispatchable c then
        match best with
        | none => some c
        | some b => if s.settings.events[c].group < s.settings.events[b].group then some c else best
      else best)
    none

/-- The Notice of a code enters class 2 at its tail; the code is no longer pending, and is in service if
its service mode is ACKNOWLEDGED (R158). -/
def State.buildNotice (s : State) (c : Code) : State :=
  let e := s.evu.events[c]
  let n : Notice :=
    { dest := s.settings.noticeDest, code := c, kind := e.kind, count := e.count, time := e.time,
      detail := e.detail, snapshot := s.snapshot c }
  (s.modRif fun r => { r with class2 := r.class2 ++ [n] }).modEvent c fun e =>
    if s.settings.events[c].acknowledged then
      { e with pending := false, inService := true, recurred := false }
    else { e with pending := false }

/-- The dispatch test with at most `n` Notices to build. -/
def dispatchUpTo : Nat → State → State
  | 0, s => s
  | n + 1, s =>
    if s.rif.class2.length < 4 ∧ s.rif.portOut.state = .up then
      match s.chooseCode with
      | none => s
      | some c => dispatchUpTo n (s.buildNotice c)
    else s

/-- The dispatch test (R157): class 2 holds at most 4 frames, so 4 builds end it. -/
def State.dispatchTest (s : State) : State := dispatchUpTo 4 s

/-- A Fault Record joins the log, the oldest of 64 leaving first (R162). -/
def State.logRecord (s : State) (c : Code) (k : EventKind) (detail : List Int) : State :=
  let r : FaultRecord :=
    { sequence := s.evu.nextSeq, time := s.rif.ringTime, code := c, kind := k,
      count := s.evu.events[c].count, conv := s.cnv.state, yaw := s.yaw.state, detail := detail,
      snapshot := s.snapshot c }
  s.modEvu fun e =>
    { e with
      nextSeq := e.nextSeq + 1
      log := (if e.log.length < 64 then e.log else e.log.tail) ++ [r] }

/-- A First-Out entry is added (R164). -/
def State.addFirstOut (s : State) (c : Code) (k : EventKind) (detail : List Int) : State :=
  s.modEvu fun e =>
    { e with
      firstOut := e.firstOut ++
        [{ code := c, time := s.rif.ringTime, kind := k, detail := detail,
           snapshot := s.snapshot c }] }

/-- The count, time and detail of an occurrence (R155, step 1). -/
def State.countOccurrence (s : State) (c : Code) (detail : List Int) : State :=
  s.modEvent c fun e =>
    { e with count := satSucc 255 e.count, time := s.rif.ringTime, detail := detail }

/-- Steps 4 to 6 of R155: recurred while in service, else pending with the raise's kind. -/
def State.markOccurrence (s : State) (c : Code) (k : EventKind) : State :=
  s.modEvent c fun e =>
    if e.inService then { e with recurred := true } else { e with pending := true, kind := k }

/-- A code with first-out yes, other than 31, finds the store full (R164). -/
def State.firstOutFull (s : State) (c : Code) : Bool :=
  s.settings.events[c].firstOut && c != 31 && decide (4 ≤ s.evu.firstOut.length)

/-- A code with first-out yes, other than 31, finds room in the store (R164). -/
def State.firstOutRoom (s : State) (c : Code) : Bool :=
  s.settings.events[c].firstOut && c != 31 && decide (s.evu.firstOut.length < 4)

/-- Steps 1 to 6 of an occurrence (R155). -/
def State.occur (s : State) (c : Code) (k : EventKind) (detail : List Int) : State :=
  let s := s.countOccurrence c detail
  let s := if s.settings.events[c].log then s.logRecord c k detail else s
  let s := if s.firstOutRoom c then s.addFirstOut c k detail else s
  s.markOccurrence c k

/-- An occurrence with its dispatch test, or nothing where the code is not enabled (R155). Code 31 offers no
First-Out entry, so that this is its whole raise (R164). -/
def State.occurTested (s : State) (c : Code) (k : EventKind) (detail : List Int) : State :=
  if s.settings.events[c].enabled then (s.occur c k detail).dispatchTest else s

/-- A raise of a code that is enabled; a raise of any other is ignored (R155). Event 31 is raised after the
occurrence that found the First-Out Store full, its dispatch test taken (R164) [9]. -/
def State.raiseKind (s : State) (c : Code) (k : EventKind) (detail : List Int) : State :=
  let t := s.occurTested c k detail
  if s.settings.events[c].enabled && s.firstOutFull c then t.occurTested 31 .occurred [(c : Int)] else t

/-- A raise of kind OCCURRED (R151). -/
def State.raise (s : State) (c : Code) (detail : List Int) : State :=
  s.raiseKind c .occurred detail

end Sys2Proof.Machine
end

