-- ==== Sys2Proof/Machine/Frames.lean ====
section
/-! DEFINITION. Frames.lean: the ring frames of 12.1 as octets, high octet first, and the ring check. -/

namespace Sys2Proof.Machine

/-- Two octets as a word, high octet first. -/
def wordOfOctets (h l : Octet) : Word := h ++ l

/-- One bit of the ring check: polynomial x^16 + x^12 + x^5 + 1, most significant bit first. -/
def checkBit (c : Word) : Word :=
  if c.msb then c.shiftLeft 1 ^^^ 0x1021 else c.shiftLeft 1

def checkBits : Nat → Word → Word
  | 0, c => c
  | n + 1, c => checkBits n (checkBit c)

/-- The ring check over octets, initial value all ones (12.1). -/
def ringCheck (os : List Octet) : Word :=
  os.foldl (fun c o => checkBits 8 (c ^^^ wordOfOctets o 0)) 0xFFFF

/-- A word as two octets, high octet first. -/
def octetsOfWord (w : Word) : List Octet := [w.extractLsb' 8 8, w.extractLsb' 0 8]

/-- A 32-bit field as four octets, high octet first. -/
def octetsOf32 (x : BitVec 32) : List Octet :=
  octetsOfWord (x.extractLsb' 16 16) ++ octetsOfWord (x.extractLsb' 0 16)

/-- A whole frame: header, payload, ring check (12.1). -/
def frameOctets (dest src : Node) (cls : Octet) (payload : List Octet) : List Octet :=
  let body := dest.setWidth 8 :: src.setWidth 8 :: cls :: BitVec.ofNat 8 payload.length :: payload
  body ++ octetsOfWord (ringCheck body)

/-- A command item: octet 0 bits 0 to 3 the output, then the value (12.1). -/
def itemOctets (i : CmdItem) : List Octet :=
  BitVec.ofNat 8 i.output :: octetsOfWord (BitVec.ofInt 16 i.value)

def commandPayload (items : List CmdItem) : List Octet :=
  BitVec.ofNat 8 items.length :: items.flatMap itemOctets

/-- The items of a class-0 frame: a Block Command is output 15 with value 1; a Reference Frame is
output 0 = iq_ref, output 1 = ip_limit (R110, 12.1). -/
def Class0.items : Class0 → List CmdItem
  | .block _ => [⟨15, 1⟩]
  | .ref _ iq ip => [⟨0, iq⟩, ⟨1, ip⟩]

def Class0.dest : Class0 → Node
  | .block d => d
  | .ref d _ _ => d

def Notice.payload (n : Notice) : List Octet :=
  [BitVec.ofNat 8 n.code, BitVec.ofNat 8 n.kind.code, BitVec.ofNat 8 n.count,
   BitVec.ofNat 8 (n.detail.length + 16 * n.snapshot.length)]
    ++ octetsOf32 n.time
    ++ n.detail.flatMap (fun x => octetsOf32 (BitVec.ofInt 32 x))
    ++ n.snapshot.flatMap (fun x => octetsOfWord (BitVec.ofInt 16 x))

def MgtAnswer.payload (a : MgtAnswer) : List Octet :=
  [a.kind, BitVec.ofNat 8 a.status.code] ++ octetsOfWord a.addr
    ++ [BitVec.ofNat 8 a.data.length] ++ a.data.flatMap octetsOfWord

/-- The octets of each class's frames as inserted, from the part's own address (section 10.3). -/
def Class0.octets (own : Node) (f : Class0) : List Octet :=
  frameOctets f.dest own 2 (commandPayload f.items)

def CmdFrame.octets (own : Node) (f : CmdFrame) : List Octet :=
  frameOctets f.dest own 2 (commandPayload f.items)

def Notice.octets (own : Node) (n : Notice) : List Octet := frameOctets n.dest own 5 n.payload

def MgtAnswer.octets (own : Node) (a : MgtAnswer) : List Octet := frameOctets a.dest own 4 a.payload

/-! ### Received frames -/

/-- Octet `i` of a frame, 0 where the frame is shorter. -/
def octetAt (os : List Octet) (i : Nat) : Octet := os.getD i 0

def frameDest (os : List Octet) : Node := (octetAt os 0).extractLsb' 0 6

def frameSource (os : List Octet) : Node := (octetAt os 1).extractLsb' 0 6

def frameClass (os : List Octet) : Nat := (octetAt os 2).toNat

/-- The length field agrees with the octets received. -/
def lengthAgrees (os : List Octet) : Bool := os.length == (octetAt os 3).toNat + 6

/-- The ring check of the last two octets passes. -/
def checkPasses (os : List Octet) : Bool :=
  decide (6 ≤ os.length) &&
    (ringCheck (os.take (os.length - 2)) ==
      wordOfOctets (octetAt os (os.length - 2)) (octetAt os (os.length - 1)))

def framePayload (os : List Octet) : List Octet := (os.drop 4).take (os.length - 6)

/-- The items of a Sample Frame payload, three octets each; bits 6 and 7 of octet 0 are ignored and
node quality 3 is FAILED (12.1, R190). Octets that make no whole item give no item. -/
def sampleItems : List Octet → List SampleItem
  | a :: b :: c :: rest =>
    { channel := ⟨(a.extractLsb' 0 4).toNat, (a.extractLsb' 0 4).isLt⟩
      quality :=
        match (a.extractLsb' 4 2).toNat with
        | 0 => .good
        | 1 => .suspect
        | _ => .failed
      raw := wordOfOctets b c } :: sampleItems rest
  | _ => []

/-- A Management Request as decoded from its payload (12.1). -/
structure Request where
  src : Node
  kind : Octet
  qual : Word
  addr : Word
  len : Octet
  data : List Word
  deriving DecidableEq, Repr

/-- Octets two by two as words; an odd last octet makes no word. -/
def wordsOfOctets : List Octet → List Word
  | a :: b :: rest => wordOfOctets a b :: wordsOfOctets rest
  | _ => []

/-- The request a payload carries; none for a payload shorter than the six fixed octets. What 12.1 gives no meaning in
a kind (data words, a word count, a qualifier other than 0) is read here and used by no handler [10]. -/
def requestOf (src : Node) : List Octet → Option Request
  | k :: q1 :: q0 :: a1 :: a0 :: w :: rest =>
    some { src := src, kind := k, qual := wordOfOctets q1 q0, addr := wordOfOctets a1 a0, len := w,
           data := wordsOfOctets rest }
  | _ => none

end Sys2Proof.Machine
end

