-- ==== Sys2Proof/Machine/Queue.lean ====
section
/-! DEFINITION. Queue.lean: placing frames in the Insertion Queue (section 10.3). Notices enter class 2
in `buildNotice`; class 3 is filled by MGT. -/

namespace Sys2Proof.Machine

/-- Class 1 has room: it holds fewer than 6 frames (R60, R175). -/
def State.class1Room (s : State) : Bool := decide (s.rif.class1.length < 6)

/-- A Command Frame enters class 1 at its tail. -/
def State.pushClass1 (s : State) (f : CmdFrame) : State :=
  s.modRif fun r => { r with class1 := r.class1 ++ [f] }

def Class0.isRef : Class0 → Bool
  | .ref _ _ _ => true
  | .block _ => false

/-- A Reference Frame placed: it replaces the one queued last, in its place, when no Block Command
stands behind that one; otherwise it enters at the tail (R176). -/
def placeRefIn (f : Class0) : List Class0 → List Class0
  | [] => [f]
  | [g] => if g.isRef then [f] else [g, f]
  | g :: h :: rest => g :: placeRefIn f (h :: rest)

/-- The list without its oldest Reference Frame. -/
def dropOldestRef : List Class0 → List Class0
  | [] => []
  | g :: rest => if g.isRef then rest else g :: dropOldestRef rest

/-- The last Reference Frame of the list, as a list of at most one. -/
def newestRef (q : List Class0) : List Class0 := (q.filter Class0.isRef).getLast?.toList

/-- The frames behind the first Block Command. -/
def behindBlock : List Class0 → List Class0
  | [] => []
  | .block _ :: rest => rest
  | .ref _ _ _ :: rest => behindBlock rest

/-- A Block Command placed: at the tail if none is queued, the oldest Reference Frame leaving a class
of 4; merged with a queued one otherwise, which moves behind the newest Reference Frame if one stands
behind it and keeps its place if none does (R176). The merged frame keeps the destination it was queued
with [37]. -/
def placeBlockIn (d : Node) (q : List Class0) : List Class0 :=
  match q.find? (fun g => !g.isRef) with
  | none => (if q.length < 4 then q else dropOldestRef q) ++ [.block d]
  | some b =>
    if (behindBlock q).any Class0.isRef then newestRef q ++ [b] else q

/-- ALW places a Reference Frame for the converter group (R110). -/
def State.placeRef (s : State) (iq ip : Nat) : State :=
  s.modRif fun r => { r with class0 := placeRefIn (.ref s.settings.conv.group iq ip) r.class0 }

/-- CNV places a Block Command for the converter group (R80). -/
def State.placeBlock (s : State) : State :=
  s.modRif fun r => { r with class0 := placeBlockIn s.settings.conv.group r.class0 }

/-- MGT places an answer in class 3 (R180). -/
def State.pushAnswer (s : State) (a : MgtAnswer) : State :=
  s.modRif fun r => { r with class3 := r.class3 ++ [a] }

end Sys2Proof.Machine
end

