-- ==== Sys2Proof/Machine/Channels.lean ====
section
/-! DEFINITION. Channels.lean: SEQ's operations that other blocks call, but for the abort: requests
(R43), what management and the entry to OPERATING do with a MASKED channel (R44, R45), the end of a run at
its terminal count (R56), and the completion of a wait (R47, R53). -/

namespace Sys2Proof.Machine

/-- A request would be refused: the channel is MASKED (R43). -/
def State.isMasked (s : State) (c : ChanIx) : Bool := (s.chan c).state == .masked

/-- The outcome flags clear and the channel becomes REQUESTED. -/
def ChanRt.request (r : ChanRt) : ChanRt :=
  { r with state := .requested, terminal := false, fault := false, aborted := false }

/-- A request to a channel (R43): an IDLE channel becomes REQUESTED, an active one merges it, a MASKED
one refuses it with event 7. The refusal is `isMasked` before the request. -/
def State.request (s : State) (c : ChanIx) (who : Requester) : State :=
  match (s.chan c).state with
  | .idle => s.modChan c ChanRt.request
  | .masked => s.raise 7 [(c : Int), who.number]
  | .requested => s
  | .running => s
  | .waiting _ => s
  | .suspended => s

/-- Current step and remaining count load from the descriptor, the flags clear (R44). The wait timer keeps
its last count [39]. -/
def ChanRt.load (r : ChanRt) (d : ChanCfg) (st : ChanState) : ChanRt :=
  { r with
    state := st, current := d.base, remaining := d.count, terminal := false, fault := false,
    aborted := false }

/-- UNMASK of a MASKED channel with a valid descriptor (R44). -/
def State.unmaskChan (s : State) (c : ChanIx) : State :=
  if s.isMasked c && (s.desc c).valid then s.modChan c fun r => r.load (s.desc c) .idle else s

/-- Entry to OPERATING: every MASKED channel whose descriptor is valid becomes IDLE (R45). -/
def State.unmaskAll (s : State) : State := (indices 8).foldl State.unmaskChan s

/-! ### Ends of a run and of a wait (3.6, 3.8) -/

/-- The engine is released if this channel holds it. -/
def State.releaseEngine (s : State) (c : ChanIx) : State :=
  s.modSeq fun q => { q with holder := if q.holder = some c then none else q.holder }

/-- The owner, if not NONE, is told of the end of a run (R59). -/
def State.notifyOwner (s : State) (c : ChanIx) (e : RunEnd) : State :=
  let o := (s.desc c).owner
  if o = .none then s else s.hand (.outcome o c e)

/-- The channel's record at its terminal count (R56, points 1 and 2). -/
def ChanRt.endRun (r : ChanRt) (d : ChanCfg) : ChanRt :=
  if d.reload then
    { r with terminal := true, state := .idle, current := d.base, remaining := d.count }
  else { r with terminal := true, state := .masked }

/-- The channel of a LINK step is requested (R55, R56). -/
def State.requestStepLink (s : State) (c : ChanIx) : Step → State
  | .link t => s.request t (.link c)
  | .emit _ _ _ => s
  | .await _ _ _ _ => s
  | .dwell _ => s
  | .claim _ _ _ => s
  | .free _ => s

/-- The descriptor's link channel is requested (R56). -/
def State.requestLink (s : State) (c : ChanIx) : State :=
  match (s.desc c).link with
  | none => s
  | some t => s.request t (.link c)

/-- The end at the terminal count, once the frame is queued (R56). A run has ended on a LINK step when
its current step is one, since a LINK step is always the last of its run (R55). -/
def State.finishRun (s : State) (c : ChanIx) : State :=
  ((((s.modChan c fun r => r.endRun (s.desc c)).releaseEngine c).requestStepLink c
    (s.stepAt c)).requestLink c).notifyOwner c .terminal

/-- The remaining count decreases; the current step advances while it is still above 0 (R47). -/
def ChanRt.completeStep (r : ChanRt) : ChanRt :=
  { r with
    remaining := r.remaining - 1
    current := if 1 < r.remaining then r.current + 1 else r.current }

/-- A wait completes (R47, R48): the channel becomes REQUESTED, or its run ends when the completed step
leaves the remaining count at 0 (R56) [7]. The wait timer keeps its last count [39]. -/
def State.completeWait (s : State) (c : ChanIx) : State :=
  let s := s.modChan c ChanRt.completeStep
  if (s.chan c).remaining = 0 then s.finishRun c
  else s.modChan c fun r => { r with state := .requested }

/-- ALA tells a channel that its claim is granted: the CLAIM step completes (R53). -/
def State.chanGranted (s : State) (c : ChanIx) : State :=
  if (s.chan c).state = .waiting .claim then s.completeWait c else s

end Sys2Proof.Machine
end

