-- ==== Sys2Proof/Machine/Signals.lean ====
section
/-! DEFINITION. Signals.lean: SIN and SIG (chapter 1): the intake of Sample Frame items, the merge, the
quality, the loss and recovery events, derived writes and staleness. Signal updates are handed to the
readers (R19). -/

namespace Sys2Proof.Machine

/-! ### Merge and quality (R13, R14) -/

/-- The contributors of quality GOOD, lowest slot first. -/
def SignalRt.good (r : SignalRt) : List Contributor :=
  r.slots.toList.filter fun k => k.quality == .good

/-- The GOOD contributor with the smallest age, on equal ages the lowest slot. -/
def youngest : List Contributor → Option Contributor
  | [] => none
  | k :: ks =>
    match youngest ks with
    | none => some k
    | some j => if k.age ≤ j.age then some k else some j

/-- The value of LAST: the last-accepted slot if it is GOOD, else the youngest GOOD contributor. -/
def SignalRt.lastMerged (r : SignalRt) : Option Int :=
  let other := (youngest r.good).map Contributor.value
  match r.lastSlot with
  | none => other
  | some k => if r.slots[k].quality = .good then some r.slots[k].value else other

/-- The merged value over the GOOD contributors (R13); none when there is none. -/
def SignalRt.merged (r : SignalRt) (m : MergeMode) : Option Int :=
  match r.good with
  | [] => none
  | k :: ks =>
    match m with
    | .last => r.lastMerged
    | .max => some (ks.foldl (fun v j => max v j.value) k.value)
    | .min => some (ks.foldl (fun v j => min v j.value) k.value)
    | .mean => some ((k.value + (ks.map Contributor.value).sum) / (ks.length + 1 : Int))
    | .primary => some k.value

/-- The configured slots of a signal (R1). -/
def configuredSlots (st : Settings) (i : SigIx) : List SlotIx :=
  (indices 3).filter (slotConfigured st i)

/-- Quality after an evaluation: of a SAMPLED signal from its configured contributors, of a DERIVED one
from slot 0 (R14, R18). -/
def State.newQuality (s : State) (i : SigIx) : Quality :=
  let r := s.signals[i]
  let good := fun (k : SlotIx) => r.slots[k].quality == .good
  if s.settings.signals[i].feed = .sampled then
    match configuredSlots s.settings i with
    | [] => .unused
    | ks => if ks.all good then .good else if ks.any good then .degraded else .lost
  else if good 0 then .good
  else .lost

/-- Value after an evaluation: merged, held when no contributor is GOOD, 0 when UNUSED (R13, R14). A
DERIVED signal keeps what its owner wrote. -/
def State.newValue (s : State) (i : SigIx) : Int :=
  let r := s.signals[i]
  if s.settings.signals[i].feed = .sampled then
    if s.newQuality i = .unused then 0
    else (r.merged s.settings.signals[i].merge).getD r.value
  else r.value

/-! ### Loss and recovery (R16) -/

/-- The loss event: the signal's code, or event 29 if that is 0. -/
def State.raiseLoss (s : State) (i : SigIx) : State :=
  let c := s.settings.signals[i].lossCode
  s.raise (if c = 0 then 29 else c) [(i : Int)]

/-- The recovery event: the signal's code with kind RECOVERED, or event 30 if it is 0. -/
def State.raiseRecovery (s : State) (i : SigIx) : State :=
  let c := s.settings.signals[i].lossCode
  if c = 0 then s.raise 30 [(i : Int)] else s.raiseKind c .recovered [(i : Int)]

/-- The events of a move of quality from `old` to `new`. -/
def State.lossEvents (s : State) (i : SigIx) (old new : Quality) : State :=
  if old.usable = true ∧ new = .lost then
    (s.modSignal i fun r => { r with lossRaised := true }).raiseLoss i
  else if old = .lost ∧ new.usable = true ∧ s.signals[i].lossRaised = true then
    (s.modSignal i fun r => { r with lossRaised := false }).raiseRecovery i
  else s

/-- The update that tells the readers of the signal as it now stands (R19). -/
def State.notify (s : State) (i : SigIx) (cause : Cause) : State :=
  s.hand (.update i s.signals[i].value s.signals[i].quality cause)

/-- The evaluated value and quality are set. -/
def State.setMerged (s : State) (i : SigIx) : State :=
  let v := s.newValue i
  let q := s.newQuality i
  s.modSignal i fun r => { r with value := v, quality := q }

/-- Value or quality of the signal differ between two states. -/
def signalMoved (s t : State) (i : SigIx) : Bool :=
  t.signals[i].value != s.signals[i].value || t.signals[i].quality != s.signals[i].quality

/-- An evaluation in the data path (R13 to R16): an accepted value always tells the readers, any other
change only when value or quality moved (R10, R19). -/
def State.evaluate (s : State) (i : SigIx) (cause : Cause) : State :=
  let t := s.setMerged i
  let t := if cause = .sample ∨ signalMoved s t i then t.notify i cause else t
  t.lossEvents i s.signals[i].quality t.signals[i].quality

/-- A change of quality that a management write causes clears loss-raised (R3). -/
def State.clearLoss (s : State) (i : SigIx) (old : Quality) : State :=
  if s.signals[i].quality = old then s else s.modSignal i fun r => { r with lossRaised := false }

/-- An evaluation caused by a management write (R3): it raises no event. -/
def State.evaluateWrite (s : State) (i : SigIx) : State :=
  let t := (s.setMerged i).clearLoss i s.signals[i].quality
  if signalMoved s t i then t.notify i .change else t

/-! ### Items of a Sample Frame (R5 to R10) -/

/-- The valid Sample Map entry of a key. -/
def State.mapEntry (s : State) (src : Node) (ch : Fin 16) : Option MapIx :=
  (indices 128).find? fun e =>
    let m := s.settings.sampleMap[e]
    m.valid && m.source == src && m.channel == ch

/-- The contributor is marked with a reason; a live one becomes SUSPECT, an ABSENT or STALE one stays
so (R6, R8). -/
def Contributor.mark (k : Contributor) (why : Reason) : Contributor :=
  { k with
    quality := if k.quality = .good then .suspect else k.quality
    reason := why }

/-- Engineering value: floor(raw × gain / 4096) + offset, saturated (R7). -/
def engineering (e : SampleEntry) (raw : Word) : Int :=
  sat16 (raw.toInt * e.gain / 4096 + e.offset)

/-- The rate check rejects the value (R9). -/
def jumpRejects (e : SampleEntry) (k : Contributor) (v : Int) : Bool :=
  e.rate != 0 && (k.quality == .good || k.quality == .suspect) && k.jumps != 3 &&
    decide (e.rate < (v - k.reference).natAbs)

/-- The contributor after an accepted value (R10). -/
def Contributor.accept (k : Contributor) (v : Int) (nq : NodeQuality) : Contributor :=
  { k with
    value := v, reference := v, age := 0, jumps := 0
    quality := if nq = .good then .good else .suspect
    reason := if nq = .good then .none else .node }

/-- A used item (R6 to R10). -/
def State.useItem (s : State) (e : SampleEntry) (it : SampleItem) : State :=
  let i := e.target
  let k := s.signals[i].slots[e.slot]
  let v := engineering e it.raw
  if it.quality = .failed then
    (s.modSlot i e.slot fun k => k.mark .node).evaluate i .change
  else if v < e.low ∨ e.high < v then
    (s.modSlot i e.slot fun k => k.mark .range).evaluate i .change
  else if jumpRejects e k v then
    (s.modSlot i e.slot fun k => { k.mark .jump with jumps := k.jumps + 1 }).evaluate i .change
  else
    let s := s.modSlot i e.slot fun k => k.accept v it.quality
    let s :=
      if it.quality = .good then s.modSignal i fun r => { r with lastSlot := some e.slot } else s
    s.evaluate i .sample

/-- An item: key match, then decimation (R5). -/
def State.takeItem (s : State) (src : Node) (it : SampleItem) : State :=
  match s.mapEntry src it.channel with
  | none => s
  | some e =>
    let m := s.settings.sampleMap[e]
    let p := s.phases[e]
    let s := { s with phases := s.phases.set e (if p + 1 < m.decimation then p + 1 else 0) }
    if p = 0 then s.useItem m it else s

/-- The memory of a node 1 to 55 (R4). -/
def nodeIx (src : Node) : Option (Fin 55) :=
  if h : 1 ≤ src.toNat ∧ src.toNat ≤ 55 then some ⟨src.toNat - 1, by omega⟩ else none

/-- The frame is taken and its sequence becomes the node's memory, or it is discarded (R4). The item
count must be 1 to 8 and agree with the items. -/
def State.acceptFrame (s : State) (src : Node) (sequence count : Octet) (n : Nat) : Option State :=
  match nodeIx src with
  | none => none
  | some k =>
    if count.toNat < 1 ∨ 8 < count.toNat ∨ count.toNat ≠ n ∨ s.sequences[k] = some sequence then none
    else some { s with sequences := s.sequences.set k (some sequence) }

/-! ### Derived signals (R17, R18) -/

/-- The signal that carries an (owner, quantity) pair. -/
def State.derivedSignal (s : State) (f : Feed) : Option SigIx :=
  (selectIx (fun c : SignalCfg => c.feed == f) s.settings.signals).head?

/-- The record after its owner's write (R18). -/
def SignalRt.written (r : SignalRt) (v : Int) : SignalRt :=
  { r with
    value := v, quality := .good
    slots := updAt r.slots 0 fun k => { k with quality := .good, age := 0 } }

/-- A quantity is published, if a signal carries its pair (R17, R18). The write ends LOST with the recovery
event where loss-raised is yes, an owner write made inside a management write among them [35]. -/
def State.publish (s : State) (f : Feed) (v : Int) : State :=
  match s.derivedSignal f with
  | none => s
  | some i =>
    let old := s.signals[i].quality
    ((s.modSignal i fun r => r.written v).notify i .derived).lossEvents i old .good

/-! ### Age (R15) -/

/-- A cycle event ages a contributor that holds a value. -/
def Contributor.older (k : Contributor) : Contributor :=
  if k.quality = .absent then k else { k with age := satSucc 65535 k.age }

/-- A cycle event ages the contributors of a signal, and its stored stale limit comes into force (R12). -/
def SignalRt.older (r : SignalRt) (c : SignalCfg) : SignalRt :=
  { r with limit := c.staleLimit, slots := r.slots.map Contributor.older }

/-- A cycle event ages every contributor. -/
def State.ageSignals (s : State) : State :=
  { s with signals := tabulate 96 fun i => s.signals[i].older s.settings.signals[i] }

/-- The contributor's age is above the stale limit in force while it is still GOOD or SUSPECT. -/
def SignalRt.staleDue (r : SignalRt) (k : SlotIx) : Bool :=
  let c := r.slots[k]
  (c.quality == .good || c.quality == .suspect) && decide (r.limit < c.age)

/-- The contributor is beyond the stale limit in force and still GOOD or SUSPECT: it becomes STALE (R15). -/
def State.staleDue (s : State) (i : SigIx) (k : SlotIx) : Bool := s.signals[i].staleDue k

/-- The contributor becomes STALE and its signal is evaluated (R15, R18). -/
def State.staleContributor (s : State) (i : SigIx) (k : SlotIx) : State :=
  if s.staleDue i k then
    (s.modSlot i k fun c => { c with quality := .stale }).evaluate i .change
  else s

end Sys2Proof.Machine
end

