-- ==== Sys2Proof/Machine/Grants.lean ====
section
/-! DEFINITION. Grants.lean: what a grant does at its requester, in the event that makes it (R69): a channel
completes its CLAIM step (R53), CLC goes up a stage, switches the heaters on or commands its pump (R139, R147,
R148). With it CLC's cooling factor, its commands and a stage change (R141, R146). -/

namespace Sys2Proof.Machine

def State.stage (s : State) (k : StageIx) : Stage := s.settings.stages[k]

/-- The pump that carries the flow: its tag and output in A_DUTY and B_DUTY, none otherwise. -/
def State.dutyPump (s : State) : Option (TagIx × OutIx) :=
  let p := s.settings.clc
  match s.clc.duty with
  | .a => some (p.pumpATag, p.pumpAOutput)
  | .b => some (p.pumpBTag, p.pumpBOutput)
  | .changeover => none
  | .noFlow => none

/-! ### Cooling factor (R146) -/

def State.health (s : State) : Nat :=
  match s.clc.duty with
  | .a => 16384
  | .b => 16384
  | .changeover => 8192
  | .noFlow => s.settings.clc.noFlowFactor

/-- cf is formed anew and published (R146). -/
def State.formCf (s : State) : State :=
  let cf := (s.stage s.clc.actual).capacity * s.health / 16384
  (s.modClc fun c => { c with cf := cf }).publish .coolingFactor cf

/-! ### Commands (R141) -/

/-- The stage command of the actual stage (R141). -/
def State.stageFrame (s : State) : CmdFrame :=
  let p := s.settings.clc
  let st := s.stage s.clc.actual
  let fan : CmdItem := { output := p.fanOutput, value := st.fan }
  match s.dutyPump with
  | none => { dest := p.node, items := [fan] }
  | some (t, o) =>
    { dest := p.node, items := [fan, { output := o, value := if (s.tag t).grant = 0 then 0 else st.pump }] }

/-- A stage command is sent, in OPERATING: it enters class 1, or becomes the held stage frame (R141). -/
def State.stageCommand (s : State) : State :=
  if s.operating then
    if s.class1Room then s.pushClass1 s.stageFrame
    else s.modClc fun c => { c with heldStage := some s.stageFrame }
  else s

/-- The heater command: 1 for on, 0 for off (R141). -/
def State.heaterFrame (s : State) (on : Bool) : CmdFrame :=
  { dest := s.settings.clc.heaterNode
    items := [{ output := s.settings.clc.heaterOutput, value := if on then 1 else 0 }] }

/-- A heater command is sent, in OPERATING (R141). -/
def State.heaterCommand (s : State) (on : Bool) : State :=
  if s.operating then
    if s.class1Room then s.pushClass1 (s.heaterFrame on)
    else s.modClc fun c => { c with heldHeater := some (s.heaterFrame on) }
  else s

/-! ### Stage change (R141) -/

/-- A stage change (R141). -/
def State.changeStage (s : State) (k : StageIx) : State :=
  ((s.modClc fun c =>
    { c with actual := k, dwell := 0, dwellDue := false, heldReported := false }).formCf).stageCommand

/-! ### Grants told (R69) -/

/-- A grant that is not the stage claim's (R147, R148). -/
def State.otherGranted (s : State) (t : TagIx) : State :=
  if s.clc.heater = .claiming ∧ s.settings.clc.heaterTag = some t then
    (s.modClc fun c => { c with heater := .on }).heaterCommand true
  else if s.clc.pumpClaim = true ∧ (s.dutyPump.map Prod.fst) = some t then
    (s.modClc fun c => { c with pumpClaim := false }).stageCommand
  else s

/-- ALA tells CLC that a claim of its is granted (R139): a stage claim changes the stage at once, and CLC takes
its stage tests after it. -/
def State.clcGranted (s : State) (t : TagIx) : State :=
  match s.clc.stageClaim with
  | some k =>
    if s.settings.clc.fanTag = some t then
      ((s.modClc fun c => { c with stageClaim := none }).changeStage k).hand .stageTest
    else s.otherGranted t
  | none => s.otherGranted t

/-- The requester of a claim is told that it is granted (R69). -/
def State.takeGrant (s : State) (who : Claimant) (t : TagIx) : State :=
  match who with
  | .chan c => s.chanGranted c
  | .clc => s.clcGranted t

end Sys2Proof.Machine
end

