-- ==== Sys2Proof/Machine/Allocator.lean ====
section
/-! DEFINITION. Allocator.lean: ALA's operations (chapter 4): claims, the Claim Queue and its head,
release and withdrawal, and the choice of the tag a shed pass takes next. -/

namespace Sys2Proof.Machine

/-- The capacity of a supply mode (R64). -/
def Settings.capacity (st : Settings) : SupplyMode → Nat
  | .grid => st.gridCap
  | .sag => st.sagCap
  | .backup => st.backupCap

/-- The capacity of the current mode (R64). -/
def State.budget (s : State) : Nat := s.settings.capacity s.ala.mode

/-- The sum of all grants. -/
def AlaRt.sum (a : AlaRt) : Nat := (a.tags.toList.map TagRt.grant).sum

/-- The number of granted tags, which is the highest rank in use (R65). -/
def AlaRt.ranked (a : AlaRt) : Nat := (a.tags.toList.filter fun r => r.rank.isSome).length

/-- The tag gives up its rank and the tags ranked above it move down by one (R65). -/
def AlaRt.dropRank (a : AlaRt) (t : TagIx) : AlaRt :=
  match a.tags[t].rank with
  | none => a
  | some k =>
    { a with
      tags := updAt (a.tags.map fun r => { r with rank := r.rank.map fun j => if k < j then j - 1 else j })
        t fun r => { r with rank := none } }

/-- The tag's grant becomes 0: it gives up its rank, and a queued increase of it waits on as a plain
claim (R65, R68). Its grant time stays as it was: R65 gives the time of a current grant alone [41]. -/
def AlaRt.clearGrant (a : AlaRt) (t : TagIx) : AlaRt :=
  let a := a.dropRank t
  { a with
    tags := updAt a.tags t fun r => { r with grant := 0 }
    queue := a.queue.map fun q => if q.tag = t then { q with increase := false } else q }

/-- The tag is granted an amount, or its grant is increased to it: the grant time is the ring time and
the tag takes the rank after the highest in use (R65, R69). R65 does not say what becomes of the old rank of an
increased tag: the model lets it give that rank up first, and the tags ranked above it move down by one [57]. -/
def AlaRt.giveGrant (a : AlaRt) (t : TagIx) (amount : Nat) (now : RingTime) : AlaRt :=
  let a := a.dropRank t
  let k := a.ranked + 1
  { a with tags := updAt a.tags t fun r => { r with grant := amount, time := now, rank := some k } }

/-- The tag has an entry in the Claim Queue. -/
def AlaRt.queued (a : AlaRt) (t : TagIx) : Bool := a.queue.any fun q => q.tag == t

/-- A new entry joins the queue behind every entry of its own and of lower class numbers (R68). -/
def State.enqueue (s : State) (q : Claim) : State :=
  let cls := fun (t : TagIx) => s.settings.tags[t].cls
  s.modAla fun a =>
    { a with
      queue := (a.queue.takeWhile fun e => cls e.tag ≤ cls q.tag) ++ q ::
        (a.queue.dropWhile fun e => cls e.tag ≤ cls q.tag) }

/-- The head fits: the sum of all grants, less the tag's own if the entry is an increase, plus the amount
is not greater than the budget (R69). -/
def State.fits (s : State) (q : Claim) : Bool :=
  let own := if q.increase then (s.tag q.tag).grant else 0
  decide (s.ala.sum - own + q.amount ≤ s.budget)

/-- The head is granted (R69): it leaves the queue, and its requester is told and acts in the same event,
unless it is the claim whose own arrival made the test. -/
def State.grantHead (s : State) (q : Claim) (own : Option TagIx) : State :=
  let s := s.modAla fun a =>
    { a.giveGrant q.tag q.amount s.rif.ringTime with queue := a.queue.tail }
  if own = some q.tag then s else s.takeGrant q.who q.tag

/-- The head test, granting at most `n` heads (R69). -/
def headTestUpTo (own : Option TagIx) : Nat → State → State
  | 0, s => s
  | n + 1, s =>
    match s.ala.queue with
    | [] => s
    | q :: _ =>
      if s.fits q && !(s.tag q.tag).shedding then headTestUpTo own n (s.grantHead q own) else s

/-- ALA tests the head and repeats the test on each new head (R69). -/
def State.headTest (s : State) (own : Option TagIx := none) : State :=
  headTestUpTo own s.ala.queue.length s

/-- FREE of a tag (R70): a grant is released, the owner is told, and the head is tested. -/
def State.freeTag (s : State) (t : TagIx) : State :=
  if (s.tag t).grant = 0 then s
  else
    let s := s.modAla fun a => a.clearGrant t
    let o := s.settings.tags[t].owner
    let s := if o = .none then s else s.hand (.released o t)
    s.headTest

/-- WITHDRAW by a requester (R70). -/
def State.withdraw (s : State) (who : Claimant) (t : TagIx) : State :=
  if s.ala.queue.any fun q => q.tag == t && q.who == who then
    (s.modAla fun a =>
      { a with queue := a.queue.filter fun q => !(q.tag == t && q.who == who) }).headTest
  else s

/-- WITHDRAW of every claim of a requester in one event. R70 tests the head after each WITHDRAW, and R148 withdraws
CLC's claims at DECOMMISSION in one event and gives no order: DESIGN CHOICE, all entries leave first and the head is
tested once behind them, so that no test in between grants a claim that is about to be withdrawn [59]. -/
def State.withdrawAll (s : State) (who : Claimant) : State :=
  if s.ala.queue.any fun q => q.who == who then
    (s.modAla fun a => { a with queue := a.queue.filter fun q => !(q.who == who) }).headTest
  else s

/-- The entry of a claim joins the queue and the head is tested (R67). A claim that this test grants is answered
GRANTED (R69), an increase that joins a queue of others at its head among them [47]. -/
def State.joinQueue (s : State) (t : TagIx) (amount : Nat) (who : Claimant) (inc : Bool) :
    State × Answer :=
  let s := (s.enqueue { tag := t, amount := amount, who := who, increase := inc }).headTest (some t)
  (s, if s.ala.queued t then .queued else .granted)

/-- A claim (R67), by the state of the tag. -/
def State.claimTag (s : State) (t : TagIx) (amount : Nat) (who : Claimant) : State × Answer :=
  let g := (s.tag t).grant
  if !s.settings.tags[t].valid || s.ala.queued t then (s, .refused)
  else if g = 0 then
    if amount = 0 then (s, .granted) else s.joinQueue t amount who false
  else if amount = 0 then (s.freeTag t, .granted)
  else if amount ≤ g then
    ((s.modTag t fun r => { r with grant := amount }).headTest, .granted)
  else if s.ala.sum - g + amount ≤ s.budget ∧ s.ala.queue = [] then
    (s.modAla fun a => a.giveGrant t amount s.rif.ringTime, .granted)
  else s.joinQueue t amount who true

/-- The tag a shed pass takes next: of the granted tags of class 1 to 4 the highest class, and within
it the highest rank (R72). -/
def State.nextShed (s : State) : Option TagIx :=
  (selectIx (fun r : TagRt => r.grant != 0) s.ala.tags).foldl
    (fun best t =>
      let c := s.settings.tags[t].cls
      if c = 0 then best
      else
        match best with
        | none => some t
        | some b =>
          let d := s.settings.tags[b].cls
          if d < c ∨ (d = c ∧ (s.tag b).rank.getD 0 < (s.tag t).rank.getD 0) then some t else best)
    none

/-- The end of an ALLOCATOR-owned channel: its tags' shed in progress becomes no, and the head is
tested (R74). -/
def State.shedChannelEnd (s : State) (c : ChanIx) : State :=
  (s.modAla fun a =>
    { a with
      tags := tabulate 16 fun t =>
        if s.settings.tags[t].shed = some c then { a.tags[t] with shedding := false }
        else a.tags[t] }).headTest

end Sys2Proof.Machine
end

