-- ==== Sys2Proof/Machine/Sequencer.lean ====
section
/-! DEFINITION. Sequencer.lean: SEQ (chapter 3): the Frame Builder, the Step Engine, the step kinds, the
ends of a run, and the commands of the opcode table that are steps of the engine or management requests
to a channel. -/

namespace Sys2Proof.Machine

/-! ### Frame Builder (3.9) -/

/-- The channel enters a wait with timer 0 and releases the engine. -/
def State.waitFor (s : State) (c : ChanIx) (k : WaitKind) : State :=
  (s.modChan c fun r => { r with state := .waiting k, timer := 0 }).releaseEngine c

/-- The channel keeps a frame and waits in QUEUE; no timer runs (R61), and it keeps its last count [39]. -/
def State.queueWait (s : State) (c : ChanIx) (f : CmdFrame) : State :=
  (s.modChan c fun r => { r with state := .waiting .queue, held := some f }).releaseEngine c

/-- The open frame is closed (R60): it enters class 1, or the channel waits in QUEUE. The flag says
whether the channel goes on. -/
def State.closeFrame (s : State) (c : ChanIx) : State × Bool :=
  match s.seq.opened with
  | none => (s, true)
  | some o =>
    let f : CmdFrame := { dest := o.dest, items := o.items }
    let s := s.modSeq fun q => { q with opened := none }
    if s.class1Room then (s.pushClass1 f, true) else (s.queueWait c f, false)

/-! ### Ends of a run (3.8) -/

/-- The terminal count: the open frame is closed first (R56). -/
def State.terminalCount (s : State) (c : ChanIx) : State :=
  let p := s.closeFrame c
  if p.2 then p.1.finishRun c else p.1

/-- A step fault (R57). The claim of a CLAIM wait has been withdrawn before. -/
def State.stepFault (s : State) (c : ChanIx) (cause : StepFault) : State :=
  let step := (s.chan c).current
  let s := (s.modChan c fun r => { r with fault := true, state := .masked }).releaseEngine c
  let s := s.raise 8 [(c : Int), (step : Int), cause.code]
  s.notifyOwner c (.fault step cause)

/-- The claim of a channel that waits in CLAIM is withdrawn. -/
def State.withdrawChan (s : State) (c : ChanIx) : State :=
  match (s.chan c).state, s.stepAt c with
  | .waiting .claim, .claim t _ _ => s.withdraw (.chan c) t
  | _, _ => s

/-- A frame taken from an aborted channel enters class 1 if there is room and is discarded otherwise
(R58). -/
def State.offerOrDrop (s : State) (f : CmdFrame) : State :=
  if s.class1Room then s.pushClass1 f else s

/-- The open frame leaves the channel, if it owns it (R58). -/
def State.dropOpen (s : State) (c : ChanIx) : State :=
  match s.seq.opened with
  | none => s
  | some o =>
    if o.chan = c then
      (s.modSeq fun q => { q with opened := none }).offerOrDrop { dest := o.dest, items := o.items }
    else s

/-- The held frame leaves the channel (R58). -/
def State.dropHeld (s : State) (c : ChanIx) : State :=
  match (s.chan c).held with
  | none => s
  | some f => (s.modChan c fun r => { r with held := none }).offerOrDrop f

/-- An abort of a channel that is not MASKED; of a MASKED one it has no effect (R58). -/
def State.abortChan (s : State) (c : ChanIx) (party : Party) : State :=
  if s.isMasked c then s
  else
    let s := ((s.withdrawChan c).dropOpen c).dropHeld c
    let s := (s.modChan c fun r => { r with aborted := true, state := .masked }).releaseEngine c
    let s := s.raise 9 [(c : Int), ((s.chan c).current : Int), party.code]
    s.notifyOwner c .aborted

/-! ### Completion of steps -/

/-- What the channel that holds the engine does after a completed step: the terminal count, the release
of SINGLE mode, or the next step (R47, R48). -/
def State.afterStep (s : State) (c : ChanIx) : State :=
  if (s.chan c).remaining = 0 then s.terminalCount c
  else if (s.desc c).mode = .single then
    let p := s.closeFrame c
    if p.2 then (p.1.modChan c fun r => { r with state := .requested }).releaseEngine c else p.1
  else s

/-- A step of the channel that holds the engine completes at once. -/
def State.completeNow (s : State) (c : ChanIx) : State :=
  (s.modChan c ChanRt.completeStep).afterStep c

/-! ### The Step Engine (3.5, 3.6) -/

/-- The demand condition of R49; a channel of another mode has none. -/
def State.demandHolds (s : State) (c : ChanIx) : Bool :=
  let d := s.desc c
  d.mode != .demand ||
    levelHolds d.demandSense d.demandLevel s.signals[d.demandSignal].value
      s.signals[d.demandSignal].quality

/-- The demand condition is false: the open frame is closed, the engine released, and the channel
becomes SUSPENDED (R49). -/
def State.suspend (s : State) (c : ChanIx) : State :=
  let p := s.closeFrame c
  if p.2 then (p.1.modChan c fun r => { r with state := .suspended }).releaseEngine c else p.1

/-- The REQUESTED channels in the order they are searched: from channel 0 under FIXED, from the one
after the last granted under ROTATING (R46). -/
def State.grantOrder (s : State) : List ChanIx :=
  let all := indices 8
  if s.settings.rotating then
    all.map fun k => k + s.seq.lastGranted + 1
  else all

def State.nextChan (s : State) : Option ChanIx :=
  s.grantOrder.find? fun c => (s.chan c).state == .requested

/-- The granted channel goes on as its remaining count and its demand direct (R49, R61). -/
def State.goOn (s : State) (c : ChanIx) : State :=
  if (s.chan c).remaining = 0 then s.terminalCount c
  else if s.demandHolds c then s else s.suspend c

/-- The channel that has been granted goes on (R61): its held frame is offered before anything else, then
its run ends, its demand is tested, or it stands ready to execute its next step. -/
def State.resume (s : State) (c : ChanIx) : State :=
  match (s.chan c).held with
  | none => s.goOn c
  | some f =>
    if s.class1Room then ((s.modChan c fun r => { r with held := none }).pushClass1 f).goOn c
    else (s.modChan c fun r => { r with state := .waiting .queue }).releaseEngine c

/-- The free engine is granted to a REQUESTED channel (R46). -/
def State.grantEngine (s : State) : State :=
  match s.seq.holder with
  | some _ => s
  | none =>
    match s.nextChan with
    | none => s
    | some c =>
      ((s.modSeq fun q => { q with holder := some c, lastGranted := c }).modChan c fun r =>
        { r with state := .running }).resume c

/-- One action of the engine: if the channel that holds it stands on a step that `f` executes, its demand
is tested and the step is taken (R47, R49). A step of another kind is not taken. -/
def State.engineStep (s : State) (f : State → ChanIx → Step → Option State) : State :=
  match s.seq.holder with
  | none => s
  | some c =>
    match f s c (s.stepAt c) with
    | none => s
    | some t =>
      if (s.chan c).state = .running ∧ 0 < (s.chan c).remaining then
        if s.demandHolds c then t else s.suspend c
      else s

/-- The item joins the open frame, which then holds 8 items and is closed at once, or less (R60). -/
def State.addItem (s : State) (c : ChanIx) (o : OpenFrame) (i : CmdItem) : State :=
  let o := { o with items := o.items ++ [i] }
  let s := (s.modSeq fun q => { q with opened := some o }).modChan c ChanRt.completeStep
  if o.items.length < 8 then s.afterStep c
  else
    let p := s.closeFrame c
    if p.2 then p.1.afterStep c else p.1

/-- EMIT (R50, R60): the item joins the open frame of its node; a frame of another node is closed first,
and the EMIT is not completed when that frame finds no room (R61). -/
def State.emitStep (s : State) (c : ChanIx) (node : Node) (i : CmdItem) : State :=
  let fresh : OpenFrame := { dest := node, items := [], chan := c }
  match s.seq.opened with
  | none => s.addItem c fresh i
  | some o =>
    if o.dest = node then s.addItem c o i
    else
      let p := s.closeFrame c
      if p.2 then p.1.addItem c fresh i else p.1

/-- Before AWAIT, DWELL and CLAIM the open frame is closed; the step is not begun if it finds no room
(R51 to R53, R61). -/
def State.afterClose (s : State) (c : ChanIx) (f : State → State) : State :=
  let p := s.closeFrame c
  if p.2 then f p.1 else p.1

/-- AWAIT (R51). -/
def State.awaitStep (s : State) (c : ChanIx) (i : SigIx) (sense : Sense) (level : Int) : State :=
  s.afterClose c fun s =>
    if levelHolds sense level s.signals[i].value s.signals[i].quality then s.completeNow c
    else s.waitFor c .await

/-- CLAIM (R53). -/
def State.claimStep (s : State) (c : ChanIx) (t : TagIx) (amount : Nat) : State :=
  s.afterClose c fun s =>
    let p := s.claimTag t amount (.chan c)
    match p.2 with
    | .granted => p.1.completeNow c
    | .queued => p.1.waitFor c .claim
    | .refused => p.1.stepFault c .claimRefused

/-- FREE (R54). -/
def State.freeStep (s : State) (c : ChanIx) (t : TagIx) : State := (s.freeTag t).completeNow c

/-- LINK (R55): the remaining count becomes 0 and the run ends. -/
def State.linkStep (s : State) (c : ChanIx) : State :=
  (s.modChan c fun r => { r with remaining := 0 }).terminalCount c

/-! ### What other blocks tell SEQ -/

/-- A frame has left class 1: every channel waiting in QUEUE becomes REQUESTED (R61). -/
def State.releaseQueueWaits (s : State) : State :=
  s.modSeq fun q =>
    { q with
      chans := q.chans.map fun r =>
        if r.state = .waiting .queue then { r with state := .requested } else r }

/-- A signal update at one channel: a waiting AWAIT on the signal is re-tested, and a SUSPENDED DEMAND
channel whose condition names it (R20, R49, R51). -/
def State.updateChan (s : State) (i : SigIx) (v : Int) (q : Quality) (c : ChanIx) : State :=
  match (s.chan c).state, s.stepAt c with
  | .waiting .await, .await j sense level _ =>
    if j = i ∧ levelHolds sense level v q then s.completeWait c else s
  | .suspended, _ =>
    let d := s.desc c
    if d.mode = .demand ∧ d.demandSignal = i ∧ levelHolds d.demandSense d.demandLevel v q then
      s.modChan c fun r => { r with state := .requested }
    else s
  | _, _ => s

/-- SEQ as a reader of signal updates (R20). The rules give no order among the channels whose waits one
update ends: lowest number first [9]. -/
def State.seqUpdate (s : State) (i : SigIx) (v : Int) (q : Quality) : State :=
  (indices 8).foldl (fun s c => s.updateChan i v q c) s

/-- A cycle event: the wait timer of every AWAIT, DWELL and CLAIM wait increases by one (R51). In every
other state it keeps its last count, which a read shows (R40 names no other) [39]. -/
def ChanRt.tick (r : ChanRt) : ChanRt :=
  match r.state with
  | .waiting .queue => r
  | .waiting _ => { r with timer := satSucc 65535 r.timer }
  | _ => r

def State.seqTick (s : State) : State :=
  s.modSeq fun q => { q with chans := q.chans.map ChanRt.tick }

/-- The wait timer of an AWAIT has reached its timeout: the step faults (R51). -/
def State.awaitExpiry (s : State) (c : ChanIx) : State :=
  match (s.chan c).state, s.stepAt c with
  | .waiting .await, .await _ _ _ t => if t ≤ (s.chan c).timer then s.stepFault c .awaitTimeout else s
  | _, _ => s

/-- The timer of a DWELL has reached its duration: the step completes (R52). -/
def State.dwellExpiry (s : State) (c : ChanIx) : State :=
  match (s.chan c).state, s.stepAt c with
  | .waiting .dwell, .dwell n => if n ≤ (s.chan c).timer then s.completeWait c else s
  | _, _ => s

/-- The timer of a CLAIM wait has reached its timeout: the claim is withdrawn and the step faults
(R53). -/
def State.claimExpiry (s : State) (c : ChanIx) : State :=
  match (s.chan c).state, s.stepAt c with
  | .waiting .claim, .claim t _ n =>
    if n ≤ (s.chan c).timer then (s.withdraw (.chan c) t).stepFault c .claimTimeout else s
  | _, _ => s

/-! ### Management requests (R44): the new state and the answer -/

def State.startChan (s : State) (c : ChanIx) : State × Status :=
  if s.isMasked c then
    if (s.desc c).valid then (s.modChan c fun r => r.load (s.desc c) .requested, .ok) else (s, .state)
  else (s.request c .management, .ok)

def State.unmaskRequest (s : State) (c : ChanIx) : State × Status :=
  if s.isMasked c then
    if (s.desc c).valid then (s.unmaskChan c, .ok) else (s, .state)
  else (s, .ok)

def State.maskRequest (s : State) (c : ChanIx) : State × Status :=
  match (s.chan c).state with
  | .idle => (s.modChan c fun r => { r with state := .masked }, .ok)
  | .masked => (s, .ok)
  | .requested => (s, .busy)
  | .running => (s, .busy)
  | .waiting _ => (s, .busy)
  | .suspended => (s, .busy)

def State.abortRequest (s : State) (c : ChanIx) : State × Status :=
  if s.isMasked c then (s, .state) else (s.abortChan c .management, .ok)

end Sys2Proof.Machine
end

