-- ==== Sys2Proof/Machine/Conversion.lean ====
section
/-! DEFINITION. Conversion.lean: CNV (chapter 5): its state and trips, the requests of management, the
outcomes of its channels, shed notices and the heartbeat. -/

namespace Sys2Proof.Machine

/-! ### State and trips -/

/-- RUNNING, RIDE_THROUGH and POST_DIP (R77). -/
def ConvState.isRunning : ConvState → Bool
  | .running => true
  | .rideThrough => true
  | .postDip => true
  | .off => false
  | .charging => false
  | .standby => false
  | .stopping => false
  | .tripped => false

/-- The conversion state changes, and CLC is told (R147). -/
def State.setConv (s : State) (k : ConvState) : State :=
  (s.modCnv fun c => { c with state := k }).hand .convChanged

/-- The channel an awaited value names. -/
def ConvCfg.awaited (p : ConvCfg) : ConvAwait → Option ChanIx
  | .none => none
  | .precharge => some p.precharge
  | .run => some p.run
  | .stop => some p.stop
  | .trip => some p.trip

/-- The channel CNV waits for. R79 holds which of the designated channels it is, and not its number: after a write that
renames that channel while it is awaited (TRIP, in TRIPPED) it is the one the parameters name now [48]. -/
def State.convAwaited (s : State) : Option ChanIx := s.settings.conv.awaited s.cnv.awaited

/-- CNV aborts the channel it awaits, as its owner, when it is PRECHARGE, RUN or STOP. -/
def State.abortAwaited (s : State) (aw : ConvAwait) : State :=
  match aw with
  | .precharge => s.abortChan s.settings.conv.precharge .owner
  | .run => s.abortChan s.settings.conv.run .owner
  | .stop => s.abortChan s.settings.conv.stop .owner
  | .trip => s
  | .none => s

/-- A further cause while TRIPPED (R81). -/
def State.furtherCause (s : State) (cause : TripCause) (detail : Nat) : State :=
  ((s.placeBlock).modCnv fun c => { c with further := satSucc 255 c.further }).raise 12
    [(cause.code : Int), detail]

/-- The trip record (R80). -/
def CnvRt.trip (c : CnvRt) (cause : TripCause) (detail : Nat) (now : RingTime) : CnvRt :=
  { c with
    state := .tripped, awaited := .none, breaker := false, cause := cause, detail := detail,
    time := now, further := 0, autostartPending := false }

/-- The trip channel is requested; a refusal is a further cause (R80). -/
def State.requestTrip (s : State) : State :=
  let c := s.settings.conv.trip
  if s.isMasked c then (s.request c .conversion).furtherCause .channelRefused c
  else (s.modCnv fun r => { r with awaited := .trip }).request c .conversion

/-- A trip cause reaches CNV: a trip, or a further cause in TRIPPED (R80, R81). R80 needs no order among the hand-overs
of a trip; its event 12 is raised before the trip channel is requested, and so before what a refused request raises
(event 7, and event 12 of the further cause) [9]. -/
def State.tripCnv (s : State) (cause : TripCause) (detail : Nat) : State :=
  if s.operating then
    if s.cnv.state = .tripped then s.furtherCause cause detail
    else
      let left := s.cnv.state
      let aw := s.cnv.awaited
      let s := (s.modCnv fun c => c.trip cause detail s.rif.ringTime).hand .convChanged
      let s := (s.abortAwaited aw).placeBlock
      let s := s.raise 12 [(cause.code : Int), detail, left.code]
      s.requestTrip
  else s

/-! ### Requests of management (R82 to R85) -/

def State.clearTrip (s : State) : State × Status :=
  if s.cnv.state ≠ .tripped then (s, .state)
  else if s.cnv.breaker = false then (s, .state)
  else if s.cnv.hold then (s, .stillActive)
  else
    ((s.modCnv fun c => { c with awaited := .none, dip := 0, blind := 0 }).setConv .off, .ok)

/-- CNV requests the pre-charge channel (R83, R95). -/
def State.beginCharging (s : State) : State × Status :=
  let c := s.settings.conv.precharge
  if s.isMasked c then (s.request c .conversion, .state)
  else
    (((s.modCnv fun r => { r with awaited := .precharge }).setConv .charging).request c .conversion,
      .ok)

/-- CONVERSION START (R83). -/
def State.convStart (s : State) : State × Status :=
  let s := s.modCnv fun c => { c with autostartPending := false }
  if s.operating = true ∧ s.cnv.state = .off ∧ s.ala.mode = .grid then s.beginCharging
  else (s, .state)

/-- The setpoint signal is not UNUSED. -/
def State.setpointUsed (s : State) : Bool := s.signals[s.settings.conv.setpoint].quality != .unused

/-- CNV requests the run channel (R84). -/
def State.requestRun (s : State) : State × Status :=
  let c := s.settings.conv.run
  if s.isMasked c then (s.request c .conversion, .state)
  else ((s.modCnv fun r => { r with awaited := .run }).request c .conversion, .ok)

/-- CONVERSION RUN (R84). In STANDBY with the run channel awaited it answers OK, though the setpoint may
have become UNUSED: the model takes the second row of the rule before the third [38]. -/
def State.convRun (s : State) : State × Status :=
  if s.cnv.state = .standby then
    if s.cnv.awaited = .run then (s, .ok)
    else if s.cnv.awaited = .none ∧ s.setpointUsed = true then s.requestRun
    else (s, .state)
  else (s, .state)

/-- State STOPPING, the awaited channel aborted, the stop channel requested; a refusal trips (R85). -/
def State.beginStop (s : State) : State × Status :=
  let aw := s.cnv.awaited
  let s := (s.modCnv fun c => { c with awaited := .none }).setConv .stopping
  let s := s.abortAwaited aw
  let c := s.settings.conv.stop
  if s.isMasked c then ((s.request c .conversion).tripCnv .channelRefused c, .state)
  else ((s.modCnv fun r => { r with awaited := .stop }).request c .conversion, .ok)

/-- CONVERSION STOP (R85). -/
def State.convStop (s : State) : State × Status :=
  let s := s.modCnv fun c => { c with autostartPending := false }
  match s.cnv.state with
  | .off => (s, .ok)
  | .stopping => (s, .ok)
  | .tripped => (s, .state)
  | .charging => s.beginStop
  | .standby => s.beginStop
  | .running => s.beginStop
  | .rideThrough => s.beginStop
  | .postDip => s.beginStop

/-! ### Channel outcomes (R86) -/

/-- CNV enters STANDBY; with autostart the run channel is requested in the same event (R84). -/
def State.enterStandby (s : State) : State :=
  let s := (s.modCnv fun c => { c with awaited := .none }).setConv .standby
  if s.settings.conv.autostart && s.setpointUsed then s.requestRun.1 else s

/-- An outcome of the awaited channel (R86). -/
def State.awaitedOutcome (s : State) (c : ChanIx) (e : RunEnd) : State :=
  let unawait (s : State) : State := s.modCnv fun r => { r with awaited := .none }
  match e with
  | .terminal =>
    match s.cnv.awaited with
    | .precharge => s.enterStandby
    | .run => (unawait s).setConv .running
    | .stop => (unawait s).setConv .off
    | .trip => (unawait s).modCnv fun r => { r with breaker := true }
    | .none => s
  | .fault _ _ => (unawait s).tripCnv .channelFault c
  | .aborted =>
    match s.cnv.awaited with
    | .precharge => (unawait s).tripCnv .channelAborted c
    | .run => unawait s
    | .stop => (unawait s).tripCnv .channelAborted c
    | .trip => unawait s
    | .none => s

/-- An outcome of a channel that is not awaited (R86). -/
def State.otherOutcome (s : State) (c : ChanIx) (e : RunEnd) : State :=
  match e with
  | .terminal =>
    if s.cnv.state = .tripped ∧ c = s.settings.conv.trip then
      s.modCnv fun r => { r with breaker := true }
    else s
  | .fault _ _ => s.tripCnv .channelFault c
  | .aborted => s

/-- A run's end told to CNV, in OPERATING (R86, R95). -/
def State.cnvOutcome (s : State) (c : ChanIx) (e : RunEnd) : State :=
  if s.operating then
    if s.convAwaited = some c then s.awaitedOutcome c e else s.otherOutcome c e
  else s

/-- A shed notice for a tag whose owner is CONVERSION (R94). -/
def State.cnvShed (s : State) (t : TagIx) : State :=
  if s.operating && s.settings.conv.shedTrips && s.cnv.state != .off && s.cnv.state != .tripped then
    s.tripCnv .shed t
  else s

/-! ### What other blocks tell CNV -/

/-- The heartbeat (R93). -/
def State.heartbeat (s : State) (q : Quality) : State :=
  if q = .lost then
    if s.cnv.autonomous then s else (s.modCnv fun c => { c with autonomous := true }).raise 23 []
  else if s.cnv.autonomous then (s.modCnv fun c => { c with autonomous := false }).raise 24 []
  else s

/-- LIM tells CNV that the converter hold has switched (R79). -/
def State.tellConverterHold (s : State) (on : Bool) : State := s.modCnv fun c => { c with hold := on }

/-- Entry to OPERATING (R95, R104). -/
def State.cnvEnter (s : State) : State :=
  (s.modCnv fun c => { c with autostartPending := s.settings.conv.autostart }).modAlw fun a =>
    { a with history := [] }

end Sys2Proof.Machine
end

