-- ==== Sys2Proof/Machine/Cooling.lean ====
section
/-! DEFINITION. Cooling.lean: CLC (chapter 8): cooling stages, flow and pump changeover, shedding, the
cooling factor, the heaters, and what a change of part state or a stored write does to them. -/

namespace Sys2Proof.Machine

/-! ### Commands held (R141) -/

/-- The held stage frame is offered (R141). -/
def State.offerStage (s : State) : State :=
  match s.clc.heldStage with
  | none => s
  | some f =>
    if s.class1Room then (s.modClc fun c => { c with heldStage := none }).pushClass1 f else s

/-- The held heater frame is offered (R141). -/
def State.offerHeater (s : State) : State :=
  match s.clc.heldHeater with
  | none => s
  | some f =>
    if s.class1Room then (s.modClc fun c => { c with heldHeater := none }).pushClass1 f else s

/-- A frame has left class 1: the held stage frame, then the held heater frame are offered (R141). -/
def State.offerHeld (s : State) : State := s.offerStage.offerHeater

/-! ### Stages (R138 to R141) -/

/-- The dwell of the actual stage has elapsed (R137). -/
def State.dwellElapsed (s : State) : Bool :=
  decide ((s.stage s.clc.actual).dwell * 1024 ≤ s.clc.dwell)

/-- The highest stage at or below `k` whose FAN amount is 0 (R140, R145). -/
def State.unfannedStage (s : State) (k : StageIx) : StageIx :=
  ((indices 6).filter fun j => decide (j ≤ k) && (s.stage j).amount == 0).getLast?.getD 0

/-- The target stage a temperature calls for (R138). -/
def State.calledStage (s : State) (v : Int) (q : Quality) : StageIx :=
  if s.clc.fullHold = true ∨ q.usable = false then 5
  else ((indices 6).filter fun j => decide ((s.stage j).entry ≤ v)).getLast?.getD 0

/-- Event 22, once per wait (R139). -/
def State.reportHeld (s : State) (claimed : StageIx) : State :=
  if s.clc.heldReported then s
  else
    (s.modClc fun c => { c with heldReported := true }).raise 22
      [(s.clc.actual : Int), (claimed : Int), s.ala.mode.code]

/-- A waiting stage claim is withdrawn from ALA (R139, R140). -/
def State.dropStageClaim (s : State) : State :=
  match s.clc.stageClaim, s.settings.clc.fanTag with
  | some _, some t =>
    (s.modClc fun c => { c with stageClaim := none, heldReported := false }).withdraw .clc t
  | _, _ => s

/-- A stage up to actual + 1 (R139). -/
def State.stageUp (s : State) (next : StageIx) : State :=
  match s.settings.clc.fanTag with
  | none => s.changeStage next
  | some t =>
    let p := s.claimTag t (s.stage next).amount .clc
    match p.2 with
    | .granted => p.1.changeStage next
    | .queued => (p.1.modClc fun c => { c with stageClaim := some next }).reportHeld next
    | .refused => p.1.reportHeld next

/-- A stage down to `lower` (R140). -/
def State.stageDown (s : State) (lower : StageIx) : State :=
  let s := s.dropStageClaim
  match s.settings.clc.fanTag with
  | none => s.changeStage lower
  | some t =>
    let p := s.claimTag t (s.stage lower).amount .clc
    match p.2 with
    | .granted => p.1.changeStage lower
    | .queued => (p.1.withdraw .clc t).changeStage (s.unfannedStage lower)
    | .refused => p.1.changeStage (s.unfannedStage lower)

/-- A stage down is due at a coolant temperature (R140). -/
def State.downDue (s : State) (v : Int) (q : Quality) : Bool :=
  decide (0 < s.clc.actual) && q.usable && decide (v < (s.stage s.clc.actual).exit) &&
    s.dwellElapsed && !s.clc.fullHold

/-- A stage up is due (R139). -/
def State.upDue (s : State) : Bool :=
  decide (s.clc.actual < s.clc.target) && s.dwellElapsed && s.clc.stageClaim.isNone

/-- The stage tests at a coolant temperature, in OPERATING; at most one stage change follows (R138 to R140). -/
def State.stageTestAt (s : State) (v : Int) (q : Quality) : State :=
  if s.operating then
    let s := if s.clc.target ≤ s.clc.actual then s.dropStageClaim else s
    if s.downDue v q then s.stageDown (s.clc.actual - 1)
    else if s.upDue then s.stageUp (s.clc.actual + 1)
    else s
  else s

/-- The stage tests that no update of the coolant temperature makes: they read its signal as it stands. -/
def State.stageTest (s : State) : State :=
  let t := s.signals[s.settings.clc.coolant]
  s.stageTestAt t.value t.quality

/-- The target stage is formed and the stage tests are taken (R138), at the value and quality that the update
carries (R19). -/
def State.formTarget (s : State) (v : Int) (q : Quality) : State :=
  (s.modClc fun c => { c with target := s.calledStage v q }).stageTestAt v q

/-- LIM tells CLC that the full-cooling hold has switched (R138). -/
def State.tellFullHold (s : State) (on : Bool) : State :=
  let s := s.modClc fun c => { c with fullHold := on }
  let t := s.signals[s.settings.clc.coolant]
  s.formTarget t.value t.quality

/-- The stage dwell's expiry (R138). -/
def State.dwellTest (s : State) : State :=
  if s.clc.dwellDue then (s.modClc fun c => { c with dwellDue := false }).stageTest else s

/-! ### Pump duty (R143, R144) -/

/-- A waiting pump claim is withdrawn from ALA (R148). -/
def State.dropPumpClaim (s : State) : State :=
  match s.clc.pumpClaim, s.dutyPump with
  | true, some (t, _) => (s.modClc fun c => { c with pumpClaim := false }).withdraw .clc t
  | _, _ => s

/-- The duty state changes: a waiting pump claim is withdrawn (R148), cf is formed anew (R146). R148 does not say
whether the withdrawal, whose head test can grant the stage claim and send a stage command, comes before the new duty
state or after it: DESIGN CHOICE, the model withdraws first, under the old duty state [9]. -/
def State.setDuty (s : State) (d : Duty) (f : ChangeFrom) : State :=
  (s.dropPumpClaim.modClc fun c => { c with duty := d, changeFrom := f }).formCf

/-- The flow as event 20 carries it. -/
def State.flowNumber (s : State) : Int :=
  match s.clc.flow with
  | none => Config.noFlowNumber
  | some n => n

/-- The changeover of R143 is requested through a channel, from pump `f`. -/
def State.requestChangeover (s : State) (ch : Option ChanIx) (f : ChangeFrom) : State :=
  let s := s.modClc fun c => { c with low := 0 }
  let refused (s : State) : State := (s.setDuty .noFlow .none).raise 21 []
  match ch with
  | none => refused s
  | some c =>
    if s.isMasked c then refused (s.request c .cooling)
    else
      ((s.request c .cooling).setDuty .changeover f).raise 20 [(f.code : Int), s.flowNumber]

/-- A changeover is due: the counter has reached N (R143). -/
def State.changeoverDue (s : State) : State :=
  match s.clc.duty, s.clc.changeFrom with
  | .a, _ => s.requestChangeover s.settings.clc.aToB .a
  | .b, _ => s.requestChangeover s.settings.clc.bToA .b
  | .changeover, .a =>
    let s := s.modClc fun c => { c with low := 0 }
    match s.settings.clc.aToB with
    | none => s
    | some c => s.request c .cooling
  | .changeover, .b =>
    let s := s.modClc fun c => { c with low := 0 }
    match s.settings.clc.bToA with
    | none => s
    | some c => s.request c .cooling
  | _, _ => s

/-- The duty pump is commanded (R143). -/
def State.pumpCommanded (s : State) : Bool :=
  match s.dutyPump with
  | none => false
  | some (t, _) => (s.tag t).grant != 0 && decide (0 < (s.stage s.clc.actual).pump)

/-- A low flow counts (R143). -/
def State.lowCounts (s : State) : Bool :=
  match s.clc.duty with
  | .a => s.pumpCommanded
  | .b => s.pumpCommanded
  | .changeover => true
  | .noFlow => false

/-- A window with a flow is judged, in OPERATING (R143). -/
def State.judgeFlow (s : State) (flow : Nat) : State :=
  if s.operating then
    if flow < s.settings.clc.flowMin ∧ s.lowCounts = true then
      let s := s.modClc fun c => { c with low := satSucc 255 c.low }
      if s.settings.clc.lowWindows ≤ s.clc.low then s.changeoverDue else s
    else s.modClc fun c => { c with low := 0 }
  else s

/-- The end of a flow window (R142). A usable window without a previous count publishes neither flow nor cf: R142
lists the writes of cf that R146 speaks of [49]. -/
def State.endWindow (s : State) : State :=
  let s := s.modClc fun c => { c with flowTimer := 0 }
  let r := s.signals[s.settings.clc.flowCount]
  if r.quality.usable then
    match s.clc.prevCount with
    | none => s.modClc fun c => { c with prevCount := some r.value }
    | some p =>
      let flow := ((r.value - p) % 65536).toNat
      let s := s.modClc fun c => { c with prevCount := some r.value, flow := some flow }
      let s := s.publish .coolantFlow (min flow 32767)
      let s := s.publish .coolingFactor s.clc.cf
      s.judgeFlow flow
  else s.modClc fun c => { c with prevCount := none, flow := none }

/-- The flow window's expiry (R142). -/
def State.windowTest (s : State) : State :=
  if s.settings.clc.window ≤ s.clc.flowTimer then s.endWindow else s

/-- A change of duty state by a changeover channel's outcome (R144). -/
def State.dutyMoved (s : State) (d : Duty) : State :=
  if s.clc.duty = d then s
  else ((s.setDuty d .none).modClc fun c => { c with low := 0 }).stageCommand

/-- The channel requested for the running changeover (R143). R137 holds the pump it began from and no channel: after
a write that renames the changeover channels it is the channel that the parameters name now [48]. -/
def State.runningChangeover (s : State) : Option ChanIx :=
  match s.clc.duty, s.clc.changeFrom with
  | .changeover, .a => s.settings.clc.aToB
  | .changeover, .b => s.settings.clc.bToA
  | _, _ => none

/-- A run's end told to CLC (R144). -/
def State.clcOutcome (s : State) (c : ChanIx) (e : RunEnd) : State :=
  match e with
  | .terminal =>
    if s.settings.clc.aToB = some c then s.dutyMoved .b
    else if s.settings.clc.bToA = some c then s.dutyMoved .a
    else s
  | .fault _ _ =>
    if s.runningChangeover = some c then (s.dutyMoved .noFlow).raise 21 [(c : Int)] else s
  | .aborted =>
    if s.runningChangeover = some c then (s.dutyMoved .noFlow).raise 21 [(c : Int)] else s

/-! ### Heaters (R147) -/

/-- Heating is called for at a humidity (R147). -/
def State.heatCalled (s : State) (v : Int) (q : Quality) : Bool :=
  q.usable && decide ((s.settings.clc.humOn : Int) < v) && (s.cnv.state == .off || s.cnv.state == .standby)

/-- Heating must end at a humidity (R147). -/
def State.heatEnds (s : State) (v : Int) (q : Quality) : Bool :=
  !q.usable || decide (v < s.settings.clc.humOff) || !(s.cnv.state == .off || s.cnv.state == .standby)

/-- The heater claim that waits is withdrawn; state OFF (R147). -/
def State.dropHeaterClaim (s : State) (t : TagIx) : State :=
  (s.modClc fun c => { c with heater := .off }).withdraw .clc t

/-- The heater tests at a humidity, in OPERATING with a heater tag (R147). -/
def State.heaterTestAt (s : State) (v : Int) (q : Quality) : State :=
  match s.operating, s.settings.clc.heaterTag with
  | true, some t =>
    match s.clc.heater with
    | .off =>
      if s.heatCalled v q then
        let p := s.claimTag t s.settings.clc.heaterAmount .clc
        match p.2 with
        | .granted => (p.1.modClc fun c => { c with heater := .on }).heaterCommand true
        | .queued => p.1.modClc fun c => { c with heater := .claiming }
        | .refused => p.1
      else s
    | .claiming => if s.heatEnds v q then s.dropHeaterClaim t else s
    | .on =>
      if s.heatEnds v q then
        ((s.heaterCommand false).freeTag t).modClc fun c => { c with heater := .off }
      else s
  | _, _ => s

/-- The heater tests that no humidity update makes: they read the humidity signal as it stands. -/
def State.heaterTest (s : State) : State :=
  let h := s.signals[s.settings.clc.humidity]
  s.heaterTestAt h.value h.quality

/-! ### What other blocks tell CLC -/

/-- CLC as a reader of signal updates (R138, R147). Each test sees the value and the quality that the update carries
(R19). A signal that is coolant temperature and humidity at once is taken as the temperature first [9]. -/
def State.clcUpdate (s : State) (i : SigIx) (v : Int) (q : Quality) : State :=
  let s := if i = s.settings.clc.coolant then s.formTarget v q else s
  if i = s.settings.clc.humidity then s.heaterTestAt v q else s

/-- The fan tag has been shed (R145). The fall is a stage change under R141 also where the actual stage is one of FAN
amount 0 and stays [53]. -/
def State.fanShed (s : State) : State :=
  let s := s.dropStageClaim
  (s.changeStage (s.unfannedStage s.clc.actual)).stageTest

/-- The duty pump's tag has been shed in A_DUTY or B_DUTY, OPERATING (R145). -/
def State.pumpShed (s : State) : State :=
  (s.modClc fun c => { c with low := s.settings.clc.lowWindows }).changeoverDue

/-- The heater tag has been shed (R145). -/
def State.heaterShed (s : State) (t : TagIx) : State :=
  let s := if s.clc.heater = .claiming then s.dropHeaterClaim t else s
  (s.modClc fun c => { c with heater := .off }).heaterCommand false

/-- A shed notice for a tag whose owner is COOLING (R145). -/
def State.clcShed (s : State) (t : TagIx) : State :=
  let p := s.settings.clc
  if p.fanTag = some t then s.fanShed
  else if p.heaterTag = some t then s.heaterShed t
  else if (s.dutyPump.map Prod.fst) = some t ∧ s.operating = true then s.pumpShed
  else s

/-! ### Time, part state and writes -/

/-- A cycle event: the dwell and the flow window count (R137, R142). -/
def ClcRt.tick (c : ClcRt) (st : Stage) : ClcRt :=
  let n := satSucc 1047552 c.dwell
  { c with
    dwell := n
    dwellDue := c.dwellDue || (decide (n ≠ c.dwell) && decide (n = st.dwell * 1024))
    flowTimer := satSucc 65535 c.flowTimer }

def State.clcTick (s : State) : State := s.modClc fun c => c.tick (s.stage c.actual)

/-- The start action (R148). -/
def State.clcStart (s : State) : State :=
  let s :=
    match s.dutyPump with
    | none => s
    | some (t, _) =>
      if (s.tag t).grant = 0 then
        let p := s.claimTag t s.settings.clc.pumpAmount .clc
        match p.2 with
        | .granted => p.1
        | .queued => p.1.modClc fun c => { c with pumpClaim := true }
        | .refused => p.1
      else s
  let s := s.stageCommand
  let s := if s.settings.clc.heaterTag.isSome then s.heaterCommand (s.clc.heater == .on) else s
  s.stageTest.heaterTest

/-- The record of CLC after DECOMMISSION (R148): no claim waits, CLAIMING has become OFF, the held frames are dropped
and the counter is 0. -/
def ClcRt.stopped (c : ClcRt) : ClcRt :=
  { c with
    stageClaim := none
    heldReported := if c.stageClaim.isSome then false else c.heldReported
    pumpClaim := false
    heater := if c.heater = .claiming then .off else c.heater
    heldStage := none, heldHeater := none, low := 0 }

/-- DECOMMISSION (R148): CLC withdraws every claim of its that waits. DESIGN CHOICE: the head is tested once, behind
the last withdrawal, and not at each WITHDRAW as R70 has it for one, so that none of them is granted [59]. -/
def State.clcStop (s : State) : State := (s.modClc ClcRt.stopped).withdrawAll .clc

/-- The first half of a stored write, under the settings before it: the stage restart's withdrawal and
freeing of the fan tag (R136). -/
def State.restartClaims (s : State) : State :=
  let s := s.dropStageClaim
  match s.settings.clc.fanTag with
  | none => s
  | some t => s.freeTag t

/-- The heaters go off without a frame at a stored parameter write, under the settings before it (R136). In state OFF
they are off already, and a grant of their tag, which a channel has claimed then, is kept [52]. -/
def State.heatersOff (s : State) : State :=
  match s.clc.heater, s.settings.clc.heaterTag with
  | .on, some t => (s.modClc fun c => { c with heater := .off }).freeTag t
  | .claiming, some t => s.dropHeaterClaim t
  | _, _ => s

/-- The second half of a stored write, under the new settings: stages 0, dwell 0, cf (R136). -/
def State.restartStages (s : State) : State :=
  (s.modClc fun c => { c with actual := 0, target := 0, dwell := 0, dwellDue := false }).formCf

end Sys2Proof.Machine
end

