-- ==== Sys2Proof/Machine/Yaw.lean ====
section
/-! DEFINITION. Yaw.lean: YAW (chapter 7): the error window, the twist, the inhibit set, starts, stops and
FAULT. A raise or a request made within a transition is made in the state the transition leaves
(R161). -/

namespace Sys2Proof.Machine

/-! ### Window means (R116) -/

/-- The long mean, none while the window is empty. -/
def YawRt.longMean (y : YawRt) : Option Int :=
  if y.window = [] then none else some (y.window.sum / (y.window.length : Int))

/-- The newest 8 values, or all if fewer are held. -/
def YawRt.newest (y : YawRt) : List Int := y.window.drop (y.window.length - 8)

/-- The short mean, none while the window is empty. -/
def YawRt.shortMean (y : YawRt) : Option Int :=
  if y.window = [] then none else some (y.newest.sum / (y.newest.length : Int))

/-- A value joins the window, the oldest of 64 leaving it. R115 and R116 state ranges for the window and the means and
no rule says what becomes of a wind direction outside -18000 to 17999, which a Sample Map range may let through: the
model appends it as it stands [56]. -/
def YawRt.append (y : YawRt) (v : Int) : YawRt :=
  let w := y.window ++ [v]
  { y with window := if 64 < w.length then w.tail else w }

/-! ### Inhibit set (R119) -/

def InhibitSet.has (i : InhibitSet) : Inhibit → Bool
  | .management => i.management
  | .headingLost => i.headingLost
  | .roll => i.roll
  | .rest => i.rest
  | .shed => i.shed
  | .limit => i.limit
  | .config => i.config

def InhibitSet.put (i : InhibitSet) (r : Inhibit) (b : Bool) : InhibitSet :=
  match r with
  | .management => { i with management := b }
  | .headingLost => { i with headingLost := b }
  | .roll => { i with roll := b }
  | .rest => { i with rest := b }
  | .shed => { i with shed := b }
  | .limit => { i with limit := b }
  | .config => { i with config := b }

/-- The set holds a reason other than ROLL (R123). -/
def InhibitSet.beyondRoll (i : InhibitSet) : Bool := decide ({ i with roll := false } ≠ noInhibit)

def State.putInhibit (s : State) (r : Inhibit) (b : Bool) : State :=
  s.modYaw fun y => { y with inhibit := y.inhibit.put r b }

/-! ### Moves -/

/-- A move in the direction increases |twist| (R120). -/
def YawRt.increases (y : YawRt) (d : Direction) : Bool :=
  match d with
  | .cw => decide (0 < y.twist)
  | .ccw => decide (y.twist < 0)
  | .none => false

/-- |twist| is at or above the hard limit. -/
def State.atHardLimit (s : State) : Bool := decide (s.settings.yaw.hardLimit ≤ s.yaw.twist.natAbs)

/-- The record of a stop (R122): STOPPING, or FAULT when the stop channel refuses. -/
def YawRt.stopped (y : YawRt) (cause : StopCause) (fault refused : Bool) : YawRt :=
  if refused then
    { y with
      stopCause := cause, faultPending := fault, state := .fault, faultCause := .stopRefused,
      stopConfirmed := false, awaited := .none }
  else { y with stopCause := cause, faultPending := fault, state := .stopping, awaited := .stop }

/-- YAW stops (R122). `tell` is what the calling rule raises with the stop; no rule orders it and event 7 of a stop
channel that refuses, and the model raises it first [9]. -/
def State.stopYaw (s : State) (cause : StopCause) (fault : Bool)
    (tell : State → State := id) : State :=
  let c := s.settings.yaw.stop
  (tell (s.modYaw fun y => y.stopped cause fault (s.isMasked c))).request c .yaw

/-- Event 19: yaw at the hard limit. -/
def State.raiseHardLimit (s : State) : State := s.raise 19 []

/-- A reason is added; other than ROLL, SHED or HEADING_LOST it stops a move when it was not in the set
(R119, R124). -/
def State.addStopping (s : State) (r : Inhibit) : State :=
  let fresh := !s.yaw.inhibit.has r
  let s := s.putInhibit r true
  if fresh && s.yaw.state == .driving then s.stopYaw .inhibit false else s

/-- The release channel of a direction and its awaited value. -/
def State.releaseOf (s : State) (d : Direction) : ChanIx × YawAwait :=
  match d with
  | .ccw => (s.settings.yaw.releaseCcw, .releaseCcw)
  | .cw => (s.settings.yaw.releaseCw, .releaseCw)
  | .none => (s.settings.yaw.releaseCw, .releaseCw)

/-- A start (R121). -/
def State.startYaw (s : State) (p : Purpose) (d : Direction) : State :=
  let (c, aw) := s.releaseOf d
  let s := s.modYaw fun y => { y with hardBlocked := false }
  if s.isMasked c then
    (s.modYaw fun y =>
      { y with state := .fault, faultCause := .releaseRefused, stopConfirmed := false,
               awaited := .none }).request c .yaw
  else
    let s := (s.modYaw fun y =>
      { y with state := .releasing, awaited := aw, purpose := p, direction := d,
               faultPending := false }).request c .yaw
    if p = .unwind then s.raise 18 [s.yaw.twist, d.code] else s

/-- The direction by the sign of a mean: CW for a positive one. -/
def signDirection (m : Int) : Direction := if 0 < m then .cw else .ccw

/-- The wind as a start decision reads it: its value when usable (R120). -/
def State.usableWind (s : State) : Option Int :=
  let r := s.signals[s.settings.yaw.windSpeed]
  if r.quality.usable then some r.value else none

/-- Storm holds (R120). -/
def State.storm (s : State) : Bool :=
  match s.usableWind with
  | none => true
  | some v => decide ((s.settings.yaw.vStorm : Int) ≤ v)

/-- The V_min test is passed (R120). -/
def State.windPasses (s : State) : Bool :=
  match s.usableWind with
  | none => true
  | some v => decide ((s.settings.yaw.vMin : Int) ≤ v)

/-- Unwinding is due (R120). -/
def State.unwindDue (s : State) : Bool :=
  decide (s.settings.yaw.unwindLevel ≤ s.yaw.twist.natAbs) && !s.storm &&
    match s.usableWind with
    | none => false
    | some v => decide (v < s.settings.yaw.vUnwind)

/-- The direction of a tracking move that is due (R120). -/
def State.trackDue (s : State) : Option Direction :=
  let p := s.settings.yaw
  let eShort := if s.storm then p.eShortStorm else p.eShort
  let eLong := if s.storm then p.eLongStorm else p.eLong
  match s.yaw.shortMean, s.yaw.longMean with
  | some sm, some lm =>
    if eShort ≤ sm.natAbs then some (signDirection sm)
    else if eLong ≤ lm.natAbs ∧ s.windPasses = true then some (signDirection lm)
    else none
  | _, _ => none

/-- The start decision (R120). -/
def State.startDecision (s : State) : State :=
  let idle := s.modYaw fun y => { y with hardBlocked := false }
  if s.yaw.inhibit ≠ noInhibit ∨ s.yaw.window.length < 8 then idle
  else if s.unwindDue then s.startYaw .unwind (if 0 < s.yaw.twist then .ccw else .cw)
  else
    match s.trackDue with
    | none => idle
    | some d =>
      if s.yaw.increases d && s.atHardLimit then s.modYaw fun y => { y with hardBlocked := true }
      else s.startYaw .track d

/-- SHED leaves the set when ALA has room for the yaw amount (R119). -/
def State.liftShed (s : State) : State :=
  if s.yaw.inhibit.shed = true ∧ s.ala.sum + s.settings.yaw.amount ≤ s.budget then
    s.putInhibit .shed false
  else s

/-- |short mean| is at or below E_stop (R124). -/
def State.trackDone (s : State) : Bool :=
  match s.yaw.shortMean with
  | none => false
  | some m => decide (m.natAbs ≤ s.settings.yaw.eStop)

/-- The window update (R116): the start decision in HELD, the tracking stop in DRIVING. -/
def State.windowUpdate (s : State) : State :=
  match s.yaw.state with
  | .held => s.liftShed.startDecision
  | .driving =>
    if s.yaw.purpose = .track ∧ s.trackDone = true then s.stopYaw .trackDone false else s
  | .releasing => s
  | .stopping => s
  | .fault => s

/-- The long mean is published (R116). -/
def State.publishLong (s : State) : State :=
  match s.yaw.longMean with
  | none => s
  | some m => s.publish .yawErrorLong m

/-- An update of the wind direction signal (R116). -/
def State.windUpdate (s : State) (v : Int) (q : Quality) (cause : Cause) : State :=
  match q with
  | .unused => s
  | .lost =>
    let s := s.modYaw fun y => { y with window := [] }
    if s.yaw.state = .driving ∧ s.yaw.purpose = .track then s.stopYaw .windLost false else s
  | .good => if cause = .sample then (s.modYaw fun y => y.append v).publishLong.windowUpdate else s
  | .degraded =>
    if cause = .sample then (s.modYaw fun y => y.append v).publishLong.windowUpdate else s

/-- The short way round from one heading to another (R117). -/
def headingStep (last v : Int) : Int :=
  let d := (v - last) % 36000
  if 18000 < d then d - 36000 else d

/-- The record after a usable heading (R117). -/
def YawRt.turn (y : YawRt) (v : Int) : YawRt :=
  match y.lastHeading with
  | none => { y with lastHeading := some v }
  | some l =>
    { y with twist := limitTo (-1000000) 1000000 (y.twist + headingStep l v), lastHeading := some v }

/-- The twist is published in degrees (R117). -/
def State.publishTwist (s : State) : State := s.publish .twist (s.yaw.twist / 100)

/-- The stop causes that depend on twist, tested in DRIVING; HARD_LIMIT is the one recorded when both are
met (R124). -/
def State.twistStops (s : State) : State :=
  let y := s.yaw
  if y.state = .driving then
    if y.increases y.direction && s.atHardLimit then
      s.stopYaw .hardLimit false State.raiseHardLimit
    else if y.purpose = .unwind ∧ y.twist.natAbs ≤ s.settings.yaw.unwindTarget then
      s.stopYaw .unwindDone false
    else s
  else s

/-- Heading loss, by state, in OPERATING (R127). In RELEASING event 17 and the abort come before the stop; they are
recorded in the state the stop leaves (R161). -/
def State.headingLoss (s : State) : State :=
  if s.operating then
    match s.yaw.state with
    | .driving => s.stopYaw .headingLost true fun s => s.raise 17 []
    | .releasing =>
      let c := (s.releaseOf s.yaw.direction).1
      let refused := s.isMasked s.settings.yaw.stop
      (((s.modYaw fun y => y.stopped .headingLost true refused).raise 17 []).abortChan c
        .owner).stopYaw .headingLost true
    | .held => s
    | .stopping => s
    | .fault => s
  else s

/-- A usable heading update (R117). -/
def State.headingUsable (s : State) (v : Int) : State :=
  ((s.modYaw fun y => y.turn v).publishTwist).twistStops.putInhibit .headingLost false

/-- An update of the heading signal (R117, R127). -/
def State.headingUpdate (s : State) (v : Int) (q : Quality) : State :=
  match q with
  | .good => s.headingUsable v
  | .degraded => s.headingUsable v
  | .lost =>
    ((s.modYaw fun y => { y with lastHeading := none }).putInhibit .headingLost true).headingLoss
  | .unused => s.modYaw fun y => { y with lastHeading := none }

/-- An update of the roll signal (R119). ROLL stops no move (R124). -/
def State.rollUpdate (s : State) (v : Int) (q : Quality) : State :=
  match q with
  | .good => s.putInhibit .roll (decide ((s.settings.yaw.rollLimit : Int) < v))
  | .degraded => s.putInhibit .roll (decide ((s.settings.yaw.rollLimit : Int) < v))
  | .lost => s.putInhibit .roll true
  | .unused => s.putInhibit .roll false

/-- YAW as a reader of signal updates (R20). Wind speed is only read as it stands (R120). A signal that is
heading and wind direction at once is taken as the heading first, so that HARD_LIMIT, where it is met, is the
stop recorded (R124), and one that is wind direction and roll at once is taken as the wind direction first, so that a
start decision is made before ROLL comes or goes [9]. -/
def State.yawUpdate (s : State) (i : SigIx) (v : Int) (q : Quality) (cause : Cause) : State :=
  let s := if i = s.settings.yaw.heading then s.headingUpdate v q else s
  let s := if i = s.settings.yaw.windDir then s.windUpdate v q cause else s
  if i = s.settings.yaw.roll then s.rollUpdate v q else s

/-! ### Channel outcomes -/

/-- The yaw tag holds a grant and belongs to YAW (R123). -/
def State.yawGranted (s : State) : Bool :=
  let t := s.settings.yaw.tag
  (s.tag t).grant != 0 && s.settings.tags[t].owner == .yaw

/-- The entry checks at the TERMINAL of the release channel (R123). -/
def State.entryChecks (s : State) : State :=
  let y := s.yaw
  if !s.yawGranted then s.stopYaw .noGrant (!y.inhibit.shed)
  else if y.inhibit.beyondRoll then s.stopYaw .inhibit false
  else if y.increases y.direction && s.atHardLimit then
    s.stopYaw .hardLimit false State.raiseHardLimit
  else
    s.modYaw fun y =>
      { y with state := .driving, awaited := .none, stallBase := y.twist, stallTimer := 0 }

/-- The outcome of the awaited release channel (R123). -/
def State.releaseOutcome (s : State) (e : RunEnd) : State :=
  match e with
  | .terminal => s.entryChecks
  | .fault _ _ => s.stopYaw .releaseFailed true
  | .aborted => s.stopYaw .releaseFailed true

/-- The fault cause taken from a stop cause by name (R128). -/
def StopCause.fault : StopCause → FaultCause
  | .stall => .stall
  | .headingLost => .headingLost
  | .releaseFailed => .releaseFailed
  | .noGrant => .noGrant
  | .none => .none
  | .trackDone => .none
  | .unwindDone => .none
  | .hardLimit => .none
  | .inhibit => .none
  | .windLost => .none
  | .shed => .none

/-- The end of a stop (R128): HELD with REST, or FAULT with the stop confirmed. The rest timer begins again
at each stop that ends in HELD (R115) [36]. -/
def YawRt.stopEnded (y : YawRt) (restTime : Nat) : YawRt :=
  if y.faultPending then
    { y with state := .fault, faultCause := y.stopCause.fault, awaited := .none, stopConfirmed := true }
  else if 0 < restTime then
    { y with state := .held, awaited := .none, inhibit := { y.inhibit with rest := true }, restTimer := 0 }
  else { y with state := .held, awaited := .none, restTimer := 0 }

/-- The outcome of the stop channel in STOPPING (R128). -/
def State.stopOutcome (s : State) (e : RunEnd) : State :=
  let failed := s.modYaw fun y =>
    { y with state := .fault, faultCause := .stopFailed, stopConfirmed := false, awaited := .none }
  match e with
  | .terminal => s.modYaw fun y => y.stopEnded s.settings.yaw.restTime
  | .fault _ _ => failed
  | .aborted => failed

/-- A run's end told to YAW (R123, R128). -/
def State.yawOutcome (s : State) (c : ChanIx) (e : RunEnd) : State :=
  let p := s.settings.yaw
  match s.yaw.state with
  | .releasing => if (s.releaseOf s.yaw.direction).1 = c then s.releaseOutcome e else s
  | .stopping => if p.stop = c then s.stopOutcome e else s
  | .fault =>
    if p.stop = c ∧ e = .terminal then s.modYaw fun y => { y with stopConfirmed := true } else s
  | .held => s
  | .driving => s

/-! ### What other blocks and time tell YAW -/

/-- A shed notice for a tag whose owner is YAW (R125). -/
def State.yawShed (s : State) (t : TagIx) : State :=
  let s := s.putInhibit .shed true
  if s.settings.yaw.tag = t ∧ s.yaw.state = .driving then s.stopYaw .shed false else s

/-- The grant of a tag of owner YAW has been freed (R125). -/
def State.yawReleased (s : State) (t : TagIx) : State :=
  if s.settings.yaw.tag = t ∧ s.yaw.state = .driving then s.stopYaw .noGrant true else s

/-- LIM tells YAW that the LIMIT inhibit has switched (R119). -/
def State.tellLimit (s : State) (on : Bool) : State :=
  if on then s.addStopping .limit else s.putInhibit .limit false

/-- The movement since the stall base, in the driving direction (R126). -/
def YawRt.movement (y : YawRt) : Int :=
  match y.direction with
  | .ccw => y.stallBase - y.twist
  | .cw => y.twist - y.stallBase
  | .none => y.twist - y.stallBase

/-- The end of a stall window in DRIVING (R126). -/
def State.stallCheck (s : State) : State :=
  let y := s.yaw
  if y.state = .driving ∧ s.settings.yaw.stallWindow ≤ y.stallTimer then
    if y.movement < s.settings.yaw.minMove then
      s.stopYaw .stall true fun s => s.raise 16 [y.direction.code, y.movement, y.twist]
    else s.modYaw fun y => { y with stallBase := y.twist, stallTimer := 0 }
  else s

/-- The rest timer has reached rest time × 1024: REST leaves the set (R119). -/
def State.restCheck (s : State) : State :=
  if s.yaw.inhibit.rest = true ∧ s.settings.yaw.restTime * 1024 ≤ s.yaw.restTimer then
    s.putInhibit .rest false
  else s

/-- A cycle event: the stall timer counts in DRIVING, the rest timer in HELD (R126, R119). -/
def YawRt.tick (y : YawRt) : YawRt :=
  match y.state with
  | .driving => { y with stallTimer := satSucc 65535 y.stallTimer }
  | .held => { y with restTimer := satSucc 1047552 y.restTimer }
  | .releasing => y
  | .stopping => y
  | .fault => y

def State.yawTick (s : State) : State := s.modYaw YawRt.tick

/-- CLEAR YAW (R129). -/
def State.clearYaw (s : State) : State × Status :=
  if s.yaw.state = .fault ∧ s.yaw.stopConfirmed = true then
    (s.modYaw fun y =>
      { y with state := .held, purpose := .none, direction := .none, stallTimer := 0 }, .ok)
  else (s, .state)

/-- A twist preset that is stored (R118). -/
def State.presetTwist (s : State) (v : Int) : State :=
  (s.modYaw fun y => { y with twist := v, hardBlocked := false }).publishTwist

end Sys2Proof.Machine
end

