-- ==== Sys2Proof/Machine/Shedding.lean ====
section
/-! DEFINITION. Shedding.lean: the shed pass of ALA (sections 4.5 and 4.6), in which the owners of the shed
tags act, and the supply mode. -/

namespace Sys2Proof.Machine

/-- The owner of a shed tag is told and acts within the pass (R72, R94, R125, R145). -/
def State.takeShed (s : State) (o : Owner) (t : TagIx) : State :=
  match o with
  | .none => s
  | .yaw => s.yawShed t
  | .conversion => s.cnvShed t
  | .cooling => s.clcShed t
  | .allocator => s

/-- The shed channel is requested; shed in progress becomes yes if it is accepted and the channel's
owner is ALLOCATOR (R74). -/
def State.requestShed (s : State) (t : TagIx) (c : ChanIx) : State :=
  let ok := !s.isMasked c && (s.desc c).owner == .allocator
  let s := s.request c .allocator
  if ok then s.modTag t fun r => { r with shedding := true } else s

/-- One tag is shed (R72): grant 0, event 10, the shed channel, the owner told. Steps 3 and 4 need no order:
the shed channel is requested first, so that no claim its owner makes at the notice is granted while the
channel runs (R74) [5]. -/
def State.shedTag (s : State) (t : TagIx) : State :=
  let cfg := s.settings.tags[t]
  let amount := (s.tag t).grant
  let s := s.modAla fun a => a.clearGrant t
  let s := s.raise 10 [(t : Int), cfg.name, (cfg.cls : Int), amount, s.ala.mode.code]
  let s :=
    match cfg.shed with
    | none => s
    | some c => s.requestShed t c
  s.takeShed cfg.owner t

/-- Tags are shed, at most `n`, while the sum is greater than the budget (R72). -/
def shedUpTo : Nat → State → State
  | 0, s => s
  | n + 1, s =>
    if s.budget < s.ala.sum then
      match s.nextShed with
      | none => s
      | some t => shedUpTo n (s.shedTag t)
    else s

/-- The end of a shed pass: event 11 when the grants of class 0 alone are above the budget, then the head
test (R72, R73). -/
def State.endPass (s : State) : State :=
  (if s.budget < s.ala.sum then s.raise 11 [s.ala.mode.code, s.budget, s.ala.sum] else s).headTest

/-- A shed pass (R72): at most 16 tags hold a grant. -/
def State.shedPass (s : State) : State := (shedUpTo 16 s).endPass

/-- What follows a change of the budget from `old` (R71): a shed pass when it is below the sum of
grants, else a head test when it has risen. -/
def State.budgetChanged (s : State) (old : Nat) : State :=
  if s.budget < s.ala.sum then s.shedPass else if old < s.budget then s.headTest else s

/-- A mode request (R71). -/
def State.setMode (s : State) (m : SupplyMode) : State :=
  if s.ala.mode = m then s
  else (s.modAla fun a => { a with mode := m }).budgetChanged s.budget

end Sys2Proof.Machine
end

