-- ==== Sys2Proof/Machine/Computation.lean ====
section
/-! DEFINITION. Computation.lean: the computation that CNV (section 5.5) and ALW (chapter 6) take
together, and CNV as a reader of signal updates. -/

namespace Sys2Proof.Machine

/-! ### What a computation reads -/

/-- The grid phase signals, A, B, C. -/
def State.gridSignals (s : State) : List SigIx :=
  [s.settings.conv.gridA, s.settings.conv.gridB, s.settings.conv.gridC]

/-- The grid signals that are not GOOD. -/
def State.gridNotGood (s : State) : List SigIx :=
  s.gridSignals.filter fun i => s.signals[i].quality != .good

/-- The values of the usable module temperatures (R105). -/
def State.temperatures (s : State) : List Int :=
  (s.settings.conv.temps.filter fun i => s.signals[i].quality.usable).map fun i => s.signals[i].value

/-- The active current request (R92). -/
def State.activeRequest (s : State) : Int :=
  let r := s.signals[s.settings.conv.setpoint]
  let v := if r.quality = .unused then 0 else r.value
  if s.cnv.autonomous then min v s.settings.conv.autonomousCap else v

/-- What a computation reads of other blocks: each value as it stands when the computation is taken (R98). -/
structure Readings where
  /-- The grid signals that are not GOOD. -/
  notGood : List SigIx
  a : Int
  b : Int
  c : Int
  /-- The usable module temperatures. -/
  temps : List Int
  /-- CLC's cooling factor. -/
  cf : Nat
  /-- The active current request. -/
  request : Int
  deriving DecidableEq, Repr

def State.readings (s : State) : Readings :=
  let v := fun (i : SigIx) => s.signals[i].value
  let p := s.settings.conv
  { notGood := s.gridNotGood, a := v p.gridA, b := v p.gridB, c := v p.gridC
    temps := s.temperatures, cf := s.clc.cf, request := s.activeRequest }

/-- The state as the reader of an update sees it: the signal with the value and quality the update carries (R19). -/
def State.seeing (s : State) (i : SigIx) (v : Int) (q : Quality) : State :=
  s.modSignal i fun r => { r with value := v, quality := q }

/-! ### Classification (R87 to R91) -/

/-- CNV's part of a blind computation (R87). -/
def State.blindTest (s : State) (x : Readings) : State :=
  let s := s.modCnv fun c => { c with blind := satSucc 65535 c.blind }
  let s := if s.cnv.blind = 1 then s.raise 15 (x.notGood.map fun (i : SigIx) => (i : Int)) else s
  let s :=
    if s.cnv.state.isRunning = true ∧ s.settings.conv.blindLimit < s.cnv.blind then s.tripCnv .blind 0
    else s
  if s.cnv.state = .rideThrough then s.modCnv fun c => { c with dip := satSucc 65535 c.dip } else s

/-- The lowest curve point that is exceeded (R89). -/
def ConvCfg.curvePoint (p : ConvCfg) (mf dip : Nat) : Option Nat :=
  ((p.levels.toList.zip p.times.toList).zipIdx.find? fun x =>
    decide (mf < x.1.1) && decide (x.1.2 < dip)).map Prod.snd

/-- A ride-through begins (R88). R88 names mf in its row for RUNNING, and in its row for POST_DIP says only that event
13 is raised: DESIGN CHOICE, the detail is mf in both [58]. -/
def State.enterDip (s : State) (mf : Nat) : State :=
  ((s.modCnv fun c => { c with dip := 0 }).setConv .rideThrough).raise 13 [(mf : Int)]

/-- The dip timer advances and the curve is tested (R88, R89). -/
def State.advanceDip (s : State) (mf : Nat) : State :=
  let s := s.modCnv fun c => { c with dip := satSucc 65535 c.dip }
  match s.settings.conv.curvePoint mf s.cnv.dip with
  | none => s
  | some k => s.tripCnv .curve k

/-- The transitions by mf (R88). -/
def State.classify (s : State) (mf : Nat) : State :=
  let p := s.settings.conv
  match s.cnv.state with
  | .running => if mf < p.dipEntry then s.enterDip mf else s
  | .rideThrough => if p.dipExit ≤ mf then s.setConv .postDip else s.advanceDip mf
  | .postDip => if mf < p.dipEntry then s.enterDip mf else s
  | .off => s
  | .charging => s
  | .standby => s
  | .stopping => s
  | .tripped => s

/-- The supply mode a computation chooses (R91). -/
def State.chosenMode (s : State) (mf : Nat) : SupplyMode :=
  let p := s.settings.conv
  if p.absentPersistence ≤ s.cnv.absent then .backup
  else if s.cnv.state = .rideThrough then .sag
  else if p.dipExit ≤ mf then .grid
  else s.ala.mode

/-- The absent counter (R91). -/
def State.countAbsent (s : State) (mf : Nat) : State :=
  s.modCnv fun c =>
    { c with absent := if mf < s.settings.conv.absent then satSucc 255 c.absent else 0 }

/-! ### The computation (R98) -/

/-- Stages 1 and 2 (R103, R104). -/
def State.formMagnitude (s : State) (x : Readings) : State :=
  let m := magnitude x.a x.b x.c
  let h := joinHistory s.settings.alw.length s.alw.history m
  (s.modAlw fun a => { a with history := h, m := m, mf := meanOf h }).publish .gridMagnitude (meanOf h)

/-- Stages 4 and 5 (R105, R106). -/
def State.formAllowance (s : State) (x : Readings) : State :=
  let t := hottest x.temps
  let a := s.settings.alw.allowance t
  let ith := cooled a x.cf
  (s.modAlw fun r => { r with tmax := t, a := a, cfUsed := x.cf, ith := ith }).publish .allowance
    ith

/-- Stages 6 and 7, and the request of stage 8 (R107 to R109). -/
def State.formCurrents (s : State) (x : Readings) : State :=
  let iq := s.settings.alw.reactive s.cnv.state s.alw.mf s.alw.ith
  let cap := activeCap s.alw.ith iq
  s.modAlw fun r => { r with iq := iq, ipCap := cap, ipReq := clampRequest cap x.request }

/-- Stage 8 in POST_DIP: the ramp step, and the end of POST_DIP when it reaches the request (R109). -/
def State.postDipLimit (s : State) (entered : Bool) : State :=
  let ramp := s.settings.alw.rampStep entered s.alw.ramp s.alw.rideLimit
  let s := s.modAlw fun r => { r with ramp := ramp, ipLimit := min r.ipReq ramp }
  if s.alw.ipReq ≤ ramp then (s.setConv .running).raise 14 [] else s

/-- Stage 8: the active limit (R109). -/
def State.formLimit (s : State) (entered : Bool) : State :=
  match s.cnv.state with
  | .running => s.modAlw fun r => { r with ipLimit := r.ipReq }
  | .rideThrough => s.modAlw fun r => { r with ipLimit := r.ipReq, rideLimit := r.ipReq }
  | .postDip => s.postDipLimit entered
  | .off => s.modAlw fun r => { r with ipLimit := 0 }
  | .charging => s.modAlw fun r => { r with ipLimit := 0 }
  | .standby => s.modAlw fun r => { r with ipLimit := 0 }
  | .stopping => s.modAlw fun r => { r with ipLimit := 0 }
  | .tripped => s.modAlw fun r => { r with ipLimit := 0 }

/-- The last reference of a computation that is not blind (R109). -/
def State.keepReference (s : State) : State :=
  s.modAlw fun r => { r with lastIq := r.iq, lastIp := r.ipLimit, lastBlind := false }

/-- Stage 9: the Reference Frame, in the running states (R110). -/
def State.sendReference (s : State) : State :=
  if s.cnv.state.isRunning then s.placeRef s.alw.lastIq s.alw.lastIp else s

/-- A blind computation (R87, R102). -/
def State.blindComputation (s : State) (x : Readings) : State :=
  let s := s.blindTest x
  let s := s.modAlw fun r => { r with history := [], lastBlind := true }
  let s :=
    if s.cnv.state = .rideThrough then s.modAlw fun r => { r with rideLimit := r.lastIp } else s
  s.sendReference

/-- Stages 1 to 3 of a computation that is not blind. -/
def State.classified (s : State) (x : Readings) : State :=
  let s := (s.modCnv fun c => { c with blind := 0 }).formMagnitude x
  (s.classify s.alw.mf).countAbsent s.alw.mf

/-- Stages 4 to 9 of a computation that is not blind, after stage 3; `before` is the conversion state it found. -/
def State.limited (s : State) (x : Readings) (before : ConvState) : State :=
  let entered := before == .rideThrough && s.cnv.state == .postDip
  ((((s.formAllowance x).formCurrents x).formLimit entered).keepReference).sendReference

/-- The autostart test at the end of each computation (R95). -/
def State.autostartTest (s : State) : State :=
  if s.cnv.autostartPending = true ∧ s.cnv.state = .off ∧ s.ala.mode = .grid ∧
      (s.chan s.settings.conv.precharge).state = .idle then
    (s.modCnv fun c => { c with autostartPending := false }).beginCharging.1
  else s

/-- One computation of ALW and CNV (R98). The mode is chosen in stage 3; ALA takes the request for it after the last
part, since no event of another block is taken inside a computation [5]. -/
def State.computation (s : State) (x : Readings) : State :=
  if x.notGood = [] then
    let c := s.classified x
    (c.limited x s.cnv.state).autostartTest.setMode (c.chosenMode c.alw.mf)
  else (s.blindComputation x).autostartTest

/-! ### CNV as a reader of signal updates (R20) -/

/-- A grid signal is LOST, in OPERATING (R90): the trip is CNV's own event, and ALA takes the mode request
after it [5]. -/
def State.gridLost (s : State) : State :=
  (if s.cnv.state.isRunning then s.tripCnv .blind 0 else s).setMode .backup

/-- An update of a grid phase signal (R90, R98). The computation reads phase C as the update
carries it (R19), and every other value as it stands (R98) [43]. -/
def State.gridUpdate (s : State) (i : SigIx) (v : Int) (q : Quality) : State :=
  if s.operating = true ∧ i ∈ s.gridSignals then
    if q = .lost then s.gridLost
    else if i = s.settings.conv.gridC ∧ q.usable = true then s.computation (s.seeing i v q).readings
    else s
  else s

/-- CNV and ALW as a reader of signal updates. A signal that is the heartbeat and a grid phase at once is taken
as the heartbeat first [9]. -/
def State.cnvUpdate (s : State) (i : SigIx) (v : Int) (q : Quality) : State :=
  let s := if i = s.settings.conv.heartbeat then s.heartbeat q else s
  s.gridUpdate i v q

end Sys2Proof.Machine
end

