-- ==== Sys2Proof/Machine/Limits.lean ====
section
/-! DEFINITION. Limits.lean: LIM (chapter 2): the conditions, evaluation, trips and releases, the holds,
and the acknowledgement of latched entries. -/

namespace Sys2Proof.Machine

/-! ### Conditions (R24) -/

/-- The trip condition. -/
def LimitCfg.trips (c : LimitCfg) (v : Int) : Bool :=
  match c.kind with
  | .above => decide (c.trip < v)
  | .below => decide (v < c.trip)
  | .outside => decide (c.trip < v) || decide (v < c.lowTrip)

/-- The release condition. -/
def LimitCfg.releases (c : LimitCfg) (v : Int) : Bool :=
  match c.kind with
  | .above => decide (v ≤ c.release)
  | .below => decide (c.release ≤ v)
  | .outside => decide (c.lowRelease ≤ v) && decide (v ≤ c.release)

/-- The required ordering of the levels. -/
def LimitCfg.ordered (c : LimitCfg) : Bool :=
  match c.kind with
  | .above => decide (c.release ≤ c.trip)
  | .below => decide (c.trip ≤ c.release)
  | .outside =>
    decide (c.lowTrip ≤ c.lowRelease) && decide (c.lowRelease ≤ c.release) &&
      decide (c.release ≤ c.trip)

/-! ### Holds (R32) -/

/-- A valid entry that satisfies `p` is TRIPPED. -/
def State.anyTripped (s : State) (p : LimitCfg → Bool) : Bool :=
  (s.settings.limits.toList.zip s.limits.toList).any fun x => x.1.valid && p x.1 && x.2.tripped

def State.converterHoldDue (s : State) : Bool :=
  s.anyTripped fun c => c.action == .converterBlock && c.latching

def State.limitInhibitDue (s : State) : Bool :=
  s.operating && s.anyTripped fun c => c.action == .yawStop

def State.fullCoolingDue (s : State) : Bool :=
  s.operating && s.anyTripped fun c => c.action == .coolingFull

/-- LIM brings the holds up to date and tells each target whose hold has switched (R32). -/
def State.updateHolds (s : State) : State :=
  let now : Holds :=
    { converter := s.converterHoldDue, yaw := s.limitInhibitDue, cooling := s.fullCoolingDue }
  let old := s.holds
  let s := { s with holds := now }
  let s := if now.converter = old.converter then s else s.tellConverterHold now.converter
  let s := if now.yaw = old.yaw then s else s.tellLimit now.yaw
  if now.cooling = old.cooling then s else s.tellFullHold now.cooling

/-! ### Trips and releases (R26, R27, R31) -/

/-- The one-time request of an entry's action, in OPERATING (R31). -/
def State.limitAction (s : State) (i : LimIx) : State :=
  let c := s.settings.limits[i]
  match s.operating, c.action with
  | true, .converterBlock => s.tripCnv .limit i
  | true, .startChannel => s.request c.channel (.limit i)
  | _, _ => s

/-- An entry trips (R26). -/
def State.tripLimit (s : State) (i : LimIx) : State :=
  let c := s.settings.limits[i]
  let s := s.modLimit i fun r => { r with tripped := true, latch := c.latching }
  let s := s.raise (Fin.ofNat 128 c.code) [(i : Int)]
  (s.limitAction i).updateHolds

/-- An entry releases (R27). -/
def State.releaseLimit (s : State) (i : LimIx) : State :=
  (s.modLimit i fun r => { r with tripped := false, latch := false }).updateHolds

/-! ### Evaluation (R25, R28, R29) -/

/-- An update of quality GOOD or DEGRADED (R25). -/
def State.testLimit (s : State) (i : LimIx) (v : Int) : State :=
  let c := s.settings.limits[i]
  let s := s.modLimit i fun r =>
    { r with counter := if c.trips v then satSucc 255 r.counter else 0 }
  let r := s.limits[i]
  if r.tripped then
    if r.latch = false ∧ c.releases v = true then s.releaseLimit i else s
  else if c.trips v = true ∧ c.persistence ≤ r.counter then s.tripLimit i
  else s

/-- An update of quality LOST (R28). -/
def State.loseLimit (s : State) (i : LimIx) : State :=
  let s := s.modLimit i fun r => { r with counter := 0 }
  let r := s.limits[i]
  match s.settings.limits[i].onLoss with
  | .hold => s
  | .trip => if r.tripped then s else s.tripLimit i
  | .release => if r.tripped = true ∧ r.latch = false then s.releaseLimit i else s

/-- One entry takes a signal update (R25). -/
def State.limitEntry (s : State) (sig : SigIx) (v : Int) (q : Quality) (i : LimIx) : State :=
  let c := s.settings.limits[i]
  if c.valid = true ∧ c.signal = sig then
    match q with
    | .good => s.testLimit i v
    | .degraded => s.testLimit i v
    | .lost => s.loseLimit i
    | .unused => s.modLimit i fun r => { r with counter := 0 }
  else s

/-- The valid entries that name a signal. The rule gives no order among them: lowest index first [9]. -/
def State.limitsOf (s : State) (sig : SigIx) : List LimIx :=
  selectIx (fun c : LimitCfg => c.valid && c.signal == sig) s.settings.limits

/-- LIM as a reader of signal updates (R20). -/
def State.limUpdate (s : State) (sig : SigIx) (v : Int) (q : Quality) : State :=
  (s.limitsOf sig).foldl (fun s i => s.limitEntry sig v q i) s

/-! ### Acknowledgement (R30) -/

/-- The entries an acknowledgement of a code takes, lowest index first [9]. -/
def State.latchedBy (s : State) (c : Code) : List LimIx :=
  (indices 48).filter fun i =>
    let e := s.settings.limits[i]
    e.valid && e.latching && e.code == c && s.limits[i].tripped && s.limits[i].latch

/-- The latch of an entry clears, and the entry releases if it is releasable now (R30). -/
def State.unlatch (s : State) (i : LimIx) : State :=
  let c := s.settings.limits[i]
  let r := s.signals[c.signal]
  let s := s.modLimit i fun r => { r with latch := false }
  if (r.quality.usable = true ∧ c.releases r.value = true) ∨
      (r.quality = .lost ∧ c.onLoss = .release) then
    s.releaseLimit i
  else s

/-- LIM takes an acknowledgement; the flag says whether an entry whose latch it cleared is still
TRIPPED (R30). -/
def State.ackLimits (s : State) (c : Code) : State × Bool :=
  let es := s.latchedBy c
  let s := es.foldl State.unlatch s
  (s, es.any fun i => s.limits[i].tripped)

end Sys2Proof.Machine
end

