-- ==== Sys2Proof/Machine/Cascade.lean ====
section
/-! DEFINITION. Cascade.lean: the hand-overs between blocks. Each is taken by the block it goes to, first
in, first out, until none waits [2]. -/

namespace Sys2Proof.Machine

/-- One reader takes a signal update (R20). -/
def State.readUpdate (s : State) (r : Reader) (i : SigIx) (v : Int) (q : Quality) (cause : Cause) :
    State :=
  match r with
  | .lim => s.limUpdate i v q
  | .seq => s.seqUpdate i v q
  | .cnv => s.cnvUpdate i v q
  | .yaw => s.yawUpdate i v q cause
  | .clc => s.clcUpdate i v q

/-- The order of R20. -/
def defaultReaders : List Reader := [.lim, .seq, .cnv, .yaw, .clc]

/-- A list of readers made an order of all five: repeats leave, missing ones follow [3]. -/
def readerOrder (l : List Reader) : List Reader :=
  l.eraseDups ++ defaultReaders.filter fun r => !l.contains r

/-- All readers take a signal update, in the order the schedule gives: R19 defines none [3]. Where a limit with action
YAW_STOP trips on the update at which YAW meets HARD_LIMIT, this order decides which of the two stops is recorded. -/
def State.takeUpdate (s : State) (i : SigIx) (v : Int) (q : Quality) (cause : Cause) : State :=
  (readerOrder (s.schedule.headD [])).foldl (fun s r => s.readUpdate r i v q cause)
    { s with schedule := s.schedule.tail }

/-- The owner of a channel is told of its run's end (R59). -/
def State.takeOutcome (s : State) (o : Owner) (c : ChanIx) (e : RunEnd) : State :=
  match o with
  | .none => s
  | .yaw => s.yawOutcome c e
  | .conversion => s.cnvOutcome c e
  | .cooling => s.clcOutcome c e
  | .allocator => s.shedChannelEnd c

/-- The owner of a tag is told that its grant has been freed (R70); YAW alone acts on it (R125). -/
def State.takeRelease (s : State) (o : Owner) (t : TagIx) : State :=
  match o with
  | .yaw => s.yawReleased t
  | .none => s
  | .conversion => s
  | .cooling => s
  | .allocator => s

/-- The block a hand-over goes to takes it. -/
def State.take (s : State) : Work → State
  | .update i v q cause => s.takeUpdate i v q cause
  | .outcome o c e => s.takeOutcome o c e
  | .released o t => s.takeRelease o t
  | .convChanged => s.heaterTest
  | .stageTest => s.stageTest

/-- At most `n` hand-overs are taken, the oldest first. -/
def settleUpTo : Nat → State → State
  | 0, s => s
  | n + 1, s =>
    match s.work with
    | [] => s
    | w :: rest => settleUpTo n (State.take { s with work := rest } w)

/-- The hand-overs are taken until none waits; what 256 of them leave, which takes tables that feed
themselves, waits for the next command [2]. -/
def State.settle (s : State) : State := settleUpTo 256 s

/-! ### Contributors gone STALE (R15) -/

/-- The contributors whose age is above the stale limit in force, lowest signal and slot first. -/
def State.staleList (s : State) : List (SigIx × SlotIx) :=
  ((indices 96).zip s.signals.toList).flatMap fun x =>
    ((indices 3).filter x.2.staleDue).map fun k => (x.1, k)

/-- Contributors become STALE one after another, each with its hand-overs. -/
def State.takeStale (s : State) : State :=
  s.staleList.foldl (fun s x => (s.staleContributor x.1 x.2).settle) s

end Sys2Proof.Machine
end

