-- ==== Sys2Proof/Machine/Engine.lean ====
section
/-! DEFINITION. Engine.lean: the commands of the Step Engine's turns (sections 3.5 and 3.6). Each is the
turn of one step kind; a turn that does not fit the step the holding channel stands on has no effect. -/

namespace Sys2Proof.Machine

/-- STEP_ENGINE_GRANT (R46, R61). -/
def execStepEngineGrant (s : State) : Host.Outcome State Fault Refusal := done s.grantEngine.settle

/-- EMIT (R50, R60). -/
def execEmit (s : State) : Host.Outcome State Fault Refusal :=
  done (s.engineStep fun s c st =>
    match st with
    | .emit n o v => some (s.emitStep c n { output := o, value := v })
    | _ => none).settle

/-- AWAIT (R51). -/
def execAwait (s : State) : Host.Outcome State Fault Refusal :=
  done (s.engineStep fun s c st =>
    match st with
    | .await i sense level _ => some (s.awaitStep c i sense level)
    | _ => none).settle

/-- DWELL (R52). -/
def execDwell (s : State) : Host.Outcome State Fault Refusal :=
  done (s.engineStep fun s c st =>
    match st with
    | .dwell _ => some (s.afterClose c fun s => s.waitFor c .dwell)
    | _ => none).settle

/-- CLAIM (R53). -/
def execClaim (s : State) : Host.Outcome State Fault Refusal :=
  done (s.engineStep fun s c st =>
    match st with
    | .claim t amount _ => some (s.claimStep c t amount)
    | _ => none).settle

/-- FREE (R54). -/
def execFree (s : State) : Host.Outcome State Fault Refusal :=
  done (s.engineStep fun s c st =>
    match st with
    | .free t => some (s.freeStep c t)
    | _ => none).settle

/-- LINK (R55). -/
def execLink (s : State) : Host.Outcome State Fault Refusal :=
  done (s.engineStep fun s c st =>
    match st with
    | .link _ => some (s.linkStep c)
    | _ => none).settle

end Sys2Proof.Machine
end

