-- ==== Sys2Proof/Machine/Ports.lean ====
section
/-! DEFINITION. Ports.lean: the ring ports and link alignment (section 10.1), forwarding, the insertion
of frames onto OUT (sections 10.2 and 10.3), and the commands of these rows. -/

namespace Sys2Proof.Machine

/-! ### Port records -/

/-- The rates the ring control object offers (R172). -/
def Offer.rates : Offer → Rates
  | .fastAndBase => .both
  | .baseOnly => .base
  | .fastOnly => .fast

/-- The rates hold FAST. -/
def holdsFast : Rates → Bool
  | .base => false
  | .fast => true
  | .both => true

/-- The rates hold BASE. -/
def holdsBase : Rates → Bool
  | .base => true
  | .fast => false
  | .both => true

/-- The rate two offers have in common: FAST before BASE (R169). -/
def commonRate (a b : Rates) : Option Rate :=
  if holdsFast a && holdsFast b then some .fast else if holdsBase a && holdsBase b then some .base else none

/-- Entry to LISTEN with burst count 0 (R168). -/
def PortRt.listen (r : PortRt) : PortRt :=
  { r with state := .listen, rate := none, bursts := 0, before := none, further := 0 }

/-- Entry to DOWN (R167, R170). From SILENT the rule names no burst count; the model sets it to 0 there as
well [34]. -/
def PortRt.down (r : PortRt) : PortRt :=
  { r with
    state := .down, rate := none, bursts := 0, before := none, further := 0, stuck := false,
    stuckTimer := false }

/-- Entry to SILENT. -/
def PortRt.silent (r : PortRt) : PortRt := { r with state := .silent, rate := none }

/-- The burst count after a burst in LISTEN (R168). -/
def PortRt.nextCount (r : PortRt) (w : CapWord) : Nat :=
  if r.before = some w then r.bursts + 1 else 1

/-- Polarity after a marker in LISTEN: an inverted one sets it; one the right way round clears it when
no burst of this LISTEN came before (R168). -/
def PortRt.polarity (r : PortRt) (inverted : Bool) : Bool :=
  if inverted then true else if r.before = none then false else r.inverted

/-- A burst in LISTEN (R168): the fourth equal word moves the port to ACKNOWLEDGE. -/
def PortRt.burstInListen (r : PortRt) (inverted : Bool) (w : CapWord) : PortRt :=
  let r := { r with inverted := r.polarity inverted, bursts := r.nextCount w, before := some w }
  if r.bursts = 4 then
    { r with
      state := .acknowledge, partnerRates := some w.rates, partnerRole := some w.role, bursts := 0,
      further := 0 }
  else r

/-- A burst in ACKNOWLEDGE (R169): a flagged partner's word counts, a different word returns the port
to LISTEN. -/
def PortRt.burstInAcknowledge (r : PortRt) (w : CapWord) (flag : Bool) : PortRt :=
  if r.partnerRates = some w.rates ∧ r.partnerRole = some w.role then
    if flag then { r with bursts := satSucc 4 r.bursts } else r
  else { r with state := .listen, bursts := 1, before := some w, further := 0 }

/-- A received burst (R168, R169). -/
def PortRt.burst (r : PortRt) (inverted : Bool) (w : CapWord) (flag : Bool) : PortRt :=
  match r.state with
  | .listen => r.burstInListen inverted w
  | .acknowledge => r.burstInAcknowledge w flag
  | .down => r
  | .verify => r
  | .up => r
  | .silent => r

/-! ### Commands of link alignment -/

/-- LINE_ACTIVITY (R168): a port in DOWN enters LISTEN and its stuck timer starts. In BOOT the ports
stay DOWN (R178). -/
def execLineActivity (p : Port) (s : State) : Host.Outcome State Fault Refusal :=
  done (if s.awake && (s.port p).state == .down then
    s.modPort p fun r => { r.listen with stuckTimer := true } else s)

/-- ALIGNMENT_BURST_TIMER (R167): a probe in DOWN, a burst in LISTEN and ACKNOWLEDGE, whose capability word
holds the offered rates (R172), the role INLINE and the acknowledge flag. Once four flagged
bursts have been counted, the flagged bursts sent count as the further ones of R169. -/
def execAlignmentBurstTimer (p : Port) (s : State) : Host.Outcome State Fault Refusal :=
  let w : CapWord := { rates := s.settings.offer.rates, role := .inline }
  done (if s.awake then
    match (s.port p).state with
    | .down => s.emitLine (.probe p)
    | .listen => s.emitLine (.burst p w false)
    | .acknowledge =>
      (s.emitLine (.burst p w true)).modPort p fun r =>
        if r.bursts = 4 then { r with further := satSucc 6 r.further } else r
    | .verify => s
    | .up => s
    | .silent => s
  else s)

/-- BURST_RECEIVED (R168, R169). -/
def execBurstReceived (p : Port) (inverted : Bool) (w : CapWord) (flag : Bool) (s : State) :
    Host.Outcome State Fault Refusal :=
  done (s.modPort p fun r => r.burst inverted w flag)

/-- ACKNOWLEDGE_BURSTS_SENT (R169): the port decides the rate after the sixth further burst. R167 counts bursts in
LISTEN and ACKNOWLEDGE, and no rule says what the count shows in VERIFY, UP and SILENT: DESIGN CHOICE, it keeps its
last value, 4, there [34]. -/
def execAcknowledgeBurstsSent (p : Port) (s : State) : Host.Outcome State Fault Refusal :=
  let r := s.port p
  let offer := s.settings.offer
  done (if r.state = .acknowledge ∧ r.bursts = 4 ∧ r.further = 6 then
    match r.partnerRates with
    | none => s
    | some theirs =>
      match commonRate theirs offer.rates with
      | some k => s.modPort p fun r => { r with state := .verify, rate := some k, stuck := false }
      | none =>
        (s.modPort p PortRt.silent).raise 3 [(Port.code p : Int), ratesCode (some theirs), offer.code]
  else s)

/-- LINE_NO_ACTIVITY (R167): LISTEN, ACKNOWLEDGE and VERIFY return to DOWN. -/
def execLineNoActivity (p : Port) (s : State) : Host.Outcome State Fault Refusal :=
  done (match (s.port p).state with
    | .listen => s.modPort p PortRt.down
    | .acknowledge => s.modPort p PortRt.down
    | .verify => s.modPort p PortRt.down
    | .down => s
    | .up => s
    | .silent => s)

/-- DATA_LOCK (R170): VERIFY enters UP; for OUT, EVU takes its dispatch test. -/
def execDataLock (p : Port) (s : State) : Host.Outcome State Fault Refusal :=
  done (if (s.port p).state = .verify then
    let s := s.modPort p fun r => { r with state := .up }
    match p with
    | .inn => s
    | .out => s.dispatchTest
  else s)

/-- VERIFY_TIMEOUT (R170): VERIFY enters SILENT with no event. -/
def execVerifyTimeout (p : Port) (s : State) : Host.Outcome State Fault Refusal :=
  done (if (s.port p).state = .verify then s.modPort p PortRt.silent else s)

/-- The stuck timer runs out while the port is neither DOWN nor through VERIFY (R170). -/
def PortRt.stuckDue (r : PortRt) : Bool :=
  r.stuckTimer && r.state != .down && r.state != .verify && r.state != .up

/-- STUCK_TIMEOUT (R170): stuck becomes yes. -/
def execStuckTimeout (p : Port) (s : State) : Host.Outcome State Fault Refusal :=
  done (if (s.port p).stuckDue then s.modPort p fun r => { r with stuck := true } else s)

/-- The two ports are UP at the same rate, so frames are forwarded as they arrive (R174). -/
def State.evenRates (s : State) : Bool := s.rif.portIn.rate == s.rif.portOut.rate

/-- A frame of which these octets have arrived is being forwarded (R173, R174): RIF decides from the header, so it is
complete [46]; a frame of the part's own is removed, a Management Request to the part consumed; and forwarding as
the frame arrives takes OUT UP at IN's rate. -/
def State.forwarding (s : State) (os : List Octet) : Bool :=
  decide (4 ≤ os.length) && frameSource os != s.ownAddress &&
    !(frameClass os == 3 && frameDest os == s.ownAddress) && s.rif.portOut.state == .up && s.evenRates

/-- What becomes of the frame in transit when a port leaves UP (R171): on IN the part forwarded already
ends with an abort mark, on OUT the frame is cut off and the forwarding buffer empties [6]. -/
def State.cutTransit (s : State) (p : Port) (transit : List Octet) : State :=
  match p with
  | .inn => if s.forwarding transit then s.emitLine (.forwarded (transit.take 96) true) else s
  | .out =>
    let s := s.modRif fun r => { r with buffer := none }
    if transit = [] then s else s.emitLine (.cut transit)

/-- LINK_LOSS (R171): UP enters SILENT, link lost is set, event 1 or 2 names the cause. -/
def execLinkLoss (p : Port) (cause : LossCause) (transit : List Octet) (s : State) :
    Host.Outcome State Fault Refusal :=
  done (if (s.port p).state = .up then
    let s := s.cutTransit p transit
    let s := s.modPort p fun r => { r.silent with linkLost := true }
    s.raise (match p with | .inn => 1 | .out => 2) [(LossCause.code cause : Int)]
  else s)

/-- SILENT_END (R171): after 50 ms the port enters LISTEN on activity, DOWN otherwise. -/
def execSilentEnd (p : Port) (active : Bool) (s : State) : Host.Outcome State Fault Refusal :=
  done (if (s.port p).state = .silent then
    s.modPort p (if active then PortRt.listen else PortRt.down)
  else s)

/-! ### Forwarding and insertion -/

/-- A frame is forwarded (R174): dropped while OUT is not UP; as it arrives at equal rates; else into the
forwarding buffer, or dropped when that is in use. -/
def State.forward (s : State) (f : RxFrame) : State :=
  if s.rif.portOut.state = .up then
    if s.evenRates then s.emitLine (.forwarded f.octets f.aborted)
    else if s.rif.buffer = none then s.modRif fun r => { r with buffer := some f }
    else s
  else s

/-- The forwarding buffer is sent, once OUT is UP (R174) [6]. -/
def State.drainBuffer (s : State) : State :=
  match s.rif.buffer with
  | none => s
  | some f =>
    if s.rif.portOut.state = .up then
      (s.modRif fun r => { r with buffer := none }).emitLine (.forwarded f.octets f.aborted)
    else s

/-- The head of the lowest-numbered class that holds a frame is inserted; SEQ and CLC are told of a frame
leaving class 1, EVU of one leaving class 2 (R175). CLC offers its held frames in this event, and a channel that waits
offers its frame at its next turn, so that CLC takes the free slot where both wait (R141 lets either be first) [54]. The
source of a frame is the own address as it stands at its insertion [55]. -/
def State.insertHead (s : State) : State :=
  let own := s.ownAddress
  match s.rif.class0, s.rif.class1, s.rif.class2, s.rif.class3 with
  | f :: rest, _, _, _ =>
    (s.modRif fun r => { r with class0 := rest }).emitLine (.inserted (f.octets own))
  | [], f :: rest, _, _ =>
    (((s.modRif fun r => { r with class1 := rest }).emitLine
      (.inserted (f.octets own))).releaseQueueWaits).offerHeld
  | [], [], f :: rest, _ =>
    ((s.modRif fun r => { r with class2 := rest }).emitLine (.inserted (f.octets own))).dispatchTest
  | [], [], [], f :: rest =>
    (s.modRif fun r => { r with class3 := rest }).emitLine (.inserted (f.octets own))
  | [], [], [], [] => s

/-- FRAME_INSERTION (R175): while OUT is UP, in a gap behind the forwarded frame that waits. -/
def execFrameInsertion (s : State) : Host.Outcome State Fault Refusal :=
  done (if s.rif.portOut.state = .up then s.drainBuffer.insertHead else s)

end Sys2Proof.Machine
end

