-- ==== Sys2Proof/Machine/Objects.lean ====
section
/-! DEFINITION. Objects.lean: the management object space as it is read: the regions of 12.3 and the words
of each record (12.2, 12.4). Fields without a layout there take words in the order of their field table,
configuration fields first [11]. -/

namespace Sys2Proof.Machine

/-! ### Regions (12.3) -/

/-- The object regions, in the order of 12.3. -/
inductive Region where
  | identity
  | mgtControl
  | portIn
  | portOut
  | ringStatus
  | ringControl
  | seqControl
  | engine
  | channels
  | steps
  | sampleMap
  | phases
  | memories
  | signals
  | limits
  | allocator
  | claimQueue
  | tags
  | convParams
  | convRecord
  | alwParams
  | alwRecord
  | yawParams
  | yawRecord
  | yawWindow
  | clcParams
  | stages
  | clcRecord
  | descriptors
  | eventControl
  | summary
  | eventState
  | logHeader
  | logWindow
  | firstOut
  deriving DecidableEq, Repr

/-- Base word address and size of a region (12.3). -/
def Region.span : Region → Nat × Nat
  | .identity => (0x0000, 8)
  | .mgtControl => (0x0008, 1)
  | .portIn => (0x0010, 8)
  | .portOut => (0x0018, 8)
  | .ringStatus => (0x0020, 8)
  | .ringControl => (0x0028, 1)
  | .seqControl => (0x0100, 1)
  | .engine => (0x0108, 8)
  | .channels => (0x0200, 256)
  | .steps => (0x0400, 1024)
  | .sampleMap => (0x0800, 896)
  | .phases => (0x0C00, 128)
  | .memories => (0x0C80, 55)
  | .signals => (0x1000, 3072)
  | .limits => (0x2000, 768)
  | .allocator => (0x2400, 8)
  | .claimQueue => (0x2410, 65)
  | .tags => (0x2500, 256)
  | .convParams => (0x3000, 64)
  | .convRecord => (0x3040, 16)
  | .alwParams => (0x3100, 32)
  | .alwRecord => (0x3120, 32)
  | .yawParams => (0x3200, 32)
  | .yawRecord => (0x3240, 32)
  | .yawWindow => (0x3280, 69)
  | .clcParams => (0x3300, 32)
  | .stages => (0x3320, 48)
  | .clcRecord => (0x3360, 32)
  | .descriptors => (0x4000, 2048)
  | .eventControl => (0x4800, 1)
  | .summary => (0x4810, 16)
  | .eventState => (0x5000, 4096)
  | .logHeader => (0x6000, 3)
  | .logWindow => (0x6010, 32)
  | .firstOut => (0x6040, 65)

def Region.base (r : Region) : Nat := r.span.1
def Region.size (r : Region) : Nat := r.span.2

def allRegions : List Region :=
  [.identity, .mgtControl, .portIn, .portOut, .ringStatus, .ringControl, .seqControl, .engine,
   .channels, .steps, .sampleMap, .phases, .memories, .signals, .limits, .allocator, .claimQueue,
   .tags, .convParams, .convRecord, .alwParams, .alwRecord, .yawParams, .yawRecord, .yawWindow,
   .clcParams, .stages, .clcRecord, .descriptors, .eventControl, .summary, .eventState, .logHeader,
   .logWindow, .firstOut]

/-- The region an address lies in. -/
def regionAt (a : Nat) : Option Region :=
  allRegions.find? fun r => decide (r.base ≤ a) && decide (a < r.base + r.size)

/-! ### Words -/

def wordNat (n : Nat) : Word := BitVec.ofNat 16 n

/-- A signed field. -/
def wordInt (x : Int) : Word := BitVec.ofInt 16 x

def wordBool (b : Bool) : Word := wordNat (yesNo b)

/-- A number wider than 16 bits: two words, high word first. -/
def words32 (x : BitVec 32) : List Word := [x.extractLsb' 16 16, x.extractLsb' 0 16]

/-- A NONE that reads as 65535. -/
def wordOpt (o : Option Nat) : Word := wordNat (o.getD 65535)

def ixNat {n : Nat} (o : Option (Fin n)) : Option Nat := o.map fun (k : Fin n) => (k : Nat)

/-- A NONE that takes a presence word. The word behind a presence of 0 reads 0, which no rule states [11]. -/
def wordsPresent (o : Option Word) : List Word :=
  match o with
  | none => [0, 0]
  | some w => [1, w]

/-- A list of at most `n` elements of `k` words each: a count word, then the elements. -/
def wordsList (n k : Nat) (l : List (List Word)) : List Word :=
  let ws := l.flatten
  wordNat l.length :: (ws ++ List.replicate (n * k - ws.length) 0)

/-! ### Configuration words -/

/-- A Sample Map entry (12.4). -/
def SampleEntry.words (e : SampleEntry) : List Word :=
  [wordNat (32768 * yesNo e.valid + 256 * e.channel + e.source.toNat),
   wordNat (4096 * e.decimation + 256 * e.slot + e.target),
   wordInt e.gain, wordInt e.offset, wordInt e.low, wordInt e.high, wordNat e.rate]

/-- The configuration words of a signal record (12.4). -/
def SignalCfg.words (c : SignalCfg) : List Word :=
  [wordNat c.feed.code, wordNat c.merge.code, wordNat c.staleLimit, wordNat c.lossCode]

/-- R23. -/
def LimitCfg.words (c : LimitCfg) : List Word :=
  [wordBool c.valid, wordNat c.signal, wordNat c.kind.code, wordInt c.trip, wordInt c.release,
   wordInt c.lowTrip, wordInt c.lowRelease, wordNat c.persistence, wordBool c.latching,
   wordNat c.onLoss.code, wordNat c.action.code, wordNat c.channel, wordNat c.code]

/-- R38. -/
def ChanCfg.words (c : ChanCfg) : List Word :=
  [wordBool c.valid, wordNat c.base, wordNat c.count, wordNat c.mode.code, wordNat c.demandSignal,
   wordNat c.demandSense.code, wordInt c.demandLevel, wordBool c.reload, wordOpt (ixNat c.link),
   wordNat c.owner.code]

/-- A step (12.4). -/
def Step.words : Step → List Word
  | .emit n o v => [0, wordNat n.toNat, wordNat o, wordInt v]
  | .await i sense level t => [1, wordNat (i + 32768 * sense.code), wordInt level, wordNat t]
  | .dwell n => [2, wordNat n, 0, 0]
  | .claim t a n => [3, wordNat t, wordNat a, wordNat n]
  | .free t => [4, wordNat t, 0, 0]
  | .link c => [5, wordNat c, 0, 0]

/-- R65. -/
def TagCfg.words (c : TagCfg) : List Word :=
  [wordBool c.valid, wordNat c.name, wordNat c.cls, wordNat c.owner.code, wordOpt (ixNat c.shed)]

/-- R77. -/
def ConvCfg.words (c : ConvCfg) : List Word :=
  [wordNat c.gridA, wordNat c.gridB, wordNat c.gridC]
    ++ wordsList 6 1 (c.temps.map fun (i : SigIx) => [wordNat i])
    ++ [wordNat c.setpoint, wordNat c.heartbeat, wordNat c.group.toNat, wordNat c.precharge,
        wordNat c.run, wordNat c.stop, wordNat c.trip, wordNat c.dipEntry, wordNat c.dipExit,
        wordNat c.absent, wordNat c.absentPersistence]
    ++ c.levels.toList.map wordNat ++ c.times.toList.map wordNat
    ++ [wordNat c.blindLimit, wordNat c.autonomousCap, wordBool c.autostart, wordBool c.shedTrips]

/-- R99. -/
def AlwCfg.words (c : AlwCfg) : List Word :=
  wordNat c.length :: (c.temps.toList.map wordInt ++ c.levels.toList.map wordNat
    ++ [wordNat c.blind, wordNat c.deadBand, wordNat c.gain, wordNat c.iqMax, wordNat c.ramp])

/-- R113. -/
def YawCfg.words (c : YawCfg) : List Word :=
  [wordNat c.windDir, wordNat c.heading, wordNat c.windSpeed, wordNat c.roll, wordNat c.releaseCw,
   wordNat c.releaseCcw, wordNat c.stop, wordNat c.tag, wordNat c.amount, wordNat c.eLong,
   wordNat c.eShort, wordNat c.eLongStorm, wordNat c.eShortStorm, wordNat c.eStop, wordNat c.vMin,
   wordNat c.vStorm, wordNat c.vUnwind]
    ++ words32 (BitVec.ofNat 32 c.unwindLevel) ++ words32 (BitVec.ofNat 32 c.unwindTarget)
    ++ words32 (BitVec.ofNat 32 c.hardLimit)
    ++ [wordNat c.stallWindow, wordNat c.minMove, wordNat c.rollLimit, wordNat c.restTime]

/-- R134. -/
def ClcCfg.words (c : ClcCfg) : List Word :=
  [wordNat c.coolant, wordNat c.flowCount, wordNat c.humidity, wordOpt (ixNat c.fanTag),
   wordNat c.pumpATag, wordNat c.pumpBTag, wordOpt (ixNat c.heaterTag), wordNat c.pumpAmount,
   wordNat c.heaterAmount, wordNat c.node.toNat, wordNat c.fanOutput, wordNat c.pumpAOutput,
   wordNat c.pumpBOutput, wordNat c.heaterNode.toNat, wordNat c.heaterOutput, wordNat c.window,
   wordNat c.flowMin, wordNat c.lowWindows, wordOpt (ixNat c.aToB), wordOpt (ixNat c.bToA),
   wordNat c.noFlowFactor, wordNat c.humOn, wordNat c.humOff]

/-- R135. -/
def Stage.words (c : Stage) : List Word :=
  [wordInt c.entry, wordInt c.exit, wordInt c.fan, wordInt c.pump, wordNat c.amount,
   wordNat c.capacity, wordNat c.dwell]

/-- R152. -/
def EventCfg.words (c : EventCfg) : List Word :=
  [wordBool c.enabled, wordNat c.group, wordBool c.notify, wordBool c.acknowledged, wordBool c.log,
   wordBool c.firstOut] ++ wordsList 4 1 (c.snapshot.map fun (i : SigIx) => [wordNat i])

/-! ### Runtime words -/

/-- R172, with the burst count of R167 last. -/
def PortRt.words (r : PortRt) : List Word :=
  [wordNat r.state.code, wordNat (rateCode r.rate), wordNat (ratesCode r.partnerRates),
   wordNat (roleCode r.partnerRole), wordBool r.inverted, wordBool r.stuck, wordBool r.linkLost,
   wordNat r.bursts]

/-- Cycle state, free-run cause, ring time, class counts (R177). No rule says what the cause reads in
SYNCHRONISED, where the part holds none: 65535 [11]. -/
def RifRt.statusWords (r : RifRt) : List Word :=
  [wordNat r.cycle.code,
   match r.cycle with
   | .synchronised => 65535
   | .freeRun k => wordNat k.code]
    ++ words32 r.ringTime
    ++ [wordNat r.class0.length, wordNat r.class1.length, wordNat r.class2.length,
        wordNat r.class3.length]

/-- R62. -/
def SeqRt.engineWords (q : SeqRt) : List Word :=
  [wordOpt (ixNat q.holder), wordNat q.lastGranted,
   wordOpt (q.opened.map fun o => o.dest.toNat), wordOpt (q.opened.map fun o => o.items.length),
   wordOpt (q.opened.map fun o => o.chan)]

/-- The runtime words of a channel (R40). No rule gives a code for a held frame that is absent: both of its
words read 65535 [11]. -/
def ChanRt.words (r : ChanRt) : List Word :=
  [wordNat r.state.code, wordNat r.state.waitCode, wordNat r.timer, wordNat r.current,
   wordNat r.remaining, wordOpt (r.held.map fun f => f.dest.toNat),
   wordOpt (r.held.map fun f => f.items.length),
   wordNat (yesNo r.terminal + 2 * yesNo r.fault + 4 * yesNo r.aborted)]

def Contributor.words (k : Contributor) : List Word :=
  [wordNat k.quality.code, wordInt k.value, wordInt k.reference, wordNat k.age, wordNat k.jumps,
   wordNat k.reason.code]

/-- The runtime words of a signal record (R11). -/
def SignalRt.words (r : SignalRt) : List Word :=
  [wordInt r.value, wordNat r.quality.code, wordOpt (ixNat r.lastSlot), wordBool r.lossRaised]
    ++ r.slots.toList.flatMap Contributor.words

/-- The runtime words of a Limit Table entry (R23). -/
def LimitRt.words (r : LimitRt) : List Word :=
  [wordBool r.tripped, wordNat r.counter, wordBool r.latch]

/-- The runtime words of a load tag (R65). -/
def TagRt.words (r : TagRt) : List Word :=
  wordNat r.grant :: (words32 r.time ++ [wordOpt r.rank, wordBool r.shedding])

def Claim.words (q : Claim) : List Word :=
  [wordNat q.tag, wordNat q.amount, wordNat q.who.code, wordBool q.increase]

/-- R79. -/
def CnvRt.words (c : CnvRt) : List Word :=
  [wordNat c.state.code, wordNat c.awaited.code, wordBool c.breaker, wordNat c.cause.code,
   wordNat c.detail] ++ words32 c.time
    ++ [wordNat c.further, wordNat c.dip, wordNat c.blind, wordNat c.absent, wordBool c.hold,
        wordBool c.autonomous, wordBool c.autostartPending]

/-- R101. -/
def AlwRt.words (a : AlwRt) : List Word :=
  wordsList 8 1 (a.history.map fun m => [wordNat m])
    ++ [wordNat a.m, wordNat a.mf] ++ wordsPresent (a.tmax.map wordInt)
    ++ [wordNat a.a, wordNat a.cfUsed, wordNat a.ith, wordNat a.iq, wordNat a.ipCap, wordNat a.ipReq,
        wordNat a.ipLimit, wordNat a.ramp, wordNat a.rideLimit, wordNat a.lastIq, wordNat a.lastIp,
        wordBool a.lastBlind]

/-- R115; the window has a region of its own. -/
def YawRt.words (y : YawRt) : List Word :=
  [wordNat y.state.code, wordNat y.purpose.code, wordNat y.direction.code, wordNat y.awaited.code,
   wordBool y.faultPending, wordBool y.stopConfirmed, wordNat y.stopCause.code,
   wordNat y.faultCause.code, wordNat y.inhibit.code, wordBool y.hardBlocked]
    ++ words32 (BitVec.ofInt 32 y.twist) ++ wordsPresent (y.lastHeading.map wordInt)
    ++ [wordNat y.stallTimer] ++ words32 (BitVec.ofInt 32 y.stallBase)
    ++ words32 (BitVec.ofNat 32 y.restTimer)

/-- The Yaw Error Window (12.3): the means read 0 while the count is 0. -/
def YawRt.windowWords (y : YawRt) : List Word :=
  wordNat y.window.length :: (words32 (BitVec.ofInt 32 y.window.sum)
    ++ [wordInt (y.longMean.getD 0), wordInt (y.shortMean.getD 0)] ++ y.window.map wordInt)

/-- A held frame shown by its items (R149): at most `n`. An absent frame reads as the count 0 [11]. -/
def frameWords (n : Nat) (f : Option CmdFrame) : List Word :=
  match f with
  | none => wordsList n 2 []
  | some f => wordsList n 2 (f.items.map fun i => [wordNat i.output, wordInt i.value])

/-- R137. -/
def ClcRt.words (c : ClcRt) : List Word :=
  [wordNat c.actual, wordNat c.target] ++ words32 (BitVec.ofNat 32 c.dwell)
    ++ [wordOpt (ixNat c.stageClaim), wordBool c.heldReported, wordBool c.fullHold,
        wordNat c.duty.code, wordNat c.changeFrom.code, wordBool c.pumpClaim, wordNat c.flowTimer]
    ++ wordsPresent (c.prevCount.map wordInt) ++ wordsPresent (c.flow.map wordNat)
    ++ [wordNat c.low, wordNat c.heater.code] ++ frameWords 2 c.heldStage ++ frameWords 1 c.heldHeater
    ++ [wordNat c.cf]

/-- R154. -/
def EventRt.words (e : EventRt) : List Word :=
  [wordBool e.pending, wordNat e.kind.code, wordBool e.inService, wordBool e.recurred,
   wordNat e.count] ++ words32 e.time
    ++ wordsList 6 2 (e.detail.map fun x => words32 (BitVec.ofInt 32 x))

/-- Six words of detail values, each saturated (12.4). -/
def detailWords (d : List Int) : List Word :=
  d.map (fun x => wordInt (sat16 x)) ++ List.replicate (6 - d.length) 0

/-- One bit per detail value that was saturated (12.4). -/
def saturatedBits (d : List Int) : Nat :=
  (d.zipIdx.map fun x => if sat16 x.1 = x.1 then 0 else 2 ^ x.2).sum

def snapshotWords (l : List Int) : List Word := l.map wordInt ++ List.replicate (4 - l.length) 0

/-- Word 3 of a Fault Record (12.4). -/
def codeWord (c : Code) (k : EventKind) (d snap : List Int) : Word :=
  wordNat (c + 128 * k.code + 512 * d.length + 4096 * snap.length)

/-- A Fault Record (12.4). -/
def FaultRecord.words (r : FaultRecord) : List Word :=
  r.sequence :: (words32 r.time
    ++ [codeWord r.code r.kind r.detail r.snapshot,
        wordNat (r.count + 256 * r.conv.code + 4096 * r.yaw.code)]
    ++ detailWords r.detail ++ snapshotWords r.snapshot ++ [wordNat (saturatedBits r.detail)])

/-- A First-Out entry: the same layout with words 0 and 4 read as 0 (12.4). -/
def FirstOut.words (r : FirstOut) : List Word :=
  0 :: (words32 r.time ++ [codeWord r.code r.kind r.detail r.snapshot, 0]
    ++ detailWords r.detail ++ snapshotWords r.snapshot ++ [wordNat (saturatedBits r.detail)])

/-- Records held, oldest held sequence, next record sequence (R163). -/
def EvuRt.headerWords (e : EvuRt) : List Word :=
  [wordNat e.log.length, (e.log.head?.map FaultRecord.sequence).getD Config.emptyLogOldest, e.nextSeq]

/-- Per group the code in service or NONE, and the number of pending codes (R165). -/
def State.summaryWords (s : State) : List Word :=
  (indices 8).flatMap fun g =>
    let inGroup := fun (c : Code) => s.settings.events[c].group == g
    [wordOpt (((s.inService).find? inGroup).map fun (c : Code) => (c : Nat)),
     wordNat ((selectIx EventRt.pending s.evu.events).filter inGroup).length]

/-- R187. -/
def State.identityWords (s : State) : List Word :=
  [Config.vendorCode, Config.partCode, Config.revision, wordNat s.ownAddress.toNat,
   wordNat s.part.code, wordNat s.lastReset.code, wordBool s.saving, wordBool s.imageValid]

/-- R75, from the capacities to the sum of grants. -/
def State.allocatorWords (s : State) : List Word :=
  [wordNat s.settings.gridCap, wordNat s.settings.sagCap, wordNat s.settings.backupCap,
   wordNat s.ala.mode.code, wordNat s.budget, wordNat s.ala.sum]

/-! ### Reading -/

/-- Word `k` of a record, 0 where no field stands. -/
def wordAt (ws : List Word) (k : Nat) : Word := ws.getD k 0

/-- A word of a table of `n` entries of `stride` words. -/
def tableWord (n stride : Nat) (f : Fin n → List Word) (off : Nat) : Word :=
  if h : off / stride < n then wordAt (f ⟨off / stride, h⟩) (off % stride) else 0

/-- A channel's 32 words: the descriptor, then from word 16 the runtime fields. -/
def State.chanWords (s : State) (c : ChanIx) : List Word :=
  (s.desc c).words ++ List.replicate 6 0 ++ (s.chan c).words

/-- The word at an offset of a region, as the owning block holds it now. -/
def State.regionWord (s : State) (r : Region) (off : Nat) : Word :=
  match r with
  | .identity => wordAt s.identityWords off
  | .mgtControl => wordBool s.settings.bootAutostart
  | .portIn => wordAt s.rif.portIn.words off
  | .portOut => wordAt s.rif.portOut.words off
  | .ringStatus => wordAt s.rif.statusWords off
  | .ringControl => wordNat s.settings.offer.code
  | .seqControl => wordBool s.settings.rotating
  | .engine => wordAt s.seq.engineWords off
  | .channels => tableWord 8 32 s.chanWords off
  | .steps => tableWord 256 4 (fun i => s.settings.steps[i].words) off
  | .sampleMap => tableWord 128 7 (fun i => s.settings.sampleMap[i].words) off
  | .phases => tableWord 128 1 (fun i => [wordNat s.phases[i]]) off
  | .memories => tableWord 55 1 (fun i => [wordOpt (s.sequences[i].map BitVec.toNat)]) off
  | .signals =>
    tableWord 96 32 (fun i => s.settings.signals[i].words ++ s.signals[i].words) off
  | .limits => tableWord 48 16 (fun i => s.settings.limits[i].words ++ s.limits[i].words) off
  | .allocator => wordAt s.allocatorWords off
  | .claimQueue => wordAt (wordsList 16 4 (s.ala.queue.map Claim.words)) off
  | .tags => tableWord 16 16 (fun i => s.settings.tags[i].words ++ s.ala.tags[i].words) off
  | .convParams => wordAt s.settings.conv.words off
  | .convRecord => wordAt s.cnv.words off
  | .alwParams => wordAt s.settings.alw.words off
  | .alwRecord => wordAt s.alw.words off
  | .yawParams => wordAt s.settings.yaw.words off
  | .yawRecord => wordAt s.yaw.words off
  | .yawWindow => wordAt s.yaw.windowWords off
  | .clcParams => wordAt s.settings.clc.words off
  | .stages => tableWord 6 8 (fun i => s.settings.stages[i].words) off
  | .clcRecord => wordAt s.clc.words off
  | .descriptors => tableWord 128 16 (fun i => s.settings.events[i].words) off
  | .eventControl => wordNat s.settings.noticeDest.toNat
  | .summary => wordAt s.summaryWords off
  | .eventState => tableWord 128 32 (fun i => s.evu.events[i].words) off
  | .logHeader => wordAt s.evu.headerWords off
  | .logWindow => 0
  | .firstOut => wordAt (wordsList 4 16 (s.evu.firstOut.map FirstOut.words)) off

/-- The words of a read that passes the tests of R181. -/
def State.regionWords (s : State) (r : Region) (off len : Nat) : List Word :=
  (List.range len).map fun k => s.regionWord r (off + k)

/-- A read of the log record window (R163): from its base only, one record or more; the records from the
start sequence on, or GONE with the oldest and newest held sequences. A read to which RANGE and GONE both apply is
answered RANGE [51]. -/
def State.readLog (s : State) (off len : Nat) (start : Word) : Status × List Word :=
  if off ≠ 0 ∨ len < 16 then (.range, [])
  else
    match s.evu.log.head?, s.evu.log.getLast? with
    | some old, some new =>
      if (new.sequence - start).toNat < s.evu.log.length then
        (.ok, ((s.evu.log.drop (start - old.sequence).toNat).take (len / 16)).flatMap
          FaultRecord.words)
      else (.gone, [old.sequence, new.sequence])
    | _, _ => (.gone, [])

/-- A read of a port's status clears link lost if the port is UP (R172). -/
def State.clearLinkLost (s : State) (p : Port) : State :=
  s.modPort p fun r => if r.state = .up then { r with linkLost := false } else r

/-- The tests of R181 on an address and a length. -/
def decodeSpan (addr : Word) (len : Octet) : Except Status (Region × Nat) :=
  if len.toNat < 1 ∨ 32 < len.toNat then .error .range
  else
    match regionAt addr.toNat with
    | none => .error .noObject
    | some r =>
      if addr.toNat + len.toNat - 1 < r.base + r.size then .ok (r, addr.toNat - r.base)
      else .error .range

/-- READ (R181): the state after it, the status and the data. -/
def State.serveRead (s : State) (addr : Word) (len : Octet) (qual : Word) :
    State × Status × List Word :=
  match decodeSpan addr len with
  | .error e => (s, e, [])
  | .ok (r, off) =>
    match r with
    | .logWindow => (s, s.readLog off len.toNat qual)
    | .portIn => (s.clearLinkLost .inn, .ok, s.regionWords .portIn off len.toNat)
    | .portOut => (s.clearLinkLost .out, .ok, s.regionWords .portOut off len.toNat)
    | r => (s, .ok, s.regionWords r off len.toNat)

end Sys2Proof.Machine
end

