-- ==== Sys2Proof/Machine/Parse.lean ====
section
/-! DEFINITION. Parse.lean: the words of a management write read as configuration fields (R182, R190).
A structural field with an illegal value gives none; a magnitude is clamped, and the second component
says whether any was. -/

namespace Sys2Proof.Machine

/-! ### Fields -/

/-- An index below `n`. -/
def ixOf (n : Nat) (w : Word) : Option (Fin n) :=
  if h : w.toNat < n then some ⟨w.toNat, h⟩ else none

/-- An index below `n`, or NONE as 65535. -/
def optIxOf (n : Nat) (w : Word) : Option (Option (Fin n)) :=
  if w = 65535 then some none else (ixOf n w).map some

/-- Yes or no. -/
def boolOf (w : Word) : Option Bool :=
  if w = 0 then some false else if w = 1 then some true else none

/-- A node address in a range. -/
def nodeOf (lo hi : Nat) (w : Word) : Option Node :=
  if lo ≤ w.toNat ∧ w.toNat ≤ hi then some (BitVec.ofNat 6 w.toNat) else none

/-- A magnitude without negative range, its word read unsigned [12]. -/
def clampU (lo hi : Nat) (n : Nat) : Nat := max lo (min hi n)

/-- A per-unit magnitude, its word read signed [12]. -/
def clampS (lo hi : Nat) (w : Word) : Nat := (limitTo lo hi w.toInt).toNat

/-- The unsigned value of a word is changed by the clamp. -/
def movedU (lo hi : Nat) (n : Nat) : Bool := clampU lo hi n != n

/-- The signed value of a word is changed by the clamp. -/
def movedS (lo hi : Nat) (w : Word) : Bool := decide ((clampS lo hi w : Int) ≠ w.toInt)

/-- Two words, high word first. -/
def join32 (ws : List Word) (k : Nat) : BitVec 32 := wordAt ws k ++ wordAt ws (k + 1)

/-- The words of an entry after a write: entry `ws` begins at region offset `start`, the written words at
`off`. -/
def overlay (ws : List Word) (start off : Nat) (data : List Word) : List Word :=
  ws.zipIdx.map fun x => if off ≤ start + x.2 then (data[start + x.2 - off]?).getD x.1 else x.1

/-- A write of `len` words at `off` touches words `lo` to `hi - 1`. -/
def touches (off len lo hi : Nat) : Bool := decide (off < hi) && decide (lo < off + len)

/-- The entries of a table that a write touches. -/
def written (n stride off len : Nat) : List (Fin n) :=
  (indices n).filter fun i => touches off len (i * stride) ((i + 1) * stride)

/-- A write touches a word of a runtime field: words `lo` to `hi - 1` of an entry. -/
def hitsRuntime (n stride lo hi off len : Nat) : Bool :=
  (written n stride off len).any fun i => touches off len (i * stride + lo) (i * stride + hi)

/-! ### Entries -/

/-- A Sample Map entry (12.4, R1). Node and channel fill their bits; the source of a valid entry is
checked by R2, and that of an entry not valid by nothing [60]. -/
def sampleEntryOf (ws : List Word) : Option (SampleEntry × Bool) := do
  let w0 := wordAt ws 0
  let w1 := wordAt ws 1
  let target ← ixOf 96 ((w1.extractLsb' 0 7).setWidth 16)
  let slot ← ixOf 3 ((w1.extractLsb' 8 2).setWidth 16)
  let d := (w1.extractLsb' 12 4).toNat
  if d = 1 ∨ d = 2 ∨ d = 4 ∨ d = 8 then
    let rate := (wordAt ws 6).toNat
    some
      ({ valid := w0.msb, source := w0.extractLsb' 0 6
         channel := ⟨(w0.extractLsb' 8 4).toNat, (w0.extractLsb' 8 4).isLt⟩
         target := target, slot := slot, decimation := d
         gain := (wordAt ws 2).toInt, offset := (wordAt ws 3).toInt
         low := (wordAt ws 4).toInt, high := (wordAt ws 5).toInt
         rate := clampU 0 32767 rate }, movedU 0 32767 rate)
  else none

/-- A signal record (12.4, R11). The loss code is 0 or 32 to 127. -/
def signalOf (ws : List Word) : Option (SignalCfg × Bool) := do
  let feed ← feedOf (wordAt ws 0).toNat
  let merge ← mergeOf (wordAt ws 1).toNat
  let code ← ixOf 128 (wordAt ws 3)
  let stale := (wordAt ws 2).toNat
  if code = 0 ∨ (32 : Code) ≤ code then
    some
      ({ feed := feed, merge := merge, staleLimit := clampU 1 65535 stale, lossCode := code },
       movedU 1 65535 stale)
  else none

/-- A Limit Table entry (R23). Its event code and levels are checked by R34 when it is valid; the code of an entry
not valid is checked by nothing [60]. -/
def limitOf (ws : List Word) : Option (LimitCfg × Bool) := do
  let valid ← boolOf (wordAt ws 0)
  let signal ← ixOf 96 (wordAt ws 1)
  let kind ← limitKindOf (wordAt ws 2).toNat
  let latching ← boolOf (wordAt ws 8)
  let onLoss ← onLossOf (wordAt ws 9).toNat
  let action ← limitActionOf (wordAt ws 10).toNat
  let channel ← ixOf 8 (wordAt ws 11)
  let n := (wordAt ws 7).toNat
  some
    ({ valid := valid, signal := signal, kind := kind
       trip := (wordAt ws 3).toInt, release := (wordAt ws 4).toInt
       lowTrip := (wordAt ws 5).toInt, lowRelease := (wordAt ws 6).toInt
       persistence := clampU 1 255 n, latching := latching, onLoss := onLoss, action := action
       channel := channel, code := (wordAt ws 12).toNat }, movedU 1 255 n)

/-- A channel descriptor (R38, R39): base step and count within the Step List. -/
def chanOf (ws : List Word) : Option ChanCfg := do
  let valid ← boolOf (wordAt ws 0)
  let base ← ixOf 256 (wordAt ws 1)
  let count := (wordAt ws 2).toNat
  let mode ← runModeOf (wordAt ws 3).toNat
  let signal ← ixOf 96 (wordAt ws 4)
  let sense ← senseOf (wordAt ws 5).toNat
  let reload ← boolOf (wordAt ws 7)
  let link ← optIxOf 8 (wordAt ws 8)
  let owner ← ownerOf (wordAt ws 9).toNat
  if 1 ≤ count ∧ count ≤ 64 ∧ base + count ≤ 256 then
    some
      { valid := valid, base := base, count := count, mode := mode, demandSignal := signal
        demandSense := sense, demandLevel := (wordAt ws 6).toInt, reload := reload, link := link
        owner := owner }
  else none

/-- A step (12.4, R41). -/
def stepOf (ws : List Word) : Option (Step × Bool) := do
  let w1 := wordAt ws 1
  let w2 := wordAt ws 2
  let w3 := wordAt ws 3
  match ((wordAt ws 0).extractLsb' 0 3).toNat with
  | 0 =>
    let node ← nodeOf 1 63 w1
    let output ← ixOf 16 w2
    some (.emit node output w3.toInt, false)
  | 1 =>
    let signal ← ixOf 96 ((w1.extractLsb' 0 7).setWidth 16)
    some (.await signal (if w1.msb then .below else .above) w2.toInt (clampU 1 65535 w3.toNat),
      movedU 1 65535 w3.toNat)
  | 2 => some (.dwell (clampU 1 65535 w1.toNat), movedU 1 65535 w1.toNat)
  | 3 =>
    let tag ← ixOf 16 w1
    some (.claim tag (clampU 1 65535 w2.toNat) (clampU 1 65535 w3.toNat),
      movedU 1 65535 w2.toNat || movedU 1 65535 w3.toNat)
  | 4 =>
    let tag ← ixOf 16 w1
    some (.free tag, false)
  | 5 =>
    let channel ← ixOf 8 w1
    some (.link channel, false)
  | _ => none

/-- A load tag (R65); ALLOCATOR owns channels only. -/
def tagOf (ws : List Word) : Option TagCfg := do
  let valid ← boolOf (wordAt ws 0)
  let name ← ixOf 256 (wordAt ws 1)
  let cls ← ixOf 5 (wordAt ws 2)
  let owner ← ownerOf (wordAt ws 3).toNat
  let shed ← optIxOf 8 (wordAt ws 4)
  if owner = .allocator then none
  else some { valid := valid, name := name, cls := cls, owner := owner, shed := shed }

/-- A counted list of signal indices of at most `n`, from word `k`. Element words beyond the count are neither
checked nor stored [45]. -/
def signalListOf (n : Nat) (ws : List Word) (k : Nat) : Option (List SigIx) :=
  let c := (wordAt ws k).toNat
  if c ≤ n then ((List.range c).map fun j => ixOf 96 (wordAt ws (k + 1 + j))).mapM id else none

/-- The conversion parameter object (R77, R78), with the checks of its fields among one another. -/
def convOf (ws : List Word) : Option (ConvCfg × Bool) := do
  let gridA ← ixOf 96 (wordAt ws 0)
  let gridB ← ixOf 96 (wordAt ws 1)
  let gridC ← ixOf 96 (wordAt ws 2)
  let temps ← signalListOf 6 ws 3
  let setpoint ← ixOf 96 (wordAt ws 10)
  let heartbeat ← ixOf 96 (wordAt ws 11)
  let group ← nodeOf 56 62 (wordAt ws 12)
  let precharge ← ixOf 8 (wordAt ws 13)
  let run ← ixOf 8 (wordAt ws 14)
  let stop ← ixOf 8 (wordAt ws 15)
  let trip ← ixOf 8 (wordAt ws 16)
  let autostart ← boolOf (wordAt ws 31)
  let shedTrips ← boolOf (wordAt ws 32)
  let q := fun (k : Nat) => clampS 0 32767 (wordAt ws k)
  let entry := q 17
  let exit := q 18
  let absent := q 19
  let persist := (wordAt ws 20).toNat
  let blind := (wordAt ws 29).toNat
  let distinct : Bool := decide [gridA, gridB, gridC].Nodup && decide [precharge, run, stop, trip].Nodup
  let levels : Bool := decide (absent ≤ entry) && decide (entry ≤ exit)
  let curve : Bool := decide (q 21 < q 22) && decide (q 22 < q 23) && decide (q 23 < q 24)
  if distinct && levels && curve then
    some
      ({ gridA := gridA, gridB := gridB, gridC := gridC, temps := temps, setpoint := setpoint
         heartbeat := heartbeat, group := group, precharge := precharge, run := run, stop := stop
         trip := trip, dipEntry := entry, dipExit := exit, absent := absent
         absentPersistence := clampU 1 255 persist
         levels := #v[q 21, q 22, q 23, q 24]
         times := #v[(wordAt ws 25).toNat, (wordAt ws 26).toNat, (wordAt ws 27).toNat,
                     (wordAt ws 28).toNat]
         blindLimit := clampU 1 255 blind, autonomousCap := q 30
         autostart := autostart, shedTrips := shedTrips },
       movedU 1 255 persist || movedU 1 255 blind ||
         [17, 18, 19, 21, 22, 23, 24, 30].any fun k => movedS 0 32767 (wordAt ws k))
  else none

/-- The allowance parameter object (R99, R100). -/
def alwOf (ws : List Word) : Option (AlwCfg × Bool) :=
  let len := (wordAt ws 0).toNat
  let t := fun (k : Nat) => (wordAt ws (1 + k)).toInt
  let a := fun (k : Nat) => clampS 0 20480 (wordAt ws (9 + k))
  let rising := (List.range 7).all fun k => decide (t k < t (k + 1))
  if (len = 1 ∨ len = 2 ∨ len = 4 ∨ len = 8) ∧ rising = true then
    some
      ({ length := len
         temps := #v[t 0, t 1, t 2, t 3, t 4, t 5, t 6, t 7]
         levels := #v[a 0, a 1, a 2, a 3, a 4, a 5, a 6, a 7]
         blind := a 8, deadBand := clampS 0 32767 (wordAt ws 18)
         gain := clampS 0 2560 (wordAt ws 19), iqMax := clampS 0 32767 (wordAt ws 20)
         ramp := clampS 1 1024 (wordAt ws 21) },
       ((List.range 9).any fun k => movedS 0 20480 (wordAt ws (9 + k))) ||
         movedS 0 32767 (wordAt ws 18) || movedS 0 2560 (wordAt ws 19) ||
         movedS 0 32767 (wordAt ws 20) || movedS 1 1024 (wordAt ws 21))
  else none

/-- The magnitudes of the yaw parameter object: word, lowest and highest value (R113). -/
def yawRanges : List (Nat × Nat × Nat) :=
  [(9, 1, 18000), (10, 1, 18000), (11, 1, 18000), (12, 1, 18000), (13, 0, 17999), (14, 0, 32767),
   (15, 0, 32767), (16, 0, 32767), (23, 1, 65535), (24, 1, 18000), (25, 0, 32767), (26, 0, 1023)]

/-- The yaw parameter object (R113, R114). -/
def yawOf (ws : List Word) : Option (YawCfg × Bool) := do
  let windDir ← ixOf 96 (wordAt ws 0)
  let heading ← ixOf 96 (wordAt ws 1)
  let windSpeed ← ixOf 96 (wordAt ws 2)
  let roll ← ixOf 96 (wordAt ws 3)
  let releaseCw ← ixOf 8 (wordAt ws 4)
  let releaseCcw ← ixOf 8 (wordAt ws 5)
  let stop ← ixOf 8 (wordAt ws 6)
  let tag ← ixOf 16 (wordAt ws 7)
  let m := fun (k lo hi : Nat) => clampU lo hi (wordAt ws k).toNat
  let big := fun (k lo hi : Nat) => clampU lo hi (join32 ws k).toNat
  let eStop := m 13 0 17999
  let level := big 17 1 1000000
  let target := big 19 0 999999
  let hard := big 21 1 1000000
  let below : Bool := [m 9 1 18000, m 10 1 18000, m 11 1 18000, m 12 1 18000].all fun e =>
    decide (eStop < e)
  if [releaseCw, releaseCcw, stop].Nodup ∧ below = true ∧ target < level ∧ level ≤ hard then
    some
      ({ windDir := windDir, heading := heading, windSpeed := windSpeed, roll := roll
         releaseCw := releaseCw, releaseCcw := releaseCcw, stop := stop, tag := tag
         amount := (wordAt ws 8).toNat, eLong := m 9 1 18000, eShort := m 10 1 18000
         eLongStorm := m 11 1 18000, eShortStorm := m 12 1 18000, eStop := eStop
         vMin := m 14 0 32767, vStorm := m 15 0 32767, vUnwind := m 16 0 32767
         unwindLevel := level, unwindTarget := target, hardLimit := hard
         stallWindow := m 23 1 65535, minMove := m 24 1 18000, rollLimit := m 25 0 32767
         restTime := m 26 0 1023 },
       yawRanges.any (fun x => movedU x.2.1 x.2.2 (wordAt ws x.1).toNat) ||
         movedU 1 1000000 (join32 ws 17).toNat || movedU 0 999999 (join32 ws 19).toNat ||
         movedU 1 1000000 (join32 ws 21).toNat)
  else none

/-- The magnitudes of the cooling parameter object read unsigned: word, lowest and highest (R134). -/
def clcRanges : List (Nat × Nat × Nat) :=
  [(7, 1, 65535), (8, 1, 65535), (15, 1, 65535), (16, 0, 32767), (17, 1, 255), (21, 0, 1000),
   (22, 0, 1000)]

/-- The cooling parameter object (R134, R136). -/
def clcOf (ws : List Word) : Option (ClcCfg × Bool) := do
  let coolant ← ixOf 96 (wordAt ws 0)
  let flowCount ← ixOf 96 (wordAt ws 1)
  let humidity ← ixOf 96 (wordAt ws 2)
  let fanTag ← optIxOf 16 (wordAt ws 3)
  let pumpATag ← ixOf 16 (wordAt ws 4)
  let pumpBTag ← ixOf 16 (wordAt ws 5)
  let heaterTag ← optIxOf 16 (wordAt ws 6)
  let node ← nodeOf 1 63 (wordAt ws 9)
  let fanOutput ← ixOf 16 (wordAt ws 10)
  let pumpAOutput ← ixOf 16 (wordAt ws 11)
  let pumpBOutput ← ixOf 16 (wordAt ws 12)
  let heaterNode ← nodeOf 1 63 (wordAt ws 13)
  let heaterOutput ← ixOf 16 (wordAt ws 14)
  let aToB ← optIxOf 8 (wordAt ws 18)
  let bToA ← optIxOf 8 (wordAt ws 19)
  let m := fun (k lo hi : Nat) => clampU lo hi (wordAt ws k).toNat
  let humOn := m 21 0 1000
  let humOff := m 22 0 1000
  let tags := fanTag.toList ++ [pumpATag, pumpBTag] ++ heaterTag.toList
  if tags.Nodup ∧ (aToB.toList ++ bToA.toList).Nodup ∧ humOff < humOn then
    some
      ({ coolant := coolant, flowCount := flowCount, humidity := humidity, fanTag := fanTag
         pumpATag := pumpATag, pumpBTag := pumpBTag, heaterTag := heaterTag
         pumpAmount := m 7 1 65535, heaterAmount := m 8 1 65535, node := node
         fanOutput := fanOutput, pumpAOutput := pumpAOutput, pumpBOutput := pumpBOutput
         heaterNode := heaterNode, heaterOutput := heaterOutput, window := m 15 1 65535
         flowMin := m 16 0 32767, lowWindows := m 17 1 255, aToB := aToB, bToA := bToA
         noFlowFactor := clampS 0 16384 (wordAt ws 20), humOn := humOn, humOff := humOff },
       clcRanges.any (fun x => movedU x.2.1 x.2.2 (wordAt ws x.1).toNat) ||
         movedS 0 16384 (wordAt ws 20))
  else none

/-- A stage (R135). -/
def stageOf (ws : List Word) : Stage × Bool :=
  let dwell := (wordAt ws 6).toNat
  ({ entry := (wordAt ws 0).toInt, exit := (wordAt ws 1).toInt, fan := (wordAt ws 2).toInt
     pump := (wordAt ws 3).toInt, amount := (wordAt ws 4).toNat
     capacity := clampS 0 16384 (wordAt ws 5), dwell := clampU 0 1023 dwell },
   movedS 0 16384 (wordAt ws 5) || movedU 0 1023 dwell)

/-- The order the Cooling Stage Table keeps (R136). -/
def stagesOrdered (v : Vector Stage 6) : Bool :=
  let l := v.toList
  (l.zip l.tail).all (fun x => decide (x.1.entry ≤ x.2.entry) && decide (x.1.amount ≤ x.2.amount)) &&
    l.tail.all (fun x => decide (x.exit < x.entry)) && v[0].amount == 0

/-- An event descriptor (R152, R153). -/
def eventOf (ws : List Word) : Option EventCfg := do
  let enabled ← boolOf (wordAt ws 0)
  let group ← ixOf 8 (wordAt ws 1)
  let notify ← boolOf (wordAt ws 2)
  let acknowledged ← boolOf (wordAt ws 3)
  let log ← boolOf (wordAt ws 4)
  let firstOut ← boolOf (wordAt ws 5)
  let snapshot ← signalListOf 4 ws 6
  some
    { enabled := enabled, group := group, notify := notify, acknowledged := acknowledged, log := log
      firstOut := firstOut, snapshot := snapshot }

end Sys2Proof.Machine
end

