-- ==== Sys2Proof/Machine/Writes.lean ====
section
/-! DEFINITION. Writes.lean: the write rule of each table and parameter object (R182): its checks in the
order of its table, what is stored, and what the stored write does to the block's runtime state. -/

namespace Sys2Proof.Machine

/-! ### Shared -/

/-- The state and the status of the answer after a write: the first check that fails refuses it, else it is
stored (R182). A check is its failure and the status that answers it. -/
def State.judge (s : State) (checks : List (Bool × Status)) (clamped : Bool) (stored : State) :
    State × Status :=
  match checks.find? Prod.fst with
  | some c => (s, c.2)
  | none => (stored, if clamped then .okClamped else .ok)

/-- The entries of a table a write touches, each read from its words after the write. A write whose span in an
entry holds unoccupied words alone touches that entry as well: R190 keeps their values out, and no rule says that
such a write is none [40]. -/
def writtenEntries {α : Type} (n stride : Nat) (words : Fin n → List Word)
    (parse : List Word → Option α) (off : Nat) (data : List Word) : Option (List (Fin n × α)) :=
  (written n stride off data.length).mapM fun i =>
    (parse (overlay (words i) (i * stride) off data)).map fun x => (i, x)

/-- The table with its written entries stored. -/
def storeEntries {α : Type} {n : Nat} (v : Vector α n) (es : List (Fin n × α)) : Vector α n :=
  es.foldl (fun v e => v.set e.1 e.2) v

/-- The entries without their clamp marks. -/
def unmark {α ι : Type} (es : List (ι × α × Bool)) : List (ι × α) := es.map fun e => (e.1, e.2.1)

/-- Any entry was clamped. -/
def anyClamped {α ι : Type} (es : List (ι × α × Bool)) : Bool := es.any fun e => e.2.2

def State.withSettings (s : State) (f : Settings → Settings) : State :=
  { s with settings := f s.settings }

/-- CNV is OFF or TRIPPED. -/
def State.convAtRest (s : State) : Bool := s.cnv.state == .off || s.cnv.state == .tripped

/-- YAW is HELD or FAULT. -/
def State.yawAtRest (s : State) : Bool := s.yaw.state == .held || s.yaw.state == .fault

/-! ### Sample Map (R2, R3) -/

/-- A contributor cleared by a map write: its value, reference, JUMP count and reason (R3). -/
def Contributor.cleared (k : Contributor) : Contributor :=
  { k with quality := .absent, value := 0, reference := 0, jumps := 0, reason := .none }

/-- The contributor an entry feeds, if it is valid. -/
def SampleEntry.feeds (e : SampleEntry) : List (SigIx × SlotIx) :=
  if e.valid then [(e.target, e.slot)] else []

/-- A map write is stored (R3). The signals it touches are evaluated in the order in which the written entries name them,
the old target of an entry before its new one [9]; their last-accepted slots are kept [30]. -/
def State.storeSampleMap (s : State) (es : List (MapIx × SampleEntry)) : State :=
  let old := s.settings.sampleMap
  let hit := es.flatMap fun e => old[e.1].feeds ++ e.2.feeds
  let s := s.withSettings fun st => { st with sampleMap := storeEntries st.sampleMap es }
  let s := { s with phases := storeEntries s.phases (es.map fun e => (e.1, 0)) }
  let s := hit.foldl (fun s x => s.modSlot x.1 x.2 Contributor.cleared) s
  (hit.map Prod.fst).eraseDups.foldl State.evaluateWrite s

/-- A valid written entry shares what `f` names with another valid entry of the map. -/
def clashes {α : Type} [BEq α] (v : Vector SampleEntry 128) (f : SampleEntry → α)
    (es : List (MapIx × SampleEntry)) : Bool :=
  es.any fun e => e.2.valid &&
    (((indices 128).zip v.toList).any fun x => x.1 != e.1 && x.2.valid && f x.2 == f e.2)

/-- A write of Sample Map entries, with the checks of R2 in their order. R1 gives the source node the range 1 to 55 and
accepts 0 while not valid, and R2 checks the source of valid entries alone. DESIGN CHOICE: an entry that is not valid is
stored and read back with a source of 56 to 63 as well [60]. -/
def State.writeSampleMap (s : State) (off : Nat) (data : List Word) : State × Status :=
  match writtenEntries 128 7 (fun i => s.settings.sampleMap[i].words) sampleEntryOf off data with
  | none => (s, .range)
  | some marked =>
    let es := unmark marked
    let v := storeEntries s.settings.sampleMap es
    s.judge
      [(es.any fun e => e.2.valid && (nodeIx e.2.source).isNone, .range),
       (es.any fun e => decide (e.2.high < e.2.low), .range),
       (clashes v (fun e => (e.source, e.channel)) es, .duplicate),
       (clashes v (fun e => (e.target, e.slot)) es, .duplicate),
       (es.any fun e => e.2.valid && s.settings.signals[e.2.target].feed != .sampled, .state),
       (s.saving, .busy)]
      (anyClamped marked) (s.storeSampleMap es)

/-! ### Signal records (R12) -/

/-- A record's runtime after a stored write: reset when feed or merge mode changed, and the readers told
when the record moved or is LOST afresh (R12, R22). -/
def State.storeSignalRuntime (s : State) (old : Vector SignalCfg 96) (i : SigIx) (c : SignalCfg) :
    State :=
  if old[i].feed = c.feed ∧ old[i].merge = c.merge then s
  else
    let t := s.modSignal i fun _ => resetSignal s.settings i
    if signalMoved s t i || t.signals[i].quality == .lost then t.notify i .change else t

def State.storeSignals (s : State) (es : List (SigIx × SignalCfg)) : State :=
  let old := s.settings.signals
  let s := s.withSettings fun st => { st with signals := storeEntries st.signals es }
  es.foldl (fun s e => s.storeSignalRuntime old e.1 e.2) s

/-- A written DERIVED record shares its (owner, quantity) pair with another record (R12). -/
def derivedTwice (v : Vector SignalCfg 96) (es : List (SigIx × SignalCfg)) : Bool :=
  es.any fun e => e.2.feed != .sampled &&
    ((indices 96).zip v.toList).any fun x => x.1 != e.1 && x.2.feed == e.2.feed

def State.writeSignals (s : State) (off : Nat) (data : List Word) : State × Status :=
  match writtenEntries 96 32 (fun i => s.settings.signals[i].words) signalOf off data with
  | none => (s, .range)
  | some marked =>
    let es := unmark marked
    let v := storeEntries s.settings.signals es
    s.judge
      [(es.any fun (e : SigIx × SignalCfg) => e.2.feed != .sampled && anyConfigured s.settings e.1,
          .state),
       (derivedTwice v es, .duplicate),
       (s.saving, .busy),
       (hitsRuntime 96 32 4 26 off data.length, .readOnly)]
      (anyClamped marked) (s.storeSignals es)

/-! ### Limit Table (R34, R35) -/

def State.storeLimits (s : State) (es : List (LimIx × LimitCfg)) : State :=
  let s := s.withSettings fun st => { st with limits := storeEntries st.limits es }
  let s := { s with limits := storeEntries s.limits (es.map fun (e : LimIx × LimitCfg) => (e.1, resetLimit)) }
  s.updateHolds

/-- A valid entry with action CONVERTER_BLOCK. -/
def LimitCfg.blocks (c : LimitCfg) : Bool := c.valid && c.action == .converterBlock

/-- A write of Limit Table entries, with the checks of R34 in their order. R23 gives the event code the range 32 to
127, and R34 checks it in valid entries alone. DESIGN CHOICE: an entry that is not valid is stored and read back with
any code of 16 bits [60]. -/
def State.writeLimits (s : State) (off : Nat) (data : List Word) : State × Status :=
  if hitsRuntime 48 16 13 16 off data.length then (s, .readOnly)
  else
    match writtenEntries 48 16 (fun i => s.settings.limits[i].words) limitOf off data with
    | none => (s, .range)
    | some marked =>
      let es := unmark marked
      s.judge
        [(es.any fun e => e.2.valid && !(decide (32 ≤ e.2.code) && decide (e.2.code ≤ 127)), .range),
         (es.any fun e => e.2.valid && !e.2.ordered, .range),
         (!s.convAtRest && (es.any fun e => e.2.blocks || s.settings.limits[e.1].blocks), .state),
         (s.saving, .busy)]
        (anyClamped marked) (s.storeLimits es)

/-! ### Channels, priority scheme, Step List (R39, R42) -/

/-- The written channels' current step and remaining count load from the descriptor (R39), though the write may
name unoccupied words of the entry alone [40]. -/
def State.storeChans (s : State) (es : List (ChanIx × ChanCfg)) : State :=
  let s := s.withSettings fun st => { st with chans := storeEntries st.chans es }
  es.foldl
    (fun s e => s.modChan e.1 fun r => { r with current := e.2.base, remaining := e.2.count }) s

/-- A write of channel descriptors (R39). One that names unoccupied words alone is a write of its descriptor
too: BUSY unless MASKED, and stored [40]. -/
def State.writeChans (s : State) (off : Nat) (data : List Word) : State × Status :=
  if hitsRuntime 8 32 16 24 off data.length then (s, .readOnly)
  else
    match writtenEntries 8 32 (fun i => (s.desc i).words) chanOf off data with
    | none => (s, .range)
    | some es =>
      s.judge [(es.any fun e => !s.isMasked e.1, .busy), (s.saving, .busy)] false (s.storeChans es)

/-- A write of the priority scheme (R38, R39). No rule orders its two refusals: RANGE is tested before BUSY [50]. -/
def State.writeScheme (s : State) (data : List Word) : State × Status :=
  match boolOf (wordAt data 0) with
  | none => (s, .range)
  | some b => s.judge [(s.saving, .busy)] false (s.withSettings fun st => { st with rotating := b })

/-- A step lies inside the range of a channel that is not MASKED (R42). -/
def State.stepGuarded (s : State) (k : StepIx) : Bool :=
  (indices 8).any fun c =>
    !s.isMasked c && decide ((s.desc c).base ≤ k) && decide ((k : Nat) < (s.desc c).base + (s.desc c).count)

def State.writeSteps (s : State) (off : Nat) (data : List Word) : State × Status :=
  match writtenEntries 256 4 (fun i => s.settings.steps[i].words) stepOf off data with
  | none => (s, .range)
  | some marked =>
    let es := unmark marked
    s.judge [(es.any fun e => s.stepGuarded e.1, .busy), (s.saving, .busy)] (anyClamped marked)
      (s.withSettings fun st => { st with steps := storeEntries st.steps es })

/-! ### Allocator (R64, R66) -/

/-- The effect of a changed budget of the current mode (R64, R71). -/
def State.capacityMoved (s : State) (old : Nat) : State :=
  if s.budget < old then (if s.budget < s.ala.sum then s.shedPass else s)
  else if old < s.budget then s.headTest
  else s

/-- A write of the allocator object (R64). No rule orders its two refusals: READ_ONLY is tested before
BUSY [42]. -/
def State.writeAllocator (s : State) (off : Nat) (data : List Word) : State × Status :=
  if touches off data.length 3 6 then (s, .readOnly)
  else
    let ws := overlay s.allocatorWords 0 off data
    let t := s.withSettings fun st =>
      { st with gridCap := (wordAt ws 0).toNat, sagCap := (wordAt ws 1).toNat,
                backupCap := (wordAt ws 2).toNat }
    s.judge [(s.saving, .busy)] false (t.capacityMoved s.budget)

def State.storeTags (s : State) (es : List (TagIx × TagCfg)) : State :=
  let s := s.withSettings fun st => { st with tags := storeEntries st.tags es }
  es.foldl
    (fun s e => if e.2.valid then s else s.modTag e.1 fun r => { r with shedding := false }) s

def State.writeTags (s : State) (off : Nat) (data : List Word) : State × Status :=
  if hitsRuntime 16 16 5 10 off data.length then (s, .readOnly)
  else
    match writtenEntries 16 16 (fun i => s.settings.tags[i].words) tagOf off data with
    | none => (s, .range)
    | some es =>
      s.judge
        [(es.any fun e => (s.tag e.1).grant != 0 || s.ala.queued e.1, .busy), (s.saving, .busy)]
        false (s.storeTags es)

/-! ### Parameter objects (R78, R100, R114, R118, R136) -/

def State.writeConv (s : State) (off : Nat) (data : List Word) : State × Status :=
  match convOf (overlay s.settings.conv.words 0 off data) with
  | none => (s, .range)
  | some (c, moved) =>
    s.judge [(!s.convAtRest, .state), (s.saving, .busy)] moved
      (s.withSettings fun st => { st with conv := c })

/-- A stored change of L empties the magnitude history (R100). -/
def State.storeAlw (s : State) (c : AlwCfg) : State :=
  let t := s.withSettings fun st => { st with alw := c }
  if s.settings.alw.length = c.length then t else t.modAlw fun a => { a with history := [] }

def State.writeAlw (s : State) (off : Nat) (data : List Word) : State × Status :=
  match alwOf (overlay s.settings.alw.words 0 off data) with
  | none => (s, .range)
  | some (c, moved) => s.judge [(s.saving, .busy)] moved (s.storeAlw c)

/-- A changed wind direction signal empties the window; a changed heading signal makes the last heading
NONE (R114). -/
def State.storeYaw (s : State) (c : YawCfg) : State :=
  let old := s.settings.yaw
  (s.withSettings fun st => { st with yaw := c }).modYaw fun y =>
    { y with
      window := if old.windDir = c.windDir then y.window else []
      lastHeading := if old.heading = c.heading then y.lastHeading else none }

def State.writeYaw (s : State) (off : Nat) (data : List Word) : State × Status :=
  match yawOf (overlay s.settings.yaw.words 0 off data) with
  | none => (s, .range)
  | some (c, moved) =>
    s.judge [(!s.yawAtRest, .state), (s.saving, .busy)] moved (s.storeYaw c)

/-- A write of the yaw record: the twist words 10 and 11 alone may be written (R114, R118). -/
def State.writeTwist (s : State) (off : Nat) (data : List Word) : State × Status :=
  if off < 10 ∨ 12 < off + data.length then (s, .readOnly)
  else
    let v := (join32 (overlay s.yaw.words 0 off data) 10).toInt
    let c := limitTo (-1000000) 1000000 v
    s.judge [(!s.yawAtRest, .state), (s.saving, .busy)] (c != v) (s.presetTwist c)

/-- A cooling write is refused in OPERATING, then while saving (R136). -/
def State.clcChecks (s : State) : List (Bool × Status) := [(s.operating, .state), (s.saving, .busy)]

/-- A write of the cooling parameters (R136). One that names unoccupied words alone counts as a stored
write [40]. -/
def State.writeClc (s : State) (off : Nat) (data : List Word) : State × Status :=
  match clcOf (overlay s.settings.clc.words 0 off data) with
  | none => (s, .range)
  | some (c, moved) =>
    s.judge s.clcChecks moved
      ((s.restartClaims.heatersOff).withSettings fun st => { st with clc := c }).restartStages

/-- A write of the Cooling Stage Table (R136). One that names unoccupied words alone counts as a stored
write [40]. -/
def State.writeStages (s : State) (off : Nat) (data : List Word) : State × Status :=
  match writtenEntries 6 8 (fun i => s.settings.stages[i].words) (fun ws => some (stageOf ws)) off data
  with
  | none => (s, .range)
  | some marked =>
    let v := storeEntries s.settings.stages (unmark marked)
    s.judge ((!stagesOrdered v, .range) :: s.clcChecks) (anyClamped marked)
      (s.restartClaims.withSettings fun st => { st with stages := v }).restartStages

/-! ### Events, ring, management (R152, R153, R172, R187) -/

/-- A descriptor that becomes not enabled clears pending, in service and recurred (R153). -/
def State.storeEvents (s : State) (es : List (Code × EventCfg)) : State :=
  let s := s.withSettings fun st => { st with events := storeEntries st.events es }
  let s := es.foldl
    (fun s e =>
      if e.2.enabled then s
      else s.modEvent e.1 fun r => { r with pending := false, inService := false, recurred := false })
    s
  s.dispatchTest

def State.writeEvents (s : State) (off : Nat) (data : List Word) : State × Status :=
  match writtenEntries 128 16 (fun i => s.settings.events[i].words) eventOf off data with
  | none => (s, .range)
  | some es =>
    s.judge
      [(es.any fun e => s.evu.events[e.1].inService && s.settings.events[e.1].group != e.2.group,
         .busy),
       (s.saving, .busy)]
      false (s.storeEvents es)

/-- A write of the notice destination (R152). No rule orders its two refusals: RANGE is tested before BUSY [50]. -/
def State.writeEventControl (s : State) (data : List Word) : State × Status :=
  match nodeOf 1 63 (wordAt data 0) with
  | none => (s, .range)
  | some n => s.judge [(s.saving, .busy)] false (s.withSettings fun st => { st with noticeDest := n })

/-- A write of the offered rates (R172): RANGE, then BUSY, as the rule names them [50]. -/
def State.writeRingControl (s : State) (data : List Word) : State × Status :=
  match offerOf (wordAt data 0).toNat with
  | none => (s, .range)
  | some o => s.judge [(s.saving, .busy)] false (s.withSettings fun st => { st with offer := o })

/-- A write of boot autostart (R187): RANGE, then BUSY, as the rule names them [50]. -/
def State.writeMgtControl (s : State) (data : List Word) : State × Status :=
  match boolOf (wordAt data 0) with
  | none => (s, .range)
  | some b =>
    s.judge [(s.saving, .busy)] false (s.withSettings fun st => { st with bootAutostart := b })

/-! ### Decode (R181) -/

/-- The write rule of the block that owns a region; a region of runtime fields alone answers READ_ONLY
(R181). -/
def State.writeRegion (s : State) (r : Region) (off : Nat) (data : List Word) : State × Status :=
  match r with
  | .mgtControl => s.writeMgtControl data
  | .ringControl => s.writeRingControl data
  | .seqControl => s.writeScheme data
  | .channels => s.writeChans off data
  | .steps => s.writeSteps off data
  | .sampleMap => s.writeSampleMap off data
  | .signals => s.writeSignals off data
  | .limits => s.writeLimits off data
  | .allocator => s.writeAllocator off data
  | .tags => s.writeTags off data
  | .convParams => s.writeConv off data
  | .alwParams => s.writeAlw off data
  | .yawParams => s.writeYaw off data
  | .yawRecord => s.writeTwist off data
  | .clcParams => s.writeClc off data
  | .stages => s.writeStages off data
  | .descriptors => s.writeEvents off data
  | .eventControl => s.writeEventControl data
  | .identity => (s, .readOnly)
  | .portIn => (s, .readOnly)
  | .portOut => (s, .readOnly)
  | .ringStatus => (s, .readOnly)
  | .engine => (s, .readOnly)
  | .phases => (s, .readOnly)
  | .memories => (s, .readOnly)
  | .claimQueue => (s, .readOnly)
  | .convRecord => (s, .readOnly)
  | .alwRecord => (s, .readOnly)
  | .yawWindow => (s, .readOnly)
  | .clcRecord => (s, .readOnly)
  | .summary => (s, .readOnly)
  | .eventState => (s, .readOnly)
  | .logHeader => (s, .readOnly)
  | .logWindow => (s, .readOnly)
  | .firstOut => (s, .readOnly)

/-- WRITE (R181): the tests on length and address, then the owning block's rule. -/
def State.serveWrite (s : State) (addr : Word) (len : Octet) (data : List Word) : State × Status :=
  if data.length ≠ len.toNat then (s, .range)
  else
    match decodeSpan addr len with
    | .error e => (s, e)
    | .ok (r, off) => s.writeRegion r off data

end Sys2Proof.Machine
end

