-- ==== Sys2Proof/Machine/Part.lean ====
section
/-! DEFINITION. Part.lean: MGT's part states, the commission checks, the settings image and the resets
(chapter 11), and the commands of these rows that are no Management Requests. -/

namespace Sys2Proof.Machine

/-! ### Commission checks (R184) -/

/-- The designated signals and the addresses of their fields, in field order. A module temperature has the address
of its own element word, and not that of the list's count word [44]. -/
def Settings.designatedSignals (st : Settings) : List (Nat × SigIx) :=
  [(0x3000, st.conv.gridA), (0x3001, st.conv.gridB), (0x3002, st.conv.gridC)]
    ++ st.conv.temps.zipIdx.map (fun x => (0x3004 + x.2, x.1))
    ++ [(0x300A, st.conv.setpoint), (0x300B, st.conv.heartbeat),
        (0x3200, st.yaw.windDir), (0x3201, st.yaw.heading), (0x3202, st.yaw.windSpeed),
        (0x3203, st.yaw.roll),
        (0x3300, st.clc.coolant), (0x3301, st.clc.flowCount), (0x3302, st.clc.humidity)]

/-- A designated channel, with the address of its field and the number of its object. -/
structure Designated where
  addr : Nat
  object : Nat
  chan : ChanIx
  deriving DecidableEq, Repr

/-- A changeover channel other than NONE. -/
def designateOpt (addr : Nat) (c : Option ChanIx) : List Designated :=
  (c.map fun k => { addr := addr, object := 2, chan := k }).toList

/-- The designated channels other than NONE, in field order. -/
def Settings.designatedChans (st : Settings) : List Designated :=
  [⟨0x300D, 0, st.conv.precharge⟩, ⟨0x300E, 0, st.conv.run⟩, ⟨0x300F, 0, st.conv.stop⟩,
   ⟨0x3010, 0, st.conv.trip⟩, ⟨0x3204, 1, st.yaw.releaseCw⟩, ⟨0x3205, 1, st.yaw.releaseCcw⟩,
   ⟨0x3206, 1, st.yaw.stop⟩]
    ++ designateOpt 0x3312 st.clc.aToB ++ designateOpt 0x3313 st.clc.bToA

/-- The first channel that an earlier one of another object names as well: the later of the two. -/
def sharedChan : List Designated → List Designated → Option Nat
  | _, [] => none
  | seen, d :: rest =>
    if seen.any fun e => e.chan == d.chan && e.object != d.object then some d.addr
    else sharedChan (seen ++ [d]) rest

/-- The address of the first field that fails the commission checks (R184). -/
def State.commissionFailure (s : State) : Option Nat :=
  let st := s.settings
  match st.designatedSignals.find? fun x => s.signals[x.2].quality == .unused with
  | some x => some x.1
  | none =>
    match st.designatedChans.find? fun d => !(s.desc d.chan).valid with
    | some d => some d.addr
    | none => sharedChan [] st.designatedChans

/-! ### Part states (R184, R185) -/

/-- Entry to OPERATING with the entry action of each block (R184). -/
def State.enterOperating (s : State) : State :=
  ((({ s with part := .operating }.unmaskAll).updateHolds).cnvEnter.putInhibit .config false).clcStart

/-- COMMISSION: the status and, when a check fails, the failing address (R184). -/
def State.commissionRequest (s : State) : State × Status × List Word :=
  if s.operating then (s, .state, [])
  else
    match s.commissionFailure with
    | some a => (s, .state, [wordNat a])
    | none => (s.enterOperating, .ok, [])

/-- DECOMMISSION (R185). -/
def State.decommissionRequest (s : State) : State × Status :=
  if s.operating = true ∧ s.cnv.state = .off ∧ s.yaw.state = .held then
    let s := (({ s with part := .configuration } : State).putInhibit .config true).modCnv fun c =>
      { c with autostartPending := false }
    (s.updateHolds.clcStop, .ok)
  else (s, .state)

/-! ### The settings image (R186) -/

/-- SAVE. -/
def State.saveRequest (s : State) : State × Status :=
  if s.saving then (s, .busy)
  else ({ s with capture := some s.settings, image := none, imageValid := false }, .ok)

/-- SAVE_COMPLETION (R186): the image holds what the save captured; event 25. -/
def execSaveCompletion (s : State) : Host.Outcome State Fault Refusal :=
  done (match s.capture with
    | none => s
    | some c => ({ s with image := some c, imageValid := true, capture := none } : State).raise 25 [])

/-- SAVE_FAILURE (R186): the image stays invalid; event 26 with cause FAULT and the failing offset. -/
def execSaveFailure (offset : Word) (s : State) : Host.Outcome State Fault Refusal :=
  done (match s.capture with
    | none => s
    | some _ => ({ s with capture := none } : State).raise 26 [0, (offset.toNat : Int)])

/-! ### Soft reset (R188) -/

/-- An event state after a soft reset (R166). -/
def EventRt.soft (e : EventRt) : EventRt :=
  { e with pending := false, kind := .occurred, inService := false, recurred := false, count := 0 }

/-- CNV after a soft reset: the trip record is kept (R97). -/
def CnvRt.soft (c : CnvRt) : CnvRt :=
  { resetCnv with cause := c.cause, detail := c.detail, time := c.time, further := c.further }

/-- YAW after a soft reset: the causes are kept; MANAGEMENT holds it in OPERATING (R133). -/
def YawRt.soft (y : YawRt) (operating : Bool) : YawRt :=
  { resetYaw with
    stopCause := y.stopCause, faultCause := y.faultCause
    inhibit := if operating then { noInhibit with management := true }
               else { noInhibit with config := true } }

/-- Every block at its soft-reset state; tables, ports, ring time and Insertion Queue are kept. -/
def State.softState (s : State) : State :=
  { s with
    capture := none
    imageValid := s.imageValid && !s.saving
    ownAddress := addressOfStraps s.addrStraps
    lastReset := .soft
    phases := Vector.replicate 128 0
    sequences := Vector.replicate 55 none
    signals := resetSignals s.settings
    limits := Vector.replicate 48 resetLimit
    holds := resetHolds
    seq := resetSeq s.settings
    ala := resetAla
    cnv := s.cnv.soft
    alw := resetAlw
    yaw := s.yaw.soft s.operating
    clc := resetClc s.settings
    evu := { s.evu with events := s.evu.events.map EventRt.soft }
    work := [] }

/-- The soft reset takes effect (R188): the start action of CLC in OPERATING, event 0, and event 26 when
a save was in flight. -/
def State.softReset (s : State) : State :=
  let saving := s.saving
  let s := s.softState
  let s := if s.operating then s.clcStart else s
  let s := s.raise 0 [s.lastReset.code, s.part.code]
  if saving then s.raise 26 [1] else s

/-! ### Power-on and pin reset, BOOT (R183, R189) -/

/-- The part as a power-on or pin reset leaves it. What is outside the part's own registers is kept: the
straps, the non-volatile image, the commands that wait and the model's own records. -/
def State.hardReset (s : State) (cause : ResetCause) : State :=
  { State.reset with
    addrStraps := s.addrStraps
    image := s.image
    ownAddress := addressOfStraps s.addrStraps
    lastReset := cause
    rif := { resetRif with line := s.rif.line }
    schedule := s.schedule
    pending := s.pending }

/-- POWER_ON_RESET (R189). -/
def execPowerOnReset (s : State) : Host.Outcome State Fault Refusal := done (s.hardReset .power)

/-- PIN_RESET (R189): the log, the next record sequence and the First-Out Store are kept. -/
def execPinReset (s : State) : Host.Outcome State Fault Refusal :=
  done ((s.hardReset .pin).modEvu fun e =>
    { e with nextSeq := s.evu.nextSeq, log := s.evu.log, firstOut := s.evu.firstOut })

/-- The tables as BOOT leaves them, from the image or at their defaults (R183), and every block at its reset
state over them (R189). -/
def State.loaded (s : State) : State :=
  let st := s.image.getD defaultSettings
  { s with
    capture := none
    imageValid := s.image.isSome
    ownAddress := addressOfStraps s.addrStraps
    settings := st
    phases := Vector.replicate 128 0
    sequences := Vector.replicate 55 none
    signals := resetSignals st
    limits := Vector.replicate 48 resetLimit
    holds := resetHolds
    seq := resetSeq st
    ala := resetAla
    cnv := resetCnv
    alw := resetAlw
    yaw := resetYaw
    clc := resetClc st
    evu := { s.evu with events := Vector.replicate 128 resetEvent }
    work := [] }

/-- A port as BOOT ends: LISTEN, its stuck timer running (R178). -/
def PortRt.released (r : PortRt) : PortRt := { r.listen with stuckTimer := true }

/-- BYPASS is released and both ports enter LISTEN (R178). -/
def State.releaseBypass (s : State) : State :=
  { s with bypass := false }.modRif fun r =>
    { r with portIn := r.portIn.released, portOut := r.portOut.released }

/-- The end of BOOT with the tables loaded (R183). -/
def State.leaveBoot (s : State) : State :=
  let s := s.releaseBypass
  let failed := if s.settings.bootAutostart then s.commissionFailure else none
  let s :=
    if s.settings.bootAutostart && failed.isNone then s.enterOperating
    else { s with part := .configuration }
  let s := s.raise 0 [s.lastReset.code, s.part.code]
  match failed with
  | none => s
  | some a => s.raise 28 [(a : Int)]

/-- BOOT_END (R183). -/
def execBootEnd (s : State) : Host.Outcome State Fault Refusal :=
  done (if s.part = .boot then s.loaded.leaveBoot.settle else s)

end Sys2Proof.Machine
end

