-- ==== Sys2Proof/Machine/Management.lean ====
section
/-! DEFINITION. Management.lean: MGT (chapter 11): every Management Request as it is served and answered,
and the commands of these rows. -/

namespace Sys2Proof.Machine

/-! ### Service and answer (R174, R180) -/

/-- The answer STATE, which refuses a request with no other effect. -/
def State.refuseState (s : State) (src : Node) (kind : Octet) (addr : Word) : State :=
  s.pushAnswer { dest := src, kind := kind, status := .state, addr := addr, data := [] }

/-- A request with the handler of its block: taken while class 3 has room; the answer goes to its source,
and the hand-overs it makes are taken (R174, R180). In BOOT it is answered STATE, before
any test of its fields (R44, R130, R190) [17]. -/
def State.served (s : State) (src : Node) (kind : Octet) (addr : Word)
    (handler : State → State × Status × List Word) : State :=
  if s.rif.class3.length < 2 then
    if s.awake then
      let r := handler s
      (r.1.pushAnswer
        { dest := src, kind := kind, status := r.2.1, addr := addr, data := r.2.2 }).settle
    else s.refuseState src kind addr
  else s

/-- A handler whose answer carries no data. -/
def plain (h : State → State × Status) (s : State) : State × Status × List Word :=
  ((h s).1, (h s).2, [])

/-- A WRITE at a word address. -/
def State.writeAt (s : State) (src : Node) (addr : Word) (len : Octet) (data : List Word) : State :=
  s.served src 1 addr (plain fun s => s.serveWrite addr len data)

/-- A READ at a word address. -/
def State.readAt (s : State) (src : Node) (addr : Word) (len : Octet) (qual : Word) : State :=
  s.served src 0 addr fun s => s.serveRead addr len qual

/-! ### Requests to blocks -/

/-- A channel request; a qualifier above 7 is answered RANGE (R190). -/
def chanRequest (qual : Word) (h : State → ChanIx → State × Status) (s : State) : State × Status :=
  match ixOf 8 qual with
  | none => (s, .range)
  | some c => h s c

/-- ACK of a code in service: it is taken out of service, and pending with kind RECURRED if it recurred
(R159). -/
def EventRt.acknowledged (e : EventRt) : EventRt :=
  if e.recurred then
    { e with inService := false, recurred := false, pending := true, kind := .recurred }
  else { e with inService := false }

/-- ACK (R159). -/
def State.ackRequest (s : State) (qual : Word) : State × Status :=
  match ixOf 128 qual with
  | none => (s, .range)
  | some c =>
    if s.evu.events[c].inService then
      let p := (s.modEvent c EventRt.acknowledged).ackLimits c
      (p.1.dispatchTest, if p.2 then .stillActive else .ok)
    else (s, .notInService)

/-- CLEAR FIRST-OUT (R164), and the dispatch test after it (R157). -/
def State.clearFirstOut (s : State) : State × Status :=
  ((s.modEvu fun e => { e with firstOut := [] }).dispatchTest, .ok)

/-- CLEAR EVENT-COUNTS (R160). -/
def State.clearCounts (s : State) : State × Status :=
  ((s.modEvu fun e => { e with events := e.events.map fun r => { r with count := 0 } }).dispatchTest,
    .ok)

/-- CLEAR PENDING of a code 0 to 127, or of all with 65535 (R160). -/
def State.clearPendingRequest (s : State) (qual : Word) : State × Status :=
  if qual = 65535 then
    ((s.modEvu fun e =>
      { e with events := e.events.map fun r => { r with pending := false } }).dispatchTest, .ok)
  else
    match ixOf 128 qual with
    | none => (s, .range)
    | some c => ((s.modEvent c fun r => { r with pending := false }).dispatchTest, .ok)

/-- YAW ENABLE (R130). -/
def State.enableYaw (s : State) : State × Status := (s.putInhibit .management false, .ok)

/-- YAW DISABLE (R130). -/
def State.disableYaw (s : State) : State × Status := (s.addStopping .management, .ok)

/-- RESET (R188): the answer is placed before the reset takes effect. -/
def State.resetAt (s : State) (src : Node) (addr : Word) : State :=
  if s.rif.class3.length < 2 then
    if s.awake && s.convAtRest && s.yawAtRest then
      (s.pushAnswer
        { dest := src, kind := 13, status := .ok, addr := addr, data := [] }).softReset.settle
    else s.refuseState src 13 addr
  else s

/-! ### Reads -/

/-- READ (R181). -/
def execRead (src : Node) (addr : Word) (len : Octet) (qual : Word) (s : State) :
    Host.Outcome State Fault Refusal :=
  done (s.readAt src addr len qual)

/-- A word address of a region. -/
def addressIn (r : Region) (off : Word) : Word := wordNat r.base + off

/-- PORT_STATUS_READ (R172). -/
def execPortStatusRead (src : Node) (p : Port) (off : Word) (len : Octet) (s : State) :
    Host.Outcome State Fault Refusal :=
  done (s.readAt src (addressIn (match p with | .inn => .portIn | .out => .portOut) off) len 0)

/-- LOG_READ (R163): a read of the log record window that names a start sequence. -/
def execLogRead (src : Node) (start : Word) (off : Word) (len : Octet) (s : State) :
    Host.Outcome State Fault Refusal :=
  done (s.readAt src (addressIn .logWindow off) len start)

/-! ### Writes -/

/-- SAMPLE_MAP_WRITE (R2, R3). -/
def execSampleMapWrite (src : Node) (off : Word) (len : Octet) (data : List Word) (s : State) :
    Host.Outcome State Fault Refusal :=
  done (s.writeAt src (addressIn .sampleMap off) len data)

/-- SIGNAL_RECORD_WRITE (R12). -/
def execSignalRecordWrite (src : Node) (off : Word) (len : Octet) (data : List Word) (s : State) :
    Host.Outcome State Fault Refusal :=
  done (s.writeAt src (addressIn .signals off) len data)

/-- LIMIT_TABLE_WRITE (R34, R35). -/
def execLimitTableWrite (src : Node) (off : Word) (len : Octet) (data : List Word) (s : State) :
    Host.Outcome State Fault Refusal :=
  done (s.writeAt src (addressIn .limits off) len data)

/-- CHANNEL_DESCRIPTOR_WRITE (R39). -/
def execChannelDescriptorWrite (src : Node) (off : Word) (len : Octet) (data : List Word)
    (s : State) : Host.Outcome State Fault Refusal :=
  done (s.writeAt src (addressIn .channels off) len data)

/-- PRIORITY_SCHEME_WRITE (R38, R39). -/
def execPrioritySchemeWrite (src : Node) (off : Word) (len : Octet) (data : List Word)
    (s : State) : Host.Outcome State Fault Refusal :=
  done (s.writeAt src (addressIn .seqControl off) len data)

/-- STEP_LIST_WRITE (R42). -/
def execStepListWrite (src : Node) (off : Word) (len : Octet) (data : List Word) (s : State) :
    Host.Outcome State Fault Refusal :=
  done (s.writeAt src (addressIn .steps off) len data)

/-- CAPACITY_WRITE (R64, R71). -/
def execCapacityWrite (src : Node) (off : Word) (len : Octet) (data : List Word) (s : State) :
    Host.Outcome State Fault Refusal :=
  done (s.writeAt src (addressIn .allocator off) len data)

/-- LOAD_TAG_WRITE (R66). -/
def execLoadTagWrite (src : Node) (off : Word) (len : Octet) (data : List Word) (s : State) :
    Host.Outcome State Fault Refusal :=
  done (s.writeAt src (addressIn .tags off) len data)

/-- CONVERSION_PARAMETER_WRITE (R78). -/
def execConversionParameterWrite (src : Node) (off : Word) (len : Octet) (data : List Word)
    (s : State) : Host.Outcome State Fault Refusal :=
  done (s.writeAt src (addressIn .convParams off) len data)

/-- ALLOWANCE_PARAMETER_WRITE (R100). -/
def execAllowanceParameterWrite (src : Node) (off : Word) (len : Octet) (data : List Word)
    (s : State) : Host.Outcome State Fault Refusal :=
  done (s.writeAt src (addressIn .alwParams off) len data)

/-- YAW_PARAMETER_WRITE (R114). -/
def execYawParameterWrite (src : Node) (off : Word) (len : Octet) (data : List Word)
    (s : State) : Host.Outcome State Fault Refusal :=
  done (s.writeAt src (addressIn .yawParams off) len data)

/-- TWIST_PRESET (R118): offsets from the first twist word, 324A. -/
def execTwistPreset (src : Node) (off : Word) (len : Octet) (data : List Word) (s : State) :
    Host.Outcome State Fault Refusal :=
  done (s.writeAt src (addressIn .yawRecord 10 + off) len data)

/-- COOLING_WRITE (R136): the parameter object, and from offset 0020 the Cooling Stage Table. -/
def execCoolingWrite (src : Node) (off : Word) (len : Octet) (data : List Word) (s : State) :
    Host.Outcome State Fault Refusal :=
  done (s.writeAt src (addressIn .clcParams off) len data)

/-- EVENT_DESCRIPTOR_WRITE (R153). -/
def execEventDescriptorWrite (src : Node) (off : Word) (len : Octet) (data : List Word)
    (s : State) : Host.Outcome State Fault Refusal :=
  done (s.writeAt src (addressIn .descriptors off) len data)

/-- EVENT_CONTROL_WRITE (R152). -/
def execEventControlWrite (src : Node) (off : Word) (len : Octet) (data : List Word)
    (s : State) : Host.Outcome State Fault Refusal :=
  done (s.writeAt src (addressIn .eventControl off) len data)

/-- RING_CONTROL_WRITE (R172). -/
def execRingControlWrite (src : Node) (off : Word) (len : Octet) (data : List Word) (s : State) :
    Host.Outcome State Fault Refusal :=
  done (s.writeAt src (addressIn .ringControl off) len data)

/-- MANAGEMENT_CONTROL_WRITE (R187). -/
def execManagementControlWrite (src : Node) (off : Word) (len : Octet) (data : List Word)
    (s : State) : Host.Outcome State Fault Refusal :=
  done (s.writeAt src (addressIn .mgtControl off) len data)

/-- WRITE (R181, R182): to any address. -/
def execWrite (src : Node) (addr : Word) (len : Octet) (data : List Word) (s : State) :
    Host.Outcome State Fault Refusal :=
  done (s.writeAt src addr len data)

/-! ### Requests -/

/-- START (R44). -/
def execStart (src : Node) (qual : Word) (s : State) : Host.Outcome State Fault Refusal :=
  done (s.served src 2 0 (plain (chanRequest qual State.startChan)))

/-- ABORT (R44, R58). -/
def execAbort (src : Node) (qual : Word) (s : State) : Host.Outcome State Fault Refusal :=
  done (s.served src 3 0 (plain (chanRequest qual State.abortRequest)))

/-- MASK (R44). -/
def execMask (src : Node) (qual : Word) (s : State) : Host.Outcome State Fault Refusal :=
  done (s.served src 4 0 (plain (chanRequest qual State.maskRequest)))

/-- UNMASK (R44). -/
def execUnmask (src : Node) (qual : Word) (s : State) : Host.Outcome State Fault Refusal :=
  done (s.served src 5 0 (plain (chanRequest qual State.unmaskRequest)))

/-- ACK (R159, R30). -/
def execAck (src : Node) (qual : Word) (s : State) : Host.Outcome State Fault Refusal :=
  done (s.served src 6 0 (plain fun s => s.ackRequest qual))

/-- CLEAR_TRIP (R82). -/
def execClearTrip (src : Node) (s : State) : Host.Outcome State Fault Refusal :=
  done (s.served src 7 0 (plain State.clearTrip))

/-- CLEAR_YAW (R129). -/
def execClearYaw (src : Node) (s : State) : Host.Outcome State Fault Refusal :=
  done (s.served src 7 1 (plain State.clearYaw))

/-- CLEAR_FIRST_OUT (R164). -/
def execClearFirstOut (src : Node) (s : State) : Host.Outcome State Fault Refusal :=
  done (s.served src 7 2 (plain State.clearFirstOut))

/-- CLEAR_EVENT_COUNTS (R160). -/
def execClearEventCounts (src : Node) (s : State) : Host.Outcome State Fault Refusal :=
  done (s.served src 7 3 (plain State.clearCounts))

/-- CLEAR_PENDING (R160). -/
def execClearPending (src : Node) (qual : Word) (s : State) : Host.Outcome State Fault Refusal :=
  done (s.served src 7 4 (plain fun s => s.clearPendingRequest qual))

/-- CONVERSION_START (R83). -/
def execConversionStart (src : Node) (s : State) : Host.Outcome State Fault Refusal :=
  done (s.served src 8 0 (plain State.convStart))

/-- CONVERSION_RUN (R84). -/
def execConversionRun (src : Node) (s : State) : Host.Outcome State Fault Refusal :=
  done (s.served src 8 1 (plain State.convRun))

/-- CONVERSION_STOP (R85). -/
def execConversionStop (src : Node) (s : State) : Host.Outcome State Fault Refusal :=
  done (s.served src 8 2 (plain State.convStop))

/-- YAW_ENABLE (R130). -/
def execYawEnable (src : Node) (s : State) : Host.Outcome State Fault Refusal :=
  done (s.served src 9 0 (plain State.enableYaw))

/-- YAW_DISABLE (R130). -/
def execYawDisable (src : Node) (s : State) : Host.Outcome State Fault Refusal :=
  done (s.served src 9 1 (plain State.disableYaw))

/-- SAVE (R186). -/
def execSave (src : Node) (s : State) : Host.Outcome State Fault Refusal :=
  done (s.served src 10 0 (plain State.saveRequest))

/-- COMMISSION (R184). -/
def execCommission (src : Node) (s : State) : Host.Outcome State Fault Refusal :=
  done (s.served src 11 0 State.commissionRequest)

/-- DECOMMISSION (R185). -/
def execDecommission (src : Node) (s : State) : Host.Outcome State Fault Refusal :=
  done (s.served src 12 0 (plain State.decommissionRequest))

/-- RESET (R188). -/
def execReset (src : Node) (s : State) : Host.Outcome State Fault Refusal :=
  done (s.resetAt src 0)

/-! ### A request as it arrives in a frame (12.1) -/

/-- A request whose kind or subject lies outside its list is answered RANGE (R180, R190). -/
def outOfRange (s : State) : State × Status × List Word := (s, .range, [])

/-- The handler of a CLEAR request by its subject (12.1). -/
def clearHandler (addr qual : Word) : State → State × Status × List Word :=
  match addr.toNat with
  | 0 => plain State.clearTrip
  | 1 => plain State.clearYaw
  | 2 => plain State.clearFirstOut
  | 3 => plain State.clearCounts
  | 4 => plain fun s => s.clearPendingRequest qual
  | _ => outOfRange

/-- The handler of a CONVERSION request by its subject (12.1). -/
def conversionHandler (addr : Word) : State → State × Status × List Word :=
  match addr.toNat with
  | 0 => plain State.convStart
  | 1 => plain State.convRun
  | 2 => plain State.convStop
  | _ => outOfRange

/-- The handler of a YAW request by its subject (12.1). -/
def yawHandler (addr : Word) : State → State × Status × List Word :=
  match addr.toNat with
  | 0 => plain State.enableYaw
  | 1 => plain State.disableYaw
  | _ => outOfRange

/-- The handler of a request, but for RESET, by its kind (12.1). The fields that 12.1 gives a kind no use for are not
looked at, so that a request which fills them is taken all the same [10]. -/
def Request.handler (r : Request) : State → State × Status × List Word :=
  match r.kind.toNat with
  | 0 => fun s => s.serveRead r.addr r.len r.qual
  | 1 => plain fun s => s.serveWrite r.addr r.len r.data
  | 2 => plain (chanRequest r.qual State.startChan)
  | 3 => plain (chanRequest r.qual State.abortRequest)
  | 4 => plain (chanRequest r.qual State.maskRequest)
  | 5 => plain (chanRequest r.qual State.unmaskRequest)
  | 6 => plain fun s => s.ackRequest r.qual
  | 7 => clearHandler r.addr r.qual
  | 8 => conversionHandler r.addr
  | 9 => yawHandler r.addr
  | 10 => plain State.saveRequest
  | 11 => State.commissionRequest
  | 12 => plain State.decommissionRequest
  | _ => outOfRange

/-- A request handed to MGT (R180). -/
def State.takeRequest (s : State) (r : Request) : State :=
  if r.kind.toNat = 13 then s.resetAt r.src r.addr else s.served r.src r.kind r.addr r.handler

end Sys2Proof.Machine
end

