-- ==== Sys2Proof/Machine/Time.lean ====
section
/-! DEFINITION. Time.lean: cycle events and ring time (R177), the expiries that a cycle event makes due,
and the commands of these rows. A cycle event makes the contributors STALE that it takes beyond their limit (R15).
Each other expiry is a step of its own; one that has not been taken when the next cycle event comes is taken
before it [4]. -/

namespace Sys2Proof.Machine

/-! ### Expiries still due -/

/-- The wait of a channel runs out, whichever its kind. -/
def State.waitExpiry (s : State) (c : ChanIx) : State :=
  ((s.awaitExpiry c).dwellExpiry c).claimExpiry c

/-- The waits that have run out are taken one after another. R51 to R53 give no order among the channels: the model
takes channels 0 to 7, lowest first, each with its hand-overs [4]. -/
def State.takeWaits (s : State) : State :=
  (indices 8).foldl (fun s c => (s.waitExpiry c).settle) s

/-- Every expiry that is still due is taken [4]. -/
def State.catchUp (s : State) : State :=
  (((s.takeWaits.stallCheck.settle).restCheck).dwellTest.settle).windowTest.settle

/-! ### Cycle events (R177) -/

/-- Every block counts the cycle event. -/
def State.count (s : State) : State := (((s.ageSignals).seqTick).yawTick).clcTick

/-- Every block counts the cycle event, and the contributors it takes beyond their limit become STALE at it
(R15). -/
def State.tick (s : State) : State := s.count.takeStale

/-- A local cycle event: ring time increases by one (R177). In BOOT no block counts it. -/
def State.localCycle (s : State) : State :=
  let s := if s.awake then s.catchUp else s
  let s := s.modRif fun r => { r with ringTime := r.ringTime + 1 }
  if s.awake then s.tick else s

/-- A used Cycle Mark (R177). The rule gives no order of event 6 and the counts of the blocks: the model raises it when
ring time is set, before the blocks count, and so before the events of contributors that the mark makes STALE [9]. -/
def State.useMark (s : State) (n : RingTime) : State :=
  let s := s.catchUp
  let old := s.rif.ringTime
  let was := s.rif.cycle
  let s := s.modRif fun r => { r with ringTime := n, cycle := .synchronised }
  let s := if was = .freeRun .loss then s.raise 6 [signed32 old, signed32 n] else s
  s.tick

/-- CYCLE_MARK (R177): used while IN is UP. -/
def execCycleMark (n : RingTime) (s : State) : Host.Outcome State Fault Refusal :=
  done (if s.awake = true ∧ s.rif.portIn.state = .up then s.useMark n else s)

/-- CYCLE_MARKS_LOST (R177): SYNCHRONISED becomes FREE_RUN with cause LOSS, with event 5 and a local
cycle event at once. -/
def execCycleMarksLost (s : State) : Host.Outcome State Fault Refusal :=
  done (match s.rif.cycle with
    | .synchronised =>
      ((s.modRif fun r => { r with cycle := .freeRun .loss }).raise 5
        [signed32 s.rif.ringTime]).localCycle
    | .freeRun _ => s)

/-- LOCAL_CYCLE_EVENT (R177): in FREE_RUN. -/
def execLocalCycleEvent (s : State) : Host.Outcome State Fault Refusal :=
  done (match s.rif.cycle with
    | .synchronised => s
    | .freeRun _ => s.localCycle)

/-! ### Commands of the expiries -/

/-- CONTRIBUTOR_STALE (R15): the part of a cycle event that concerns one contributor, as a command of its own. A
cycle event takes every contributor that it makes due, so that behind it none is left [4]. -/
def execContributorStale (i : SigIx) (k : SlotIx) (s : State) : Host.Outcome State Fault Refusal :=
  done (s.staleContributor i k).settle

/-- AWAIT_TIMEOUT (R51). -/
def execAwaitTimeout (c : ChanIx) (s : State) : Host.Outcome State Fault Refusal :=
  done (s.awaitExpiry c).settle

/-- DWELL_COMPLETE (R52). -/
def execDwellComplete (c : ChanIx) (s : State) : Host.Outcome State Fault Refusal :=
  done (s.dwellExpiry c).settle

/-- CLAIM_TIMEOUT (R53). -/
def execClaimTimeout (c : ChanIx) (s : State) : Host.Outcome State Fault Refusal :=
  done (s.claimExpiry c).settle

/-- STALL_WINDOW (R126). -/
def execStallWindow (s : State) : Host.Outcome State Fault Refusal := done s.stallCheck.settle

/-- REST_ELAPSED (R119). -/
def execRestElapsed (s : State) : Host.Outcome State Fault Refusal := done s.restCheck.settle

/-- STAGE_DWELL_ELAPSED (R138). -/
def execStageDwellElapsed (s : State) : Host.Outcome State Fault Refusal := done s.dwellTest.settle

/-- FLOW_WINDOW (R142). -/
def execFlowWindow (s : State) : Host.Outcome State Fault Refusal := done s.windowTest.settle

end Sys2Proof.Machine
end

