-- ==== Sys2Proof/Machine/Receive.lean ====
section
/-! DEFINITION. Receive.lean: the Frame Filter (R173, R174): what becomes of a frame received on IN, and
the commands of these rows. -/

namespace Sys2Proof.Machine

/-- The items of an accepted Sample Frame, one after another, each to its end (R5). -/
def State.takeItems (s : State) (src : Node) (items : List SampleItem) : State :=
  items.foldl (fun s it => (s.takeItem src it).settle) s

/-- A Sample Frame handed to SIN, in CONFIGURATION and OPERATING (R4, R5). -/
def State.takeSampleFrame (s : State) (src : Node) (sequence count : Octet) (items : List SampleItem) :
    State :=
  if s.awake then
    match s.acceptFrame src sequence count items.length with
    | none => s
    | some s => s.takeItems src items
  else s

/-- SAMPLE_FRAME (R4 to R10). -/
def execSampleFrame (src : Node) (sequence count : Octet) (items : List SampleItem) (s : State) :
    Host.Outcome State Fault Refusal :=
  done (s.takeSampleFrame src sequence count items)

/-- A received Sample Frame copied to SIN; octets that make no whole number of items disagree with the
item count (R4). -/
def State.copySample (s : State) (os : List Octet) : State :=
  match framePayload os with
  | sq :: n :: rest =>
    if rest.length % 3 = 0 then s.takeSampleFrame (frameSource os) sq n (sampleItems rest) else s
  | _ => s

/-- A received Cycle Mark with its four octets of cycle number (R177) [10]. -/
def State.copyMark (s : State) (os : List Octet) : State :=
  match framePayload os with
  | [a, b, c, d] => s.useMark (wordOfOctets a b ++ wordOfOctets c d)
  | _ => s

/-- A consumed Management Request handed to MGT (R174). -/
def State.consume (s : State) (os : List Octet) : State :=
  match requestOf (frameSource os) (framePayload os) with
  | none => s
  | some r => s.takeRequest r

/-- Event 27 names source and class (R173). -/
def State.raiseCheck (s : State) (os : List Octet) : State :=
  s.raise 27 [((frameSource os).toNat : Int), (frameClass os : Int)]

/-- A complete frame whose header could be read, neither babble nor aborted (R173, from its fourth row
on). -/
def State.filterFrame (s : State) (os : List Octet) : State :=
  let good := checkPasses os && lengthAgrees os
  let whole : RxFrame := { octets := os, aborted := false }
  if frameSource os = s.ownAddress then
    if checkPasses os then s else s.raiseCheck os
  else if frameClass os = 3 ∧ frameDest os = s.ownAddress then
    if good then s.consume os else s.raiseCheck os
  else if good then
    let s := s.forward whole
    if frameClass os = 0 then s.copyMark os
    else if frameClass os = 1 then s.copySample os
    else s
  else (s.forward whole).raiseCheck os

/-- A frame received on IN while IN is UP, by the first row of R173 that applies. -/
def State.receive (s : State) (f : RxFrame) : State :=
  let os := f.octets
  if 96 < os.length then
    (s.forward { octets := os.take 96, aborted := true }).raise 4 [((frameSource os).toNat : Int)]
  else if f.aborted then s.forward f
  else if os.length < 4 then (s.forward { octets := os, aborted := true }).raise 27 []
  else s.filterFrame os

/-- FRAME_RECEIVED (R173, R174). -/
def execFrameReceived (f : RxFrame) (s : State) : Host.Outcome State Fault Refusal :=
  done (if s.awake = true ∧ s.rif.portIn.state = .up then s.receive f else s)

end Sys2Proof.Machine
end

