-- ==== Sys2Proof/Machine/Dispatch.lean ====
section
/-! DEFINITION. Dispatch.lean: one arm for each command, one direct call of its meaning. -/

namespace Sys2Proof.Machine

def exec (i : Instr) (s : State) : Host.Outcome State Fault Refusal :=
  match i with
  | .powerOnReset => Sys2Proof.Machine.execPowerOnReset s
  | .pinReset => Sys2Proof.Machine.execPinReset s
  | .bootEnd => Sys2Proof.Machine.execBootEnd s
  | .lineActivity p => Sys2Proof.Machine.execLineActivity p s
  | .alignmentBurstTimer p => Sys2Proof.Machine.execAlignmentBurstTimer p s
  | .burstReceived p inverted w flag => Sys2Proof.Machine.execBurstReceived p inverted w flag s
  | .acknowledgeBurstsSent p => Sys2Proof.Machine.execAcknowledgeBurstsSent p s
  | .lineNoActivity p => Sys2Proof.Machine.execLineNoActivity p s
  | .dataLock p => Sys2Proof.Machine.execDataLock p s
  | .verifyTimeout p => Sys2Proof.Machine.execVerifyTimeout p s
  | .stuckTimeout p => Sys2Proof.Machine.execStuckTimeout p s
  | .linkLoss p cause transit => Sys2Proof.Machine.execLinkLoss p cause transit s
  | .silentEnd p active => Sys2Proof.Machine.execSilentEnd p active s
  | .frameReceived f => Sys2Proof.Machine.execFrameReceived f s
  | .cycleMark n => Sys2Proof.Machine.execCycleMark n s
  | .cycleMarksLost => Sys2Proof.Machine.execCycleMarksLost s
  | .localCycleEvent => Sys2Proof.Machine.execLocalCycleEvent s
  | .frameInsertion => Sys2Proof.Machine.execFrameInsertion s
  | .sampleFrame src sequence count items => Sys2Proof.Machine.execSampleFrame src sequence count items s
  | .contributorStale n k => Sys2Proof.Machine.execContributorStale n k s
  | .stepEngineGrant => Sys2Proof.Machine.execStepEngineGrant s
  | .emit => Sys2Proof.Machine.execEmit s
  | .await => Sys2Proof.Machine.execAwait s
  | .awaitTimeout c => Sys2Proof.Machine.execAwaitTimeout c s
  | .dwell => Sys2Proof.Machine.execDwell s
  | .dwellComplete c => Sys2Proof.Machine.execDwellComplete c s
  | .claim => Sys2Proof.Machine.execClaim s
  | .claimTimeout c => Sys2Proof.Machine.execClaimTimeout c s
  | .free => Sys2Proof.Machine.execFree s
  | .link => Sys2Proof.Machine.execLink s
  | .stallWindow => Sys2Proof.Machine.execStallWindow s
  | .restElapsed => Sys2Proof.Machine.execRestElapsed s
  | .stageDwellElapsed => Sys2Proof.Machine.execStageDwellElapsed s
  | .flowWindow => Sys2Proof.Machine.execFlowWindow s
  | .read src addr len qual => Sys2Proof.Machine.execRead src addr len qual s
  | .portStatusRead src p off len => Sys2Proof.Machine.execPortStatusRead src p off len s
  | .logRead src start off len => Sys2Proof.Machine.execLogRead src start off len s
  | .sampleMapWrite src off len data => Sys2Proof.Machine.execSampleMapWrite src off len data s
  | .signalRecordWrite src off len data => Sys2Proof.Machine.execSignalRecordWrite src off len data s
  | .limitTableWrite src off len data => Sys2Proof.Machine.execLimitTableWrite src off len data s
  | .channelDescriptorWrite src off len data => Sys2Proof.Machine.execChannelDescriptorWrite src off len data s
  | .prioritySchemeWrite src off len data => Sys2Proof.Machine.execPrioritySchemeWrite src off len data s
  | .stepListWrite src off len data => Sys2Proof.Machine.execStepListWrite src off len data s
  | .capacityWrite src off len data => Sys2Proof.Machine.execCapacityWrite src off len data s
  | .loadTagWrite src off len data => Sys2Proof.Machine.execLoadTagWrite src off len data s
  | .conversionParameterWrite src off len data => Sys2Proof.Machine.execConversionParameterWrite src off len data s
  | .allowanceParameterWrite src off len data => Sys2Proof.Machine.execAllowanceParameterWrite src off len data s
  | .yawParameterWrite src off len data => Sys2Proof.Machine.execYawParameterWrite src off len data s
  | .twistPreset src off len data => Sys2Proof.Machine.execTwistPreset src off len data s
  | .coolingWrite src off len data => Sys2Proof.Machine.execCoolingWrite src off len data s
  | .eventDescriptorWrite src off len data => Sys2Proof.Machine.execEventDescriptorWrite src off len data s
  | .eventControlWrite src off len data => Sys2Proof.Machine.execEventControlWrite src off len data s
  | .ringControlWrite src off len data => Sys2Proof.Machine.execRingControlWrite src off len data s
  | .managementControlWrite src off len data => Sys2Proof.Machine.execManagementControlWrite src off len data s
  | .write src addr len data => Sys2Proof.Machine.execWrite src addr len data s
  | .start src qual => Sys2Proof.Machine.execStart src qual s
  | .abort src qual => Sys2Proof.Machine.execAbort src qual s
  | .mask src qual => Sys2Proof.Machine.execMask src qual s
  | .unmask src qual => Sys2Proof.Machine.execUnmask src qual s
  | .ack src qual => Sys2Proof.Machine.execAck src qual s
  | .clearTrip src => Sys2Proof.Machine.execClearTrip src s
  | .clearYaw src => Sys2Proof.Machine.execClearYaw src s
  | .clearFirstOut src => Sys2Proof.Machine.execClearFirstOut src s
  | .clearEventCounts src => Sys2Proof.Machine.execClearEventCounts src s
  | .clearPending src qual => Sys2Proof.Machine.execClearPending src qual s
  | .conversionStart src => Sys2Proof.Machine.execConversionStart src s
  | .conversionRun src => Sys2Proof.Machine.execConversionRun src s
  | .conversionStop src => Sys2Proof.Machine.execConversionStop src s
  | .yawEnable src => Sys2Proof.Machine.execYawEnable src s
  | .yawDisable src => Sys2Proof.Machine.execYawDisable src s
  | .save src => Sys2Proof.Machine.execSave src s
  | .saveCompletion => Sys2Proof.Machine.execSaveCompletion s
  | .saveFailure offset => Sys2Proof.Machine.execSaveFailure offset s
  | .commission src => Sys2Proof.Machine.execCommission src s
  | .decommission src => Sys2Proof.Machine.execDecommission src s
  | .reset src => Sys2Proof.Machine.execReset src s

end Sys2Proof.Machine
end

