-- ==== Sys2Proof/Machine/Ranges.lean ====
section
/-! DEFINITION. Ranges.lean: the ranges of the configuration fields, as the field tables of the chapters give
them, and the checks of the write rules between fields and entries. What is stored keeps them (R182). -/

namespace Sys2Proof.Machine

/-- A signed 16-bit value. -/
def int16 (x : Int) : Prop := -32768 ≤ x ∧ x ≤ 32767

/-- R1 and the entry checks of R2. The source of an entry not valid is left free [60]. -/
def SampleEntry.legal (e : SampleEntry) : Prop :=
  (e.decimation = 1 ∨ e.decimation = 2 ∨ e.decimation = 4 ∨ e.decimation = 8) ∧
  int16 e.gain ∧ int16 e.offset ∧ int16 e.low ∧ int16 e.high ∧ e.low ≤ e.high ∧ e.rate ≤ 32767 ∧
  (e.valid = true → 1 ≤ e.source.toNat ∧ e.source.toNat ≤ 55)

/-- R11. -/
def SignalCfg.legal (c : SignalCfg) : Prop :=
  1 ≤ c.staleLimit ∧ c.staleLimit ≤ 65535 ∧ (c.lossCode = 0 ∨ (32 : Code) ≤ c.lossCode)

/-- R23 and the checks of R34 on a valid entry. The event code of an entry not valid is any word [60]. -/
def LimitCfg.legal (c : LimitCfg) : Prop :=
  int16 c.trip ∧ int16 c.release ∧ int16 c.lowTrip ∧ int16 c.lowRelease ∧
  1 ≤ c.persistence ∧ c.persistence ≤ 255 ∧ c.code < 65536 ∧
  (c.valid = true → 32 ≤ c.code ∧ c.code ≤ 127 ∧ c.ordered = true)

/-- R38 and R39. -/
def ChanCfg.legal (c : ChanCfg) : Prop :=
  1 ≤ c.count ∧ c.count ≤ 64 ∧ (c.base : Nat) + c.count ≤ 256 ∧ int16 c.demandLevel

/-- R41. -/
def Step.legal : Step → Prop
  | .emit node _ value => 1 ≤ node.toNat ∧ int16 value
  | .await _ _ level timeout => int16 level ∧ 1 ≤ timeout ∧ timeout ≤ 65535
  | .dwell n => 1 ≤ n ∧ n ≤ 65535
  | .claim _ amount timeout => 1 ≤ amount ∧ amount ≤ 65535 ∧ 1 ≤ timeout ∧ timeout ≤ 65535
  | .free _ => True
  | .link _ => True

/-- R65. -/
def TagCfg.legal (c : TagCfg) : Prop := c.name ≤ 255 ∧ c.owner ≠ .allocator

/-- R77 and R78. -/
def ConvCfg.legal (c : ConvCfg) : Prop :=
  [c.gridA, c.gridB, c.gridC].Nodup ∧ [c.precharge, c.run, c.stop, c.trip].Nodup ∧
  c.temps.length ≤ 6 ∧ 56 ≤ c.group.toNat ∧ c.group.toNat ≤ 62 ∧
  c.absent ≤ c.dipEntry ∧ c.dipEntry ≤ c.dipExit ∧ c.dipExit ≤ 32767 ∧
  1 ≤ c.absentPersistence ∧ c.absentPersistence ≤ 255 ∧
  c.levels[0] < c.levels[1] ∧ c.levels[1] < c.levels[2] ∧ c.levels[2] < c.levels[3] ∧
  c.levels[3] ≤ 32767 ∧ (∀ k : Fin 4, c.times[k] ≤ 65535) ∧
  1 ≤ c.blindLimit ∧ c.blindLimit ≤ 255 ∧ c.autonomousCap ≤ 32767

/-- R99 and R100. -/
def AlwCfg.legal (c : AlwCfg) : Prop :=
  (c.length = 1 ∨ c.length = 2 ∨ c.length = 4 ∨ c.length = 8) ∧
  (∀ k : Fin 8, int16 c.temps[k]) ∧
  (∀ k : Fin 7, c.temps[k.castSucc] < c.temps[k.succ]) ∧
  (∀ k : Fin 8, c.levels[k] ≤ 20480) ∧ c.blind ≤ 20480 ∧ c.deadBand ≤ 32767 ∧ c.gain ≤ 2560 ∧
  c.iqMax ≤ 32767 ∧ 1 ≤ c.ramp ∧ c.ramp ≤ 1024

/-- R113 and R114. -/
def YawCfg.legal (c : YawCfg) : Prop :=
  [c.releaseCw, c.releaseCcw, c.stop].Nodup ∧ c.amount ≤ 65535 ∧
  1 ≤ c.eLong ∧ c.eLong ≤ 18000 ∧ 1 ≤ c.eShort ∧ c.eShort ≤ 18000 ∧
  1 ≤ c.eLongStorm ∧ c.eLongStorm ≤ 18000 ∧ 1 ≤ c.eShortStorm ∧ c.eShortStorm ≤ 18000 ∧
  c.eStop < c.eLong ∧ c.eStop < c.eShort ∧ c.eStop < c.eLongStorm ∧ c.eStop < c.eShortStorm ∧
  c.vMin ≤ 32767 ∧ c.vStorm ≤ 32767 ∧ c.vUnwind ≤ 32767 ∧
  c.unwindTarget < c.unwindLevel ∧ c.unwindLevel ≤ c.hardLimit ∧ c.hardLimit ≤ 1000000 ∧
  1 ≤ c.stallWindow ∧ c.stallWindow ≤ 65535 ∧ 1 ≤ c.minMove ∧ c.minMove ≤ 18000 ∧
  c.rollLimit ≤ 32767 ∧ c.restTime ≤ 1023

/-- R134 and R136. -/
def ClcCfg.legal (c : ClcCfg) : Prop :=
  (c.fanTag.toList ++ [c.pumpATag, c.pumpBTag] ++ c.heaterTag.toList).Nodup ∧
  (c.aToB.toList ++ c.bToA.toList).Nodup ∧
  1 ≤ c.pumpAmount ∧ c.pumpAmount ≤ 65535 ∧ 1 ≤ c.heaterAmount ∧ c.heaterAmount ≤ 65535 ∧
  1 ≤ c.node.toNat ∧ 1 ≤ c.heaterNode.toNat ∧ 1 ≤ c.window ∧ c.window ≤ 65535 ∧
  c.flowMin ≤ 32767 ∧ 1 ≤ c.lowWindows ∧ c.lowWindows ≤ 255 ∧ c.noFlowFactor ≤ 16384 ∧
  c.humOff < c.humOn ∧ c.humOn ≤ 1000

/-- R135. -/
def Stage.legal (c : Stage) : Prop :=
  int16 c.entry ∧ int16 c.exit ∧ int16 c.fan ∧ int16 c.pump ∧ c.amount ≤ 65535 ∧
  c.capacity ≤ 16384 ∧ c.dwell ≤ 1023

/-- R152. -/
def EventCfg.legal (c : EventCfg) : Prop := c.snapshot.length ≤ 4

/-- Every table and parameter object keeps its ranges. -/
def Settings.inRange (st : Settings) : Prop :=
  (∀ i : MapIx, st.sampleMap[i].legal) ∧ (∀ i : SigIx, st.signals[i].legal) ∧
  (∀ i : LimIx, st.limits[i].legal) ∧ (∀ i : ChanIx, st.chans[i].legal) ∧
  (∀ i : StepIx, st.steps[i].legal) ∧
  st.gridCap ≤ 65535 ∧ st.sagCap ≤ 65535 ∧ st.backupCap ≤ 65535 ∧
  (∀ i : TagIx, st.tags[i].legal) ∧ st.conv.legal ∧ st.alw.legal ∧ st.yaw.legal ∧ st.clc.legal ∧
  (∀ i : StageIx, st.stages[i].legal) ∧ stagesOrdered st.stages = true ∧
  (∀ i : Code, st.events[i].legal) ∧ 1 ≤ st.noticeDest.toNat

/-- Among valid Sample Map entries each key is unique and each contributor is fed once (R1); a valid entry
feeds a SAMPLED signal (R2); a DERIVED pair stands in one record (R12). -/
def Settings.keysDistinct (st : Settings) : Prop :=
  (∀ i j : MapIx, st.sampleMap[i].valid = true → st.sampleMap[j].valid = true → i ≠ j →
    (st.sampleMap[i].source, st.sampleMap[i].channel) ≠
        (st.sampleMap[j].source, st.sampleMap[j].channel) ∧
      (st.sampleMap[i].target, st.sampleMap[i].slot) ≠
        (st.sampleMap[j].target, st.sampleMap[j].slot)) ∧
  (∀ i : MapIx, st.sampleMap[i].valid = true →
    st.signals[st.sampleMap[i].target].feed = .sampled) ∧
  (∀ i j : SigIx, st.signals[i].feed ≠ .sampled → i ≠ j → st.signals[i].feed ≠ st.signals[j].feed)

/-- The settings keep their ranges and their keys. -/
def Settings.legal (st : Settings) : Prop := st.inRange ∧ st.keysDistinct

end Sys2Proof.Machine
end

