-- ==== Sys2Proof/Safety.lean ====
section
/-! DEFINITION. Safety.lean: what counts as a safe run, and the laws that every state of a run must keep, in
the words the statements use. Each law cites the rule it puts into Lean; a step takes a state that keeps a
law to one that keeps it. -/

namespace Sys2Proof.Machine

/-! ### Runs -/

/-- A run of `n` steps from a state goes through next states only. -/
def runs : Nat → State → State → Prop
  | 0, s, t => s = t
  | n + 1, s, t => ∃ u, step s = .next u ∧ runs n u t

/-- A safe run never stops: at each of its states the part answers a next state. -/
def SafeFrom (s : State) : Prop := ∀ n, ∃ t, runs n s t

/-- Between two commands a management request can be taken, and its effects are its own: the part is out of
BOOT, class 3 has room for the answer (R174), and no hand-over is left over. -/
def Ready (s : State) : Prop := s.part ≠ .boot ∧ s.rif.class3.length < 2 ∧ s.work = []

/-- The state with one more answer at the tail of class 3 (R180). -/
def State.answered (s : State) (a : MgtAnswer) : State :=
  { s with rif := { s.rif with class3 := s.rif.class3 ++ [a] } }

/-- An answer without data: its destination, request kind, echoed address and status (R180). -/
def answerOf (src : Node) (kind : Octet) (addr : Word) (st : Status) : MgtAnswer :=
  { dest := src, kind := kind, status := st, addr := addr, data := [] }

/-- The answer of a WRITE at a region's word. -/
def writeAnswer (src : Node) (r : Region) (off : Nat) (st : Status) : MgtAnswer :=
  answerOf src 1 (wordNat (r.base + off)) st

/-- What a command with hand-overs leaves as it was, whatever the blocks that take them do. -/
structure SameFrame (s t : State) : Prop where
  straps : t.addrStraps = s.addrStraps
  bypass : t.bypass = s.bypass
  part : t.part = s.part
  image : t.image = s.image
  capture : t.capture = s.capture
  imageValid : t.imageValid = s.imageValid
  ownAddress : t.ownAddress = s.ownAddress
  lastReset : t.lastReset = s.lastReset
  portIn : t.rif.portIn = s.rif.portIn
  portOut : t.rif.portOut = s.rif.portOut
  buffer : t.rif.buffer = s.rif.buffer
  ringTime : t.rif.ringTime = s.rif.ringTime
  cycle : t.rif.cycle = s.rif.cycle
  line : t.rif.line = s.rif.line
  pending : t.pending = s.pending

/-- A wait of the channel has run out (R51 to R53). -/
def State.waitDue (s : State) (c : ChanIx) : Prop :=
  match (s.chan c).state, s.stepAt c with
  | .waiting .await, .await _ _ _ n => n ≤ (s.chan c).timer
  | .waiting .dwell, .dwell n => n ≤ (s.chan c).timer
  | .waiting .claim, .claim _ _ n => n ≤ (s.chan c).timer
  | _, _ => False

/-- No expiry that has a step of its own is due and no hand-over waits, so that a cycle event finds nothing left to
take before it. -/
def NothingDue (s : State) : Prop :=
  s.work = [] ∧ (∀ c : ChanIx, ¬s.waitDue c) ∧
  (s.yaw.state = .driving → s.yaw.stallTimer < s.settings.yaw.stallWindow) ∧
  (s.yaw.inhibit.rest = true → s.yaw.restTimer < s.settings.yaw.restTime * 1024) ∧
  s.clc.dwellDue = false ∧ s.clc.flowTimer < s.settings.clc.window

/-! ### Turns of the engine and requests in frames -/

/-- The command that executes a step of its kind (section 3.7). -/
def Step.command : Step → Instr
  | .emit _ _ _ => .emit
  | .await _ _ _ _ => .await
  | .dwell _ => .dwell
  | .claim _ _ _ => .claim
  | .free _ => .free
  | .link _ => .link

/-- The channel holds the engine, its run is not at its end, its demand holds and no hand-over waits: it
executes the step it stands on (R47, R49). -/
structure Turn (s : State) (c : ChanIx) : Prop where
  holder : s.seq.holder = some c
  running : (s.chan c).state = .running
  remaining : 0 < (s.chan c).remaining
  demand : s.demandHolds c = true
  work : s.work = []

/-- The channel goes on with its next step, the engine in hand: BLOCK or DEMAND mode and a step still to
complete (R47, R48). -/
def State.goesOn (s : State) (c : ChanIx) : Prop :=
  (s.desc c).mode ≠ .single ∧ 1 < (s.chan c).remaining

/-- The engine given up by the channel (R46). -/
def State.engineFree (s : State) (c : ChanIx) : State :=
  { s with seq := { s.seq with holder := if s.seq.holder = some c then none else s.seq.holder } }

/-- The open frame, if there is one, stands at the tail of class 1 (R60). -/
def State.frameClosed (s : State) : State :=
  { s with
    seq := { s.seq with opened := none }
    rif := { s.rif with class1 := s.rif.class1 ++
      (s.seq.opened.map fun o => ({ dest := o.dest, items := o.items } : CmdFrame)).toList } }

/-- The open frame finds class 1 full: the channel keeps it and waits in QUEUE without the engine (R61). -/
def State.frameHeld (s : State) (c : ChanIx) (o : OpenFrame) : State :=
  (({ s with seq := { s.seq with opened := none } } : State).modChan c fun r =>
    { r with state := .waiting .queue, held := some { dest := o.dest, items := o.items } }).engineFree c

/-- The command that a Management Request asks for (12.1): none for a kind or subject outside its list, and
none where a request that is no READ or WRITE and has no subject carries an address other than 0. -/
def Request.command (r : Request) : Option Instr :=
  match r.kind.toNat, r.addr.toNat with
  | 0, _ => some (.read r.src r.addr r.len r.qual)
  | 1, _ => some (.write r.src r.addr r.len r.data)
  | 2, 0 => some (.start r.src r.qual)
  | 3, 0 => some (.abort r.src r.qual)
  | 4, 0 => some (.mask r.src r.qual)
  | 5, 0 => some (.unmask r.src r.qual)
  | 6, 0 => some (.ack r.src r.qual)
  | 7, 0 => some (.clearTrip r.src)
  | 7, 1 => some (.clearYaw r.src)
  | 7, 2 => some (.clearFirstOut r.src)
  | 7, 3 => some (.clearEventCounts r.src)
  | 7, 4 => some (.clearPending r.src r.qual)
  | 8, 0 => some (.conversionStart r.src)
  | 8, 1 => some (.conversionRun r.src)
  | 8, 2 => some (.conversionStop r.src)
  | 9, 0 => some (.yawEnable r.src)
  | 9, 1 => some (.yawDisable r.src)
  | 10, 0 => some (.save r.src)
  | 11, 0 => some (.commission r.src)
  | 12, 0 => some (.decommission r.src)
  | 13, 0 => some (.reset r.src)
  | _, _ => none

/-! ### The Insertion Queue -/

/-- The shapes of class 0 that R176 names: a Block Command at most once, with at most one Reference Frame
ahead of it and at most one behind it; with no Block Command, at most one Reference Frame. -/
def class0Shape : List Class0 → Bool
  | [] => true
  | [_] => true
  | [.ref _ _ _, .block _] => true
  | [.block _, .ref _ _ _] => true
  | [.ref _ _ _, .block _, .ref _ _ _] => true
  | _ => false

/-- Laws of R175 and R176: no class holds more frames than its quota, and class 0 has one of its shapes. -/
def QueueLaw (s : State) : Prop :=
  class0Shape s.rif.class0 = true ∧ s.rif.class0.length ≤ 4 ∧ s.rif.class1.length ≤ 6 ∧
    s.rif.class2.length ≤ 4 ∧ s.rif.class3.length ≤ 2

/-- A Block Command is queued. -/
def BlockQueued (s : State) : Prop := ∃ d, Class0.block d ∈ s.rif.class0

/-! ### Events -/

/-- Law of R156: no code is both pending and in service, and at most one code per group is in service. -/
def EventLaw (s : State) : Prop :=
  (∀ c : Code, ¬(s.evu.events[c].pending = true ∧ s.evu.events[c].inService = true)) ∧
  ∀ c d : Code, s.evu.events[c].inService = true → s.evu.events[d].inService = true →
    s.settings.events[c].group = s.settings.events[d].group → c = d

/-- R162: at most 64 records, with consecutive sequences, the newest just below the next record sequence. -/
def LogLaw (s : State) : Prop :=
  s.evu.log.length ≤ 64 ∧
  ∀ k, (h : k < s.evu.log.length) →
    s.evu.log[k].sequence = s.evu.nextSeq - BitVec.ofNat 16 (s.evu.log.length - k)

/-- The newest 64 of a list of records. -/
def newest64 (l : List FaultRecord) : List FaultRecord := l.drop (l.length - 64)

/-- R162: the log has changed only by new records that joined its end, the oldest leaving. Each took the next
record sequence in its turn, so that the next record sequence tells how many they are. -/
def LogGrows (e f : EvuRt) : Prop :=
  ∃ new : List FaultRecord, f.log = newest64 (e.log ++ new) ∧
    f.nextSeq = e.nextSeq + BitVec.ofNat 16 new.length ∧
    ∀ k, (h : k < new.length) → new[k].sequence = e.nextSeq + BitVec.ofNat 16 k

/-! ### Part states, image and bypass -/

/-- R186: while a save is in flight the settings are the captured ones. -/
def CaptureLaw (s : State) : Prop := ∀ c, s.capture = some c → c = s.settings

/-- R178: BYPASS is asserted exactly in BOOT, and both ports are DOWN there. -/
def BootLaw (s : State) : Prop :=
  (s.bypass = true ↔ s.part = .boot) ∧
  (s.part = .boot → s.rif.portIn.state = .down ∧ s.rif.portOut.state = .down)

/-- R182, R131: outside OPERATING the jobs are at rest, CNV OFF and YAW HELD with CONFIG in its set. -/
def RestLaw (s : State) : Prop :=
  s.part ≠ .operating →
    s.cnv.state = .off ∧ s.yaw.state = .held ∧ s.yaw.inhibit.config = true

/-! ### Sequencer -/

/-- Law of R46 with section 3.9: the channel that holds the engine is the one that is RUNNING, and an open
frame belongs to it and holds 1 to 7 items (the eighth closes it). -/
def EngineLaw (s : State) : Prop :=
  (∀ c : ChanIx, s.seq.chans[c].state = .running ↔ s.seq.holder = some c) ∧
  ∀ o, s.seq.opened = some o →
    s.seq.holder = some o.chan ∧ 1 ≤ o.items.length ∧ o.items.length ≤ 7

/-- R42: the descriptor of a channel and the steps of its range are the same in both states. -/
def sameRange (s t : State) (c : ChanIx) : Prop :=
  t.settings.chans[c] = s.settings.chans[c] ∧
  ∀ k : StepIx, (s.settings.chans[c].base : Nat) ≤ k →
    (k : Nat) < s.settings.chans[c].base + s.settings.chans[c].count →
    t.settings.steps[k] = s.settings.steps[k]

/-! ### Allocator -/

/-- Law of R68: a tag has at most one entry in the Claim Queue; it is both granted and queued only while
its entry is an increase. No entry asks for nothing (R67). -/
def ClaimLaw (s : State) : Prop :=
  (s.ala.queue.map Claim.tag).Nodup ∧
  ∀ q ∈ s.ala.queue, q.amount ≠ 0 ∧ (q.increase = true ↔ s.ala.tags[q.tag].grant ≠ 0)

/-- Law of R69: the sum of all grants is at most the capacity of the supply mode, except when every tag
that holds a grant is of class 0. -/
def BudgetLaw (s : State) : Prop :=
  s.ala.sum ≤ s.settings.capacity s.ala.mode ∨
    ∀ t : TagIx, s.ala.tags[t].grant ≠ 0 → s.settings.tags[t].cls = 0

/-! ### Yaw -/

/-- Law of R124: YAW is never in DRIVING with a direction that increases |twist| while |twist| is at or
above the hard limit. -/
def HardLimitLaw (s : State) : Prop :=
  s.yaw.state = .driving →
    ¬(s.yaw.increases s.yaw.direction = true ∧ s.settings.yaw.hardLimit ≤ s.yaw.twist.natAbs)

/-- Law of R125: while YAW is in DRIVING the yaw tag, owned by YAW, holds a grant, or the notice that it has
been freed is among the hand-overs that YAW has not taken yet. -/
def YawGrantLaw (s : State) : Prop :=
  s.yaw.state = .driving →
    (s.settings.tags[s.settings.yaw.tag].owner = .yaw ∧
        s.ala.tags[s.settings.yaw.tag].grant ≠ 0) ∨
      Work.released .yaw s.settings.yaw.tag ∈ s.work

/-- R115: the window holds at most 64 values and the twist stays within its range. -/
def YawRangeLaw (s : State) : Prop :=
  s.yaw.window.length ≤ 64 ∧ -1000000 ≤ s.yaw.twist ∧ s.yaw.twist ≤ 1000000

/-! ### Allowance -/

/-- The settings keep the capacity factors and the no-flow factor within 0 to 16384 (R134, R135). -/
def Settings.factorsBounded (st : Settings) : Prop :=
  (∀ k : StageIx, st.stages[k].capacity ≤ 16384) ∧ st.clc.noFlowFactor ≤ 16384

/-- Law of R110 on the record the Reference Frames are made from: iq_ref at most Ith at most A, and
ip_limit at most the active capacity beside iq_ref. The cooling factor and the settings it comes from,
loaded, saved or captured, stay at most 1. -/
def AllowanceLaw (s : State) : Prop :=
  s.settings.factorsBounded ∧ (∀ st, s.image = some st → st.factorsBounded) ∧
  (∀ st, s.capture = some st → st.factorsBounded) ∧ s.clc.cf ≤ 16384 ∧
  s.alw.lastIq ≤ s.alw.ith ∧ s.alw.ith ≤ s.alw.a ∧
  s.alw.lastIp ≤ activeCap s.alw.ith s.alw.lastIq

end Sys2Proof.Machine
end

