-- ==== Sys2Proof/Certificates/Slice0/Obligations.lean ====
section
/-! DEFINITION. Certificates/Slice0/Obligations.lean: the statements for the provers, from the numbered rules of
spec/. Each is a closed proposition; nothing is proved here. A statement that names a log entry in square
brackets rests on a choice of the model there. -/

section
open Sys2Proof Sys2Proof.Machine

/-! ### The machine -/

/-- A step takes the command at the front of the queue and runs exactly it, on the state that holds the rest. On an
empty queue the part idles, and a frame in the forwarding buffer is sent while OUT is UP: the idle step is the model's
choice (log entry 6). The hand-overs that a command leaves are settled before it ends: the oldest is taken, then those
that remain, until none waits. An update goes to its readers (R20), the outcome of a run to the owner of the channel
(R59), a release to YAW where YAW owns the tag (R125), and a change of conversion state and the stage tests after a
stage grant to CLC (R147, R139). First in, first out, and at most 256 in one command, is log entry 2. -/
def Obligations.StepTakesTheFront : Prop :=
  (∀ (c : Instr) (rest : List Instr) (s : State), s.pending = c :: rest →
    step s = exec c { s with pending := rest }) ∧
  (∀ s : State, s.pending = [] →
    (s.rif.buffer = none ∨ s.rif.portOut.state ≠ .up → step s = .next s) ∧
    (∀ f, s.rif.buffer = some f → s.rif.portOut.state = .up →
      step s = .next { s with rif := { s.rif with
        buffer := none, line := s.rif.line ++ [.forwarded f.octets f.aborted] } })) ∧
  -- the hand-overs
  (∀ (s : State) (n : Nat),
    s.settle = settleUpTo 256 s ∧ settleUpTo 0 s = s ∧
    (s.work = [] → settleUpTo n s = s ∧ s.settle = s) ∧
    ∀ (w : Work) (rest : List Work), s.work = w :: rest →
      let u := State.take { s with work := rest } w
      settleUpTo (n + 1) s = settleUpTo n u ∧
      ((settleUpTo 255 u).work = [] → s.settle = u.settle)) ∧
  ∀ s : State,
    s.take .convChanged = s.heaterTest ∧ s.take .stageTest = s.stageTest ∧
    (∀ (i : SigIx) (v : Int) (q : Quality) (k : Cause), s.take (.update i v q k) = s.takeUpdate i v q k) ∧
    (∀ t : TagIx, s.take (.released .yaw t) = s.yawReleased t) ∧
    (∀ (o : Owner) (t : TagIx), o ≠ .yaw → s.take (.released o t) = s) ∧
    ∀ (c : ChanIx) (e : RunEnd),
      s.take (.outcome .none c e) = s ∧ s.take (.outcome .yaw c e) = s.yawOutcome c e ∧
      s.take (.outcome .conversion c e) = s.cnvOutcome c e ∧ s.take (.outcome .cooling c e) = s.clcOutcome c e ∧
      s.take (.outcome .allocator c e) = s.shedChannelEnd c

/-- No command stops the part: each answers a next state, with the queue's rest and the straps as they were. -/
def Obligations.EveryCommandAnswers : Prop :=
  ∀ (c : Instr) (s : State), ∃ t, exec c s = .next t ∧ t.pending = s.pending ∧
    t.addrStraps = s.addrStraps

/-! ### Laws that every step keeps -/

/-- R175 with R176: no class of the Insertion Queue grows beyond its quota, class 0 keeps its shapes, and a Block
Command, once queued, stays queued until it is inserted or a hard reset intervenes. -/
def Obligations.QueueLawKept : Prop :=
  (∀ s t : State, QueueLaw s → step s = .next t → QueueLaw t) ∧
  ∀ (c : Instr) (s t : State), c ≠ .frameInsertion → c ≠ .powerOnReset → c ≠ .pinReset →
    exec c s = .next t → BlockQueued s → BlockQueued t

/-- R156: no code is both pending and in service, and at most one code of a group is in service. -/
def Obligations.EventLawKept : Prop :=
  ∀ s t : State, EventLaw s → step s = .next t → EventLaw t

/-- R162: the log keeps consecutive sequences and at most 64 records, and it changes only by new records that
join its end, each with the next record sequence in its turn, the oldest leaving; a power-on reset alone empties it.
R164: an entry of the First-Out Store keeps its place and its contents, and the store never holds more than four,
whatever the command; where no hand-over was left over before the command, the entries keep their places, but for the
command that clears the store and the power-on reset. -/
def Obligations.LogAndFirstOutKept : Prop :=
  (∀ s t : State, LogLaw s → step s = .next t →
    LogLaw t ∧
    (s.pending.head? = some .powerOnReset ∨ LogGrows s.evu t.evu)) ∧
  ∀ (c : Instr) (s t : State), s.evu.firstOut.length ≤ 4 → exec c s = .next t →
    t.evu.firstOut.length ≤ 4 ∧
    (s.work = [] → s.evu.firstOut <+: t.evu.firstOut ∨
      (t.evu.firstOut = [] ∧
        ((∃ src, c = .clearFirstOut src) ∨ (∃ f, c = .frameReceived f) ∨ c = .powerOnReset)))

/-- R186: while a save is in flight the settings stay what it captured. R178: BYPASS is asserted exactly in BOOT,
where both ports are DOWN. R182, R131: outside OPERATING the jobs are at rest. -/
def Obligations.PartLawsKept : Prop :=
  ∀ s t : State, step s = .next t →
    (CaptureLaw s → CaptureLaw t) ∧ (BootLaw s → BootLaw t) ∧ (RestLaw s → RestLaw t)

/-- R46: at most one channel holds the Step Engine, it is the RUNNING one, and the open frame is its own. -/
def Obligations.EngineLawKept : Prop :=
  ∀ s t : State, EngineLaw s → step s = .next t → EngineLaw t

/-- R68: a tag is queued once at most, and granted and queued together only as an increase. R69: the sum of all
grants stays within the capacity of the supply mode unless class 0 alone holds grants. -/
def Obligations.AllocatorLawsKept : Prop :=
  ∀ s t : State, step s = .next t → (ClaimLaw s → ClaimLaw t) ∧ (BudgetLaw s → BudgetLaw t)

/-- R124: YAW never drives on outward at or above the hard limit. R115, R117: the window and the twist keep their
ranges. R125: while YAW drives, the yaw tag holds a grant, or the notice that it is gone has reached YAW's list. -/
def Obligations.YawLawsKept : Prop :=
  ∀ s t : State, step s = .next t →
    (HardLimitLaw s → HardLimitLaw t) ∧ (YawRangeLaw s → YawRangeLaw t) ∧
    (ClaimLaw s → YawGrantLaw s → YawGrantLaw t)

/-- R110: the record the Reference Frames are made from never leaves the allowance. -/
def Obligations.AllowanceLawKept : Prop :=
  ∀ s t : State, AllowanceLaw s → step s = .next t → AllowanceLaw t

/-- R42: the descriptor of a channel that is not MASKED and the steps of its range change by no command, but for
the hard resets and the end of BOOT. -/
def Obligations.RunningRangesKept : Prop :=
  ∀ (i : Instr) (s t : State) (c : ChanIx), i ≠ .powerOnReset → i ≠ .pinReset → i ≠ .bootEnd →
    (s.chan c).state ≠ .masked → exec i s = .next t → sameRange s t c

/-- R182: what is stored in the tables, in the image and in a capture keeps the ranges of the field tables and the
checks of the write rules. (That an entry not valid may hold a source node of 56 to 63 or, in the Limit Table, any event
code is log entry 60.) -/
def Obligations.SettingsStayLegal : Prop :=
  ∀ s t : State,
    (s.settings.legal ∧ (∀ st, s.image = some st → st.legal) ∧ (∀ st, s.capture = some st → st.legal)) →
    step s = .next t →
    t.settings.legal ∧ (∀ st, t.image = some st → st.legal) ∧ (∀ st, t.capture = some st → st.legal)

/-- The state right after a power-on reset keeps every law. -/
def Obligations.ResetKeepsTheLaws : Prop :=
  QueueLaw State.reset ∧ EventLaw State.reset ∧ LogLaw State.reset ∧ CaptureLaw State.reset ∧
  BootLaw State.reset ∧ RestLaw State.reset ∧ EngineLaw State.reset ∧ ClaimLaw State.reset ∧
  BudgetLaw State.reset ∧ HardLimitLaw State.reset ∧ YawRangeLaw State.reset ∧
  YawGrantLaw State.reset ∧ AllowanceLaw State.reset ∧ State.reset.settings.legal

/-! ### Records and their words -/

/-- The words of every record of the configuration tables and objects, written back, give that record again with
nothing clamped (12.4), entries that are not valid with the field values of log entry 60 among them. -/
def Obligations.RecordsReadBack : Prop :=
  (∀ x : SampleEntry, x.legal → sampleEntryOf x.words = some (x, false)) ∧
  (∀ x : SignalCfg, x.legal → signalOf x.words = some (x, false)) ∧
  (∀ x : LimitCfg, x.legal → limitOf x.words = some (x, false)) ∧
  (∀ x : ChanCfg, x.legal → chanOf x.words = some x) ∧
  (∀ x : Step, x.legal → stepOf x.words = some (x, false)) ∧
  (∀ x : TagCfg, x.legal → tagOf x.words = some x) ∧
  (∀ x : ConvCfg, x.legal → convOf x.words = some (x, false)) ∧
  (∀ x : AlwCfg, x.legal → alwOf x.words = some (x, false)) ∧
  (∀ x : YawCfg, x.legal → yawOf x.words = some (x, false)) ∧
  (∀ x : ClcCfg, x.legal → clcOf x.words = some (x, false)) ∧
  (∀ x : Stage, x.legal → stageOf x.words = (x, false)) ∧
  (∀ x : EventCfg, x.legal → eventOf x.words = some x)

/-! ### Resets and part states -/

/-- R189 with the reset tables of the chapters: a power-on reset and a pin reset start BOOT from any state, with
BYPASS asserted, every block at its reset state over the default tables and the image as it was. The power-on reset
empties the log and the First-Out Store, the pin reset keeps them. Reset values that the spec does not state, the
tables in BOOT among them, are the model's (log entries 14 and 15). -/
def Obligations.HardResets : Prop :=
  ∀ s : State, ∃ t u, exec .powerOnReset s = .next t ∧ exec .pinReset s = .next u ∧
    t.lastReset = .power ∧ t.evu.log = [] ∧ t.evu.nextSeq = 0 ∧ t.evu.firstOut = [] ∧
    u.lastReset = .pin ∧ u.evu.log = s.evu.log ∧ u.evu.nextSeq = s.evu.nextSeq ∧
    u.evu.firstOut = s.evu.firstOut ∧
    ∀ r, r = t ∨ r = u →
      r.part = .boot ∧ r.bypass = true ∧ r.image = s.image ∧ r.capture = none ∧
      r.ownAddress = addressOfStraps s.addrStraps ∧ r.addrStraps = s.addrStraps ∧
      r.pending = s.pending ∧
      r.rif.portIn.state = .down ∧ r.rif.portOut.state = .down ∧ r.rif.class0 = [] ∧
      r.rif.class1 = [] ∧ r.rif.class2 = [] ∧ r.rif.class3 = [] ∧ r.rif.buffer = none ∧
      r.rif.ringTime = 0 ∧ r.rif.cycle = .freeRun .start ∧ r.rif = { resetRif with line := s.rif.line } ∧
      r.settings = defaultSettings ∧ r.imageValid = false ∧
      r.phases = Vector.replicate 128 0 ∧ r.sequences = Vector.replicate 55 none ∧
      r.signals = resetSignals r.settings ∧
      (∀ (i : SigIx) (k : SlotIx), r.signals[i].value = 0 ∧ r.signals[i].lossRaised = false ∧
        r.signals[i].lastSlot = none ∧ r.signals[i].slots[k] = resetContributor) ∧
      r.limits = Vector.replicate 48 resetLimit ∧ r.holds = resetHolds ∧
      r.seq = resetSeq r.settings ∧ r.ala = resetAla ∧ r.cnv = resetCnv ∧ r.alw = resetAlw ∧
      r.yaw = resetYaw ∧ r.clc = resetClc r.settings ∧ r.schedule = s.schedule ∧
      (∀ c : ChanIx, (r.chan c).state = .masked) ∧ r.seq.holder = none ∧ r.seq.opened = none ∧
      (∀ i : TagIx, (r.tag i).grant = 0) ∧ r.ala.queue = [] ∧ r.ala.mode = .grid ∧
      r.cnv.state = .off ∧ r.alw.history = [] ∧ r.yaw.state = .held ∧ r.yaw.twist = 0 ∧
      r.yaw.inhibit.config = true ∧ r.clc.actual = 0 ∧ r.clc.duty = .a ∧
      (∀ i : LimIx, r.limits[i].tripped = false) ∧
      (∀ c : Code, r.evu.events[c] = resetEvent) ∧ r.work = []

/-- R183: the end of BOOT loads the image, or the defaults where it is invalid, takes the own address from the
straps, releases BYPASS and puts both ports into LISTEN. The part enters OPERATING exactly when boot autostart is
yes and the commission checks pass: the channels with a valid descriptor become IDLE, CONFIG leaves the yaw inhibit
set, autostart pending takes its parameter, the magnitude history is empty, CLC claims for its pump; event 0 and the
hand-overs follow. Event 0 names the cause of the reset and the part state. When a check fails event 28 follows with
the failing address; without boot autostart event 0 alone does. That every block is at its reset state again is log
entry 19, that ring time is kept is log entry 22, and the numbers in the details are log entries 8 and 31. -/
def Obligations.BootEnd : Prop :=
  ∀ s : State, s.part = .boot →
    ∃ t, exec .bootEnd s = .next t ∧
      t.settings = s.image.getD defaultSettings ∧ t.image = s.image ∧ t.imageValid = s.image.isSome ∧
      t.ownAddress = addressOfStraps s.addrStraps ∧ t.bypass = false ∧ t.capture = none ∧
      t.rif.portIn.state = .listen ∧ t.rif.portIn.stuckTimer = true ∧
      t.rif.portOut.state = .listen ∧ t.rif.portOut.stuckTimer = true ∧
      t.rif.ringTime = s.rif.ringTime ∧ t.lastReset = s.lastReset ∧ t.pending = s.pending ∧
      (t.part = .operating ↔
        t.settings.bootAutostart = true ∧ s.loaded.commissionFailure = none) ∧
      (t.part ≠ .operating → t.part = .configuration) ∧
      (t.settings.bootAutostart = false →
        t = ({ s.loaded.releaseBypass with part := .configuration } : State).raise 0
          [s.lastReset.code, PartState.configuration.code]) ∧
      (t.settings.bootAutostart = true →
        let b := s.loaded.releaseBypass
        let e := b.enterOperating
        let p := t.settings.clc
        (s.loaded.commissionFailure = none →
          t = (e.raise 0 [s.lastReset.code, PartState.operating.code]).settle ∧
          e.part = .operating ∧ e.yaw = { resetYaw with inhibit := noInhibit } ∧
          e.cnv = { resetCnv with autostartPending := t.settings.conv.autostart } ∧ e.alw = resetAlw ∧
          e.limits = Vector.replicate 48 resetLimit ∧ e.holds = resetHolds ∧
          (∀ c : ChanIx, e.chan c = { resetChan (t.settings.chans[c]) with
            state := if t.settings.chans[c].valid then .idle else .masked }) ∧
          (t.settings.tags[p.pumpATag].valid = true → p.pumpAmount ≤ t.settings.gridCap →
            (e.tag p.pumpATag).grant = p.pumpAmount)) ∧
        ∀ a, s.loaded.commissionFailure = some a →
          t = (({ b with part := .configuration } : State).raise 0
            [s.lastReset.code, PartState.configuration.code]).raise 28 [(a : Int)])

/-- R188: RESET is refused with STATE unless CNV is OFF or TRIPPED and YAW is HELD or FAULT. Otherwise its answer
stands in class 3, the tables, the ports, ring time and the part state are kept, and a save in flight leaves the
image invalid. Every block is at its soft-reset state, the trip record and the yaw causes kept, and YAW inhibited by
CONFIG in CONFIGURATION and by MANAGEMENT in OPERATING, where CLC then takes its start action. Event 0 is raised with
reset cause SOFT and the part state, then event 26 with cause RESET when a save was in flight; last come the
hand-overs, of which there are none in CONFIGURATION. The numbers in the details are the model's (log entries 8
and 31), and so is that the start action of CLC comes before event 0 (log entry 9). -/
def Obligations.SoftReset : Prop :=
  ∀ (s : State) (src : Node), Ready s →
    (¬(s.convAtRest = true ∧ s.yawAtRest = true) →
      exec (.reset src) s = .next (s.answered (answerOf src 13 0 .state))) ∧
    (s.convAtRest = true → s.yawAtRest = true →
      let p := s.settings.clc
      -- every block at its soft-reset state
      let v : State := { s with
        rif := { s.rif with class3 := s.rif.class3 ++ [answerOf src 13 0 .ok] }
        capture := none
        imageValid := s.imageValid && s.capture.isNone
        ownAddress := addressOfStraps s.addrStraps
        lastReset := .soft
        phases := Vector.replicate 128 0
        sequences := Vector.replicate 55 none
        signals := resetSignals s.settings
        limits := Vector.replicate 48 resetLimit
        holds := resetHolds
        seq := resetSeq s.settings
        ala := resetAla
        cnv := { resetCnv with
          cause := s.cnv.cause, detail := s.cnv.detail, time := s.cnv.time, further := s.cnv.further }
        alw := resetAlw
        yaw := { resetYaw with
          stopCause := s.yaw.stopCause, faultCause := s.yaw.faultCause
          inhibit := if s.part = .operating then { noInhibit with management := true }
            else { noInhibit with config := true } }
        clc := resetClc s.settings
        evu := { s.evu with events := s.evu.events.map fun e =>
          { e with pending := false, kind := .occurred, inService := false, recurred := false, count := 0 } }
        work := [] }
      -- the start action of CLC (R148)
      let q := v.claimTag p.pumpATag p.pumpAmount .clc
      let pumped := if q.2 = .queued then q.1.modClc fun c => { c with pumpClaim := true } else q.1
      let sent := if p.heaterTag = none then pumped.stageCommand else pumped.stageCommand.heaterCommand false
      let w := if s.part = .operating then sent.stageTest.heaterTest else v
      -- the events
      let x := w.raise 0 [2, if s.part = .operating then 2 else 1]
      let y := if s.capture = none then x else x.raise 26 [1]
      ∃ t, exec (.reset src) s = .next t ∧ t = y.settle ∧ (s.part = .configuration → t = y) ∧
        t.part = s.part ∧ t.settings = s.settings ∧ t.image = s.image ∧ t.capture = none ∧
        t.imageValid = (s.imageValid && s.capture.isNone) ∧ t.lastReset = .soft ∧
        t.ownAddress = addressOfStraps s.addrStraps ∧ t.bypass = s.bypass ∧
        t.rif.portIn = s.rif.portIn ∧ t.rif.portOut = s.rif.portOut ∧
        t.rif.ringTime = s.rif.ringTime ∧ t.rif.cycle = s.rif.cycle ∧ t.pending = s.pending ∧
        t.rif.class3 = s.rif.class3 ++ [answerOf src 13 0 .ok] ∧
        (s.part = .configuration →
          t.seq = resetSeq s.settings ∧ t.ala = resetAla ∧ t.cnv = v.cnv ∧ t.yaw = v.yaw ∧
          t.clc = resetClc s.settings ∧ t.limits = Vector.replicate 48 resetLimit ∧ t.holds = resetHolds ∧
          t.signals = resetSignals s.settings ∧ t.alw = resetAlw ∧
          t.phases = Vector.replicate 128 0 ∧ t.sequences = Vector.replicate 55 none ∧
          t.rif.class0 = s.rif.class0 ∧ t.rif.class1 = s.rif.class1))

/-- R184: COMMISSION in CONFIGURATION takes the part to OPERATING when the checks pass: every MASKED channel with a
valid descriptor becomes IDLE with its current step and remaining count loaded and its outcome flags clear, and every
other channel keeps its record (R45); the holds are brought up to date (R33); autostart pending is set from its
parameter and the magnitude history is emptied; CONFIG leaves the yaw inhibit set; CLC takes its start action (R148).
This order of the entry actions is log entry 9. Then the hand-overs of the entry are taken. (A channel that waits in
CLAIM can be granted by the start action of CLC, end its run, and request its link channel.) The checks pass when no
designated signal is UNUSED, every designated channel has a valid descriptor, and no channel is designated in two of
the three objects. When a check fails the answer is STATE with the failing address, in OPERATING it is STATE, and
nothing changes. -/
def Obligations.Commission : Prop :=
  (∀ s : State, s.commissionFailure = none ↔
    (∀ x ∈ s.settings.designatedSignals, s.signals[x.2].quality ≠ .unused) ∧
    (∀ d ∈ s.settings.designatedChans, (s.desc d.chan).valid = true) ∧
    ∀ d ∈ s.settings.designatedChans, ∀ e ∈ s.settings.designatedChans,
      d.chan = e.chan → d.object = e.object) ∧
  ∀ (s : State) (src : Node), Ready s →
    (s.part = .operating →
      exec (.commission src) s = .next (s.answered (answerOf src 11 0 .state))) ∧
    (s.part = .configuration → ∀ a, s.commissionFailure = some a →
      exec (.commission src) s =
        .next (s.answered { answerOf src 11 0 .state with data := [wordNat a] })) ∧
    (s.part = .configuration → s.commissionFailure = none →
      ∃ t, exec (.commission src) s = .next t ∧
        t = (s.enterOperating.answered (answerOf src 11 0 .ok)).settle ∧
        t.part = .operating ∧ t.settings = s.settings ∧
        t.rif.class3 = s.rif.class3 ++ [answerOf src 11 0 .ok] ∧
        s.enterOperating.yaw.inhibit.config = false ∧
        s.enterOperating.cnv.autostartPending = s.settings.conv.autostart ∧
        s.enterOperating.alw.history = [] ∧
        (∀ a : State, a = ({ s with part := .operating } : State).unmaskAll →
        let b := a.updateHolds
        let p := s.settings.clc
        let entered : State := { b with
          cnv := { b.cnv with autostartPending := s.settings.conv.autostart }
          alw := { b.alw with history := [] }
          yaw := { b.yaw with inhibit := { b.yaw.inhibit with config := false } } }
        let claim (t : TagIx) : State :=
          if (entered.tag t).grant ≠ 0 then entered
          else match entered.claimTag t p.pumpAmount .clc with
            | (x, .queued) => x.modClc fun c => { c with pumpClaim := true }
            | (x, .granted) => x
            | (x, .refused) => x
        let pumped := match entered.clc.duty with
          | .a => claim p.pumpATag
          | .b => claim p.pumpBTag
          | .changeover => entered
          | .noFlow => entered
        let sent := pumped.stageCommand
        let heated := if p.heaterTag = none then sent else sent.heaterCommand (decide (sent.clc.heater = .on))
        let unmasked (c : ChanIx) : ChanRt :=
          if (s.chan c).state = .masked ∧ (s.desc c).valid = true then { s.chan c with
            state := .idle, current := (s.desc c).base, remaining := (s.desc c).count
            terminal := false, fault := false, aborted := false }
          else s.chan c
        (∀ c : ChanIx, a.chan c = unmasked c) ∧
        a = { s with part := .operating, seq := { s.seq with chans := a.seq.chans } } ∧
        s.enterOperating = heated.stageTest.heaterTest ∧
        (s.yaw.state = .held → (∀ c : ChanIx, (s.chan c).state ≠ .waiting .claim) →
          ∀ c : ChanIx, s.enterOperating.chan c = unmasked c)) ∧
        ∀ c : ChanIx, (s.desc c).valid = true → (s.chan c).state ≠ .waiting .claim →
          (s.enterOperating.chan c).state ≠ .masked)

/-- R185: DECOMMISSION is refused with STATE in CONFIGURATION, and in OPERATING unless CNV is OFF and YAW is HELD.
Otherwise the part enters CONFIGURATION: the LIMIT inhibit and the full-cooling hold go off, CONFIG joins the yaw
inhibit set, LIMIT leaves it and the full-cooling hold of CLC goes off where they stood as LIM last told them,
autostart pending clears, CLC drops its held frames and withdraws every waiting claim, for a stage, its pump and the
heaters; CLAIMING becomes OFF, and the grants, the actual stage, the duty and heaters that are ON are kept, with no
command sent. The channels keep their states, but for those that a grant behind a withdrawn claim reaches (R69); then
the hand-overs are taken. That all the claims leave before the head is tested, once, so that none of them is granted,
is the model's choice (log entry 59): R70 tests the head at each WITHDRAW, and R148 gives no order. -/
def Obligations.Decommission : Prop :=
  ∀ (s : State) (src : Node), Ready s →
    (¬(s.part = .operating ∧ s.cnv.state = .off ∧ s.yaw.state = .held) →
      exec (.decommission src) s = .next (s.answered (answerOf src 12 0 .state))) ∧
    (s.part = .operating → s.cnv.state = .off → s.yaw.state = .held →
      let u := s.decommissionRequest.1
      ∃ t, exec (.decommission src) s = .next t ∧
        t = (u.answered (answerOf src 12 0 .ok)).settle ∧
        t.part = .configuration ∧ t.settings = s.settings ∧
        t.rif.class3 = s.rif.class3 ++ [answerOf src 12 0 .ok] ∧
        u.holds.yaw = false ∧ u.holds.cooling = false ∧ u.yaw.inhibit.config = true ∧
        u.cnv.autostartPending = false ∧ u.clc.heldStage = none ∧ u.clc.heldHeater = none ∧
        u.clc.low = 0 ∧ u.clc.stageClaim = none ∧ u.clc.pumpClaim = false ∧
        u.clc.heater = (if s.clc.heater = .claiming then .off else s.clc.heater) ∧
        u.clc.actual = s.clc.actual ∧ u.clc.duty = s.clc.duty ∧ u.clc.cf = s.clc.cf ∧
        u.rif.class1 = s.rif.class1 ∧
        (∀ q ∈ u.ala.queue, q.who ≠ .clc) ∧
        (∀ q ∈ u.ala.queue, q ∈ s.ala.queue) ∧
        (ClaimLaw s → ∀ t : TagIx, (s.tag t).grant ≠ 0 → (u.tag t).grant ≠ 0) ∧
        (s.yaw.inhibit.limit = s.holds.yaw → u.yaw.inhibit.limit = false) ∧
        (s.clc.fullHold = s.holds.cooling → u.clc.fullHold = false) ∧
        ((∀ q ∈ s.ala.queue, q.who ≠ .clc) → u.seq = s.seq ∧ u.ala = s.ala) ∧
        ∀ c : ChanIx, (s.chan c).state ≠ .idle → (s.chan c).state ≠ .waiting .claim → u.chan c = s.chan c)

/-- R186: a SAVE captures the settings as they stand and makes the image invalid; a second one is refused with
BUSY. Its completion puts the captured settings into the image and raises event 25; its failure leaves the image
invalid and raises event 26 with cause FAULT and the failing offset. -/
def Obligations.SavesOfTheImage : Prop :=
  (∀ (s : State) (src : Node), Ready s →
    (s.capture = none → exec (.save src) s = .next (({ s with
      capture := some s.settings, image := none, imageValid := false } : State).answered
        (answerOf src 10 0 .ok))) ∧
    (s.capture ≠ none → exec (.save src) s = .next (s.answered (answerOf src 10 0 .busy)))) ∧
  (∀ (s : State) (c : Settings), s.capture = some c →
    exec .saveCompletion s =
      .next (({ s with image := some c, imageValid := true, capture := none } : State).raise 25 []) ∧
    ∀ off : Word, exec (.saveFailure off) s =
      .next (({ s with capture := none } : State).raise 26 [0, (off.toNat : Int)])) ∧
  ∀ s : State, s.capture = none →
    exec .saveCompletion s = .next s ∧ ∀ off : Word, exec (.saveFailure off) s = .next s

/-! ### Management reads and writes -/

/-- R181: a READ that passes the tests on length and address answers OK with the words of the region as they
stand and changes nothing else; one that fails is answered RANGE or NO_OBJECT. The log record window and the port
records have statements of their own. 12.3: the word at an offset of a region is that word of the record there, entry
after entry by the region's stride, the runtime words of an entry behind its configuration words (at word 16 in a
channel); a word that no field takes reads 0 (R190). Each region of 12.3 has the base and the size of the table there,
and there is no other. -/
def Obligations.ReadAnswersTheWords : Prop :=
  (let map : List (Region × Nat × Nat) := [
    (.identity, 0x0000, 8), (.mgtControl, 0x0008, 1), (.portIn, 0x0010, 8), (.portOut, 0x0018, 8),
    (.ringStatus, 0x0020, 8), (.ringControl, 0x0028, 1), (.seqControl, 0x0100, 1), (.engine, 0x0108, 8),
    (.channels, 0x0200, 256), (.steps, 0x0400, 1024), (.sampleMap, 0x0800, 896), (.phases, 0x0C00, 128),
    (.memories, 0x0C80, 55), (.signals, 0x1000, 3072), (.limits, 0x2000, 768), (.allocator, 0x2400, 8),
    (.claimQueue, 0x2410, 65), (.tags, 0x2500, 256), (.convParams, 0x3000, 64), (.convRecord, 0x3040, 16),
    (.alwParams, 0x3100, 32), (.alwRecord, 0x3120, 32), (.yawParams, 0x3200, 32), (.yawRecord, 0x3240, 32),
    (.yawWindow, 0x3280, 69), (.clcParams, 0x3300, 32), (.stages, 0x3320, 48), (.clcRecord, 0x3360, 32),
    (.descriptors, 0x4000, 2048), (.eventControl, 0x4800, 1), (.summary, 0x4810, 16), (.eventState, 0x5000, 4096),
    (.logHeader, 0x6000, 3), (.logWindow, 0x6010, 32), (.firstOut, 0x6040, 65)]
  (∀ x ∈ map, x.1.base = x.2.1 ∧ x.1.size = x.2.2) ∧ ∀ r : Region, r ∈ allRegions ∧ r ∈ map.map Prod.fst) ∧
  (∀ (s : State) (src : Node) (addr : Word) (len : Octet) (qual : Word), Ready s →
    ((len.toNat = 0 ∨ 32 < len.toNat) →
      exec (.read src addr len qual) s = .next (s.answered (answerOf src 0 addr .range))) ∧
    (1 ≤ len.toNat → len.toNat ≤ 32 →
      ((∀ r : Region, r ∈ allRegions → addr.toNat < r.base ∨ r.base + r.size ≤ addr.toNat) →
        exec (.read src addr len qual) s = .next (s.answered (answerOf src 0 addr .noObject))) ∧
      ∀ (r : Region) (off : Nat), addr.toNat = r.base + off → off < r.size →
        (r.size < off + len.toNat →
          exec (.read src addr len qual) s = .next (s.answered (answerOf src 0 addr .range))) ∧
        (off + len.toNat ≤ r.size → r ≠ .logWindow → r ≠ .portIn → r ≠ .portOut →
          exec (.read src addr len qual) s = .next (s.answered { answerOf src 0 addr .ok with
            data := (List.range len.toNat).map fun k => s.regionWord r (off + k) })))) ∧
  ∀ (s : State) (k : Nat),
    let p := s.settings
    let word := s.regionWord
    -- tables: entry i at base + i × stride
    (∀ i : MapIx, k < 7 → word .sampleMap (7 * i + k) = p.sampleMap[i].words.getD k 0) ∧
    (∀ i : SigIx, k < 32 → word .signals (32 * i + k) = (p.signals[i].words ++ s.signals[i].words).getD k 0) ∧
    (∀ i : LimIx, k < 16 → word .limits (16 * i + k) = (p.limits[i].words ++ s.limits[i].words).getD k 0) ∧
    (∀ i : ChanIx, k < 16 → word .channels (32 * i + k) = (p.chans[i].words).getD k 0 ∧
      word .channels (32 * i + 16 + k) = (s.chan i).words.getD k 0) ∧
    (∀ i : StepIx, k < 4 → word .steps (4 * i + k) = p.steps[i].words.getD k 0) ∧
    (∀ i : TagIx, k < 16 → word .tags (16 * i + k) = (p.tags[i].words ++ (s.tag i).words).getD k 0) ∧
    (∀ i : StageIx, k < 8 → word .stages (8 * i + k) = p.stages[i].words.getD k 0) ∧
    (∀ i : Code, k < 16 → word .descriptors (16 * i + k) = p.events[i].words.getD k 0) ∧
    (∀ i : Code, k < 32 → word .eventState (32 * i + k) = s.evu.events[i].words.getD k 0) ∧
    (∀ i : MapIx, word .phases i = wordNat s.phases[i]) ∧
    (∀ i : Fin 55, word .memories i = match s.sequences[i] with
      | none => 65535
      | some q => wordNat q.toNat) ∧
    -- one record each
    word .convParams k = p.conv.words.getD k 0 ∧ word .convRecord k = s.cnv.words.getD k 0 ∧
    word .alwParams k = p.alw.words.getD k 0 ∧ word .alwRecord k = s.alw.words.getD k 0 ∧
    word .yawParams k = p.yaw.words.getD k 0 ∧ word .yawRecord k = s.yaw.words.getD k 0 ∧
    word .yawWindow k = s.yaw.windowWords.getD k 0 ∧
    word .clcParams k = p.clc.words.getD k 0 ∧ word .clcRecord k = s.clc.words.getD k 0 ∧
    word .ringStatus k = s.rif.statusWords.getD k 0 ∧ word .engine k = s.seq.engineWords.getD k 0 ∧
    word .identity k = s.identityWords.getD k 0 ∧ word .summary k = s.summaryWords.getD k 0 ∧
    word .logHeader k = s.evu.headerWords.getD k 0 ∧
    -- single words, counts and lists
    word .mgtControl 0 = wordBool p.bootAutostart ∧ word .ringControl 0 = wordNat p.offer.code ∧
    word .seqControl 0 = wordBool p.rotating ∧ word .eventControl 0 = wordNat p.noticeDest.toNat ∧
    word .allocator 0 = wordNat p.gridCap ∧ word .allocator 1 = wordNat p.sagCap ∧
    word .allocator 2 = wordNat p.backupCap ∧ word .allocator 3 = wordNat s.ala.mode.code ∧
    word .allocator 4 = wordNat s.budget ∧ word .allocator 5 = wordNat s.ala.sum ∧
    word .claimQueue 0 = wordNat s.ala.queue.length ∧ word .firstOut 0 = wordNat s.evu.firstOut.length ∧
    (∀ (i : Nat) (q : Claim), s.ala.queue[i]? = some q → k < 4 →
      word .claimQueue (1 + 4 * i + k) = q.words.getD k 0) ∧
    ∀ (i : Nat) (r : FirstOut), (∀ x ∈ s.evu.firstOut, x.detail.length ≤ 6 ∧ x.snapshot.length ≤ 4) →
      s.evu.firstOut[i]? = some r → k < 16 → word .firstOut (1 + 16 * i + k) = r.words.getD k 0

/-- R172: a read of a port's status answers its words as they stand, and clears link lost exactly if the port is
UP; the other port and everything else are kept. R163: a read of the log from a held start sequence answers OK with
the consecutive whole records from it on, as many as the length covers; from a sequence that is not held it answers
GONE with the oldest and newest held ones, or no words when the log is empty. A length shorter than a record, or an
offset into the window, answers RANGE, from a sequence that is not held too, which is the model's choice (log entry
51). A read of the log changes no state. -/
def Obligations.PortAndLogReads : Prop :=
  (∀ (s : State) (src : Node) (p : Port) (off : Word) (len : Octet), Ready s →
    1 ≤ len.toNat → off.toNat + len.toNat ≤ 8 →
    exec (.portStatusRead src p off len) s = .next
      ((s.modPort p fun r => if r.state = .up then { r with linkLost := false } else r).answered
        { answerOf src 0 (wordNat ((match p with | .inn => 0x10 | .out => 0x18) + off.toNat)) .ok with
          data := (List.range len.toNat).map fun k => ((s.port p).words.getD (off.toNat + k) 0) })) ∧
  ∀ (s : State) (src : Node) (start off : Word) (len : Octet), Ready s → LogLaw s →
    1 ≤ len.toNat → off.toNat + len.toNat ≤ 32 →
    let a (st : Status) (d : List Word) : State :=
      s.answered { answerOf src 0 (wordNat (0x6010 + off.toNat)) st with data := d }
    let n := s.evu.log.length
    (off ≠ 0 ∨ len.toNat < 16 → exec (.logRead src start off len) s = .next (a .range [])) ∧
    (off = 0 → 16 ≤ len.toNat →
      (n = 0 → exec (.logRead src start off len) s = .next (a .gone [])) ∧
      (∀ k, k < n → start = s.evu.nextSeq - BitVec.ofNat 16 (n - k) →
        exec (.logRead src start off len) s = .next
          (a .ok (((s.evu.log.drop k).take (len.toNat / 16)).flatMap FaultRecord.words))) ∧
      (0 < n → (∀ k, k < n → start ≠ s.evu.nextSeq - BitVec.ofNat 16 (n - k)) →
        exec (.logRead src start off len) s = .next
          (a .gone [s.evu.nextSeq - BitVec.ofNat 16 n, s.evu.nextSeq - 1])))

/-- R181: a WRITE is answered RANGE for a length outside 1 to 32, for a number of data words other than the length
and for a span that leaves its region, and NO_OBJECT for an address in no region; one to a region of runtime fields
alone is answered READ_ONLY. None of them changes anything else. The rows that write one region are the WRITE at
that region's words, whatever the data; the twist preset counts its words from the twist field of the yaw record,
the cooling row from the cooling parameters. -/
def Obligations.WriteDecode : Prop :=
  (∀ (s : State) (src : Node) (addr : Word) (len : Octet) (d : List Word), Ready s →
    let refused (st : Status) := exec (.write src addr len d) s = .next (s.answered (answerOf src 1 addr st))
    (d.length ≠ len.toNat ∨ len.toNat = 0 ∨ 32 < len.toNat → refused .range) ∧
    (d.length = len.toNat → 1 ≤ len.toNat → len.toNat ≤ 32 →
      ((∀ r : Region, r ∈ allRegions → addr.toNat < r.base ∨ r.base + r.size ≤ addr.toNat) → refused .noObject) ∧
      ∀ (r : Region) (off : Nat), addr.toNat = r.base + off → off < r.size →
        (r.size < off + len.toNat → refused .range) ∧
        (off + len.toNat ≤ r.size →
          r ∈ [.identity, .portIn, .portOut, .ringStatus, .engine, .phases, .memories, .claimQueue,
            .convRecord, .alwRecord, .yawWindow, .clcRecord, .summary, .eventState, .logHeader, .logWindow,
            .firstOut] → refused .readOnly))) ∧
  ∀ (s : State) (src : Node) (off : Word) (len : Octet) (d : List Word),
    exec (.sampleMapWrite src off len d) s = exec (.write src (0x0800 + off) len d) s ∧
    exec (.signalRecordWrite src off len d) s = exec (.write src (0x1000 + off) len d) s ∧
    exec (.limitTableWrite src off len d) s = exec (.write src (0x2000 + off) len d) s ∧
    exec (.channelDescriptorWrite src off len d) s = exec (.write src (0x0200 + off) len d) s ∧
    exec (.prioritySchemeWrite src off len d) s = exec (.write src (0x0100 + off) len d) s ∧
    exec (.stepListWrite src off len d) s = exec (.write src (0x0400 + off) len d) s ∧
    exec (.capacityWrite src off len d) s = exec (.write src (0x2400 + off) len d) s ∧
    exec (.loadTagWrite src off len d) s = exec (.write src (0x2500 + off) len d) s ∧
    exec (.conversionParameterWrite src off len d) s = exec (.write src (0x3000 + off) len d) s ∧
    exec (.allowanceParameterWrite src off len d) s = exec (.write src (0x3100 + off) len d) s ∧
    exec (.yawParameterWrite src off len d) s = exec (.write src (0x3200 + off) len d) s ∧
    exec (.twistPreset src off len d) s = exec (.write src (0x324A + off) len d) s ∧
    exec (.coolingWrite src off len d) s = exec (.write src (0x3300 + off) len d) s ∧
    exec (.eventDescriptorWrite src off len d) s = exec (.write src (0x4000 + off) len d) s ∧
    exec (.eventControlWrite src off len d) s = exec (.write src (0x4800 + off) len d) s ∧
    exec (.ringControlWrite src off len d) s = exec (.write src (0x0028 + off) len d) s ∧
    exec (.managementControlWrite src off len d) s = exec (.write src (0x0008 + off) len d) s

/-- One-word objects (R38, R152, R172, R187): a legal value is stored and answered OK, an illegal one is answered
RANGE, and any legal one while saving BUSY; a refused write changes nothing. That an illegal value in a save is answered
RANGE and not BUSY is the model's choice (log entry 50). -/
def Obligations.ScalarWrites : Prop :=
  ∀ (s : State) (src : Node) (w : Word), Ready s →
    (∀ b : Bool, w = wordNat (yesNo b) →
      exec (.prioritySchemeWrite src 0 1 [w]) s = .next (if s.capture = none
        then ({ s with settings := { s.settings with rotating := b } } : State).answered
          (writeAnswer src .seqControl 0 .ok)
        else s.answered (writeAnswer src .seqControl 0 .busy)) ∧
      exec (.managementControlWrite src 0 1 [w]) s = .next (if s.capture = none
        then ({ s with settings := { s.settings with bootAutostart := b } } : State).answered
          (writeAnswer src .mgtControl 0 .ok)
        else s.answered (writeAnswer src .mgtControl 0 .busy)) ∧
      exec (.write src 0x0008 1 [w]) s = exec (.managementControlWrite src 0 1 [w]) s) ∧
    (w ≠ 0 → w ≠ 1 →
      exec (.prioritySchemeWrite src 0 1 [w]) s =
        .next (s.answered (writeAnswer src .seqControl 0 .range)) ∧
      exec (.managementControlWrite src 0 1 [w]) s =
        .next (s.answered (writeAnswer src .mgtControl 0 .range))) ∧
    (∀ o : Offer, w = wordNat o.code →
      exec (.ringControlWrite src 0 1 [w]) s = .next (if s.capture = none
        then ({ s with settings := { s.settings with offer := o } } : State).answered
          (writeAnswer src .ringControl 0 .ok)
        else s.answered (writeAnswer src .ringControl 0 .busy))) ∧
    (3 ≤ w.toNat → exec (.ringControlWrite src 0 1 [w]) s =
      .next (s.answered (writeAnswer src .ringControl 0 .range))) ∧
    (∀ n : Node, 1 ≤ n.toNat → w = wordNat n.toNat →
      exec (.eventControlWrite src 0 1 [w]) s = .next (if s.capture = none
        then ({ s with settings := { s.settings with noticeDest := n } } : State).answered
          (writeAnswer src .eventControl 0 .ok)
        else s.answered (writeAnswer src .eventControl 0 .busy))) ∧
    (w.toNat = 0 ∨ 64 ≤ w.toNat → exec (.eventControlWrite src 0 1 [w]) s =
      .next (s.answered (writeAnswer src .eventControl 0 .range)))

/-- Table rows whose stored write reaches no other block (R39, R42, R66, R153): a legal record is stored and
answered OK, with the runtime effect its rule names; the guard of its rule answers BUSY and changes nothing, a save
in flight answers BUSY. -/
def Obligations.TableWrites : Prop :=
  ∀ (s : State) (src : Node), Ready s →
    (∀ (k : StepIx) (x : Step), x.legal →
      exec (.stepListWrite src (wordNat (4 * k)) 4 x.words) s = .next
        (if s.capture = none ∧ ∀ c : ChanIx, (s.chan c).state = .masked ∨ k < (s.desc c).base ∨
            (s.desc c).base + (s.desc c).count ≤ (k : Nat)
          then ({ s with settings := { s.settings with steps := s.settings.steps.set k x } } : State).answered
            (writeAnswer src .steps (4 * k) .ok)
          else s.answered (writeAnswer src .steps (4 * k) .busy))) ∧
    (∀ (c : ChanIx) (x : ChanCfg), x.legal →
      exec (.channelDescriptorWrite src (wordNat (32 * c)) 10 x.words) s = .next
        (if s.capture = none ∧ (s.chan c).state = .masked
          then (({ s with settings := { s.settings with chans := s.settings.chans.set c x } } : State).modChan c
            fun r => { r with current := x.base, remaining := x.count }).answered
              (writeAnswer src .channels (32 * c) .ok)
          else s.answered (writeAnswer src .channels (32 * c) .busy))) ∧
    (∀ (i : TagIx) (x : TagCfg), x.legal →
      exec (.loadTagWrite src (wordNat (16 * i)) 5 x.words) s = .next
        (if s.capture = none ∧ (s.tag i).grant = 0 ∧ ∀ q ∈ s.ala.queue, q.tag ≠ i
          then (({ s with settings := { s.settings with tags := s.settings.tags.set i x } } : State).modTag i
            fun r => { r with shedding := r.shedding && x.valid }).answered
              (writeAnswer src .tags (16 * i) .ok)
          else s.answered (writeAnswer src .tags (16 * i) .busy))) ∧
    (∀ (c : Code) (x : EventCfg), x.legal →
      exec (.eventDescriptorWrite src (wordNat (16 * c)) 11 x.words) s = .next
        (if s.capture = none ∧
            (s.evu.events[c].inService = true → x.group = s.settings.events[c].group)
          then ((({ s with settings := { s.settings with events := s.settings.events.set c x } } : State).modEvent c
            fun e => if x.enabled then e
              else { e with pending := false, inService := false, recurred := false }).dispatchTest).answered
                (writeAnswer src .descriptors (16 * c) .ok)
          else s.answered (writeAnswer src .descriptors (16 * c) .busy)))

/-- The parameter objects of CNV, ALW and YAW (R78, R100, R114): a legal object is stored and answered OK with the
effect its rule names, STATE outside the states that may take it, BUSY while saving. The conversion object has 33
words and one request carries 32, so its last word, the shed response, is kept here. -/
def Obligations.ParameterWrites : Prop :=
  ∀ (s : State) (src : Node), Ready s →
    (∀ x : ConvCfg, x.legal → s.settings.conv.legal → x.shedTrips = s.settings.conv.shedTrips →
      exec (.conversionParameterWrite src 0 32 (x.words.take 32)) s = .next
        (if s.cnv.state ≠ .off ∧ s.cnv.state ≠ .tripped then
          s.answered (writeAnswer src .convParams 0 .state)
        else if s.capture ≠ none then s.answered (writeAnswer src .convParams 0 .busy)
        else ({ s with settings := { s.settings with conv := x } } : State).answered
          (writeAnswer src .convParams 0 .ok))) ∧
    (∀ x : AlwCfg, x.legal →
      exec (.allowanceParameterWrite src 0 22 x.words) s = .next
        (if s.capture ≠ none then s.answered (writeAnswer src .alwParams 0 .busy)
        else (({ s with settings := { s.settings with alw := x } } : State).modAlw fun a =>
          { a with history := if s.settings.alw.length = x.length then a.history else [] }).answered
            (writeAnswer src .alwParams 0 .ok))) ∧
    (∀ x : YawCfg, x.legal →
      exec (.yawParameterWrite src 0 27 x.words) s = .next
        (if s.yaw.state ≠ .held ∧ s.yaw.state ≠ .fault then
          s.answered (writeAnswer src .yawParams 0 .state)
        else if s.capture ≠ none then s.answered (writeAnswer src .yawParams 0 .busy)
        else (({ s with settings := { s.settings with yaw := x } } : State).modYaw fun y =>
          { y with
            window := if s.settings.yaw.windDir = x.windDir then y.window else []
            lastHeading := if s.settings.yaw.heading = x.heading then y.lastHeading else none }).answered
              (writeAnswer src .yawParams 0 .ok)))

/-- R118: a twist preset is taken in HELD and FAULT, clamped to the range, published, and clears hard-limit blocked;
it is refused with STATE in other states and with BUSY while saving. -/
def Obligations.TwistPreset : Prop :=
  ∀ (s : State) (src : Node) (hi lo : Word), Ready s →
    let v := (hi ++ lo : BitVec 32).toInt
    let c := max (-1000000) (min 1000000 v)
    (s.yaw.state ≠ .held → s.yaw.state ≠ .fault →
      exec (.twistPreset src 0 2 [hi, lo]) s =
        .next (s.answered (writeAnswer src .yawRecord 10 .state))) ∧
    (s.yaw.state = .held ∨ s.yaw.state = .fault → s.capture ≠ none →
      exec (.twistPreset src 0 2 [hi, lo]) s =
        .next (s.answered (writeAnswer src .yawRecord 10 .busy))) ∧
    (s.yaw.state = .held ∨ s.yaw.state = .fault → s.capture = none →
      exec (.twistPreset src 0 2 [hi, lo]) s = .next
        ((((s.modYaw fun y => { y with twist := c, hardBlocked := false }).publish .twist (c / 100)).answered
          (writeAnswer src .yawRecord 10 (if v = c then .ok else .okClamped))).settle))

/-- Rows whose stored write moves other blocks (R2, R3, R12, R35, R64, R136): with the checks of the rule passed a
legal record is stored and answered OK, the runtime state it touches is as its rule leaves it, and then the hand-overs
it makes are taken. A Sample Map write clears the contributor the entry fed before it and the one it feeds after it;
each signal touched is evaluated without an event, and loss-raised clears where its quality changed. (That the age of a
cleared contributor and the last-accepted slot of its signal are kept is log entry 30, the order in which the
signals touched are evaluated is log entry 9, and that an entry not valid is stored with a source node of 56 to 63, or
in the Limit Table with an event code outside 32 to 127, is log entry 60.) A signal record whose feed or merge mode changes
returns to its reset state, and its readers are told where value or quality moved or it is LOST afresh (log entry 29);
every other record stays. A cooling write withdraws the stage claim, frees the fan tag named
before it and forms cf anew; one of the parameter object also turns the heaters off without a frame and frees their
tag, in state ON alone (log entry 52). -/
def Obligations.StoredWritesMoveBlocks : Prop :=
  ∀ (s : State) (src : Node), Ready s → s.capture = none →
    (∀ (i : MapIx) (x : SampleEntry), x.legal →
      (x.valid = true → s.settings.signals[x.target].feed = .sampled ∧
        ∀ j : MapIx, j ≠ i → s.settings.sampleMap[j].valid = true →
          (s.settings.sampleMap[j].source, s.settings.sampleMap[j].channel) ≠ (x.source, x.channel) ∧
          (s.settings.sampleMap[j].target, s.settings.sampleMap[j].slot) ≠ (x.target, x.slot)) →
      let u := s.storeSampleMap [(i, x)]
      exec (.sampleMapWrite src (wordNat (7 * i)) 7 x.words) s =
        .next ((u.answered (writeAnswer src .sampleMap (7 * i) .ok)).settle) ∧
      u.settings = { s.settings with sampleMap := s.settings.sampleMap.set i x } ∧
      u.phases = s.phases.set i 0 ∧ u.sequences = s.sequences ∧
      u = { s with settings := u.settings, phases := u.phases, signals := u.signals, work := u.work } ∧
      (let old := s.settings.sampleMap[i]
      let hit (j : SigIx) (k : SlotIx) : Prop :=
        (old.valid = true ∧ old.target = j ∧ old.slot = k) ∨ (x.valid = true ∧ x.target = j ∧ x.slot = k)
      let moved (j : SigIx) : Prop :=
        u.signals[j].value ≠ s.signals[j].value ∨ u.signals[j].quality ≠ s.signals[j].quality
      (∀ (j : SigIx) (k : SlotIx),
        (hit j k → u.signals[j].slots[k] = { s.signals[j].slots[k] with
          quality := .absent, value := 0, reference := 0, jumps := 0, reason := .none }) ∧
        (¬hit j k → u.signals[j].slots[k] = s.signals[j].slots[k])) ∧
      (∀ j : SigIx, (∀ k, ¬hit j k) → u.signals[j] = s.signals[j]) ∧
      (∀ j : SigIx, (∃ k, hit j k) → s.settings.signals[j].feed = .sampled →
        u.signals[j].quality = u.newQuality j ∧
        u.signals[j].value = (if u.newQuality j = .unused then 0
          else (u.signals[j].merged s.settings.signals[j].merge).getD s.signals[j].value) ∧
        u.signals[j].lossRaised = (if u.signals[j].quality = s.signals[j].quality then s.signals[j].lossRaised
          else false) ∧
        u.signals[j].lastSlot = s.signals[j].lastSlot ∧
        (moved j → Work.update j u.signals[j].value u.signals[j].quality .change ∈ u.work)) ∧
      ∀ w ∈ u.work, ∃ j k, hit j k ∧ moved j ∧
        w = .update j u.signals[j].value u.signals[j].quality .change)) ∧
    (∀ (i : SigIx) (x : SignalCfg), x.legal →
      (x.feed ≠ .sampled → (∀ k : MapIx, s.settings.sampleMap[k].valid = true →
          s.settings.sampleMap[k].target ≠ i) ∧
        ∀ j : SigIx, j ≠ i → s.settings.signals[j].feed ≠ x.feed) →
      let u := s.storeSignals [(i, x)]
      exec (.signalRecordWrite src (wordNat (32 * i)) 4 x.words) s =
        .next ((u.answered (writeAnswer src .signals (32 * i) .ok)).settle) ∧
      u.settings = { s.settings with signals := s.settings.signals.set i x } ∧
      (x.feed ≠ s.settings.signals[i].feed ∨ x.merge ≠ s.settings.signals[i].merge →
        u.signals[i] = resetSignal u.settings i ∧
        u.work = if u.signals[i].value ≠ s.signals[i].value ∨ u.signals[i].quality ≠ s.signals[i].quality ∨
            u.signals[i].quality = .lost
          then [.update i u.signals[i].value u.signals[i].quality .change] else []) ∧
      (∀ j : SigIx, j ≠ i → u.signals[j] = s.signals[j]) ∧
      u = { s with settings := u.settings, signals := u.signals, work := u.work } ∧
      (x.feed = s.settings.signals[i].feed → x.merge = s.settings.signals[i].merge →
        u.signals = s.signals ∧ u.work = [])) ∧
    (∀ (i : LimIx) (x : LimitCfg), x.legal →
      (s.convAtRest = true ∨ (x.blocks = false ∧ s.settings.limits[i].blocks = false)) →
      let u := s.storeLimits [(i, x)]
      exec (.limitTableWrite src (wordNat (16 * i)) 13 x.words) s =
        .next ((u.answered (writeAnswer src .limits (16 * i) .ok)).settle) ∧
      u.settings = { s.settings with limits := s.settings.limits.set i x } ∧
      u.limits = s.limits.set i resetLimit ∧
      u.holds.converter = u.converterHoldDue ∧ u.holds.yaw = u.limitInhibitDue ∧
      u.holds.cooling = u.fullCoolingDue) ∧
    (∀ g m b : Word,
      let u := ({ s with settings := { s.settings with
        gridCap := g.toNat, sagCap := m.toNat, backupCap := b.toNat } } : State)
      let v := if u.budget < s.budget then (if u.budget < u.ala.sum then u.shedPass else u)
        else if s.budget < u.budget then u.headTest else u
      exec (.capacityWrite src 0 3 [g, m, b]) s =
        .next ((v.answered (writeAnswer src .allocator 0 .ok)).settle)) ∧
    (let restarted (u : State) : Prop :=
        u.clc.actual = 0 ∧ u.clc.target = 0 ∧ u.clc.dwell = 0 ∧ u.clc.dwellDue = false ∧
        u.clc.duty = s.clc.duty ∧ u.rif.class1 = s.rif.class1 ∧
        u.clc.cf = u.settings.stages[0].capacity * (match s.clc.duty with
          | .a => 16384
          | .b => 16384
          | .changeover => 8192
          | .noFlow => u.settings.clc.noFlowFactor) / 16384 ∧
        ∀ t, s.settings.clc.fanTag = some t → u.clc.stageClaim = none ∧
          (s.clc.stageClaim ≠ none → ∀ q ∈ u.ala.queue, ¬(q.tag = t ∧ q.who = .clc)) ∧
          ((∀ q ∈ s.ala.queue, q.tag = t → q.who = .clc ∧ s.clc.stageClaim ≠ none) →
            (u.tag t).grant = 0 ∧ ((s.tag t).grant ≠ 0 → s.settings.tags[t].owner ≠ .none →
              Work.released s.settings.tags[t].owner t ∈ u.work))
    (∀ x : ClcCfg, x.legal → s.part = .configuration →
      let u := ((s.restartClaims.heatersOff).withSettings fun st => { st with clc := x }).restartStages
      exec (.coolingWrite src 0 23 x.words) s =
        .next ((u.answered (writeAnswer src .clcParams 0 .ok)).settle) ∧
      u.settings = { s.settings with clc := x } ∧ restarted u ∧ u.clc.heldHeater = s.clc.heldHeater ∧
      (∀ t, s.settings.clc.heaterTag = some t → u.clc.heater = .off ∧
        (s.clc.heater = .on → (∀ q ∈ s.ala.queue, q.tag ≠ t) → (u.tag t).grant = 0) ∧
        (ClaimLaw s → s.clc.heater = .claiming → ∀ q ∈ u.ala.queue, ¬(q.tag = t ∧ q.who = .clc))) ∧
      (ClaimLaw s → ∀ t : TagIx, s.settings.clc.fanTag ≠ some t → s.settings.clc.heaterTag ≠ some t →
        (s.tag t).grant ≠ 0 → (u.tag t).grant ≠ 0)) ∧
    (∀ (k : StageIx) (x : Stage), x.legal → s.part = .configuration →
      stagesOrdered (s.settings.stages.set k x) = true →
      let u := (s.restartClaims.withSettings fun st =>
        { st with stages := s.settings.stages.set k x }).restartStages
      exec (.coolingWrite src (wordNat (32 + 8 * k)) 7 x.words) s =
        .next ((u.answered (writeAnswer src .stages (8 * k) .ok)).settle) ∧
      u.settings = { s.settings with stages := s.settings.stages.set k x } ∧ restarted u ∧
      (s.clc.heater ≠ .claiming → u.clc.heater = s.clc.heater)))

/-! ### Management requests -/

/-- R44: START, UNMASK, MASK and ABORT of a channel, by its state; in BOOT each is answered STATE. START of a channel
that is not MASKED is a request of R43; an abort is taken whole with the hand-overs it makes. Out of BOOT a qualifier
above 7 is answered RANGE with no effect (R190). That in BOOT such a qualifier too is answered STATE, and not RANGE, is
the model's order of test, read from the rules by inference (log entry 17). -/
def Obligations.ChannelRequests : Prop :=
  (∀ (s : State) (src : Node) (c : ChanIx),
    let q := wordNat c
    let st := (s.chan c).state
    let loaded (k : ChanState) := s.modChan c fun r =>
      { r with state := k, current := (s.desc c).base, remaining := (s.desc c).count, terminal := false,
               fault := false, aborted := false }
    Ready s →
      exec (.start src q) s = .next
        (if st = .masked then
          if (s.desc c).valid then (loaded .requested).answered (answerOf src 2 0 .ok)
          else s.answered (answerOf src 2 0 .state)
        else (s.request c .management).answered (answerOf src 2 0 .ok)) ∧
      exec (.unmask src q) s = .next
        (if st = .masked then
          if (s.desc c).valid then (loaded .idle).answered (answerOf src 5 0 .ok)
          else s.answered (answerOf src 5 0 .state)
        else s.answered (answerOf src 5 0 .ok)) ∧
      exec (.mask src q) s = .next
        (if st = .idle then
          (s.modChan c fun r => { r with state := .masked }).answered (answerOf src 4 0 .ok)
        else s.answered (answerOf src 4 0 (if st = .masked then .ok else .busy))) ∧
      exec (.abort src q) s = .next
        (if st = .masked then s.answered (answerOf src 3 0 .state)
        else ((s.abortChan c .management).answered (answerOf src 3 0 .ok)).settle)) ∧
  ∀ (s : State) (src : Node) (q : Word),
    let refused (st : Status) : Prop :=
      exec (.start src q) s = .next (s.answered (answerOf src 2 0 st)) ∧
      exec (.unmask src q) s = .next (s.answered (answerOf src 5 0 st)) ∧
      exec (.mask src q) s = .next (s.answered (answerOf src 4 0 st)) ∧
      exec (.abort src q) s = .next (s.answered (answerOf src 3 0 st))
    (Ready s → 7 < q.toNat → refused .range) ∧
    (s.part = .boot → s.rif.class3.length < 2 → refused .state)

/-- R43: a request makes an IDLE channel REQUESTED with its outcome flags clear, is merged with an active run, and
is refused by a MASKED channel with event 7, which names the channel and the requester, by a number that is the model's
(log entry 8). -/
def Obligations.Requests : Prop :=
  ∀ (s : State) (c : ChanIx) (who : Requester),
    ((s.chan c).state = .idle → s.request c who = s.modChan c fun r =>
      { r with state := .requested, terminal := false, fault := false, aborted := false }) ∧
    ((s.chan c).state = .masked → s.request c who = s.raise 7 [(c : Int), who.number]) ∧
    ((s.chan c).state ≠ .idle → (s.chan c).state ≠ .masked → s.request c who = s)

/-- R58: an abort masks the channel with ABORTED, releases the engine, raises event 9 and tells its owner. Its open
frame, then its held frame, enter class 1 while it has room and are discarded otherwise. A claim it waits for is
withdrawn first, and ALA tests the head (R70), which alone can change another channel or a grant. Nothing else
changes: the current step and the remaining count stay, and so does every grant. The numbers in the detail are the
model's (log entry 8). -/
def Obligations.Abort : Prop :=
  ∀ (s : State) (c : ChanIx) (p : Party),
    let u := s.abortChan c p
    let w := s.withdrawChan c
    ((s.chan c).state = .masked → u = s) ∧
    -- the claim
    ((s.chan c).state ≠ .waiting .claim → w = s) ∧
    (∀ t a n, (s.chan c).state = .waiting .claim → s.stepAt c = .claim t a n →
      let rest := s.ala.queue.filter fun q => decide (¬(q.tag = t ∧ q.who = .chan c))
      (rest = s.ala.queue → w = s) ∧
      (rest ≠ s.ala.queue → w = ({ s with ala := { s.ala with queue := rest } } : State).headTest) ∧
      (∀ q ∈ w.ala.queue, ¬(q.tag = t ∧ q.who = .chan c)) ∧
      ((∀ q ∈ s.ala.queue, q.who = .chan c → q.tag = t) → w.chan c = s.chan c)) ∧
    (∀ d : ChanIx, (s.chan d).state ≠ .idle → (s.chan d).state ≠ .waiting .claim → w.chan d = s.chan d) ∧
    (ClaimLaw s → ∀ t : TagIx, (s.tag t).grant ≠ 0 → (w.tag t).grant ≠ 0) ∧
    -- the rest of the abort
    ((s.chan c).state ≠ .masked →
      let offered (l : List CmdFrame) (f : Option CmdFrame) : List CmdFrame :=
        if l.length < 6 then l ++ f.toList else l
      let mine := s.seq.opened.filter fun o => decide (o.chan = c)
      let v : State := { w with
        seq := { w.seq with
          opened := if mine = none then s.seq.opened else none
          holder := if w.seq.holder = some c then none else w.seq.holder
          chans := w.seq.chans.set c { w.chan c with held := none, aborted := true, state := .masked } }
        rif := { w.rif with class1 := offered (offered w.rif.class1
          (mine.map fun o => { dest := o.dest, items := o.items })) (w.chan c).held } }
      let x := v.raise 9 [(c : Int), ((w.chan c).current : Int), match p with | .management => 0 | .owner => 1]
      u = { x with work := x.work ++
        (if (s.desc c).owner = .none then [] else [.outcome (s.desc c).owner c .aborted]) } ∧
      x = { v with evu := x.evu, rif := { v.rif with class2 := x.rif.class2 } })

/-- R159 and R30: ACK of a code outside 0 to 127 is answered RANGE, of one not in service NOT_IN_SERVICE. Otherwise
the code leaves service, pending again with kind RECURRED if it recurred, the latches of its entries clear, an entry
of a SAMPLED signal releases exactly when its signal is releasable now, and the answer is STILL_ACTIVE exactly when
an entry unlatched by it is still TRIPPED; then the dispatch test and the hand-overs are taken. -/
def Obligations.Acknowledge : Prop :=
  ∀ (s : State) (src : Node), Ready s →
    (∀ w : Word, 128 ≤ w.toNat → exec (.ack src w) s = .next (s.answered (answerOf src 6 0 .range))) ∧
    ∀ c : Code,
      (s.evu.events[c].inService = false →
        exec (.ack src (wordNat c)) s = .next (s.answered (answerOf src 6 0 .notInService))) ∧
      (s.evu.events[c].inService = true →
        let v := s.modEvent c fun e => if e.recurred then
          { e with inService := false, recurred := false, pending := true, kind := .recurred }
          else { e with inService := false }
        let u := (v.ackLimits c).1
        let hit (i : LimIx) : Prop := s.settings.limits[i].valid = true ∧
          s.settings.limits[i].latching = true ∧ s.settings.limits[i].code = (c : Nat) ∧
          s.limits[i].tripped = true ∧ s.limits[i].latch = true
        ∃ k, (k = .stillActive ∨ k = .ok) ∧
          (k = .stillActive ↔ ∃ i, hit i ∧ u.limits[i].tripped = true) ∧
          exec (.ack src (wordNat c)) s =
            .next ((u.dispatchTest.answered (answerOf src 6 0 k)).settle) ∧
          (∀ i : LimIx, ¬hit i → u.limits[i] = s.limits[i]) ∧
          ∀ i : LimIx, hit i → u.limits[i].latch = false ∧
            u.limits[i].counter = s.limits[i].counter ∧
            (s.settings.signals[s.settings.limits[i].signal].feed = .sampled →
              let r := s.signals[s.settings.limits[i].signal]
              (u.limits[i].tripped = false ↔
                ((r.quality = .good ∨ r.quality = .degraded) ∧
                    s.settings.limits[i].releases r.value = true) ∨
                  (r.quality = .lost ∧ s.settings.limits[i].onLoss = .release))))

/-- R160 and R164: CLEAR FIRST-OUT empties the store, CLEAR EVENT-COUNTS sets every count to 0, CLEAR PENDING takes
one code or all out of pending, each answered OK and keeping every other field of the event states; the dispatch
test follows each. Another qualifier of CLEAR PENDING is answered RANGE. -/
def Obligations.ClearRequests : Prop :=
  ∀ (s : State) (src : Node), Ready s →
    exec (.clearFirstOut src) s = .next
      ((({ s with evu := { s.evu with firstOut := [] } } : State).dispatchTest).answered
        (answerOf src 7 2 .ok)) ∧
    exec (.clearEventCounts src) s = .next
      ((({ s with evu := { s.evu with events := s.evu.events.map fun e => { e with count := 0 } } } :
        State).dispatchTest).answered (answerOf src 7 3 .ok)) ∧
    exec (.clearPending src 65535) s = .next
      ((({ s with evu := { s.evu with events := s.evu.events.map fun e => { e with pending := false } } } :
        State).dispatchTest).answered (answerOf src 7 4 .ok)) ∧
    (∀ c : Code, exec (.clearPending src (wordNat c)) s = .next
      (((s.modEvent c fun e => { e with pending := false }).dispatchTest).answered
        (answerOf src 7 4 .ok))) ∧
    (∀ w : Word, 128 ≤ w.toNat → w ≠ 65535 →
      exec (.clearPending src w) s = .next (s.answered (answerOf src 7 4 .range)))

/-- R82 to R85: CLEAR TRIP, CONVERSION START, RUN and STOP by the conversion state. What they hand to other blocks is
taken before the command ends. R86: what CNV does at the outcome of its awaited channel and of another channel of its
own. R93: the heartbeat sets and clears autonomous, with event 23 and 24. R95: the autostart test. That RUN in STANDBY
with the run channel awaited answers OK although the setpoint has become UNUSED is the model's order of test (log
entry 38); that START and STOP clear autostart pending whatever their answer is log entry 20. The awaited channel is the
one that the parameters name now (log entry 48), and the requester's number in event 7 is log entry 8. -/
def Obligations.ConversionRequests : Prop :=
  (∀ (s : State) (src : Node), Ready s →
    let p := s.settings.conv
    let v := s.modCnv fun c => { c with autostartPending := false }
    -- CLEAR TRIP
    exec (.clearTrip src) s = .next
      (if s.cnv.state ≠ .tripped ∨ s.cnv.breaker = false then s.answered (answerOf src 7 0 .state)
      else if s.cnv.hold then s.answered (answerOf src 7 0 .stillActive)
      else ((((s.modCnv fun c =>
        { c with state := .off, awaited := .none, dip := 0, blind := 0 }).hand .convChanged).answered
          (answerOf src 7 0 .ok)).settle)) ∧
    -- CONVERSION START
    exec (.conversionStart src) s = .next
      (if s.part = .operating ∧ s.cnv.state = .off ∧ s.ala.mode = .grid then
        if (s.chan p.precharge).state = .masked then
          (v.raise 7 [(p.precharge : Int), Requester.conversion.number]).answered
            (answerOf src 8 0 .state)
        else ((((v.modCnv fun c => { c with state := .charging, awaited := .precharge }).hand
          .convChanged).request p.precharge .conversion).answered (answerOf src 8 0 .ok)).settle
      else v.answered (answerOf src 8 0 .state)) ∧
    -- CONVERSION RUN
    exec (.conversionRun src) s = .next
      (if s.cnv.state = .standby ∧ s.cnv.awaited = .run then s.answered (answerOf src 8 1 .ok)
      else if s.cnv.state = .standby ∧ s.cnv.awaited = .none ∧
          s.signals[p.setpoint].quality ≠ .unused then
        if (s.chan p.run).state = .masked then
          (s.raise 7 [(p.run : Int), Requester.conversion.number]).answered (answerOf src 8 1 .state)
        else ((s.modCnv fun c => { c with awaited := .run }).request p.run .conversion).answered
          (answerOf src 8 1 .ok)
      else s.answered (answerOf src 8 1 .state)) ∧
    -- CONVERSION STOP
    (s.cnv.state = .off ∨ s.cnv.state = .stopping →
      exec (.conversionStop src) s = .next (v.answered (answerOf src 8 2 .ok))) ∧
    (s.cnv.state = .tripped →
      exec (.conversionStop src) s = .next (v.answered (answerOf src 8 2 .state))) ∧
    (s.cnv.state ≠ .off → s.cnv.state ≠ .stopping → s.cnv.state ≠ .tripped →
      let u := ((v.modCnv fun c => { c with state := .stopping, awaited := .none }).hand
        .convChanged).abortAwaited s.cnv.awaited
      exec (.conversionStop src) s = .next
        (if (u.chan p.stop).state = .masked then
          (((u.raise 7 [(p.stop : Int), Requester.conversion.number]).tripCnv .channelRefused
            p.stop).answered (answerOf src 8 2 .state)).settle
        else (((u.modCnv fun c => { c with awaited := .stop }).request p.stop .conversion).answered
          (answerOf src 8 2 .ok)).settle))) ∧
  (∀ (s : State) (c : ChanIx) (e : RunEnd),
    let p := s.settings.conv
    let got := s.cnvOutcome c e
    let unawait := s.modCnv fun r => { r with awaited := .none }
    let enters (k : ConvState) : State := (unawait.modCnv fun r => { r with state := k }).hand .convChanged
    let failed : Prop := e ≠ .terminal ∧ e ≠ .aborted
    let awaits (w : ConvAwait) (k : ChanIx) : Prop := s.cnv.awaited = w ∧ k = c
    let awaited := awaits .precharge p.precharge ∨ awaits .run p.run ∨ awaits .stop p.stop ∨ awaits .trip p.trip
    (s.part ≠ .operating → got = s) ∧
    (s.part = .operating →
      (awaits .precharge p.precharge →
        (e = .terminal → got =
          if p.autostart = true ∧ s.signals[p.setpoint].quality ≠ .unused then
            if (s.chan p.run).state = .masked then
              (enters .standby).raise 7 [(p.run : Int), Requester.conversion.number]
            else ((enters .standby).modCnv fun r => { r with awaited := .run }).request p.run .conversion
          else enters .standby) ∧
        (e = .aborted → got = unawait.tripCnv .channelAborted c)) ∧
      (awaits .run p.run → (e = .terminal → got = enters .running) ∧ (e = .aborted → got = unawait)) ∧
      (awaits .stop p.stop →
        (e = .terminal → got = enters .off) ∧ (e = .aborted → got = unawait.tripCnv .channelAborted c)) ∧
      (awaits .trip p.trip →
        (e = .terminal → got = unawait.modCnv fun r => { r with breaker := true }) ∧
        (e = .aborted → got = unawait)) ∧
      (awaited → failed → got = unawait.tripCnv .channelFault c) ∧
      (¬awaited →
        (failed → got = s.tripCnv .channelFault c) ∧
        (e = .terminal → got =
          if s.cnv.state = .tripped ∧ c = p.trip then s.modCnv fun r => { r with breaker := true } else s) ∧
        (e = .aborted → got = s)))) ∧
  (∀ (s : State) (q : Quality),
    let p := s.settings.conv
    (q = .lost → s.cnv.autonomous = false →
      s.heartbeat q = (s.modCnv fun c => { c with autonomous := true }).raise 23 []) ∧
    (q ≠ .lost → s.cnv.autonomous = true →
      s.heartbeat q = (s.modCnv fun c => { c with autonomous := false }).raise 24 []) ∧
    ((q = .lost ↔ s.cnv.autonomous = true) → s.heartbeat q = s) ∧
    ∀ i : SigIx, i ≠ p.gridA → i ≠ p.gridB → i ≠ p.gridC →
      ∀ v : Int, s.cnvUpdate i v q = if i = p.heartbeat then s.heartbeat q else s) ∧
  ∀ s : State,
    let c := s.settings.conv.precharge
    let due := s.cnv.autostartPending = true ∧ s.cnv.state = .off ∧ s.ala.mode = .grid ∧ (s.chan c).state = .idle
    (due → s.autostartTest = ((s.modCnv fun r =>
      { r with autostartPending := false, state := .charging, awaited := .precharge }).hand .convChanged).request c
        .conversion) ∧
    (¬due → s.autostartTest = s)

/-- R129: CLEAR YAW takes YAW from FAULT with the stop confirmed to HELD, with no purpose and no direction, and is
answered STATE otherwise. R130: YAW ENABLE takes MANAGEMENT out of the inhibit set and YAW DISABLE puts it in,
answered OK in CONFIGURATION and OPERATING and STATE in BOOT. A DISABLE in DRIVING stops the move with cause
INHIBIT; one in RELEASING stops it at the TERMINAL of the release channel. -/
def Obligations.YawRequests : Prop :=
  ∀ (s : State) (src : Node),
    (Ready s →
      exec (.clearYaw src) s = .next
        (if s.yaw.state = .fault ∧ s.yaw.stopConfirmed = true then
          (s.modYaw fun y =>
            { y with state := .held, purpose := .none, direction := .none, stallTimer := 0 }).answered
              (answerOf src 7 1 .ok)
        else s.answered (answerOf src 7 1 .state)) ∧
      exec (.yawEnable src) s = .next
        ((s.putInhibit .management false).answered (answerOf src 9 0 .ok)) ∧
      exec (.yawDisable src) s = .next
        ((if s.yaw.state = .driving ∧ s.yaw.inhibit.management = false then
          (s.putInhibit .management true).stopYaw .inhibit false
        else s.putInhibit .management true).answered (answerOf src 9 1 .ok))) ∧
    (s.part = .boot → s.rif.class3.length < 2 →
      exec (.yawEnable src) s = .next (s.answered (answerOf src 9 0 .state)) ∧
      exec (.yawDisable src) s = .next (s.answered (answerOf src 9 1 .state))) ∧
    (s.yaw.state = .releasing → s.yaw.inhibit.management = true → s.yawGranted = true →
      s.yawOutcome (s.releaseOf s.yaw.direction).1 .terminal = s.stopYaw .inhibit false)

/-! ### Ring ports -/

/-- R167, R168, R170, R171: what a port does on line activity, on a line with no activity, on data lock, when VERIFY
or the stuck time runs out, and at the end of SILENT. In a state its rule does not name the command leaves the part
as it is (log entry 18). The flag of the stuck timer, and the states it runs in, are log entry 23; the burst count 0
when SILENT ends into DOWN, and that it keeps its last value in VERIFY, UP and SILENT, are log entry 34. -/
def Obligations.PortMoves : Prop :=
  ∀ (s : State) (p : Port),
    let k := (s.port p).state
    let toDown := s.modPort p fun r =>
      { r with state := .down, rate := none, bursts := 0, before := none, further := 0, stuck := false,
               stuckTimer := false }
    exec (.lineActivity p) s = .next
      (if s.part ≠ .boot ∧ k = .down then s.modPort p fun r =>
        { r with state := .listen, rate := none, bursts := 0, before := none, further := 0,
                 stuckTimer := true }
      else s) ∧
    exec (.lineNoActivity p) s = .next
      (if k = .listen ∨ k = .acknowledge ∨ k = .verify then toDown else s) ∧
    exec (.verifyTimeout p) s = .next
      (if k = .verify then s.modPort p fun r => { r with state := .silent, rate := none } else s) ∧
    exec (.stuckTimeout p) s = .next
      (if (s.port p).stuckTimer = true ∧ (k = .listen ∨ k = .acknowledge ∨ k = .silent) then
        s.modPort p fun r => { r with stuck := true }
      else s) ∧
    exec (.silentEnd p true) s = .next
      (if k = .silent then s.modPort p fun r =>
        { r with state := .listen, rate := none, bursts := 0, before := none, further := 0 }
      else s) ∧
    exec (.silentEnd p false) s = .next (if k = .silent then toDown else s) ∧
    exec (.dataLock .inn) s = .next
      (if s.rif.portIn.state = .verify then s.modPort .inn fun r => { r with state := .up } else s) ∧
    exec (.dataLock .out) s = .next
      (if s.rif.portOut.state = .verify then (s.modPort .out fun r => { r with state := .up }).dispatchTest
      else s)

/-- R167 and R169: at the burst timer a port sends a probe in DOWN, a burst with the flag clear in LISTEN and with it
set in ACKNOWLEDGE, where the bursts sent after the fourth counted one are the further ones; it sends nothing in
VERIFY, UP and SILENT, nor in BOOT. Every burst carries the offered rates and the role INLINE. R169: after the sixth
further burst the port takes FAST when both offers hold it, else BASE when both hold it, and enters VERIFY; with no
rate in common it enters SILENT and event 3 names the port, the partner's rates and its own offer, by numbers that are
the model's choice (log entry 8); that the burst count keeps its last value then is log entry 34. -/
def Obligations.BurstsSent : Prop :=
  (∀ (s : State) (p : Port),
    let sends (o : LineOut) : State := { s with rif := { s.rif with line := s.rif.line ++ [o] } }
    let word : CapWord := { rates := s.settings.offer.rates, role := .inline }
    exec (.alignmentBurstTimer p) s = .next
      (if s.part = .boot then s
      else if (s.port p).state = .down then sends (.probe p)
      else if (s.port p).state = .listen then sends (.burst p word false)
      else if (s.port p).state = .acknowledge then
        (sends (.burst p word true)).modPort p fun r =>
          { r with further := if r.bursts = 4 ∧ r.further < 6 then r.further + 1 else r.further }
      else s)) ∧
  ∀ (s : State) (p : Port) (theirs : Rates),
    (s.port p).state = .acknowledge → (s.port p).bursts = 4 → (s.port p).further = 6 →
    (s.port p).partnerRates = some theirs →
    let mine := s.settings.offer
    let fast := (theirs ≠ .base) ∧ mine ≠ .baseOnly
    let base := (theirs ≠ .fast) ∧ mine ≠ .fastOnly
    exec (.acknowledgeBurstsSent p) s = .next
      (if fast then s.modPort p fun r => { r with state := .verify, rate := some .fast, stuck := false }
      else if base then s.modPort p fun r => { r with state := .verify, rate := some .base, stuck := false }
      else (s.modPort p fun r => { r with state := .silent, rate := none }).raise 3
        [(Port.code p : Int), ratesCode (some theirs), mine.code])

/-- R168: four bursts with the same word, received in LISTEN with no burst before them, take a port to ACKNOWLEDGE
with the partner's rates and role from that word and burst count 0; an inverted marker among them is remembered, and
the acknowledge flags do not matter. A word that differs from the one before sets the count to 1. R169: in
ACKNOWLEDGE the partner's word counts when flagged, and a different word returns the port to LISTEN with count 1. In
the other states a burst changes nothing (log entry 18). -/
def Obligations.Bursts : Prop :=
  (∀ (s : State) (p : Port) (w : CapWord) (i1 i2 i3 i4 f1 f2 f3 f4 : Bool),
    (s.port p).state = .listen → (s.port p).before = none →
    ∃ a b c, exec (.burstReceived p i1 w f1) s = .next a ∧ exec (.burstReceived p i2 w f2) a = .next b ∧
      exec (.burstReceived p i3 w f3) b = .next c ∧
      (a.port p).state = .listen ∧ (a.port p).bursts = 1 ∧ (b.port p).bursts = 2 ∧
      (c.port p).bursts = 3 ∧
      exec (.burstReceived p i4 w f4) c = .next (s.modPort p fun r =>
        { r with state := .acknowledge, partnerRates := some w.rates, partnerRole := some w.role,
                 inverted := i1 || i2 || i3 || i4, bursts := 0, further := 0, before := some w })) ∧
  ∀ (s : State) (p : Port) (w : CapWord) (inv flag : Bool),
    let r := s.port p
    let same := r.partnerRates = some w.rates ∧ r.partnerRole = some w.role
    (r.state = .listen → r.before ≠ some w → ∃ t, exec (.burstReceived p inv w flag) s = .next t ∧
      (t.port p).state = .listen ∧ (t.port p).bursts = 1 ∧ (t.port p).before = some w ∧
      (inv = true → (t.port p).inverted = true)) ∧
    (r.state = .acknowledge →
      (same → exec (.burstReceived p inv w flag) s = .next
        (if flag = true ∧ r.bursts < 4 then s.modPort p fun x => { x with bursts := x.bursts + 1 } else s)) ∧
      (¬same → exec (.burstReceived p inv w flag) s = .next (s.modPort p fun x =>
        { x with state := .listen, bursts := 1, before := some w, further := 0 }))) ∧
    (r.state ≠ .listen → r.state ≠ .acknowledge → exec (.burstReceived p inv w flag) s = .next s)

/-- R171: a port in UP that loses its line enters SILENT with no rate and link lost set, and event 1 or 2 names the
cause, LOCK by the number 0 and BREAK by 1 (log entry 8); the part of a frame already forwarded ends with an abort mark
on OUT, and a frame in transit on OUT is cut off (log entry 6). That a part has been forwarded only of a frame whose
header is complete, which is not the part's own and no request to it, and only with OUT UP at IN's rate, is read from
R173 and R174 (log entry 46). In another state the command changes nothing (log entry 18). -/
def Obligations.LinkLoss : Prop :=
  ∀ (s : State) (cause : LossCause) (transit : List Octet),
    let lost (r : PortRt) : PortRt := { r with state := .silent, rate := none, linkLost := true }
    let name : List Int := [match cause with | .lock => 0 | .brk => 1]
    let begun := 4 ≤ transit.length ∧ frameSource transit ≠ s.ownAddress ∧
      ¬(frameClass transit = 3 ∧ frameDest transit = s.ownAddress)
    exec (.linkLoss .inn cause transit) s = .next
      (if s.rif.portIn.state = .up then
        (({ s with rif := { s.rif with
            portIn := lost s.rif.portIn
            line := s.rif.line ++
              (if begun ∧ s.rif.portOut.state = .up ∧ s.rif.portIn.rate = s.rif.portOut.rate then
                [.forwarded (transit.take 96) true] else []) } } : State).raise 1 name)
      else s) ∧
    exec (.linkLoss .out cause transit) s = .next
      (if s.rif.portOut.state = .up then
        (({ s with rif := { s.rif with
            portOut := lost s.rif.portOut, buffer := none
            line := s.rif.line ++ (if transit ≠ [] then [.cut transit] else []) } } : State).raise 2 name)
      else s)

/-- R175: with OUT UP and no forwarded frame waiting, the head of the lowest-numbered class that holds a frame leaves
it and is put on the line from the own address; a frame leaving class 1 lets the channels that wait in QUEUE and the
held frames of CLC go on, one leaving class 2 makes the dispatch test. With OUT not UP nothing is inserted. A
forwarded frame that waits is sent before it (log entry 6). R61, R141: every channel that waits in QUEUE becomes
REQUESTED; the held stage frame, then the held heater frame of CLC enter class 1 while it has room. That CLC takes the
free slot where a channel waits too is the model's choice (log entry 54), and so is that a frame queued before a soft
reset leaves from the own address as it stands at its insertion (log entry 55). -/
def Obligations.FrameInsertion : Prop :=
  (∀ s : State,
    (s.rif.portOut.state ≠ .up → exec .frameInsertion s = .next s) ∧
    (∀ f, s.rif.portOut.state = .up → s.rif.buffer = some f →
      exec .frameInsertion s = exec .frameInsertion { s with rif := { s.rif with
        buffer := none, line := s.rif.line ++ [.forwarded f.octets f.aborted] } }) ∧
    (s.rif.portOut.state = .up → s.rif.buffer = none →
      let own := s.ownAddress
      let sent (o : List Octet) (f : RifRt → RifRt) : State :=
        { s with rif := { f s.rif with line := s.rif.line ++ [.inserted o] } }
      (∀ f rest, s.rif.class0 = f :: rest →
        exec .frameInsertion s = .next (sent (f.octets own) fun r => { r with class0 := rest })) ∧
      (∀ f rest, s.rif.class0 = [] → s.rif.class1 = f :: rest →
        exec .frameInsertion s =
          .next ((sent (f.octets own) fun r => { r with class1 := rest }).releaseQueueWaits).offerHeld) ∧
      (∀ f rest, s.rif.class0 = [] → s.rif.class1 = [] → s.rif.class2 = f :: rest →
        exec .frameInsertion s =
          .next (sent (f.octets own) fun r => { r with class2 := rest }).dispatchTest) ∧
      (∀ f rest, s.rif.class0 = [] → s.rif.class1 = [] → s.rif.class2 = [] → s.rif.class3 = f :: rest →
        exec .frameInsertion s = .next (sent (f.octets own) fun r => { r with class3 := rest })) ∧
      (s.rif.class0 = [] → s.rif.class1 = [] → s.rif.class2 = [] → s.rif.class3 = [] →
        exec .frameInsertion s = .next s))) ∧
  ∀ s : State,
    let u := s.releaseQueueWaits
    let one := s.rif.class1 ++ (if s.rif.class1.length < 6 then s.clc.heldStage.toList else [])
    let two := one ++ (if one.length < 6 then s.clc.heldHeater.toList else [])
    u = { s with seq := { s.seq with chans := u.seq.chans } } ∧
    (∀ c : ChanIx, u.chan c = if (s.chan c).state = .waiting .queue then { s.chan c with state := .requested }
      else s.chan c) ∧
    s.offerHeld = { s with
      rif := { s.rif with class1 := two }
      clc := { s.clc with
        heldStage := if s.rif.class1.length < 6 then none else s.clc.heldStage
        heldHeater := if one.length < 6 then none else s.clc.heldHeater } }

/-- R176: the placements of class 0. A new Reference Frame replaces the last one unless a Block Command stands behind
it; a Block Command joins the tail, or is merged with the queued one, which then stands at the tail behind the newest
Reference Frame alone. So no Reference Frame stands behind a Block Command right after it is placed. The merged frame
keeps the destination it was queued with, whatever the new one names (log entry 37). -/
def Obligations.ClassZeroPlacements : Prop :=
  ∀ (d e : Node) (a b c : Node × Nat × Nat),
    let r (x : Node × Nat × Nat) : Class0 := .ref x.1 x.2.1 x.2.2
    let k : Class0 := .block e
    placeRefIn (r c) [] = [r c] ∧ placeRefIn (r c) [r a] = [r c] ∧
    placeRefIn (r c) [k] = [k, r c] ∧ placeRefIn (r c) [r a, k] = [r a, k, r c] ∧
    placeRefIn (r c) [k, r a] = [k, r c] ∧ placeRefIn (r c) [r a, k, r b] = [r a, k, r c] ∧
    placeBlockIn d [] = [.block d] ∧ placeBlockIn d [r a] = [r a, .block d] ∧
    placeBlockIn d [k] = [k] ∧ placeBlockIn d [r a, k] = [r a, k] ∧
    placeBlockIn d [k, r a] = [r a, k] ∧ placeBlockIn d [r a, k, r b] = [r b, k] ∧
    ∀ q, class0Shape q = true → class0Shape (placeRefIn (r c) q) = true ∧
      class0Shape (placeBlockIn d q) = true ∧ ∃ x, (placeBlockIn d q).getLast? = some (.block x)

/-! ### Ring time and received frames -/

/-- R177 with R15, R51 to R53, R126, R119, R137 and R142: a used Cycle Mark sets ring time to its number and makes the
part SYNCHRONISED, a local cycle event in FREE_RUN adds one, and the loss of the marks makes the part FREE_RUN with
cause LOSS, event 5 and a local cycle event at once. Each cycle event ages the contributors and moves every timer by
one, and a stored stale limit comes into force (R12); then the contributors that are beyond it become STALE at that
cycle event, each with its evaluation and its hand-overs; event 6 names the old and the new ring time when LOSS ends.
An IN port that is not UP uses no mark. That the blocks count before the first of them becomes STALE, the order of
these, that a cycle event itself takes no other expiry (no wait ends, no flow window wraps) and that it marks with
dwellDue that the dwell has elapsed is the model's choice (log entry 4). That event 6 is raised before the blocks count
is log entry 9. The model's choice too is that the loss of the marks in FREE_RUN and a local cycle event in
SYNCHRONISED change nothing (log entry 18), that the rest timer counts in HELD with REST in the set or not (log entry
36), and that a wait timer keeps its count outside its waits (log entry 39). -/
def Obligations.CycleEvents : Prop :=
  (∀ s : State, s.part ≠ .boot → NothingDue s →
    let at' (n : RingTime) (k : CycleState) : State :=
      { s with rif := { s.rif with ringTime := n, cycle := k } }
    let counts (t u : State) : Prop :=
      u = { t with signals := u.signals, seq := u.seq, yaw := u.yaw, clc := u.clc } ∧
      (∀ (i : SigIx) (k : SlotIx), u.signals[i].slots[k] =
        if t.signals[i].slots[k].quality = .absent then t.signals[i].slots[k]
        else { t.signals[i].slots[k] with age := satSucc 65535 t.signals[i].slots[k].age }) ∧
      (∀ i : SigIx, u.signals[i] = { t.signals[i] with
        slots := u.signals[i].slots, limit := t.settings.signals[i].staleLimit }) ∧
      u.seq = { t.seq with chans := u.seq.chans } ∧
      (∀ c : ChanIx, u.chan c = { t.chan c with timer :=
        if (t.chan c).state ∈ [.waiting .await, .waiting .dwell, .waiting .claim] then satSucc 65535 (t.chan c).timer
        else (t.chan c).timer }) ∧
      u.yaw = { t.yaw with
        stallTimer := if t.yaw.state = .driving then satSucc 65535 t.yaw.stallTimer else t.yaw.stallTimer
        restTimer := if t.yaw.state = .held then satSucc 1047552 t.yaw.restTimer else t.yaw.restTimer } ∧
      u.clc = { t.clc with
        dwell := satSucc 1047552 t.clc.dwell, dwellDue := u.clc.dwellDue
        flowTimer := satSucc 65535 t.clc.flowTimer } ∧
      (u.clc.dwellDue = true ↔ t.clc.dwell < 1047552 ∧
        t.clc.dwell + 1 = (t.stage t.clc.actual).dwell * 1024)
    let counted (t u : State) : Prop := ∃ w, counts t w ∧ u = w.takeStale
    (∀ n, s.rif.portIn.state = .up → ∃ u, exec (.cycleMark n) s = .next u ∧
      (s.rif.cycle ≠ .freeRun .loss → counted (at' n .synchronised) u) ∧
      (s.rif.cycle = .freeRun .loss →
        counted ((at' n .synchronised).raise 6 [s.rif.ringTime.toInt, n.toInt]) u)) ∧
    (∀ n, s.rif.portIn.state ≠ .up → exec (.cycleMark n) s = .next s) ∧
    (∀ k, s.rif.cycle = .freeRun k → exec .cycleMarksLost s = .next s ∧
      ∃ u, exec .localCycleEvent s = .next u ∧ counted (at' (s.rif.ringTime + 1) (.freeRun k)) u) ∧
    (s.rif.cycle = .synchronised → exec .localCycleEvent s = .next s ∧
      ∃ v u, v = (at' s.rif.ringTime (.freeRun .loss)).raise 5 [s.rif.ringTime.toInt] ∧
        exec .cycleMarksLost s = .next u ∧
        counted { v with rif := { v.rif with ringTime := s.rif.ringTime + 1 } } u)) ∧
  ∀ s : State,
    let due (x : State) (i : SigIx) (k : SlotIx) : Prop :=
      (x.signals[i].slots[k].quality = .good ∨ x.signals[i].slots[k].quality = .suspect) ∧
        x.signals[i].limit < x.signals[i].slots[k].age
    ((∀ i k, ¬due s i k) → s.takeStale = s) ∧
    ∀ l : List (SigIx × SlotIx), (∀ i k, (i, k) ∈ l ↔ due s i k) →
      l.Pairwise (fun a b => a.1 < b.1 ∨ (a.1 = b.1 ∧ a.2 < b.2)) →
      s.takeStale = l.foldl (fun x a => (if due x a.1 a.2 then
        (x.modSlot a.1 a.2 fun c => { c with quality := .stale }).evaluate a.1 .change else x).settle) s

/-- R173 and R174: what becomes of a frame received on IN while IN is UP, by the first row that applies, and what
of it leaves on OUT. A Management Request consumed whole does what its command does, a Cycle Mark and a Sample
Frame what theirs do. R180, R190: a request of a kind, or a CLEAR, CONVERSION or YAW request of a subject,
outside its list is answered RANGE with no effect. With class 3 full a request is discarded (log entry 17); one of
fewer than six octets has no effect, and that an unlisted kind is judged whatever its other fields hold is log entry
10. In BOOT, and while IN is not UP, a frame is not handled. -/
def Obligations.FrameFilter : Prop :=
  ∀ (s : State) (f : RxFrame),
    let os := f.octets
    let got := exec (.frameReceived f) s
    let src := frameSource os
    let sent (o : List Octet) (mark : Bool) : State :=
      if s.rif.portOut.state = .up then
        if s.rif.portIn.rate = s.rif.portOut.rate then
          { s with rif := { s.rif with line := s.rif.line ++ [.forwarded o mark] } }
        else if s.rif.buffer = none then
          { s with rif := { s.rif with buffer := some { octets := o, aborted := mark } } }
        else s
      else s
    let named : List Int := [(src.toNat : Int), (frameClass os : Int)]
    let own := src = s.ownAddress
    let mine := frameClass os = 3 ∧ frameDest os = s.ownAddress
    let good := checkPasses os = true ∧ os.length = (octetAt os 3).toNat + 6
    (s.part = .boot ∨ s.rif.portIn.state ≠ .up → got = .next s) ∧
    (s.part ≠ .boot → s.rif.portIn.state = .up →
      (96 < os.length → got = .next ((sent (os.take 96) true).raise 4 [(src.toNat : Int)])) ∧
      (os.length ≤ 96 → f.aborted = true → got = .next (sent os true)) ∧
      (f.aborted = false → os.length < 4 → got = .next ((sent os true).raise 27 [])) ∧
      (f.aborted = false → 4 ≤ os.length → os.length ≤ 96 →
        (own → got = .next (if checkPasses os then s else s.raise 27 named)) ∧
        (¬own → mine → ¬good → got = .next (s.raise 27 named)) ∧
        (¬own → mine → good → ∀ r c, requestOf src (framePayload os) = some r → r.command = some c →
          got = exec c s) ∧
        (¬own → mine → good → requestOf src (framePayload os) = none → got = .next s) ∧
        (¬own → mine → good → ∀ r, requestOf src (framePayload os) = some r →
          (2 ≤ s.rif.class3.length → got = .next s) ∧
          (s.rif.class3.length < 2 → s.work = [] →
            13 < r.kind.toNat ∨ (r.kind = 7 ∧ 4 < r.addr.toNat) ∨ (r.kind = 8 ∧ 2 < r.addr.toNat) ∨
              (r.kind = 9 ∧ 1 < r.addr.toNat) →
            got = .next (s.answered (answerOf src r.kind r.addr .range)))) ∧
        (¬own → ¬mine → ¬good → got = .next ((sent os false).raise 27 named)) ∧
        (¬own → good → frameClass os = 0 → ∀ a b c d : Octet, framePayload os = [a, b, c, d] →
          got = exec (.cycleMark ((a ++ b) ++ (c ++ d) : BitVec 32)) (sent os false)) ∧
        (¬own → good → frameClass os = 1 → ∀ sq n rest, framePayload os = sq :: n :: rest →
          rest.length % 3 = 0 →
            got = exec (.sampleFrame src sq n (sampleItems rest)) (sent os false)) ∧
        (¬own → ¬mine → good → frameClass os ≠ 0 → frameClass os ≠ 1 → got = .next (sent os false))))

/-- R4 to R6 and R8 to R10: which Sample Frames are taken, how each of their items is matched and decimated, one after
another, the verdict on a used item, and the update that tells the readers: the signal is evaluated over its
contributors as the verdict leaves them, with cause SAMPLE for an accepted item and CHANGE for a rejected one. A frame
that is not taken, and one in BOOT, changes nothing; a frame that is taken leaves its sequence in the memory of its
source and then handles its items in their order, each with its hand-overs. -/
def Obligations.SampleFrames : Prop :=
  (∀ (s : State) (src : Node) (sq n : Octet) (items : List SampleItem),
    ((s.part = .boot ∨ src.toNat = 0 ∨ 56 ≤ src.toNat ∨ n.toNat = 0 ∨ 8 < n.toNat ∨ n.toNat ≠ items.length) →
      exec (.sampleFrame src sq n items) s = .next s) ∧
    ∀ k : Fin 55, src.toNat = k + 1 →
      (s.sequences[k] = some sq → exec (.sampleFrame src sq n items) s = .next s) ∧
      (s.part ≠ .boot → 1 ≤ n.toNat → n.toNat ≤ 8 → n.toNat = items.length → s.sequences[k] ≠ some sq →
        ∃ t, exec (.sampleFrame src sq n items) s = .next t ∧
          t = items.foldl (fun x it => (x.takeItem src it).settle)
            { s with sequences := s.sequences.set k (some sq) } ∧
          t.sequences = s.sequences.set k (some sq))) ∧
  (∀ (s : State) (src : Node) (it : SampleItem),
    let feeds (e : MapIx) : Prop := s.settings.sampleMap[e].valid = true ∧ s.settings.sampleMap[e].source = src ∧
      s.settings.sampleMap[e].channel = it.channel;
    ((∀ e : MapIx, ¬feeds e) → s.takeItem src it = s) ∧
    ∀ e : MapIx, feeds e → (∀ d : MapIx, d < e → ¬feeds d) →
      let p := if s.phases[e] + 1 < s.settings.sampleMap[e].decimation then s.phases[e] + 1 else 0;
      let v : State := { s with phases := s.phases.set e p };
      s.takeItem src it = if s.phases[e] = 0 then v.useItem s.settings.sampleMap[e] it else v) ∧
  ∀ (s : State) (e : SampleEntry) (it : SampleItem),
    let u := s.useItem e it
    let i := e.target
    let k := s.signals[i].slots[e.slot]
    let w := u.signals[i].slots[e.slot]
    let v := engineering e it.raw
    let inRange := e.low ≤ v ∧ v ≤ e.high
    let jumps := e.rate ≠ 0 ∧ (k.quality = .good ∨ k.quality = .suspect) ∧ k.jumps ≠ 3 ∧
      e.rate < (v - k.reference).natAbs
    let marked (why : Reason) : Contributor :=
      { k with quality := if k.quality = .good then .suspect else k.quality, reason := why }
    let same := u.signals[i].value = s.signals[i].value ∧ u.signals[i].quality = s.signals[i].quality
    let told (c : Cause) : Prop := u.work = s.work ++ [.update i u.signals[i].value u.signals[i].quality c]
    let set (x : Contributor) (l : Option SlotIx) : State := { s with
      signals := s.signals.set i { s.signals[i] with slots := s.signals[i].slots.set e.slot x, lastSlot := l } }
    let rejected (x : Contributor) : Prop := u = (set x s.signals[i].lastSlot).evaluate i .change ∧ w = x ∧
      u.signals[i].lastSlot = s.signals[i].lastSlot ∧
      (same → u.work = s.work) ∧ (¬same → told .change)
    (it.quality = .failed → rejected (marked .node)) ∧
    (it.quality ≠ .failed → ¬inRange → rejected (marked .range)) ∧
    (it.quality ≠ .failed → inRange → jumps →
      rejected { k with quality := .suspect, reason := .jump, jumps := k.jumps + 1 }) ∧
    (it.quality ≠ .failed → inRange → ¬jumps →
      let last := if it.quality = .good then some e.slot else s.signals[i].lastSlot
      w = { quality := if it.quality = .good then .good else .suspect, value := v, reference := v, age := 0,
            jumps := 0, reason := if it.quality = .good then .none else .node } ∧
      u.signals[i].lastSlot = last ∧ u = (set w last).evaluate i .sample ∧
      told .sample) ∧
    (∀ (j : SigIx) (l : SlotIx), ¬(j = i ∧ l = e.slot) → u.signals[j].slots[l] = s.signals[j].slots[l]) ∧
    (∀ j : SigIx, j ≠ i → u.signals[j] = s.signals[j]) ∧
    u = { s with signals := u.signals, evu := u.evu, rif := u.rif, work := u.work } ∧
    u.rif = { s.rif with class2 := u.rif.class2 }

/-- R7: the engineering value is floor(raw × gain / 4096) + offset, the product within 32 bits, the quotient rounded
toward minus infinity, the sum saturated to 16 bits; and it is the saturated value that the range check sees. -/
def Obligations.EngineeringValue : Prop :=
  ∀ (e : SampleEntry) (raw : Word), -32768 ≤ e.gain → e.gain ≤ 32767 → -32768 ≤ e.offset → e.offset ≤ 32767 →
    let p := raw.toInt * e.gain;
    let v := engineering e raw;
    -2147483648 ≤ p ∧ p ≤ 2147483647 ∧
    (∀ q : Int, 4096 * q ≤ p → p < 4096 * (q + 1) →
      (q + e.offset < -32768 → v = -32768) ∧ (32767 < q + e.offset → v = 32767) ∧
      (-32768 ≤ q + e.offset → q + e.offset ≤ 32767 → v = q + e.offset)) ∧
    ∀ (s : State) (c : Fin 16),
      let w := (s.useItem e { channel := c, quality := .good, raw := raw }).signals[e.target].slots[e.slot];
      (e.low ≤ v → v ≤ e.high → e.rate = 0 → w.value = v ∧ w.quality = .good) ∧
      (v < e.low ∨ e.high < v → w.value = s.signals[e.target].slots[e.slot].value ∧ w.reason = .range)

/-- R13 to R15: the merged value over the GOOD contributors by merge mode, the quality of a SAMPLED signal from its
configured contributors, the value held while it is LOST, and what the row of a contributor that goes STALE does, by
the stale limit in force since the last cycle event (R12); a row that is not due changes nothing (log entry 18). R16
and R19: an evaluation tells the readers of an accepted value and of any other change, and a move of quality to or from
LOST raises the loss event or the recovery event by the signal's code. R18: a write by the owner of a DERIVED signal
sets its value, makes it GOOD and tells the readers; it raises the recovery event where loss-raised is yes, in a
management write as well (log entry 35). R20: LIM, SEQ, CNV with ALW, YAW and CLC take each update once, with the
value, the quality and the cause it carries; R19 gives them no order, and the model takes it from the head of its own
field schedule, completed to all five, or as R20 lists them where that is empty (log entry 3). -/
def Obligations.SignalQuality : Prop :=
  (∀ (r : SignalRt) (m : MergeMode),
    let good (k : SlotIx) : Prop := r.slots[k].quality = .good
    ((∀ k, ¬good k) → r.merged m = none) ∧
    ((∃ k, good k) → ∃ v, r.merged m = some v ∧
      (∃ k l, good k ∧ good l ∧ r.slots[k].value ≤ v ∧ v ≤ r.slots[l].value) ∧
      (m ≠ .mean → ∃ k, good k ∧ v = r.slots[k].value) ∧
      (m = .max → ∀ k, good k → r.slots[k].value ≤ v) ∧
      (m = .min → ∀ k, good k → v ≤ r.slots[k].value) ∧
      (m = .primary → ∀ k, good k → (∀ j, j < k → ¬good j) → v = r.slots[k].value) ∧
      (m = .mean →
        let on (k : SlotIx) (x : Int) : Int := if r.slots[k].quality = .good then x else 0;
        let n := on 0 1 + on 1 1 + on 2 1;
        let sum := on 0 r.slots[(0 : SlotIx)].value + on 1 r.slots[(1 : SlotIx)].value +
          on 2 r.slots[(2 : SlotIx)].value;
        n * v ≤ sum ∧ sum < n * (v + 1)) ∧
      (m = .last → ∀ k, good k →
        (r.lastSlot = some k → v = r.slots[k].value) ∧
        ((∀ j, r.lastSlot = some j → ¬good j) →
          (∀ j, good j → r.slots[k].age < r.slots[j].age ∨ (r.slots[k].age = r.slots[j].age ∧ k ≤ j)) →
          v = r.slots[k].value)))) ∧
  (∀ (s : State) (i : SigIx), s.settings.signals[i].feed = .sampled →
    let conf (k : SlotIx) : Prop := ∃ e : MapIx, s.settings.sampleMap[e].valid = true ∧
      s.settings.sampleMap[e].target = i ∧ s.settings.sampleMap[e].slot = k
    let good (k : SlotIx) : Prop := s.signals[i].slots[k].quality = .good
    let q := s.newQuality i
    (q = .unused ↔ ∀ k, ¬conf k) ∧ (q = .good ↔ (∃ k, conf k) ∧ ∀ k, conf k → good k) ∧
    (q = .degraded ↔ (∃ k, conf k ∧ good k) ∧ ∃ k, conf k ∧ ¬good k) ∧
    (q = .lost ↔ (∃ k, conf k) ∧ ∀ k, conf k → ¬good k) ∧
    (q = .unused → s.newValue i = 0) ∧
    ((∀ k, ¬good k) → q ≠ .unused → s.newValue i = s.signals[i].value) ∧
    (∀ v, s.signals[i].merged s.settings.signals[i].merge = some v → q ≠ .unused → s.newValue i = v)) ∧
  (∀ (s : State) (i : SigIx) (k : SlotIx),
    let c := s.signals[i].slots[k]
    let due := (c.quality = .good ∨ c.quality = .suspect) ∧ s.signals[i].limit < c.age
    let v := s.modSlot i k fun c => { c with quality := .stale }
    let u := v.evaluate i .change
    (due → exec (.contributorStale i k) s = .next u.settle ∧
      u.signals[i].slots[k] = { c with quality := .stale } ∧
      u.signals[i].quality = v.newQuality i ∧ u.signals[i].value = v.newValue i ∧
      (s.settings.signals[i].feed ≠ .sampled → k = 0 →
        u.signals[i].quality = .lost ∧ u.signals[i].value = s.signals[i].value)) ∧
    (¬due → s.work = [] → exec (.contributorStale i k) s = .next s)) ∧
  (∀ (s : State) (i : SigIx) (cause : Cause),
    let r := s.signals[i]
    let v := s.newValue i
    let q := s.newQuality i
    let code := s.settings.signals[i].lossCode
    let set (f : SignalRt → SignalRt) : State := { s with
      signals := s.signals.set i (f { r with value := v, quality := q })
      work := s.work ++ (if cause = .sample ∨ v ≠ r.value ∨ q ≠ r.quality then [.update i v q cause] else []) }
    let usable (q : Quality) : Prop := q = .good ∨ q = .degraded
    let lost := usable r.quality ∧ q = .lost
    let back := r.quality = .lost ∧ usable q ∧ r.lossRaised = true
    (lost → s.evaluate i cause = (set fun r => { r with lossRaised := true }).raise
      (if code = 0 then 29 else code) [(i : Int)]) ∧
    (back → s.evaluate i cause = if code = 0 then (set fun r => { r with lossRaised := false }).raise 30 [(i : Int)]
      else (set fun r => { r with lossRaised := false }).raiseKind code .recovered [(i : Int)]) ∧
    (¬lost → ¬back → s.evaluate i cause = set id)) ∧
  (∀ (s : State) (i : SigIx) (v : Int) (q : Quality) (cause : Cause),
    let l := readerOrder (s.schedule.headD [])
    let reads (x : State) (r : Reader) : State := match r with
      | .lim => x.limUpdate i v q
      | .seq => x.seqUpdate i v q
      | .cnv => x.cnvUpdate i v q
      | .yaw => x.yawUpdate i v q cause
      | .clc => x.clcUpdate i v q
    l.Nodup ∧ (∀ r : Reader, r ∈ l) ∧ (s.schedule.headD [] = [] → l = [.lim, .seq, .cnv, .yaw, .clc]) ∧
    s.takeUpdate i v q cause = l.foldl reads { s with schedule := s.schedule.tail }) ∧
  ∀ (s : State) (f : Feed) (v : Int),
    ((∀ i : SigIx, s.settings.signals[i].feed ≠ f) → s.publish f v = s) ∧
    ∀ i : SigIx, s.settings.signals[i].feed = f → (∀ j : SigIx, j < i → s.settings.signals[j].feed ≠ f) →
      let r := s.signals[i]
      let code := s.settings.signals[i].lossCode
      let set (raised : Bool) : State := { s with
        signals := s.signals.set i { r with
          value := v, quality := .good, lossRaised := raised
          slots := r.slots.set 0 { r.slots[(0 : SlotIx)] with quality := .good, age := 0 } }
        work := s.work ++ [.update i v .good .derived] }
      s.publish f v = if r.quality = .lost ∧ r.lossRaised = true then
          if code = 0 then (set false).raise 30 [(i : Int)] else (set false).raiseKind code .recovered [(i : Int)]
        else set r.lossRaised

/-! ### The Step Engine -/

/-- R46, R49 and R61: the free engine goes to the REQUESTED channel with the lowest number under FIXED, and under
ROTATING to the first one behind the last granted. That channel becomes RUNNING and the last granted; its held frame is
offered first, then its run ends, its demand suspends it, or it stands ready to execute its step. A held frame that
finds no room takes it back to WAITING in QUEUE. With the engine held, or no channel REQUESTED, nothing changes (log
entry 18). -/
def Obligations.EngineGrant : Prop :=
  (∀ s : State, s.work = [] → (s.seq.holder ≠ none ∨ ∀ c : ChanIx, (s.chan c).state ≠ .requested) →
    exec .stepEngineGrant s = .next s) ∧
  ∀ (s : State) (c : ChanIx), s.seq.holder = none → s.seq.opened = none → (s.chan c).state = .requested →
    (s.settings.rotating = false → ∀ d : ChanIx, d < c → (s.chan d).state ≠ .requested) →
    (s.settings.rotating = true → ∀ d : ChanIx, (s.chan d).state = .requested →
      c - (s.seq.lastGranted + 1) ≤ d - (s.seq.lastGranted + 1)) →
    let g := ({ s with seq := { s.seq with holder := some c, lastGranted := c } } : State).modChan c
      fun r => { r with state := .running };
    let goes (x : State) : State :=
      if (s.chan c).remaining = 0 then (x.terminalCount c).settle
      else if s.demandHolds c then x.settle
      else ((x.modChan c fun r => { r with state := .suspended }).engineFree c).settle;
    ((s.chan c).held = none → exec .stepEngineGrant s = .next (goes g)) ∧
    (∀ f, (s.chan c).held = some f → s.rif.class1.length < 6 →
      exec .stepEngineGrant s = .next (goes (({ g with rif := { s.rif with
        class1 := s.rif.class1 ++ [f] } } : State).modChan c fun r => { r with held := none }))) ∧
    (∀ f, (s.chan c).held = some f → 6 ≤ s.rif.class1.length →
      exec .stepEngineGrant s =
        .next (((g.modChan c fun r => { r with state := .waiting .queue }).engineFree c).settle))

/-- R47 to R50, R60 and R61: an EMIT adds its item to the open frame of its node or opens one, the eighth item closes
the frame, a frame of another node is closed first, and a frame that finds class 1 full makes the channel wait in
QUEUE, the EMIT completed only when its item has been added. After the step, whatever frame it joined, the channel goes
on in BLOCK and DEMAND mode; in SINGLE mode an open frame is closed and the channel gives the engine up, or waits in
QUEUE where class 1 is full; the last step of the range brings the terminal count. Whatever the kind of its step, a
channel whose demand is false is SUSPENDED before the step. A turn that does not fit the step of the channel holding
the engine changes nothing (log entry 18). -/
def Obligations.EmitStep : Prop :=
  (∀ (s : State) (c : ChanIx) (n : Node) (o : OutIx) (v : Int), Turn s c → s.stepAt c = .emit n o v →
    let i : CmdItem := { output := o, value := v };
    let fresh : OpenFrame := { dest := n, items := [i], chan := c };
    let room := s.rif.class1.length < 6;
    let added (x : State) (f : OpenFrame) : State :=
      ({ x with seq := { x.seq with opened := some f } } : State).modChan c fun r =>
        { r with remaining := r.remaining - 1,
                 current := if 1 < r.remaining then r.current + 1 else r.current };
    let got := exec .emit s;
    -- after the step, with the frame that is open then
    let after (x : State) (open' : Option OpenFrame) : State :=
      if (s.chan c).remaining = 1 then (x.terminalCount c).settle
      else if (s.desc c).mode = .single then
        match open' with
        | none => (x.modChan c fun r => { r with state := .requested }).engineFree c
        | some f =>
          if x.rif.class1.length < 6 then (x.frameClosed.modChan c fun r => { r with state := .requested }).engineFree c
          else x.frameHeld c f
      else x;
    (s.seq.opened = none → got = .next (after (added s fresh) (some fresh))) ∧
    (∀ f, s.seq.opened = some f → f.dest = n →
      let g : OpenFrame := { f with items := f.items ++ [i] };
      (f.items.length < 7 → got = .next (after (added s g) (some g))) ∧
      (7 ≤ f.items.length → room → got = .next (after (added s g).frameClosed none)) ∧
      (7 ≤ f.items.length → ¬room → got = .next ((added s g).frameHeld c g))) ∧
    (∀ f, s.seq.opened = some f → f.dest ≠ n →
      (room → got = .next (after (added s.frameClosed fresh) (some fresh))) ∧
      (¬room → got = .next (s.frameHeld c f)))) ∧
  (∀ (s : State) (c : ChanIx), s.seq.holder = some c → (s.chan c).state = .running →
    0 < (s.chan c).remaining → s.demandHolds c = false → s.work = [] →
    (s.seq.opened = none ∨ s.rif.class1.length < 6 → exec (s.stepAt c).command s = .next
      ((s.frameClosed.modChan c fun r => { r with state := .suspended }).engineFree c)) ∧
    (∀ f, s.seq.opened = some f → 6 ≤ s.rif.class1.length →
      exec (s.stepAt c).command s = .next (s.frameHeld c f))) ∧
  ∀ (s : State) (i : Instr), i ∈ [.emit, .await, .dwell, .claim, .free, .link] → s.work = [] →
    (s.seq.holder = none ∨ ∃ c, s.seq.holder = some c ∧
      ((s.stepAt c).command ≠ i ∨ (s.chan c).state ≠ .running ∨ (s.chan c).remaining = 0)) →
    exec i s = .next s

/-- R51 to R53 with R47, R48 and R61: before an AWAIT, a DWELL and a CLAIM the open frame is closed, or makes the
channel wait in QUEUE with the step not begun. An AWAIT whose condition holds completes at once and waits otherwise,
a DWELL waits, and a CLAIM does as ALA answers. A step that completes counts down, moves to the next step while one
is left, and in SINGLE mode gives the engine up. R20, R49: at an update of its signal an AWAIT that waits is tested
again with the value and the quality of the update and completes where its condition holds, and a SUSPENDED channel in
DEMAND mode whose condition names the signal and holds becomes REQUESTED; every other channel is left. That the
channels take an update from 0 to 7 is log entry 9. -/
def Obligations.WaitSteps : Prop :=
  (∀ (s : State) (c : ChanIx), Turn s c →
    let room := s.seq.opened = none ∨ s.rif.class1.length < 6;
    let u := s.frameClosed;
    let waits (x : State) (k : WaitKind) : State :=
      (x.modChan c fun r => { r with state := .waiting k, timer := 0 }).engineFree c;
    (∀ i sense l n, s.stepAt c = .await i sense l n → room →
      let r := s.signals[i];
      let holds := (r.quality = .good ∨ r.quality = .degraded) ∧
        ((sense = .above ∧ l < r.value) ∨ (sense = .below ∧ r.value < l));
      (holds → exec .await s = .next ((u.completeNow c).settle)) ∧
      (¬holds → exec .await s = .next (waits u .await))) ∧
    (∀ n, s.stepAt c = .dwell n → room → exec .dwell s = .next (waits u .dwell)) ∧
    (∀ t a n, s.stepAt c = .claim t a n → room →
      let p := u.claimTag t a (.chan c);
      (p.2 = .granted → exec .claim s = .next ((p.1.completeNow c).settle)) ∧
      (p.2 = .queued → exec .claim s = .next ((waits p.1 .claim).settle)) ∧
      (p.2 = .refused → exec .claim s = .next ((p.1.stepFault c .claimRefused).settle))) ∧
    (∀ o i, s.seq.opened = some o → 6 ≤ s.rif.class1.length → (s.stepAt c).command = i →
      i ∈ [.await, .dwell, .claim] → exec i s = .next (s.frameHeld c o))) ∧
  ∀ (s : State) (c : ChanIx),
    let down := s.modChan c fun r =>
      { r with remaining := r.remaining - 1,
               current := if 1 < r.remaining then r.current + 1 else r.current };
    (s.goesOn c → s.completeNow c = down) ∧
    ((s.desc c).mode = .single → 1 < (s.chan c).remaining → s.seq.opened = none →
      s.completeNow c = (down.modChan c fun r => { r with state := .requested }).engineFree c) ∧
    ((s.chan c).remaining ≤ 1 → s.completeNow c = down.terminalCount c) ∧
    ∀ (i : SigIx) (v : Int) (q : Quality),
      let d := s.desc c;
      let meets (sense : Sense) (l : Int) := (q = .good ∨ q = .degraded) ∧
        ((sense = .above ∧ l < v) ∨ (sense = .below ∧ v < l));
      let asked := d.mode = .demand ∧ d.demandSignal = i ∧ meets d.demandSense d.demandLevel;
      let u := s.updateChan i v q c;
      s.seqUpdate i v q = ([0, 1, 2, 3, 4, 5, 6, 7] : List ChanIx).foldl (fun x k => x.updateChan i v q k) s ∧
      ((s.chan c).state = .waiting .await → ∀ j sense l n, s.stepAt c = .await j sense l n →
        (j = i → meets sense l → u = s.completeWait c) ∧ (j ≠ i ∨ ¬meets sense l → u = s)) ∧
      ((s.chan c).state = .suspended →
        (asked → u = s.modChan c fun r => { r with state := .requested }) ∧ (¬asked → u = s)) ∧
      ((s.chan c).state ≠ .waiting .await → (s.chan c).state ≠ .suspended → u = s)

/-- R54: a FREE step hands ALA a release of the tag's grant and completes at once; a tag without a grant is left as
it is; no frame is closed and nothing is waited for. R55: a LINK step leaves the remaining count 0 on its own step
and the run ends. R56: the end closes the open frame, or waits in QUEUE for it; then the TERMINAL flag is set, the
channel reloads or masks, the engine is released, the LINK step's channel and after it the link channel are
requested, and the owner is told. -/
def Obligations.FreeAndLink : Prop :=
  (∀ (s : State) (c : ChanIx) (t : TagIx), Turn s c → s.stepAt c = .free t →
    let u := s.freeTag t;
    exec .free s = .next ((u.completeNow c).settle) ∧ u.seq.opened = s.seq.opened ∧ u.chan c = s.chan c ∧
    ((s.tag t).grant = 0 → u = s) ∧
    ((s.tag t).grant ≠ 0 → u = ({ s with
      ala := s.ala.clearGrant t
      work := s.work ++ (if s.settings.tags[t].owner = .none then []
        else [.released s.settings.tags[t].owner t]) } : State).headTest) ∧
    ((s.tag t).grant ≠ 0 → (∀ q ∈ s.ala.queue, q.tag ≠ t) → (u.tag t).grant = 0 ∧ (u.tag t).rank = none ∧
      (s.settings.tags[t].owner ≠ .none → Work.released s.settings.tags[t].owner t ∈ u.work))) ∧
  (∀ (s : State) (c d : ChanIx), Turn s c → s.stepAt c = .link d →
    exec .link s = .next (((s.modChan c fun r => { r with remaining := 0 }).terminalCount c).settle)) ∧
  ∀ (s : State) (c : ChanIx),
    let d := s.desc c;
    let v := (s.frameClosed.modChan c fun r =>
      if d.reload then { r with terminal := true, state := .idle, current := d.base, remaining := d.count }
      else { r with terminal := true, state := .masked }).engineFree c;
    let w := match s.stepAt c with
      | .link e => v.request e (.link c)
      | _ => v;
    let x := match d.link with
      | none => w
      | some e => w.request e (.link c);
    (s.seq.opened = none ∨ s.rif.class1.length < 6 → s.terminalCount c =
      { x with work := x.work ++ (if d.owner = .none then [] else [.outcome d.owner c .terminal]) }) ∧
    (∀ o, s.seq.opened = some o → 6 ≤ s.rif.class1.length → s.terminalCount c = s.frameHeld c o)

/-- R51 to R53 and R57: when the timer of a wait has reached its step's time, an AWAIT faults, a DWELL completes, and a
CLAIM is withdrawn and faults; a wait that is not due is left (log entry 18). A step that completes after its wait
makes the channel REQUESTED, or ends its run. A step fault sets the FAULT flag, masks the channel on its step, releases
the engine, raises event 8 and tells the owner, with no link. The cause numbers in event 8 are the model's (log entry
8), and so is that a wait which completes the last step ends the run at once, without the engine (log entry 7). -/
def Obligations.WaitExpiries : Prop :=
  (∀ (s : State) (c : ChanIx),
    let due (k : WaitKind) (n : Nat) := (s.chan c).state = .waiting k ∧ n ≤ (s.chan c).timer;
    (∀ i sense l n, s.stepAt c = .await i sense l n → due .await n →
      exec (.awaitTimeout c) s = .next ((s.stepFault c .awaitTimeout).settle)) ∧
    (∀ n, s.stepAt c = .dwell n → due .dwell n →
      exec (.dwellComplete c) s = .next ((s.completeWait c).settle)) ∧
    (∀ t a n, s.stepAt c = .claim t a n → due .claim n →
      exec (.claimTimeout c) s = .next (((s.withdraw (.chan c) t).stepFault c .claimTimeout).settle)) ∧
    (¬s.waitDue c → s.work = [] → exec (.awaitTimeout c) s = .next s ∧
      exec (.dwellComplete c) s = .next s ∧ exec (.claimTimeout c) s = .next s)) ∧
  ∀ (s : State) (c : ChanIx) (cause : StepFault),
    let at' := (s.chan c).current;
    let d := s.desc c;
    let v := ((s.modChan c fun r => { r with fault := true, state := .masked }).engineFree c).raise 8
      [(c : Int), (at' : Int), match cause with | .awaitTimeout => 0 | .claimTimeout => 1 | .claimRefused => 2];
    s.stepFault c cause =
      { v with work := v.work ++ (if d.owner = .none then [] else [.outcome d.owner c (.fault at' cause)]) } ∧
    (1 < (s.chan c).remaining → s.completeWait c = s.modChan c fun r =>
      { r with remaining := r.remaining - 1, current := r.current + 1, state := .requested }) ∧
    ((s.chan c).remaining ≤ 1 → s.completeWait c = (s.modChan c fun r => { r with remaining := 0 }).finishRun c) ∧
    (s.seq.opened = none → s.finishRun c = s.terminalCount c)

/-! ### The jobs -/

/-- The expiry rows of YAW and CLC (R126, R119, R138 to R142): at the end of a stall window YAW has stalled, with event
16, in whose detail the number of the direction is the model's choice (log entry 8), or begins the next one, the rest
time takes REST out of the inhibit set, the dwell brings the stage tests, and the flow window reads the count and forms
the flow. That a usable window without a previous count does not publish the cooling factor is the model's reading (log
entry 49). A row that is not due changes nothing (log entry 18). That the mark dwellDue calls the stage tests, and that
an expiry is due at once when a write makes its limit smaller than the count, is log entry 4. -/
def Obligations.JobExpiries : Prop :=
  ∀ s : State,
    let y := s.yaw;
    let p := s.settings.clc;
    let c := s.clc;
    let moved := if y.direction = .ccw then y.stallBase - y.twist else y.twist - y.stallBase;
    let stallDue := y.state = .driving ∧ s.settings.yaw.stallWindow ≤ y.stallTimer;
    let restDue := y.inhibit.rest = true ∧ s.settings.yaw.restTime * 1024 ≤ y.restTimer;
    let r := s.signals[p.flowCount];
    let usable := r.quality = .good ∨ r.quality = .degraded;
    let window (f : ClcRt → ClcRt) := (s.modClc fun x => f { x with flowTimer := 0 });
    (stallDue → moved < s.settings.yaw.minMove → exec .stallWindow s =
      .next ((s.stopYaw .stall true fun x => x.raise 16 [y.direction.code, moved, y.twist]).settle)) ∧
    (stallDue → s.settings.yaw.minMove ≤ moved → exec .stallWindow s =
      .next ((s.modYaw fun y => { y with stallBase := y.twist, stallTimer := 0 }).settle)) ∧
    (restDue → exec .restElapsed s =
      .next ((s.modYaw fun y => { y with inhibit := { y.inhibit with rest := false } }).settle)) ∧
    (c.dwellDue = true → exec .stageDwellElapsed s =
      .next (((s.modClc fun x => { x with dwellDue := false }).stageTest).settle)) ∧
    (p.window ≤ c.flowTimer →
      (¬usable → exec .flowWindow s =
        .next ((window fun x => { x with prevCount := none, flow := none }).settle)) ∧
      (usable → c.prevCount = none → exec .flowWindow s =
        .next ((window fun x => { x with prevCount := some r.value }).settle)) ∧
      (usable → ∀ old, c.prevCount = some old →
        let flow := ((r.value - old) % 65536).toNat;
        let u := ((window fun x => { x with prevCount := some r.value, flow := some flow }).publish
          .coolantFlow (min flow 32767)).publish .coolingFactor c.cf;
        exec .flowWindow s = .next ((u.judgeFlow flow).settle) ∧
        u.clc = { c with flowTimer := 0, prevCount := some r.value, flow := some flow })) ∧
    (s.work = [] →
      (¬stallDue → exec .stallWindow s = .next s) ∧ (¬restDue → exec .restElapsed s = .next s) ∧
      (c.dwellDue = false → exec .stageDwellElapsed s = .next s) ∧
      (c.flowTimer < p.window → exec .flowWindow s = .next s))

/-- R138 to R141 and R146: the stage tests move the actual stage by one up or down when that is due, as ALA answers the
claim of the fan tag, and at most once; a stage change sets the dwell to 0, forms the cooling factor anew and sends the
stage command. R146: the cooling factor formed at a stage change and at a change of duty is published. R143: a judged
window counts a low flow, and a changeover follows the last one allowed: an accepted request makes the duty
CHANGEOVER with event 20, a refused one, or a channel of NONE, makes it NO_FLOW with event 21; event 7 of the refusal
comes first, cf is published before event 20 or 21, and a waiting pump claim is withdrawn, its head test made, before
the new duty state is set (log entry 9); the numbers of event 20 are log entry 8. R139, R147 and
R148: a grant of the fan tag takes the claimed stage, one of the heater tag switches the heaters on with their command,
one of the duty pump's tag sends the stage command, each in the event that makes the grant; the stage tests after a
stage grant are handed over (log entry 2). R144: the outcomes of the changeover channels. R145: the sheds of the fan
tag, the heater tag and the duty pump's tag, the stage test after the first in the same notice (log entry 5), the
waiting heater claim withdrawn at the second (log entry 32). R147: the heater tests. R19: the stage and heater tests of
an update see the value and the quality it carries; a signal that is coolant temperature and humidity at once is taken
as the temperature first (log entry 9). The channel of a running changeover is the one the parameters name now (log
entry 48), and at N in CHANGEOVER that channel is requested again, with no event while it is active. That a fan shed in
a stage of FAN amount 0 is a stage change too is log entry 53. -/
def Obligations.CoolingStages : Prop :=
  (∀ s : State,
    let p := s.settings.clc;
    let temp := s.signals[p.coolant];
    let hum := s.signals[p.humidity];
    s.stageTest = s.stageTestAt temp.value temp.quality ∧ s.heaterTest = s.heaterTestAt hum.value hum.quality ∧
    ∀ (i : SigIx) (v : Int) (q : Quality),
      let formed (k : StageIx) := (s.modClc fun c => { c with target := k }).stageTestAt v q;
      let full := s.clc.fullHold = true ∨ q = .lost ∨ q = .unused;
      (full → s.formTarget v q = formed 5) ∧
      (¬full → (∀ k : StageIx, (s.stage k).entry ≤ v → (∀ j : StageIx, k < j → v < (s.stage j).entry) →
          s.formTarget v q = formed k) ∧
        ((∀ j : StageIx, v < (s.stage j).entry) → s.formTarget v q = formed 0)) ∧
      s.clcUpdate i v q =
        let u := if i = p.coolant then s.formTarget v q else s;
        if i = p.humidity then u.heaterTestAt v q else u) ∧
  (∀ (s : State) (v : Int) (r : Quality),
    let p := s.settings.clc;
    let a := s.clc.actual;
    let took := s.stageTestAt v r;
    let elapsed := (s.stage a).dwell * 1024 ≤ s.clc.dwell;
    let down := 0 < a ∧ (r = .good ∨ r = .degraded) ∧ v < (s.stage a).exit ∧
      elapsed ∧ s.clc.fullHold = false;
    let up := a < s.clc.target ∧ elapsed ∧ s.clc.stageClaim = none;
    let dropped := match s.clc.stageClaim, p.fanTag with
      | some _, some t =>
        (s.modClc fun c => { c with stageClaim := none, heldReported := false }).withdraw .clc t
      | _, _ => s;
    (s.part ≠ .operating → took = s) ∧
    (s.part = .operating →
      (¬down → s.clc.target ≤ a → took = dropped) ∧
      (¬down → ¬up → a < s.clc.target → took = s) ∧
      (¬down → up →
        (p.fanTag = none → took = s.changeStage (a + 1)) ∧
        ∀ t, p.fanTag = some t →
          let q := s.claimTag t (s.stage (a + 1)).amount .clc;
          (q.2 = .granted → took = q.1.changeStage (a + 1)) ∧
          (q.2 = .queued → took =
            (q.1.modClc fun c => { c with stageClaim := some (a + 1) }).reportHeld (a + 1)) ∧
          (q.2 = .refused → took = q.1.reportHeld (a + 1))) ∧
      (down →
        (p.fanTag = none → took = s.changeStage (a - 1)) ∧
        ∀ t, p.fanTag = some t →
          let q := dropped.claimTag t (s.stage (a - 1)).amount .clc;
          (q.2 = .granted → took = q.1.changeStage (a - 1)) ∧
          ∀ k : StageIx, k ≤ a - 1 → (s.stage k).amount = 0 →
            (∀ j : StageIx, k < j → j ≤ a - 1 → (s.stage j).amount ≠ 0) →
            (q.2 = .queued → took = (q.1.withdraw .clc t).changeStage k) ∧
            (q.2 = .refused → took = q.1.changeStage k)))) ∧
  (∀ (s : State) (k : StageIx),
    let p := s.settings.clc;
    let u := s.changeStage k;
    let health := match s.clc.duty with
      | .a => 16384
      | .b => 16384
      | .changeover => 8192
      | .noFlow => p.noFlowFactor;
    let pump (t : TagIx) (o : OutIx) : List CmdItem :=
      [{ output := o, value := if (s.tag t).grant = 0 then 0 else (s.stage k).pump }];
    let frame : CmdFrame := { dest := p.node, items := { output := p.fanOutput, value := (s.stage k).fan } ::
      match s.clc.duty with
      | .a => pump p.pumpATag p.pumpAOutput
      | .b => pump p.pumpBTag p.pumpBOutput
      | .changeover => []
      | .noFlow => [] };
    let cf := (s.stage k).capacity * health / 16384;
    s.formCf = (s.modClc fun c => { c with cf := (s.stage c.actual).capacity * health / 16384 }).publish .coolingFactor
      ((s.stage s.clc.actual).capacity * health / 16384 : Nat) ∧
    u = ((s.modClc fun c => { c with
      actual := k, dwell := 0, dwellDue := false, heldReported := false, cf := cf }).publish .coolingFactor
        cf).stageCommand ∧
    u.clc = { s.clc with
      actual := k, dwell := 0, dwellDue := false, heldReported := false, cf := cf,
      heldStage := if s.part = .operating ∧ 6 ≤ s.rif.class1.length then some frame else s.clc.heldStage } ∧
    u.rif.class1 = s.rif.class1 ++
      (if s.part = .operating ∧ s.rif.class1.length < 6 then [frame] else [])) ∧
  (∀ (s : State) (t : TagIx),
    let p := s.settings.clc;
    let u := s.clcGranted t;
    let room := s.rif.class1.length < 6;
    let frame : CmdFrame := { dest := p.heaterNode, items := [{ output := p.heaterOutput, value := 1 }] };
    let staged := s.clc.stageClaim ≠ none ∧ p.fanTag = some t;
    let heated := s.clc.heater = .claiming ∧ p.heaterTag = some t;
    let pumped := s.clc.pumpClaim = true ∧
      ((s.clc.duty = .a ∧ t = p.pumpATag) ∨ (s.clc.duty = .b ∧ t = p.pumpBTag));
    (∀ k, s.clc.stageClaim = some k → p.fanTag = some t →
      let v := (s.modClc fun c => { c with stageClaim := none }).changeStage k;
      u = { v with work := v.work ++ [.stageTest] }) ∧
    (¬staged → heated → u = { s with
      clc := { s.clc with
        heater := .on
        heldHeater := if s.part = .operating ∧ ¬room then some frame else s.clc.heldHeater }
      rif := { s.rif with
        class1 := s.rif.class1 ++ (if s.part = .operating ∧ room then [frame] else []) } }) ∧
    (¬staged → ¬heated → pumped → u = (s.modClc fun c => { c with pumpClaim := false }).stageCommand) ∧
    (¬staged → ¬heated → ¬pumped → u = s)) ∧
  (∀ (s : State) (flow : Nat),
    let p := s.settings.clc;
    let carries (t : TagIx) := (s.tag t).grant ≠ 0 ∧ 0 < (s.stage s.clc.actual).pump;
    let counts := flow < p.flowMin ∧
      ((s.clc.duty = .a ∧ carries p.pumpATag) ∨ (s.clc.duty = .b ∧ carries p.pumpBTag) ∨
        s.clc.duty = .changeover);
    let more := s.modClc fun c => { c with low := min 255 (c.low + 1) };
    (s.part ≠ .operating → s.judgeFlow flow = s) ∧
    (s.part = .operating → s.clc.low ≤ 255 →
      (¬counts → s.judgeFlow flow = s.modClc fun c => { c with low := 0 }) ∧
      (counts → min 255 (s.clc.low + 1) < p.lowWindows → s.judgeFlow flow = more) ∧
      (counts → p.lowWindows ≤ min 255 (s.clc.low + 1) → s.judgeFlow flow = more.changeoverDue)) ∧
    ∀ ch : Option ChanIx, (s.clc.duty = .a ∧ ch = p.aToB) ∨ (s.clc.duty = .b ∧ ch = p.bToA) →
      let u := s.changeoverDue;
      let free := ∃ c, ch = some c ∧ (s.chan c).state ≠ .masked;
      let zero := s.modClc fun c => { c with low := 0 };
      let pump := if s.clc.duty = .a then p.pumpATag else p.pumpBTag;
      let dropped (x : State) : State := if x.clc.pumpClaim = true
        then (x.modClc fun c => { c with pumpClaim := false }).withdraw .clc pump else x;
      let moved (x : State) (d : Duty) (f : ChangeFrom) : State :=
        ((dropped x).modClc fun c => { c with duty := d, changeFrom := f }).formCf;
      let failed (x : State) : State := (moved x .noFlow .none).raise 21 [];
      (ch = none → u = failed zero) ∧
      (∀ c, ch = some c → (s.chan c).state = .masked →
        u = failed (zero.raise 7 [(c : Int), Requester.cooling.number])) ∧
      (∀ c, ch = some c → (s.chan c).state ≠ .masked →
        u = (moved (zero.request c .cooling) .changeover (if s.clc.duty = .a then .a else .b)).raise 20
          [if s.clc.duty = .a then 1 else 2, match s.clc.flow with
            | some n => (n : Int)
            | none => Config.noFlowNumber]) ∧
      u.clc.low = 0 ∧ u.clc.pumpClaim = false ∧
      (free → u.clc.duty = .changeover ∧ u.clc.changeFrom = (if s.clc.duty = .a then .a else .b) ∧
        u.clc.cf = (s.stage u.clc.actual).capacity * 8192 / 16384 ∧
        ∀ c, ch = some c → (s.chan c).state = .idle → (u.chan c).state = .requested) ∧
      (¬free → u.clc.duty = .noFlow ∧ u.clc.changeFrom = .none ∧
        u.clc.cf = (s.stage u.clc.actual).capacity * p.noFlowFactor / 16384) ∧
      (s.clc.stageClaim = none → u.clc.actual = s.clc.actual)) ∧
  (∀ (s : State) (ch : Option ChanIx), s.clc.duty = .changeover →
    (s.clc.changeFrom = .a ∧ ch = s.settings.clc.aToB) ∨ (s.clc.changeFrom = .b ∧ ch = s.settings.clc.bToA) →
    let cleared := s.modClc fun c => { c with low := 0 };
    (ch = none → s.changeoverDue = cleared) ∧
    ∀ c, ch = some c → s.changeoverDue = cleared.request c .cooling ∧
      ((s.chan c).state ≠ .idle → (s.chan c).state ≠ .masked → s.changeoverDue = cleared)) ∧
  (∀ (s : State) (c : ChanIx) (e : RunEnd),
    let p := s.settings.clc;
    let got := s.clcOutcome c e;
    let running := s.clc.duty = .changeover ∧
      ((s.clc.changeFrom = .a ∧ p.aToB = some c) ∨ (s.clc.changeFrom = .b ∧ p.bToA = some c));
    let moved (d : Duty) (u : State) : Prop :=
      (s.clc.duty = d → u = s) ∧
      (s.clc.duty ≠ d →
        let v : State := { s with clc := { s.clc with duty := d } };
        u.clc.duty = d ∧ u.clc.changeFrom = .none ∧ u.clc.low = 0 ∧
        (s.clc.duty = .a ∨ s.clc.duty = .b → u.clc.pumpClaim = false) ∧
        u.clc.cf = (u.stage u.clc.actual).capacity * (match d with
          | .a => 16384
          | .b => 16384
          | .changeover => 8192
          | .noFlow => p.noFlowFactor) / 16384 ∧
        (s.clc.pumpClaim = false →
          u.rif.class1 = s.rif.class1 ++
            (if s.part = .operating ∧ s.rif.class1.length < 6 then [v.stageFrame] else []) ∧
          u.clc.heldStage = if s.part = .operating ∧ 6 ≤ s.rif.class1.length then some v.stageFrame
            else s.clc.heldStage));
    (e = .terminal → p.aToB = some c → moved .b got) ∧
    (e = .terminal → p.aToB ≠ some c → p.bToA = some c → moved .a got) ∧
    (e = .terminal → p.aToB ≠ some c → p.bToA ≠ some c → got = s) ∧
    (e ≠ .terminal → running → ∃ u, moved .noFlow u ∧ got = u.raise 21 [(c : Int)]) ∧
    (e ≠ .terminal → ¬running → got = s)) ∧
  (∀ (s : State) (t : TagIx),
    let p := s.settings.clc;
    let a := s.clc.actual;
    let dropped := match s.clc.stageClaim with
      | some _ => (s.modClc fun c => { c with stageClaim := none, heldReported := false }).withdraw .clc t
      | none => s;
    let pump := (s.clc.duty = .a ∧ t = p.pumpATag) ∨ (s.clc.duty = .b ∧ t = p.pumpBTag);
    (p.fanTag = some t →
      (∀ k : StageIx, k ≤ a → (s.stage k).amount = 0 → (∀ j : StageIx, k < j → j ≤ a → (s.stage j).amount ≠ 0) →
        s.clcShed t = (dropped.changeStage k).stageTest) ∧
      ((∀ j : StageIx, j ≤ a → (s.stage j).amount ≠ 0) → s.clcShed t = (dropped.changeStage 0).stageTest)) ∧
    (p.fanTag ≠ some t → p.heaterTag = some t →
      (s.clc.heater ≠ .claiming →
        s.clcShed t = (s.modClc fun c => { c with heater := .off }).heaterCommand false) ∧
      (s.clc.heater = .claiming →
        s.clcShed t = ((((s.modClc fun c => { c with heater := .off }).withdraw .clc t).modClc fun c =>
          { c with heater := .off }).heaterCommand false))) ∧
    (p.fanTag ≠ some t → p.heaterTag ≠ some t →
      (pump → s.part = .operating →
        s.clcShed t = (s.modClc fun c => { c with low := p.lowWindows }).changeoverDue) ∧
      (¬pump ∨ s.part ≠ .operating → s.clcShed t = s))) ∧
  ∀ (s : State) (v : Int) (r : Quality),
    let p := s.settings.clc;
    let took := s.heaterTestAt v r;
    let usable := r = .good ∨ r = .degraded;
    let atRest := s.cnv.state = .off ∨ s.cnv.state = .standby;
    let called := usable ∧ (p.humOn : Int) < v ∧ atRest;
    let ends := ¬usable ∨ v < p.humOff ∨ ¬atRest;
    (s.part ≠ .operating ∨ p.heaterTag = none → took = s) ∧
    (s.part = .operating → ∀ t, p.heaterTag = some t →
      let q := s.claimTag t p.heaterAmount .clc;
      (s.clc.heater = .off →
        (¬called → took = s) ∧
        (called →
          (q.2 = .granted →
            took = (q.1.modClc fun c => { c with heater := .on }).heaterCommand true) ∧
          (q.2 = .queued → took = q.1.modClc fun c => { c with heater := .claiming }) ∧
          (q.2 = .refused → took = s))) ∧
      (s.clc.heater = .claiming →
        (ends → took = (s.modClc fun c => { c with heater := .off }).withdraw .clc t) ∧
        (¬ends → took = s)) ∧
      (s.clc.heater = .on →
        (ends → took =
          ((s.heaterCommand false).freeTag t).modClc fun c => { c with heater := .off }) ∧
        (¬ends → took = s)))

/-- R24: the trip and the release condition by kind and the required ordering of the levels, under which the two are
never true together; a write whose levels break it is refused. R25 to R29: what an update does to an entry's counter
and trip state; R26: what a trip hands on; R32: the holds, and each target told when its hold switches; R138: CLC forms
its target anew at a switch, from the coolant signal as it stands, with its stage tests. R20, R25: every valid entry
that names the updated signal takes the update, and no other does. That the entries take it lowest index first, and
that a trip raises its event first, then requests its action and then brings the holds up to date, is the model's
order, and so are CNV, YAW and CLC as the order of the targets, in which R32 lists them: the rules give none (log entry
9). -/
def Obligations.LimitEntries : Prop :=
  (∀ (s : State) (sig : SigIx) (v : Int) (q : Quality) (l : List LimIx), l.Pairwise (· < ·) →
    (∀ i : LimIx, i ∈ l ↔ s.settings.limits[i].valid = true ∧ s.settings.limits[i].signal = sig) →
    s.limUpdate sig v q = l.foldl (fun x i => x.limitEntry sig v q i) s) ∧
  (∀ (c : LimitCfg) (v : Int),
    let trips := c.trips v = true;
    let releases := c.releases v = true;
    (c.kind = .above → (trips ↔ c.trip < v) ∧ (releases ↔ v ≤ c.release) ∧
      (c.ordered = true ↔ c.release ≤ c.trip) ∧ (c.release = c.trip → trips ∨ releases)) ∧
    (c.kind = .below → (trips ↔ v < c.trip) ∧ (releases ↔ c.release ≤ v) ∧
      (c.ordered = true ↔ c.trip ≤ c.release) ∧ (c.release = c.trip → trips ∨ releases)) ∧
    (c.kind = .outside → (trips ↔ c.trip < v ∨ v < c.lowTrip) ∧
      (releases ↔ c.lowRelease ≤ v ∧ v ≤ c.release) ∧
      (c.ordered = true ↔ c.lowTrip ≤ c.lowRelease ∧ c.lowRelease ≤ c.release ∧ c.release ≤ c.trip) ∧
      (c.release = c.trip → c.lowRelease = c.lowTrip → trips ∨ releases)) ∧
    (c.ordered = true → ¬(trips ∧ releases))) ∧
  (∀ (s : State) (src : Node) (i : LimIx) (x : LimitCfg), Ready s → x.valid = true → x.ordered = false →
    int16 x.trip → int16 x.release → int16 x.lowTrip → int16 x.lowRelease →
    1 ≤ x.persistence → x.persistence ≤ 255 → 32 ≤ x.code → x.code ≤ 127 →
    exec (.limitTableWrite src (wordNat (16 * i)) 13 x.words) s =
      .next (s.answered (writeAnswer src .limits (16 * i) .range))) ∧
  (∀ (s : State) (i : LimIx) (v : Int),
    let c := s.settings.limits[i];
    let r := s.limits[i];
    let n := if c.trips v then min 255 (r.counter + 1) else 0;
    let set (k : Nat) := s.modLimit i fun r => { r with counter := k };
    let took (q : Quality) := s.limitEntry c.signal v q i;
    c.valid = true → r.counter ≤ 255 →
      (∀ q, q = .good ∨ q = .degraded →
        (r.tripped = false → took q =
          if c.trips v = true ∧ c.persistence ≤ n then (set n).tripLimit i else set n) ∧
        (r.tripped = true → took q =
          if r.latch = false ∧ c.releases v = true then (set n).releaseLimit i else set n)) ∧
      took .lost = (match c.onLoss with
        | .hold => set 0
        | .trip => if r.tripped then set 0 else (set 0).tripLimit i
        | .release => if r.tripped = true ∧ r.latch = false then (set 0).releaseLimit i else set 0) ∧
      took .unused = set 0) ∧
  (∀ (s : State) (i : LimIx) (k : Code), s.settings.limits[i].code = k →
    let c := s.settings.limits[i];
    let u := (s.modLimit i fun r => { r with tripped := true, latch := c.latching }).raise k [(i : Int)];
    s.tripLimit i = (if s.part ≠ .operating then u
      else match c.action with
        | .converterBlock => u.tripCnv .limit i
        | .startChannel => u.request c.channel (.limit i)
        | .eventOnly => u
        | .yawStop => u
        | .coolingFull => u).updateHolds ∧
    s.releaseLimit i = (s.modLimit i fun r => { r with tripped := false, latch := false }).updateHolds) ∧
  ∀ s : State,
    let h := s.updateHolds.holds;
    let some' (p : LimitCfg → Prop) := ∃ i : LimIx, s.settings.limits[i].valid = true ∧
      s.limits[i].tripped = true ∧ p s.settings.limits[i];
    (h.converter = true ↔ some' fun c => c.action = .converterBlock ∧ c.latching = true) ∧
    (h.yaw = true ↔ s.part = .operating ∧ some' fun c => c.action = .yawStop) ∧
    (h.cooling = true ↔ s.part = .operating ∧ some' fun c => c.action = .coolingFull) ∧
    s.updateHolds.limits = s.limits ∧
    (let a : State := { s with holds := h };
     let b := if h.converter = s.holds.converter then a else a.modCnv fun c => { c with hold := h.converter };
     let c := if h.yaw = s.holds.yaw then b else b.tellLimit h.yaw;
     let d := c.modClc fun r => { r with fullHold := h.cooling };
     let temp := d.signals[d.settings.clc.coolant];
     s.updateHolds = if h.cooling = s.holds.cooling then c else d.formTarget temp.value temp.quality) ∧
    (h.converter ≠ s.holds.converter → s.updateHolds.cnv.hold = h.converter) ∧
    (h.yaw ≠ s.holds.yaw → s.updateHolds.yaw.inhibit.limit = h.yaw) ∧
    (h.cooling ≠ s.holds.cooling → s.updateHolds.clc.fullHold = h.cooling)

/-- R108: the active capacity is isqrt(Ith² − iq²): never beyond Ith, Ith itself without reactive current, 0 when that
is all of Ith, and the two together within the circle of radius Ith. With it R103 (the magnitude as the root of two
thirds of the sum of squares, saturated), R105 (the derating table between and at its breakpoints), R106 (the floor of
A × cf / 16384) and R107 (the reactive current of a dip, limited). -/
def Obligations.AllowanceArithmetic : Prop :=
  (∀ (s : State) (x : Readings), s.alw.ith ≤ 20480 →
    let u := (s.formCurrents x).alw;
    let cap := u.ipCap;
    u.ith = s.alw.ith ∧ u.ith * u.ith ≤ 419430400 ∧ u.iq ≤ u.ith ∧
    cap * cap ≤ u.ith * u.ith - u.iq * u.iq ∧ u.ith * u.ith - u.iq * u.iq < (cap + 1) * (cap + 1) ∧
    u.iq * u.iq + cap * cap ≤ u.ith * u.ith ∧ cap ≤ u.ith ∧
    (u.iq = 0 → cap = u.ith) ∧ (u.iq = u.ith → cap = 0) ∧
    (s.cnv.state = .rideThrough → s.alw.mf < s.settings.alw.deadBand →
      u.iq = min (s.settings.alw.gain * (s.settings.alw.deadBand - s.alw.mf) / 256)
        (min s.settings.alw.iqMax u.ith)) ∧
    (s.cnv.state ≠ .rideThrough ∨ s.settings.alw.deadBand ≤ s.alw.mf → u.iq = 0)) ∧
  (∀ va vb vc : Int, int16 va → int16 vb → int16 vc →
    let sum := va * va + vb * vb + vc * vc;
    let q := 2 * sum / 3;
    let m : Int := magnitude va vb vc;
    sum ≤ 3221225472 ∧ 0 ≤ m ∧ m ≤ 32767 ∧ m * m ≤ q ∧ (q < (m + 1) * (m + 1) ∨ m = 32767)) ∧
  (∀ c : AlwCfg, c.legal →
    (∀ t : Int, t ≤ c.temps[0] → c.derate t = c.levels[0]) ∧
    (∀ t : Int, c.temps[7] ≤ t → c.derate t = c.levels[7]) ∧
    ∀ (k : Fin 7) (t : Int), c.temps[k.castSucc] ≤ t → t < c.temps[k.succ] →
      let lo : Int := c.levels[k.castSucc];
      let hi : Int := c.levels[k.succ];
      (c.derate t : Int) = lo + (hi - lo) * (t - c.temps[k.castSucc]) / (c.temps[k.succ] - c.temps[k.castSucc]) ∧
      min lo hi ≤ c.derate t ∧ (c.derate t : Int) ≤ max lo hi ∧
      (t = c.temps[k.castSucc] → (c.derate t : Int) = lo)) ∧
  ∀ a cf : Nat, 16384 * cooled a cf ≤ a * cf ∧ a * cf < 16384 * (cooled a cf + 1) ∧
    (cf ≤ 16384 → cooled a cf ≤ a)

/-- R88 and R89: the transitions of a computation that is not blind by mf, and the ride-through curve with its lowest
exceeded point. That event 13 carries mf also where a dip returns in POST_DIP is log entry 58. R80 and R81: what a trip
records, places, aborts and requests, and what a further cause leaves. R109: the active limit by state and the post-dip
ramp, with event 14 at its end. R110: a computation that is not blind keeps iq and ip_limit as the last reference, and
in a running state it places a Reference Frame that carries them to the converter group. R87 and R102: a blind
computation counts, raises event 15 at the first one, trips with BLIND beyond the blind limit, advances the dip timer
and keeps the last active reference as the ride-through limit in RIDE_THROUGH, empties the history, leaves every other
field of the record, repeats the last reference in a running state and requests no mode. R91: the absent counter, the
mode a computation chooses, and R71 what its request does. R90: a LOST grid signal. R92: the active current request.
R98: the computation reads the other blocks as they stand when it is taken, and ends with the autostart test; R104 to
R106: the history and mf, Tmax, A and Ith, of which mf is published to GRID_MAGNITUDE and Ith to ALLOWANCE. Every trip
and further cause raises event 12. That ALA takes the mode request after the last part of the computation, and after
the trip at a LOST grid signal, is the model's reading (log entry 5), and so is that phase C is read as the update
carries it (log entry 43); the order of a trip's effects is log entry 9, and the numbers of causes and states in its
detail are log entry 8. R20: an update of the heartbeat signal is the heartbeat's, one of a grid signal is the grid's,
and no other moves CNV; that a signal which is both is the heartbeat first is log entry 9. -/
def Obligations.RideThrough : Prop :=
  (∀ (s : State) (mf : Nat),
    let p := s.settings.conv;
    let k := s.cnv.state;
    let enters := ((s.modCnv fun c => { c with dip := 0, state := .rideThrough }).hand .convChanged).raise 13
      [(mf : Int)];
    let dip := if s.cnv.dip < 65535 then s.cnv.dip + 1 else s.cnv.dip;
    let on := s.modCnv fun c => { c with dip := dip };
    let exceeded (j : Fin 4) := mf < p.levels[j] ∧ p.times[j] < dip;
    (k = .running ∨ k = .postDip →
      (mf < p.dipEntry → s.classify mf = enters) ∧ (p.dipEntry ≤ mf → s.classify mf = s)) ∧
    (k = .rideThrough →
      (p.dipExit ≤ mf → s.classify mf = (s.modCnv fun c => { c with state := .postDip }).hand .convChanged) ∧
      (mf < p.dipExit →
        ((∀ j, ¬exceeded j) → s.classify mf = on) ∧
        ∀ j, exceeded j → (∀ i, i < j → ¬exceeded i) → s.classify mf = on.tripCnv .curve j)) ∧
    (k ≠ .running → k ≠ .postDip → k ≠ .rideThrough → s.classify mf = s)) ∧
  (∀ (s : State) (cause : TripCause) (detail : Nat), s.part = .operating →
    [s.settings.conv.precharge, s.settings.conv.run, s.settings.conv.stop, s.settings.conv.trip].Nodup →
    let p := s.settings.conv;
    let t := s.tripCnv cause detail;
    let u := ((s.modCnv fun c => { c with
      state := .tripped, awaited := .none, breaker := false, cause := cause, detail := detail,
      time := s.rif.ringTime, further := 0, autostartPending := false }).hand .convChanged).abortAwaited s.cnv.awaited;
    let refused := (u.chan p.trip).state = .masked;
    (s.cnv.state ≠ .tripped →
      t.cnv = { s.cnv with
        state := .tripped, awaited := if refused then .none else .trip, breaker := false, cause := cause,
        detail := detail, time := s.rif.ringTime, further := if refused then 1 else 0,
        autostartPending := false } ∧
      Work.convChanged ∈ t.work ∧ BlockQueued t ∧
      (class0Shape s.rif.class0 = true → ∃ d, t.rif.class0.getLast? = some (.block d)) ∧
      ((s.chan p.trip).state = .idle → (t.chan p.trip).state = .requested) ∧
      (s.cnv.awaited = .precharge → (t.chan p.precharge).state = .masked) ∧
      (s.cnv.awaited = .run → (t.chan p.run).state = .masked) ∧
      (s.cnv.awaited = .stop → (t.chan p.stop).state = .masked) ∧
      t.ala.mode = s.ala.mode ∧
      let placed (x : State) : State := { x with rif := { x.rif with class0 := placeBlockIn p.group x.rif.class0 } };
      let told := (placed u).raise 12 [(cause.code : Int), (detail : Int), (s.cnv.state.code : Int)];
      (¬refused → t = (told.modCnv fun c => { c with awaited := .trip }).request p.trip .conversion) ∧
      (refused → t = ((placed (told.raise 7 [(p.trip : Int), Requester.conversion.number])).modCnv fun c =>
        { c with further := 1 }).raise 12 [(TripCause.channelRefused.code : Int), (p.trip : Int)])) ∧
    (s.cnv.state = .tripped →
      t.cnv = { s.cnv with further := if s.cnv.further < 255 then s.cnv.further + 1 else s.cnv.further } ∧
      t.seq = s.seq ∧ t.rif.class0 = placeBlockIn p.group s.rif.class0 ∧
      t = ({ s with
        rif := { s.rif with class0 := placeBlockIn p.group s.rif.class0 }
        cnv := { s.cnv with further := if s.cnv.further < 255 then s.cnv.further + 1 else s.cnv.further } } :
          State).raise 12 [(cause.code : Int), (detail : Int)])) ∧
  (∀ s : State,
    let p := s.settings.conv;
    let good (i : SigIx) : Prop := s.signals[i].quality = .good;
    let running (x : State) : Prop := x.cnv.state = .running ∨ x.cnv.state = .rideThrough ∨ x.cnv.state = .postDip;
    let referred (x : State) : State := if running x then { x with rif := { x.rif with
      class0 := placeRefIn (.ref p.group x.alw.lastIq x.alw.lastIp) x.rif.class0 } } else x;
    (s.part = .operating → ∀ v q, q = .good ∨ q = .degraded →
      let seen : State := s.modSignal p.gridC fun r => { r with value := v, quality := q };
      s.gridUpdate p.gridC v q = s.computation seen.readings) ∧
    (s.readings.notGood = [] ↔ good p.gridA ∧ good p.gridB ∧ good p.gridC) ∧
    (s.readings.a = s.signals[p.gridA].value ∧ s.readings.b = s.signals[p.gridB].value ∧
      s.readings.c = s.signals[p.gridC].value ∧ s.readings.cf = s.clc.cf ∧ s.readings.request = s.activeRequest ∧
      s.readings.notGood = [p.gridA, p.gridB, p.gridC].filter (fun i => decide (s.signals[i].quality ≠ .good)) ∧
      ∀ w : Int, w ∈ s.readings.temps ↔ ∃ i ∈ p.temps, w = s.signals[i].value ∧
        (s.signals[i].quality = .good ∨ s.signals[i].quality = .degraded)) ∧
    ∀ x : Readings,
    (x.notGood = [] →
      let c := s.classified x;
      let entered : Bool := decide (s.cnv.state = .rideThrough ∧ c.cnv.state = .postDip);
      let y := (((c.formAllowance x).formCurrents x).formLimit entered).keepReference;
      let m := (s.modCnv fun r => { r with blind := 0 }).formMagnitude x;
      c = (m.classify m.alw.mf).countAbsent m.alw.mf ∧
      y.alw.lastIq = y.alw.iq ∧ y.alw.lastIp = y.alw.ipLimit ∧ y.alw.lastBlind = false ∧ c.cnv.blind = 0 ∧
      s.computation x = ((referred y).autostartTest).setMode (c.chosenMode c.alw.mf)) ∧
    (x.notGood ≠ [] →
      let n := if s.cnv.blind < 65535 then s.cnv.blind + 1 else s.cnv.blind;
      let a := s.modCnv fun c => { c with blind := n };
      let named : List Int := x.notGood.map fun i => (i : Int);
      let b := if n = 1 then a.raise 15 named else a;
      let c := if running s ∧ p.blindLimit < n then b.tripCnv .blind 0 else b;
      let d := if c.cnv.state = .rideThrough then c.modCnv fun r =>
        { r with dip := if r.dip < 65535 then r.dip + 1 else r.dip } else c;
      let e : State := { d with alw := { s.alw with
        history := [], lastBlind := true
        rideLimit := if d.cnv.state = .rideThrough then s.alw.lastIp else s.alw.rideLimit } };
      s.computation x = (referred e).autostartTest ∧ (s.computation x).ala.mode = s.ala.mode ∧
      e.alw.lastIq = s.alw.lastIq ∧ e.alw.lastIp = s.alw.lastIp)) ∧
  (∀ (s : State) (x : Readings),
    let h := s.alw.history ++ [magnitude x.a x.b x.c];
    let kept := h.drop (h.length - s.settings.alw.length);
    let v := (s.formAllowance x).alw;
    let mf : Nat := kept.sum / kept.length;
    (s.formMagnitude x).alw = { s.alw with m := magnitude x.a x.b x.c, history := kept, mf := mf } ∧
    s.formMagnitude x = ({ s with alw := { s.alw with
      m := magnitude x.a x.b x.c, history := kept, mf := mf } } : State).publish .gridMagnitude (mf : Int) ∧
    s.formAllowance x = ({ s with alw := v } : State).publish .allowance (v.ith : Int) ∧
    v = { s.alw with tmax := v.tmax, a := v.a, cfUsed := x.cf, ith := v.a * x.cf / 16384 } ∧
    (x.temps = [] → v.tmax = none ∧ v.a = s.settings.alw.blind) ∧
    ∀ t ∈ x.temps, (∀ w ∈ x.temps, w ≤ t) → v.tmax = some t ∧ v.a = s.settings.alw.derate t) ∧
  (∀ (s : State) (mf : Nat),
    let p := s.settings.conv;
    let mode := s.chosenMode mf;
    let absent := p.absentPersistence ≤ s.cnv.absent;
    s.countAbsent mf = (s.modCnv fun c => { c with
      absent := if mf < p.absent then (if c.absent < 255 then c.absent + 1 else c.absent) else 0 }) ∧
    (absent → mode = .backup) ∧
    (¬absent → s.cnv.state = .rideThrough → mode = .sag) ∧
    (¬absent → s.cnv.state ≠ .rideThrough → p.dipExit ≤ mf → mode = .grid) ∧
    (¬absent → s.cnv.state ≠ .rideThrough → mf < p.dipExit → mode = s.ala.mode) ∧
    ∀ m : SupplyMode,
      let u : State := { s with ala := { s.ala with mode := m } };
      (m = s.ala.mode → s.setMode m = s) ∧
      (m ≠ s.ala.mode → s.setMode m = if u.budget < u.ala.sum then u.shedPass
        else if s.budget < u.budget then u.headTest else u)) ∧
  (∀ (s : State) (i : SigIx) (v : Int) (q : Quality),
    let p := s.settings.conv;
    let grid := i = p.gridA ∨ i = p.gridB ∨ i = p.gridC;
    let running := s.cnv.state = .running ∨ s.cnv.state = .rideThrough ∨ s.cnv.state = .postDip;
    s.cnvUpdate i v q = (if i = p.heartbeat then s.heartbeat q else s).gridUpdate i v q ∧
    (s.part = .operating → grid → s.gridUpdate i v .lost =
      (if running then s.tripCnv .blind 0 else s).setMode .backup) ∧
    (s.part = .operating → q ≠ .lost → i ≠ p.gridC ∨ q = .unused → s.gridUpdate i v q = s) ∧
    (s.part ≠ .operating ∨ ¬grid → s.gridUpdate i v q = s)) ∧
  (∀ s : State,
    let r := s.signals[s.settings.conv.setpoint];
    let v := if r.quality = .unused then 0 else r.value;
    let request := if s.cnv.autonomous = true then min v (s.settings.conv.autonomousCap : Int) else v;
    s.activeRequest = request ∧ ∀ x : Readings,
      let u := (s.formCurrents x).alw;
      (u.ipReq : Int) = max 0 (min (u.ipCap : Int) x.request) ∧
      s.formCurrents x = { s with alw := { s.alw with iq := u.iq, ipCap := u.ipCap, ipReq := u.ipReq } }) ∧
  ∀ (s : State) (entered : Bool),
    let u := s.formLimit entered;
    let k := s.cnv.state;
    (k = .running → u = { s with alw := { s.alw with ipLimit := s.alw.ipReq } }) ∧
    (k = .rideThrough → u = { s with alw := { s.alw with ipLimit := s.alw.ipReq, rideLimit := s.alw.ipReq } }) ∧
    (k = .off ∨ k = .charging ∨ k = .standby ∨ k = .stopping ∨ k = .tripped →
      u = { s with alw := { s.alw with ipLimit := 0 } }) ∧
    (k = .postDip →
      let ramp := min ((if entered then s.alw.rideLimit else s.alw.ramp) + s.settings.alw.ramp) 32767;
      u.alw = { s.alw with ramp := ramp, ipLimit := min s.alw.ipReq ramp } ∧
      (u.cnv.state = .running ↔ s.alw.ipReq ≤ ramp) ∧
      let v := s.modAlw fun r => { r with ramp := ramp, ipLimit := min s.alw.ipReq ramp };
      (ramp < s.alw.ipReq → u = v) ∧
      (s.alw.ipReq ≤ ramp →
        u = ((v.modCnv fun c => { c with state := .running }).hand .convChanged).raise 14 []))

/-! ### The allocator -/

/-- R67 to R70 and R72: how a claim is answered and what it changes; that the head test grants the queue's heads in
order and stops at a head that does not fit or whose tag is being shed; that an increase which joins a queue of others
at its head and fits is answered GRANTED is the model's reading (log entry 47), a grant takes the rank above every
other one (R65), and that an increased tag gives its old rank up first, the tags above it moving down, is the model's
reading too (log entry 57); the order in which a shed pass takes the grants, class 0 never, and its end; and what the
shed of one tag changes, whom it tells and how CNV and YAW act on it (R74, R94, R125). The number of the supply mode in
the details of events 10 and 11 is the model's choice (log entry 8). A requester other than the one whose claim made
the test acts on its grant before the next head is tested (log entry 2). That the owner of a shed tag acts before the
next tag is shed, and after the shed channel has been requested, is the model's choice: R72 asks no order of its steps
3 and 4 (log entries 5 and 9). R74: the end of a channel of owner ALLOCATOR, whatever its outcome, takes shed in
progress off every tag whose shed channel it is, and the head is tested. -/
def Obligations.ClaimsAndSheds : Prop :=
  (∀ (s : State) (t : TagIx) (n : Nat) (who : Claimant),
    let g := (s.tag t).grant;
    let p := s.claimTag t n who;
    let waits := ∃ q ∈ s.ala.queue, q.tag = t;
    let usable := s.settings.tags[t].valid = true ∧ ¬waits;
    (¬usable → p = (s, .refused)) ∧
    (usable → p.2 ≠ .refused ∧
      (g = 0 → n = 0 → p = (s, .granted)) ∧
      (g ≠ 0 → n = 0 → p = (s.freeTag t, .granted)) ∧
      (0 < n → n ≤ g → p = ((s.modTag t fun r => { r with grant := n }).headTest, .granted)) ∧
      (0 < g → g < n → s.ala.queue = [] → s.ala.sum - g + n ≤ s.budget →
        p.2 = .granted ∧ (p.1.tag t).grant = n ∧ (p.1.tag t).time = s.rif.ringTime ∧ p.1.ala.queue = []) ∧
      (0 < g → g < n → ¬(s.ala.queue = [] ∧ s.ala.sum - g + n ≤ s.budget) →
        p.1 = (s.enqueue { tag := t, amount := n, who := who, increase := true }).headTest (some t) ∧
        (p.2 = .queued ↔ ∃ q ∈ p.1.ala.queue, q.tag = t)) ∧
      (g = 0 → 0 < n →
        p.1 = (s.enqueue { tag := t, amount := n, who := who, increase := false }).headTest (some t) ∧
        (p.2 = .queued ↔ ∃ q ∈ p.1.ala.queue, q.tag = t) ∧
        (s.ala.queue = [] → (s.tag t).shedding = false → s.ala.sum + n ≤ s.budget →
          p.2 = .granted ∧ (p.1.tag t).grant = n ∧ (p.1.tag t).time = s.rif.ringTime ∧ p.1.ala.queue = []) ∧
        (s.ala.queue = [] → s.budget < s.ala.sum + n → p.2 = .queued ∧
          p.1.ala.queue = [{ tag := t, amount := n, who := who, increase := false }])))) ∧
  (∀ (s : State) (q : Claim),
    let cls (c : Claim) := s.settings.tags[c.tag].cls;
    ∃ a b, s.ala.queue = a ++ b ∧ (s.enqueue q).ala.queue = a ++ q :: b ∧ (∀ c ∈ a, cls c ≤ cls q) ∧
      ∀ c ∈ b.head?, cls q < cls c) ∧
  (∀ (s : State) (own : Option TagIx),
    let u := s.headTest own;
    (s.ala.queue = [] → u = s) ∧
    (∀ q rest, s.ala.queue = q :: rest →
      let fits := (s.tag q.tag).shedding = false ∧
        s.ala.sum - (if q.increase then (s.tag q.tag).grant else 0) + q.amount ≤ s.budget;
      let given : State := { s with
        ala := { s.ala.giveGrant q.tag q.amount s.rif.ringTime with queue := rest } };
      let told := if own = some q.tag then given else
        match q.who with
        | .chan c => if (s.chan c).state = .waiting .claim then given.completeWait c else given
        | .clc => given.clcGranted q.tag;
      (¬fits → u = s) ∧ (fits → u = told.headTest own ∧ told.ala = given.ala) ∧
      (given.tag q.tag).grant = q.amount ∧ (given.tag q.tag).time = s.rif.ringTime ∧
      (given.tag q.tag).rank = some (((List.finRange 16).filter fun t : TagIx =>
        decide (t ≠ q.tag ∧ (s.tag t).rank ≠ none)).length + 1) ∧
      ∀ t : TagIx, t ≠ q.tag → (given.tag t).grant = (s.tag t).grant ∧
        (given.tag t).rank = (s.tag t).rank.map fun j => match (s.tag q.tag).rank with
          | none => j
          | some k => if k < j then j - 1 else j) ∧
    (ClaimLaw s → ∃ l, s.ala.queue = l ++ u.ala.queue ∧
      (∀ q ∈ l, (u.tag q.tag).grant = q.amount ∧ (u.tag q.tag).time = s.rif.ringTime ∧
        (s.tag q.tag).shedding = false) ∧
      (∀ q rest, u.ala.queue = q :: rest → (s.tag q.tag).shedding = true ∨
        u.budget < u.ala.sum - (if q.increase then (u.tag q.tag).grant else 0) + q.amount) ∧
      ∀ t : TagIx, (∀ q ∈ l, q.tag ≠ t) → (u.tag t).grant = (s.tag t).grant)) ∧
  (∀ s : State,
    let u := s.shedPass;
    let cls (t : TagIx) := s.settings.tags[t].cls;
    (∀ t, s.nextShed = some t → (s.tag t).grant ≠ 0 ∧ cls t ≠ 0 ∧
      ∀ k, (s.tag k).grant ≠ 0 → cls k < cls t ∨
        (cls k = cls t ∧ (s.tag k).rank.getD 0 ≤ (s.tag t).rank.getD 0)) ∧
    (s.nextShed = none ↔ ∀ t, (s.tag t).grant ≠ 0 → cls t = 0) ∧
    (s.ala.sum ≤ s.budget → u = s.headTest) ∧
    (s.budget < s.ala.sum → s.nextShed = none →
      u = (s.raise 11 [s.ala.mode.code, s.budget, s.ala.sum]).headTest) ∧
    (∀ t, s.budget < s.ala.sum → s.nextShed = some t → u = (s.shedTag t).shedPass) ∧
    (u.ala.sum ≤ u.budget ∨ ∀ t, (u.tag t).grant ≠ 0 → cls t = 0)) ∧
  (∀ (s : State) (c : ChanIx), ∃ a : AlaRt,
    (∀ t : TagIx, a.tags[t] = { s.tag t with
      shedding := if s.settings.tags[t].shed = some c then false else (s.tag t).shedding }) ∧
    a = { s.ala with tags := a.tags } ∧ s.shedChannelEnd c = ({ s with ala := a } : State).headTest) ∧
  ∀ (s : State) (t : TagIx),
    let cfg := s.settings.tags[t];
    let a := s.ala.clearGrant t;
    let cleared := { s with ala := a }.raise 10
      [(t : Int), cfg.name, (cfg.cls : Int), (s.tag t).grant, s.ala.mode.code];
    let asked :=
      match cfg.shed with
      | none => cleared
      | some c =>
        if (s.chan c).state ≠ .masked ∧ s.settings.chans[c].owner = .allocator then
          (cleared.request c .allocator).modTag t fun r => { r with shedding := true }
        else cleared.request c .allocator;
    (∀ k, a.tags[k].grant = if k = t then 0 else s.ala.tags[k].grant) ∧ a.tags[t].rank = none ∧
    (∀ q ∈ a.queue, q.tag = t → q.increase = false) ∧
    s.shedTag t = (match cfg.owner with
      | .none => asked
      | .yaw => asked.yawShed t
      | .conversion => asked.cnvShed t
      | .cooling => asked.clcShed t
      | .allocator => asked) ∧
    (s.cnvShed t = if s.part = .operating ∧ s.settings.conv.shedTrips = true ∧ s.cnv.state ≠ .off ∧
      s.cnv.state ≠ .tripped then s.tripCnv .shed t else s) ∧
    (s.yawShed t).yaw.inhibit.shed = true ∧
    (s.settings.yaw.tag = t → s.yaw.state = .driving → (s.yawShed t).yaw.state ≠ .driving ∧
      (s.yawShed t).yaw.stopCause = .shed ∧ (s.yawShed t).yaw.faultPending = false)

/-! ### Events -/

/-- R155 to R158, R162 and R164: what a raise does to the event state, the log and the First-Out Store, and the
dispatch test that follows each occurrence; which code the test chooses, what the Notice built for it does, and when
the test ends. That event 31 is raised after the dispatch test of the occurrence that found the store full is the
model's order (log entry 9). -/
def Obligations.EventsRaised : Prop :=
  (∀ (s : State) (c : Code) (k : EventKind) (d : List Int),
    -- steps 1 to 6 of an occurrence
    let occurred (x : State) (c : Code) (k : EventKind) (d : List Int) : State :=
      let cfg := x.settings.events[c];
      let e := x.evu.events[c];
      let count := if e.count < 255 then e.count + 1 else e.count;
      let shows := cfg.snapshot.map fun i =>
        if x.signals[i].quality = .unused then 0 else x.signals[i].value;
      { x with evu := {
        events := x.evu.events.set c { e with
          count := count, time := x.rif.ringTime, detail := d, pending := e.pending || !e.inService,
          kind := if e.inService then e.kind else k, recurred := e.recurred || e.inService }
        nextSeq := if cfg.log then x.evu.nextSeq + 1 else x.evu.nextSeq
        log := if cfg.log then newest64 (x.evu.log ++ [{
            sequence := x.evu.nextSeq, time := x.rif.ringTime, code := c, kind := k, count := count,
            conv := x.cnv.state, yaw := x.yaw.state, detail := d, snapshot := shows }])
          else x.evu.log
        firstOut := x.evu.firstOut ++ (if cfg.firstOut = true ∧ c ≠ 31 ∧ x.evu.firstOut.length < 4 then
          [{ code := c, time := x.rif.ringTime, kind := k, detail := d, snapshot := shows }] else []) } };
    let cfg := s.settings.events[c];
    let u := s.raiseKind c k d;
    let v := (occurred s c k d).dispatchTest;
    (cfg.enabled = false → u = s) ∧
    (cfg.enabled = true → LogLaw s → ¬(cfg.firstOut = true ∧ c ≠ 31 ∧ 4 ≤ s.evu.firstOut.length) → u = v) ∧
    (cfg.enabled = true → LogLaw s → cfg.firstOut = true → c ≠ 31 → 4 ≤ s.evu.firstOut.length →
      u = if s.settings.events[(31 : Code)].enabled = true then
        (occurred v 31 .occurred [(c : Int)]).dispatchTest else v)) ∧
  ∀ s : State,
    let grp (c : Code) := s.settings.events[c].group;
    let free (c : Code) := s.evu.events[c].pending = true ∧ s.settings.events[c].notify = true ∧
      ∀ d : Code, s.evu.events[d].inService = true → grp c < grp d;
    (∀ c, s.chooseCode = some c ↔ free c ∧ ∀ d, free d → grp c < grp d ∨ (grp c = grp d ∧ c ≤ d)) ∧
    (∀ c, s.chooseCode = some c → s.rif.class2.length < 4 → s.rif.portOut.state = .up →
      let e := s.evu.events[c];
      let acked := s.settings.events[c].acknowledged;
      let v := s.buildNotice c;
      s.dispatchTest = v.dispatchTest ∧
      v.rif = { s.rif with class2 := s.rif.class2 ++ [{
        dest := s.settings.noticeDest, code := c, kind := e.kind, count := e.count, time := e.time,
        detail := e.detail, snapshot := s.snapshot c }] } ∧
      v.evu.events[c] = { e with
        pending := false, inService := e.inService || acked, recurred := e.recurred && !acked } ∧
      ∀ b : Code, b ≠ c → v.evu.events[b] = s.evu.events[b]) ∧
    (4 ≤ s.rif.class2.length ∨ s.rif.portOut.state ≠ .up ∨ s.chooseCode = none → s.dispatchTest = s) ∧
    (s.dispatchTest.rif.class2.length < 4 → s.rif.portOut.state = .up → s.dispatchTest.chooseCode = none)

/-! ### Yaw moves -/

/-- R122: a stop records its cause and its end and requests the stop channel; it is STOPPING, or FAULT when that
channel is MASKED; the stall timer stops; direction and purpose stay. R124: the stops of a move in DRIVING, at a window
update, at a heading update and at an addition to the inhibit set. R125: a notice that the grant of the yaw tag has
been freed stops a move in DRIVING with cause NO_GRANT, ending in FAULT, and has no effect in another state or for
another tag. R127: a LOST heading, by state; event 17 and the
abort are recorded in the state the stop leaves (R161). R128: the outcomes of the stop channel. That the rest timer
begins again at every stop that ends in HELD is log entry 36, the requester's number in event 7 is log entry 8, and
that the event of a stop precedes event 7 of its refused channel is log entry 9. -/
def Obligations.YawStops : Prop :=
  (∀ (s : State) (cause : StopCause) (fault : Bool),
    let c := s.settings.yaw.stop;
    let u := s.stopYaw cause fault;
    let y := { s.yaw with stopCause := cause, faultPending := fault };
    ((s.chan c).state = .masked →
      u = (s.modYaw fun _ => { y with
        state := .fault, faultCause := .stopRefused, stopConfirmed := false, awaited := .none }).raise 7
          [(c : Int), Requester.yaw.number]) ∧
    ((s.chan c).state ≠ .masked →
      u.yaw = { y with state := .stopping, awaited := .stop } ∧
      u = { s with yaw := u.yaw, seq := u.seq } ∧
      ((s.chan c).state = .idle → u.chan c = { s.chan c with
        state := .requested, terminal := false, fault := false, aborted := false }) ∧
      ((s.chan c).state ≠ .idle → u.seq = s.seq)) ∧
    u.yaw.direction = s.yaw.direction ∧ u.yaw.purpose = s.yaw.purpose ∧
    u.yawTick.yaw.stallTimer = s.yaw.stallTimer) ∧
  -- heading updates
  (∀ (s : State) (v : Int) (q : Quality), q = .good ∨ q = .degraded →
    let y := s.yaw.turn v;
    let u := (s.modYaw fun _ => y).publish .twist (y.twist / 100);
    let cleared (x : State) := x.modYaw fun y => { y with inhibit := { y.inhibit with headingLost := false } };
    let outward := ((y.direction = .cw ∧ 0 < y.twist) ∨ (y.direction = .ccw ∧ y.twist < 0)) ∧
      s.settings.yaw.hardLimit ≤ y.twist.natAbs;
    let unwound := y.purpose = .unwind ∧ y.twist.natAbs ≤ s.settings.yaw.unwindTarget;
    let got := s.headingUpdate v q;
    (y.state = .driving → outward → got = cleared (u.stopYaw .hardLimit false fun x => x.raise 19 [])) ∧
    (y.state = .driving → ¬outward → unwound → got = cleared (u.stopYaw .unwindDone false)) ∧
    (¬(y.state = .driving ∧ (outward ∨ unwound)) → got = cleared u)) ∧
  (∀ (s : State) (v : Int),
    let u := s.modYaw fun y => { y with lastHeading := none, inhibit := { y.inhibit with headingLost := true } };
    let c := s.settings.yaw.stop;
    let got := s.headingUpdate v .lost;
    (s.part ≠ .operating ∨ s.yaw.state = .held ∨ s.yaw.state = .stopping ∨ s.yaw.state = .fault → got = u) ∧
    (s.part = .operating → s.yaw.state = .driving → got = u.stopYaw .headingLost true fun x => x.raise 17 []) ∧
    (s.part = .operating → s.yaw.state = .releasing →
      let r := if s.yaw.direction = .ccw then s.settings.yaw.releaseCcw else s.settings.yaw.releaseCw;
      got = (((u.modYaw fun y => if (s.chan c).state = .masked then
          { y with stopCause := .headingLost, faultPending := true, state := .fault, faultCause := .stopRefused,
                   stopConfirmed := false, awaited := .none }
        else { y with stopCause := .headingLost, faultPending := true, state := .stopping, awaited := .stop }).raise
          17 []).abortChan r .owner).stopYaw .headingLost true) ∧
    s.headingUpdate v .unused = s.modYaw fun y => { y with lastHeading := none }) ∧
  -- window updates of a move and additions to the inhibit set
  (∀ (s : State) (v : Int) (q : Quality) (cause : Cause),
    let lost := s.modYaw fun y => { y with window := [] };
    let set (b : Bool) := s.modYaw fun y => { y with inhibit := { y.inhibit with limit := b } };
    let joined := s.modYaw fun y => y.append v;
    let u := joined.publishLong;
    s.windUpdate v .lost cause = (if s.yaw.state = .driving ∧ s.yaw.purpose = .track then
      lost.stopYaw .windLost false else lost) ∧
    (q = .good ∨ q = .degraded → s.yaw.state = .driving → ∀ m, joined.yaw.shortMean = some m →
      s.windUpdate v q .sample = if s.yaw.purpose = .track ∧ m.natAbs ≤ s.settings.yaw.eStop then
        u.stopYaw .trackDone false else u) ∧
    s.tellLimit true = (if s.yaw.state = .driving ∧ s.yaw.inhibit.limit = false then
      (set true).stopYaw .inhibit false else set true) ∧
    s.tellLimit false = set false) ∧
  -- the end of a stop
  ∀ (s : State) (c : ChanIx) (e : RunEnd),
    let got := s.yawOutcome c e;
    let mine := c = s.settings.yaw.stop;
    (s.yaw.state = .stopping → mine → e = .terminal → s.yaw.faultPending = false → got = s.modYaw fun y =>
      { y with state := .held, awaited := .none, restTimer := 0,
               inhibit := { y.inhibit with rest := y.inhibit.rest || decide (0 < s.settings.yaw.restTime) } }) ∧
    (s.yaw.state = .stopping → mine → e = .terminal → s.yaw.faultPending = true → ∃ f, got = (s.modYaw fun y =>
        { y with state := .fault, faultCause := f, awaited := .none, stopConfirmed := true }) ∧
      (s.yaw.stopCause = .stall → f = .stall) ∧ (s.yaw.stopCause = .headingLost → f = .headingLost) ∧
      (s.yaw.stopCause = .releaseFailed → f = .releaseFailed) ∧ (s.yaw.stopCause = .noGrant → f = .noGrant)) ∧
    (s.yaw.state = .stopping → mine → e ≠ .terminal → got = s.modYaw fun y =>
      { y with state := .fault, faultCause := .stopFailed, stopConfirmed := false, awaited := .none }) ∧
    (s.yaw.state = .fault → mine → e = .terminal → got = s.modYaw fun y => { y with stopConfirmed := true }) ∧
    (s.yaw.state = .fault → e ≠ .terminal → got = s) ∧
    (s.yaw.state ≠ .releasing → ¬mine → got = s) ∧
    (s.yaw.state = .held ∨ s.yaw.state = .driving → got = s) ∧
    ∀ t : TagIx,
      (s.yaw.state = .driving → t = s.settings.yaw.tag → s.yawReleased t = s.stopYaw .noGrant true) ∧
      (s.yaw.state ≠ .driving ∨ t ≠ s.settings.yaw.tag → s.yawReleased t = s)

/-- R117: the turn between two headings is the short way round, and the twist takes it with saturation. R121: a start
requests the release channel of its direction, with event 18 for an UNWIND, and is a FAULT when that is MASKED; the
numbers of the direction and of the requester in events 18 and 7 are the model's (log entry 8). R123: at the TERMINAL
of the release channel YAW enters DRIVING exactly when its tag holds a grant and is its own, nothing but ROLL inhibits
and the hard limit allows it; each check that fails names its stop, and its FAULT or ABORTED is a stop with
RELEASE_FAILED that ends in FAULT. R116: a wind direction sample joins the window of at most 64 values, the means are
formed over it and published, and YAW acts by its state. R119: how ROLL and SHED come and go. R120: the start decision.
That an update with cause DERIVED joins nothing to the window is the model's reading (log entry 25), and that a wind
direction outside the range of R115 joins it as it stands is log entry 56. R20: an updated signal is taken as the
heading, the wind direction and the roll that the parameters designate, each that it is, and no other signal moves
YAW; that one which is several of them at once is taken in this order is log entry 9. -/
def Obligations.YawMoves : Prop :=
  (∀ (s : State) (i : SigIx) (v : Int) (q : Quality) (cause : Cause),
    let p := s.settings.yaw;
    let a := if i = p.heading then s.headingUpdate v q else s;
    let b := if i = p.windDir then a.windUpdate v q cause else a;
    s.yawUpdate i v q cause = if i = p.roll then b.rollUpdate v q else b) ∧
  (∀ (last v : Int) (y : YawRt),
    let d := headingStep last v;
    -17999 ≤ d ∧ d ≤ 18000 ∧ 36000 ∣ d - (v - last) ∧
    (y.lastHeading = none → y.turn v = { y with lastHeading := some v }) ∧
    (y.lastHeading = some last → y.turn v = { y with
      lastHeading := some v, twist := max (-1000000) (min 1000000 (y.twist + d)) })) ∧
  (∀ (s : State) (p : Purpose) (d : Direction), d ≠ .none →
    let c := if d = .cw then s.settings.yaw.releaseCw else s.settings.yaw.releaseCcw;
    let u := s.startYaw p d;
    ((s.chan c).state = .masked →
      u.yaw = { s.yaw with
        state := .fault, faultCause := .releaseRefused, stopConfirmed := false, awaited := .none,
        hardBlocked := false } ∧ u.seq = s.seq ∧
      u = (s.modYaw fun _ => u.yaw).raise 7 [(c : Int), Requester.yaw.number]) ∧
    ((s.chan c).state ≠ .masked →
      u.yaw = { s.yaw with
        state := .releasing, awaited := if d = .cw then .releaseCw else .releaseCcw, purpose := p,
        direction := d, faultPending := false, hardBlocked := false } ∧
      ((s.chan c).state = .idle → (u.chan c).state = .requested) ∧
      ((s.chan c).state ≠ .idle → u.seq = s.seq) ∧
      let v := (s.modYaw fun _ => u.yaw).request c .yaw;
      (p ≠ .unwind → u = v) ∧ (p = .unwind → u = v.raise 18 [s.yaw.twist, d.code]))) ∧
  (∀ s : State, s.yaw.state = .releasing →
    let c := (s.releaseOf s.yaw.direction).1;
    let t := s.settings.yaw.tag;
    let u := s.yawOutcome c .terminal;
    let held := (s.tag t).grant ≠ 0 ∧ s.settings.tags[t].owner = .yaw;
    let clear := { s.yaw.inhibit with roll := false } = noInhibit;
    let outward := ((s.yaw.direction = .cw ∧ 0 < s.yaw.twist) ∨ (s.yaw.direction = .ccw ∧ s.yaw.twist < 0)) ∧
      s.settings.yaw.hardLimit ≤ s.yaw.twist.natAbs;
    (¬held → u = s.stopYaw .noGrant (!s.yaw.inhibit.shed)) ∧
    (held → ¬clear → u = s.stopYaw .inhibit false) ∧
    (held → clear → outward → u = s.stopYaw .hardLimit false fun x => x.raise 19 []) ∧
    (held → clear → ¬outward → u = s.modYaw fun y =>
      { y with state := .driving, awaited := .none, stallBase := y.twist, stallTimer := 0 }) ∧
    (u.yaw.state = .driving ↔ held ∧ clear ∧ ¬outward) ∧
    (∀ e : RunEnd, e ≠ .terminal → s.yawOutcome c e = s.stopYaw .releaseFailed true) ∧
    ∀ (k : ChanIx) (e : RunEnd), k ≠ c → s.yawOutcome k e = s) ∧
  -- window updates
  (∀ (s : State) (v : Int) (q : Quality) (cause : Cause), s.yaw.window.length ≤ 64 →
    let w := s.yaw.window ++ [v];
    let kept := w.drop (w.length - 64);
    let newest := w.drop (w.length - 8);
    let a := s.modYaw fun y => { y with window := kept };
    let u := a.publish .yawErrorLong (kept.sum / (kept.length : Int));
    a.yaw.longMean = some (kept.sum / (kept.length : Int)) ∧
    a.yaw.shortMean = some (newest.sum / (newest.length : Int)) ∧
    (q = .good ∨ q = .degraded →
      (s.yaw.state = .held → s.windUpdate v q .sample = u.liftShed.startDecision) ∧
      (s.yaw.state ≠ .held → s.yaw.state ≠ .driving → s.windUpdate v q .sample = u) ∧
      (cause ≠ .sample → s.windUpdate v q cause = s)) ∧
    s.windUpdate v .unused cause = s) ∧
  (∀ (s : State) (v : Int) (q : Quality),
    let room := s.ala.sum + s.settings.yaw.amount ≤ s.budget;
    let roll (b : Bool) := s.modYaw fun y => { y with inhibit := { y.inhibit with roll := b } };
    s.liftShed = (if s.yaw.inhibit.shed = true ∧ room then
      s.modYaw fun y => { y with inhibit := { y.inhibit with shed := false } } else s) ∧
    (q = .good ∨ q = .degraded → s.rollUpdate v q = roll (decide ((s.settings.yaw.rollLimit : Int) < v))) ∧
    s.rollUpdate v .lost = roll true ∧ s.rollUpdate v .unused = roll false) ∧
  ∀ s : State,
    let p := s.settings.yaw;
    let y := s.yaw;
    let w := s.signals[p.windSpeed];
    let usable := w.quality = .good ∨ w.quality = .degraded;
    let storm := ¬usable ∨ (p.vStorm : Int) ≤ w.value;
    let passes := ¬usable ∨ (p.vMin : Int) ≤ w.value;
    let unwinds := p.unwindLevel ≤ y.twist.natAbs ∧ usable ∧ w.value < (p.vUnwind : Int) ∧ ¬storm;
    let blocked (b : Bool) := s.modYaw fun y => { y with hardBlocked := b };
    let got := s.startDecision;
    (y.inhibit ≠ noInhibit ∨ y.window.length < 8 → got = blocked false) ∧
    (y.inhibit = noInhibit → 8 ≤ y.window.length →
      (unwinds → got = s.startYaw .unwind (if 0 < y.twist then .ccw else .cw)) ∧
      (¬unwinds → ∀ sm lm, y.shortMean = some sm → y.longMean = some lm →
        let short := (if storm then p.eShortStorm else p.eShort) ≤ sm.natAbs;
        let long := (if storm then p.eLongStorm else p.eLong) ≤ lm.natAbs ∧ passes;
        let m := if short then sm else lm;
        let d : Direction := if 0 < m then .cw else .ccw;
        let refused := ((d = .cw ∧ 0 < y.twist) ∨ (d = .ccw ∧ y.twist < 0)) ∧ p.hardLimit ≤ y.twist.natAbs;
        (¬short → ¬long → got = blocked false) ∧
        (short ∨ long → refused → got = blocked true) ∧
        (short ∨ long → ¬refused → got = s.startYaw .track d)))

end
end

