-- ==== Sys2Proof/Laws/State.lean ====
section
/-! SUPPORT. Laws/State.lean: what each update of the state does to each field, true by unfolding, so that
no later proof unfolds a record update. -/

namespace Sys2Proof.Machine

variable (s : State)

/-! ### modSignal -/

@[simp] theorem State.modSignal_addrStraps (i : SigIx) (f : SignalRt → SignalRt) :
    (s.modSignal i f).addrStraps = s.addrStraps := rfl
@[simp] theorem State.modSignal_bypass (i : SigIx) (f : SignalRt → SignalRt) :
    (s.modSignal i f).bypass = s.bypass := rfl
@[simp] theorem State.modSignal_part (i : SigIx) (f : SignalRt → SignalRt) :
    (s.modSignal i f).part = s.part := rfl
@[simp] theorem State.modSignal_image (i : SigIx) (f : SignalRt → SignalRt) :
    (s.modSignal i f).image = s.image := rfl
@[simp] theorem State.modSignal_capture (i : SigIx) (f : SignalRt → SignalRt) :
    (s.modSignal i f).capture = s.capture := rfl
@[simp] theorem State.modSignal_imageValid (i : SigIx) (f : SignalRt → SignalRt) :
    (s.modSignal i f).imageValid = s.imageValid := rfl
@[simp] theorem State.modSignal_ownAddress (i : SigIx) (f : SignalRt → SignalRt) :
    (s.modSignal i f).ownAddress = s.ownAddress := rfl
@[simp] theorem State.modSignal_lastReset (i : SigIx) (f : SignalRt → SignalRt) :
    (s.modSignal i f).lastReset = s.lastReset := rfl
@[simp] theorem State.modSignal_settings (i : SigIx) (f : SignalRt → SignalRt) :
    (s.modSignal i f).settings = s.settings := rfl
@[simp] theorem State.modSignal_rif (i : SigIx) (f : SignalRt → SignalRt) :
    (s.modSignal i f).rif = s.rif := rfl
@[simp] theorem State.modSignal_phases (i : SigIx) (f : SignalRt → SignalRt) :
    (s.modSignal i f).phases = s.phases := rfl
@[simp] theorem State.modSignal_sequences (i : SigIx) (f : SignalRt → SignalRt) :
    (s.modSignal i f).sequences = s.sequences := rfl
@[simp] theorem State.modSignal_signals (i : SigIx) (f : SignalRt → SignalRt) :
    (s.modSignal i f).signals = updAt s.signals i f := rfl
@[simp] theorem State.modSignal_limits (i : SigIx) (f : SignalRt → SignalRt) :
    (s.modSignal i f).limits = s.limits := rfl
@[simp] theorem State.modSignal_holds (i : SigIx) (f : SignalRt → SignalRt) :
    (s.modSignal i f).holds = s.holds := rfl
@[simp] theorem State.modSignal_seq (i : SigIx) (f : SignalRt → SignalRt) :
    (s.modSignal i f).seq = s.seq := rfl
@[simp] theorem State.modSignal_ala (i : SigIx) (f : SignalRt → SignalRt) :
    (s.modSignal i f).ala = s.ala := rfl
@[simp] theorem State.modSignal_cnv (i : SigIx) (f : SignalRt → SignalRt) :
    (s.modSignal i f).cnv = s.cnv := rfl
@[simp] theorem State.modSignal_alw (i : SigIx) (f : SignalRt → SignalRt) :
    (s.modSignal i f).alw = s.alw := rfl
@[simp] theorem State.modSignal_yaw (i : SigIx) (f : SignalRt → SignalRt) :
    (s.modSignal i f).yaw = s.yaw := rfl
@[simp] theorem State.modSignal_clc (i : SigIx) (f : SignalRt → SignalRt) :
    (s.modSignal i f).clc = s.clc := rfl
@[simp] theorem State.modSignal_evu (i : SigIx) (f : SignalRt → SignalRt) :
    (s.modSignal i f).evu = s.evu := rfl
@[simp] theorem State.modSignal_work (i : SigIx) (f : SignalRt → SignalRt) :
    (s.modSignal i f).work = s.work := rfl
@[simp] theorem State.modSignal_schedule (i : SigIx) (f : SignalRt → SignalRt) :
    (s.modSignal i f).schedule = s.schedule := rfl
@[simp] theorem State.modSignal_pending (i : SigIx) (f : SignalRt → SignalRt) :
    (s.modSignal i f).pending = s.pending := rfl

/-! ### modSlot -/

@[simp] theorem State.modSlot_addrStraps (i : SigIx) (k : SlotIx) (f : Contributor → Contributor) :
    (s.modSlot i k f).addrStraps = s.addrStraps := rfl
@[simp] theorem State.modSlot_bypass (i : SigIx) (k : SlotIx) (f : Contributor → Contributor) :
    (s.modSlot i k f).bypass = s.bypass := rfl
@[simp] theorem State.modSlot_part (i : SigIx) (k : SlotIx) (f : Contributor → Contributor) :
    (s.modSlot i k f).part = s.part := rfl
@[simp] theorem State.modSlot_image (i : SigIx) (k : SlotIx) (f : Contributor → Contributor) :
    (s.modSlot i k f).image = s.image := rfl
@[simp] theorem State.modSlot_capture (i : SigIx) (k : SlotIx) (f : Contributor → Contributor) :
    (s.modSlot i k f).capture = s.capture := rfl
@[simp] theorem State.modSlot_imageValid (i : SigIx) (k : SlotIx) (f : Contributor → Contributor) :
    (s.modSlot i k f).imageValid = s.imageValid := rfl
@[simp] theorem State.modSlot_ownAddress (i : SigIx) (k : SlotIx) (f : Contributor → Contributor) :
    (s.modSlot i k f).ownAddress = s.ownAddress := rfl
@[simp] theorem State.modSlot_lastReset (i : SigIx) (k : SlotIx) (f : Contributor → Contributor) :
    (s.modSlot i k f).lastReset = s.lastReset := rfl
@[simp] theorem State.modSlot_settings (i : SigIx) (k : SlotIx) (f : Contributor → Contributor) :
    (s.modSlot i k f).settings = s.settings := rfl
@[simp] theorem State.modSlot_rif (i : SigIx) (k : SlotIx) (f : Contributor → Contributor) :
    (s.modSlot i k f).rif = s.rif := rfl
@[simp] theorem State.modSlot_phases (i : SigIx) (k : SlotIx) (f : Contributor → Contributor) :
    (s.modSlot i k f).phases = s.phases := rfl
@[simp] theorem State.modSlot_sequences (i : SigIx) (k : SlotIx) (f : Contributor → Contributor) :
    (s.modSlot i k f).sequences = s.sequences := rfl
@[simp] theorem State.modSlot_limits (i : SigIx) (k : SlotIx) (f : Contributor → Contributor) :
    (s.modSlot i k f).limits = s.limits := rfl
@[simp] theorem State.modSlot_holds (i : SigIx) (k : SlotIx) (f : Contributor → Contributor) :
    (s.modSlot i k f).holds = s.holds := rfl
@[simp] theorem State.modSlot_seq (i : SigIx) (k : SlotIx) (f : Contributor → Contributor) :
    (s.modSlot i k f).seq = s.seq := rfl
@[simp] theorem State.modSlot_ala (i : SigIx) (k : SlotIx) (f : Contributor → Contributor) :
    (s.modSlot i k f).ala = s.ala := rfl
@[simp] theorem State.modSlot_cnv (i : SigIx) (k : SlotIx) (f : Contributor → Contributor) :
    (s.modSlot i k f).cnv = s.cnv := rfl
@[simp] theorem State.modSlot_alw (i : SigIx) (k : SlotIx) (f : Contributor → Contributor) :
    (s.modSlot i k f).alw = s.alw := rfl
@[simp] theorem State.modSlot_yaw (i : SigIx) (k : SlotIx) (f : Contributor → Contributor) :
    (s.modSlot i k f).yaw = s.yaw := rfl
@[simp] theorem State.modSlot_clc (i : SigIx) (k : SlotIx) (f : Contributor → Contributor) :
    (s.modSlot i k f).clc = s.clc := rfl
@[simp] theorem State.modSlot_evu (i : SigIx) (k : SlotIx) (f : Contributor → Contributor) :
    (s.modSlot i k f).evu = s.evu := rfl
@[simp] theorem State.modSlot_work (i : SigIx) (k : SlotIx) (f : Contributor → Contributor) :
    (s.modSlot i k f).work = s.work := rfl
@[simp] theorem State.modSlot_schedule (i : SigIx) (k : SlotIx) (f : Contributor → Contributor) :
    (s.modSlot i k f).schedule = s.schedule := rfl
@[simp] theorem State.modSlot_pending (i : SigIx) (k : SlotIx) (f : Contributor → Contributor) :
    (s.modSlot i k f).pending = s.pending := rfl

/-! ### modLimit -/

@[simp] theorem State.modLimit_addrStraps (i : LimIx) (f : LimitRt → LimitRt) :
    (s.modLimit i f).addrStraps = s.addrStraps := rfl
@[simp] theorem State.modLimit_bypass (i : LimIx) (f : LimitRt → LimitRt) :
    (s.modLimit i f).bypass = s.bypass := rfl
@[simp] theorem State.modLimit_part (i : LimIx) (f : LimitRt → LimitRt) :
    (s.modLimit i f).part = s.part := rfl
@[simp] theorem State.modLimit_image (i : LimIx) (f : LimitRt → LimitRt) :
    (s.modLimit i f).image = s.image := rfl
@[simp] theorem State.modLimit_capture (i : LimIx) (f : LimitRt → LimitRt) :
    (s.modLimit i f).capture = s.capture := rfl
@[simp] theorem State.modLimit_imageValid (i : LimIx) (f : LimitRt → LimitRt) :
    (s.modLimit i f).imageValid = s.imageValid := rfl
@[simp] theorem State.modLimit_ownAddress (i : LimIx) (f : LimitRt → LimitRt) :
    (s.modLimit i f).ownAddress = s.ownAddress := rfl
@[simp] theorem State.modLimit_lastReset (i : LimIx) (f : LimitRt → LimitRt) :
    (s.modLimit i f).lastReset = s.lastReset := rfl
@[simp] theorem State.modLimit_settings (i : LimIx) (f : LimitRt → LimitRt) :
    (s.modLimit i f).settings = s.settings := rfl
@[simp] theorem State.modLimit_rif (i : LimIx) (f : LimitRt → LimitRt) :
    (s.modLimit i f).rif = s.rif := rfl
@[simp] theorem State.modLimit_phases (i : LimIx) (f : LimitRt → LimitRt) :
    (s.modLimit i f).phases = s.phases := rfl
@[simp] theorem State.modLimit_sequences (i : LimIx) (f : LimitRt → LimitRt) :
    (s.modLimit i f).sequences = s.sequences := rfl
@[simp] theorem State.modLimit_signals (i : LimIx) (f : LimitRt → LimitRt) :
    (s.modLimit i f).signals = s.signals := rfl
@[simp] theorem State.modLimit_limits (i : LimIx) (f : LimitRt → LimitRt) :
    (s.modLimit i f).limits = updAt s.limits i f := rfl
@[simp] theorem State.modLimit_holds (i : LimIx) (f : LimitRt → LimitRt) :
    (s.modLimit i f).holds = s.holds := rfl
@[simp] theorem State.modLimit_seq (i : LimIx) (f : LimitRt → LimitRt) :
    (s.modLimit i f).seq = s.seq := rfl
@[simp] theorem State.modLimit_ala (i : LimIx) (f : LimitRt → LimitRt) :
    (s.modLimit i f).ala = s.ala := rfl
@[simp] theorem State.modLimit_cnv (i : LimIx) (f : LimitRt → LimitRt) :
    (s.modLimit i f).cnv = s.cnv := rfl
@[simp] theorem State.modLimit_alw (i : LimIx) (f : LimitRt → LimitRt) :
    (s.modLimit i f).alw = s.alw := rfl
@[simp] theorem State.modLimit_yaw (i : LimIx) (f : LimitRt → LimitRt) :
    (s.modLimit i f).yaw = s.yaw := rfl
@[simp] theorem State.modLimit_clc (i : LimIx) (f : LimitRt → LimitRt) :
    (s.modLimit i f).clc = s.clc := rfl
@[simp] theorem State.modLimit_evu (i : LimIx) (f : LimitRt → LimitRt) :
    (s.modLimit i f).evu = s.evu := rfl
@[simp] theorem State.modLimit_work (i : LimIx) (f : LimitRt → LimitRt) :
    (s.modLimit i f).work = s.work := rfl
@[simp] theorem State.modLimit_schedule (i : LimIx) (f : LimitRt → LimitRt) :
    (s.modLimit i f).schedule = s.schedule := rfl
@[simp] theorem State.modLimit_pending (i : LimIx) (f : LimitRt → LimitRt) :
    (s.modLimit i f).pending = s.pending := rfl

/-! ### modSeq -/

@[simp] theorem State.modSeq_addrStraps (f : SeqRt → SeqRt) :
    (s.modSeq f).addrStraps = s.addrStraps := rfl
@[simp] theorem State.modSeq_bypass (f : SeqRt → SeqRt) :
    (s.modSeq f).bypass = s.bypass := rfl
@[simp] theorem State.modSeq_part (f : SeqRt → SeqRt) :
    (s.modSeq f).part = s.part := rfl
@[simp] theorem State.modSeq_image (f : SeqRt → SeqRt) :
    (s.modSeq f).image = s.image := rfl
@[simp] theorem State.modSeq_capture (f : SeqRt → SeqRt) :
    (s.modSeq f).capture = s.capture := rfl
@[simp] theorem State.modSeq_imageValid (f : SeqRt → SeqRt) :
    (s.modSeq f).imageValid = s.imageValid := rfl
@[simp] theorem State.modSeq_ownAddress (f : SeqRt → SeqRt) :
    (s.modSeq f).ownAddress = s.ownAddress := rfl
@[simp] theorem State.modSeq_lastReset (f : SeqRt → SeqRt) :
    (s.modSeq f).lastReset = s.lastReset := rfl
@[simp] theorem State.modSeq_settings (f : SeqRt → SeqRt) :
    (s.modSeq f).settings = s.settings := rfl
@[simp] theorem State.modSeq_rif (f : SeqRt → SeqRt) :
    (s.modSeq f).rif = s.rif := rfl
@[simp] theorem State.modSeq_phases (f : SeqRt → SeqRt) :
    (s.modSeq f).phases = s.phases := rfl
@[simp] theorem State.modSeq_sequences (f : SeqRt → SeqRt) :
    (s.modSeq f).sequences = s.sequences := rfl
@[simp] theorem State.modSeq_signals (f : SeqRt → SeqRt) :
    (s.modSeq f).signals = s.signals := rfl
@[simp] theorem State.modSeq_limits (f : SeqRt → SeqRt) :
    (s.modSeq f).limits = s.limits := rfl
@[simp] theorem State.modSeq_holds (f : SeqRt → SeqRt) :
    (s.modSeq f).holds = s.holds := rfl
@[simp] theorem State.modSeq_seq (f : SeqRt → SeqRt) :
    (s.modSeq f).seq = f s.seq := rfl
@[simp] theorem State.modSeq_ala (f : SeqRt → SeqRt) :
    (s.modSeq f).ala = s.ala := rfl
@[simp] theorem State.modSeq_cnv (f : SeqRt → SeqRt) :
    (s.modSeq f).cnv = s.cnv := rfl
@[simp] theorem State.modSeq_alw (f : SeqRt → SeqRt) :
    (s.modSeq f).alw = s.alw := rfl
@[simp] theorem State.modSeq_yaw (f : SeqRt → SeqRt) :
    (s.modSeq f).yaw = s.yaw := rfl
@[simp] theorem State.modSeq_clc (f : SeqRt → SeqRt) :
    (s.modSeq f).clc = s.clc := rfl
@[simp] theorem State.modSeq_evu (f : SeqRt → SeqRt) :
    (s.modSeq f).evu = s.evu := rfl
@[simp] theorem State.modSeq_work (f : SeqRt → SeqRt) :
    (s.modSeq f).work = s.work := rfl
@[simp] theorem State.modSeq_schedule (f : SeqRt → SeqRt) :
    (s.modSeq f).schedule = s.schedule := rfl
@[simp] theorem State.modSeq_pending (f : SeqRt → SeqRt) :
    (s.modSeq f).pending = s.pending := rfl

/-! ### modChan -/

@[simp] theorem State.modChan_addrStraps (c : ChanIx) (f : ChanRt → ChanRt) :
    (s.modChan c f).addrStraps = s.addrStraps := rfl
@[simp] theorem State.modChan_bypass (c : ChanIx) (f : ChanRt → ChanRt) :
    (s.modChan c f).bypass = s.bypass := rfl
@[simp] theorem State.modChan_part (c : ChanIx) (f : ChanRt → ChanRt) :
    (s.modChan c f).part = s.part := rfl
@[simp] theorem State.modChan_image (c : ChanIx) (f : ChanRt → ChanRt) :
    (s.modChan c f).image = s.image := rfl
@[simp] theorem State.modChan_capture (c : ChanIx) (f : ChanRt → ChanRt) :
    (s.modChan c f).capture = s.capture := rfl
@[simp] theorem State.modChan_imageValid (c : ChanIx) (f : ChanRt → ChanRt) :
    (s.modChan c f).imageValid = s.imageValid := rfl
@[simp] theorem State.modChan_ownAddress (c : ChanIx) (f : ChanRt → ChanRt) :
    (s.modChan c f).ownAddress = s.ownAddress := rfl
@[simp] theorem State.modChan_lastReset (c : ChanIx) (f : ChanRt → ChanRt) :
    (s.modChan c f).lastReset = s.lastReset := rfl
@[simp] theorem State.modChan_settings (c : ChanIx) (f : ChanRt → ChanRt) :
    (s.modChan c f).settings = s.settings := rfl
@[simp] theorem State.modChan_rif (c : ChanIx) (f : ChanRt → ChanRt) :
    (s.modChan c f).rif = s.rif := rfl
@[simp] theorem State.modChan_phases (c : ChanIx) (f : ChanRt → ChanRt) :
    (s.modChan c f).phases = s.phases := rfl
@[simp] theorem State.modChan_sequences (c : ChanIx) (f : ChanRt → ChanRt) :
    (s.modChan c f).sequences = s.sequences := rfl
@[simp] theorem State.modChan_signals (c : ChanIx) (f : ChanRt → ChanRt) :
    (s.modChan c f).signals = s.signals := rfl
@[simp] theorem State.modChan_limits (c : ChanIx) (f : ChanRt → ChanRt) :
    (s.modChan c f).limits = s.limits := rfl
@[simp] theorem State.modChan_holds (c : ChanIx) (f : ChanRt → ChanRt) :
    (s.modChan c f).holds = s.holds := rfl
@[simp] theorem State.modChan_seq (c : ChanIx) (f : ChanRt → ChanRt) :
    (s.modChan c f).seq = { s.seq with chans := updAt s.seq.chans c f } := rfl
@[simp] theorem State.modChan_ala (c : ChanIx) (f : ChanRt → ChanRt) :
    (s.modChan c f).ala = s.ala := rfl
@[simp] theorem State.modChan_cnv (c : ChanIx) (f : ChanRt → ChanRt) :
    (s.modChan c f).cnv = s.cnv := rfl
@[simp] theorem State.modChan_alw (c : ChanIx) (f : ChanRt → ChanRt) :
    (s.modChan c f).alw = s.alw := rfl
@[simp] theorem State.modChan_yaw (c : ChanIx) (f : ChanRt → ChanRt) :
    (s.modChan c f).yaw = s.yaw := rfl
@[simp] theorem State.modChan_clc (c : ChanIx) (f : ChanRt → ChanRt) :
    (s.modChan c f).clc = s.clc := rfl
@[simp] theorem State.modChan_evu (c : ChanIx) (f : ChanRt → ChanRt) :
    (s.modChan c f).evu = s.evu := rfl
@[simp] theorem State.modChan_work (c : ChanIx) (f : ChanRt → ChanRt) :
    (s.modChan c f).work = s.work := rfl
@[simp] theorem State.modChan_schedule (c : ChanIx) (f : ChanRt → ChanRt) :
    (s.modChan c f).schedule = s.schedule := rfl
@[simp] theorem State.modChan_pending (c : ChanIx) (f : ChanRt → ChanRt) :
    (s.modChan c f).pending = s.pending := rfl

/-! ### modAla -/

@[simp] theorem State.modAla_addrStraps (f : AlaRt → AlaRt) :
    (s.modAla f).addrStraps = s.addrStraps := rfl
@[simp] theorem State.modAla_bypass (f : AlaRt → AlaRt) :
    (s.modAla f).bypass = s.bypass := rfl
@[simp] theorem State.modAla_part (f : AlaRt → AlaRt) :
    (s.modAla f).part = s.part := rfl
@[simp] theorem State.modAla_image (f : AlaRt → AlaRt) :
    (s.modAla f).image = s.image := rfl
@[simp] theorem State.modAla_capture (f : AlaRt → AlaRt) :
    (s.modAla f).capture = s.capture := rfl
@[simp] theorem State.modAla_imageValid (f : AlaRt → AlaRt) :
    (s.modAla f).imageValid = s.imageValid := rfl
@[simp] theorem State.modAla_ownAddress (f : AlaRt → AlaRt) :
    (s.modAla f).ownAddress = s.ownAddress := rfl
@[simp] theorem State.modAla_lastReset (f : AlaRt → AlaRt) :
    (s.modAla f).lastReset = s.lastReset := rfl
@[simp] theorem State.modAla_settings (f : AlaRt → AlaRt) :
    (s.modAla f).settings = s.settings := rfl
@[simp] theorem State.modAla_rif (f : AlaRt → AlaRt) :
    (s.modAla f).rif = s.rif := rfl
@[simp] theorem State.modAla_phases (f : AlaRt → AlaRt) :
    (s.modAla f).phases = s.phases := rfl
@[simp] theorem State.modAla_sequences (f : AlaRt → AlaRt) :
    (s.modAla f).sequences = s.sequences := rfl
@[simp] theorem State.modAla_signals (f : AlaRt → AlaRt) :
    (s.modAla f).signals = s.signals := rfl
@[simp] theorem State.modAla_limits (f : AlaRt → AlaRt) :
    (s.modAla f).limits = s.limits := rfl
@[simp] theorem State.modAla_holds (f : AlaRt → AlaRt) :
    (s.modAla f).holds = s.holds := rfl
@[simp] theorem State.modAla_seq (f : AlaRt → AlaRt) :
    (s.modAla f).seq = s.seq := rfl
@[simp] theorem State.modAla_ala (f : AlaRt → AlaRt) :
    (s.modAla f).ala = f s.ala := rfl
@[simp] theorem State.modAla_cnv (f : AlaRt → AlaRt) :
    (s.modAla f).cnv = s.cnv := rfl
@[simp] theorem State.modAla_alw (f : AlaRt → AlaRt) :
    (s.modAla f).alw = s.alw := rfl
@[simp] theorem State.modAla_yaw (f : AlaRt → AlaRt) :
    (s.modAla f).yaw = s.yaw := rfl
@[simp] theorem State.modAla_clc (f : AlaRt → AlaRt) :
    (s.modAla f).clc = s.clc := rfl
@[simp] theorem State.modAla_evu (f : AlaRt → AlaRt) :
    (s.modAla f).evu = s.evu := rfl
@[simp] theorem State.modAla_work (f : AlaRt → AlaRt) :
    (s.modAla f).work = s.work := rfl
@[simp] theorem State.modAla_schedule (f : AlaRt → AlaRt) :
    (s.modAla f).schedule = s.schedule := rfl
@[simp] theorem State.modAla_pending (f : AlaRt → AlaRt) :
    (s.modAla f).pending = s.pending := rfl

/-! ### modTag -/

@[simp] theorem State.modTag_addrStraps (t : TagIx) (f : TagRt → TagRt) :
    (s.modTag t f).addrStraps = s.addrStraps := rfl
@[simp] theorem State.modTag_bypass (t : TagIx) (f : TagRt → TagRt) :
    (s.modTag t f).bypass = s.bypass := rfl
@[simp] theorem State.modTag_part (t : TagIx) (f : TagRt → TagRt) :
    (s.modTag t f).part = s.part := rfl
@[simp] theorem State.modTag_image (t : TagIx) (f : TagRt → TagRt) :
    (s.modTag t f).image = s.image := rfl
@[simp] theorem State.modTag_capture (t : TagIx) (f : TagRt → TagRt) :
    (s.modTag t f).capture = s.capture := rfl
@[simp] theorem State.modTag_imageValid (t : TagIx) (f : TagRt → TagRt) :
    (s.modTag t f).imageValid = s.imageValid := rfl
@[simp] theorem State.modTag_ownAddress (t : TagIx) (f : TagRt → TagRt) :
    (s.modTag t f).ownAddress = s.ownAddress := rfl
@[simp] theorem State.modTag_lastReset (t : TagIx) (f : TagRt → TagRt) :
    (s.modTag t f).lastReset = s.lastReset := rfl
@[simp] theorem State.modTag_settings (t : TagIx) (f : TagRt → TagRt) :
    (s.modTag t f).settings = s.settings := rfl
@[simp] theorem State.modTag_rif (t : TagIx) (f : TagRt → TagRt) :
    (s.modTag t f).rif = s.rif := rfl
@[simp] theorem State.modTag_phases (t : TagIx) (f : TagRt → TagRt) :
    (s.modTag t f).phases = s.phases := rfl
@[simp] theorem State.modTag_sequences (t : TagIx) (f : TagRt → TagRt) :
    (s.modTag t f).sequences = s.sequences := rfl
@[simp] theorem State.modTag_signals (t : TagIx) (f : TagRt → TagRt) :
    (s.modTag t f).signals = s.signals := rfl
@[simp] theorem State.modTag_limits (t : TagIx) (f : TagRt → TagRt) :
    (s.modTag t f).limits = s.limits := rfl
@[simp] theorem State.modTag_holds (t : TagIx) (f : TagRt → TagRt) :
    (s.modTag t f).holds = s.holds := rfl
@[simp] theorem State.modTag_seq (t : TagIx) (f : TagRt → TagRt) :
    (s.modTag t f).seq = s.seq := rfl
@[simp] theorem State.modTag_ala (t : TagIx) (f : TagRt → TagRt) :
    (s.modTag t f).ala = { s.ala with tags := updAt s.ala.tags t f } := rfl
@[simp] theorem State.modTag_cnv (t : TagIx) (f : TagRt → TagRt) :
    (s.modTag t f).cnv = s.cnv := rfl
@[simp] theorem State.modTag_alw (t : TagIx) (f : TagRt → TagRt) :
    (s.modTag t f).alw = s.alw := rfl
@[simp] theorem State.modTag_yaw (t : TagIx) (f : TagRt → TagRt) :
    (s.modTag t f).yaw = s.yaw := rfl
@[simp] theorem State.modTag_clc (t : TagIx) (f : TagRt → TagRt) :
    (s.modTag t f).clc = s.clc := rfl
@[simp] theorem State.modTag_evu (t : TagIx) (f : TagRt → TagRt) :
    (s.modTag t f).evu = s.evu := rfl
@[simp] theorem State.modTag_work (t : TagIx) (f : TagRt → TagRt) :
    (s.modTag t f).work = s.work := rfl
@[simp] theorem State.modTag_schedule (t : TagIx) (f : TagRt → TagRt) :
    (s.modTag t f).schedule = s.schedule := rfl
@[simp] theorem State.modTag_pending (t : TagIx) (f : TagRt → TagRt) :
    (s.modTag t f).pending = s.pending := rfl

/-! ### modCnv -/

@[simp] theorem State.modCnv_addrStraps (f : CnvRt → CnvRt) :
    (s.modCnv f).addrStraps = s.addrStraps := rfl
@[simp] theorem State.modCnv_bypass (f : CnvRt → CnvRt) :
    (s.modCnv f).bypass = s.bypass := rfl
@[simp] theorem State.modCnv_part (f : CnvRt → CnvRt) :
    (s.modCnv f).part = s.part := rfl
@[simp] theorem State.modCnv_image (f : CnvRt → CnvRt) :
    (s.modCnv f).image = s.image := rfl
@[simp] theorem State.modCnv_capture (f : CnvRt → CnvRt) :
    (s.modCnv f).capture = s.capture := rfl
@[simp] theorem State.modCnv_imageValid (f : CnvRt → CnvRt) :
    (s.modCnv f).imageValid = s.imageValid := rfl
@[simp] theorem State.modCnv_ownAddress (f : CnvRt → CnvRt) :
    (s.modCnv f).ownAddress = s.ownAddress := rfl
@[simp] theorem State.modCnv_lastReset (f : CnvRt → CnvRt) :
    (s.modCnv f).lastReset = s.lastReset := rfl
@[simp] theorem State.modCnv_settings (f : CnvRt → CnvRt) :
    (s.modCnv f).settings = s.settings := rfl
@[simp] theorem State.modCnv_rif (f : CnvRt → CnvRt) :
    (s.modCnv f).rif = s.rif := rfl
@[simp] theorem State.modCnv_phases (f : CnvRt → CnvRt) :
    (s.modCnv f).phases = s.phases := rfl
@[simp] theorem State.modCnv_sequences (f : CnvRt → CnvRt) :
    (s.modCnv f).sequences = s.sequences := rfl
@[simp] theorem State.modCnv_signals (f : CnvRt → CnvRt) :
    (s.modCnv f).signals = s.signals := rfl
@[simp] theorem State.modCnv_limits (f : CnvRt → CnvRt) :
    (s.modCnv f).limits = s.limits := rfl
@[simp] theorem State.modCnv_holds (f : CnvRt → CnvRt) :
    (s.modCnv f).holds = s.holds := rfl
@[simp] theorem State.modCnv_seq (f : CnvRt → CnvRt) :
    (s.modCnv f).seq = s.seq := rfl
@[simp] theorem State.modCnv_ala (f : CnvRt → CnvRt) :
    (s.modCnv f).ala = s.ala := rfl
@[simp] theorem State.modCnv_cnv (f : CnvRt → CnvRt) :
    (s.modCnv f).cnv = f s.cnv := rfl
@[simp] theorem State.modCnv_alw (f : CnvRt → CnvRt) :
    (s.modCnv f).alw = s.alw := rfl
@[simp] theorem State.modCnv_yaw (f : CnvRt → CnvRt) :
    (s.modCnv f).yaw = s.yaw := rfl
@[simp] theorem State.modCnv_clc (f : CnvRt → CnvRt) :
    (s.modCnv f).clc = s.clc := rfl
@[simp] theorem State.modCnv_evu (f : CnvRt → CnvRt) :
    (s.modCnv f).evu = s.evu := rfl
@[simp] theorem State.modCnv_work (f : CnvRt → CnvRt) :
    (s.modCnv f).work = s.work := rfl
@[simp] theorem State.modCnv_schedule (f : CnvRt → CnvRt) :
    (s.modCnv f).schedule = s.schedule := rfl
@[simp] theorem State.modCnv_pending (f : CnvRt → CnvRt) :
    (s.modCnv f).pending = s.pending := rfl

/-! ### modAlw -/

@[simp] theorem State.modAlw_addrStraps (f : AlwRt → AlwRt) :
    (s.modAlw f).addrStraps = s.addrStraps := rfl
@[simp] theorem State.modAlw_bypass (f : AlwRt → AlwRt) :
    (s.modAlw f).bypass = s.bypass := rfl
@[simp] theorem State.modAlw_part (f : AlwRt → AlwRt) :
    (s.modAlw f).part = s.part := rfl
@[simp] theorem State.modAlw_image (f : AlwRt → AlwRt) :
    (s.modAlw f).image = s.image := rfl
@[simp] theorem State.modAlw_capture (f : AlwRt → AlwRt) :
    (s.modAlw f).capture = s.capture := rfl
@[simp] theorem State.modAlw_imageValid (f : AlwRt → AlwRt) :
    (s.modAlw f).imageValid = s.imageValid := rfl
@[simp] theorem State.modAlw_ownAddress (f : AlwRt → AlwRt) :
    (s.modAlw f).ownAddress = s.ownAddress := rfl
@[simp] theorem State.modAlw_lastReset (f : AlwRt → AlwRt) :
    (s.modAlw f).lastReset = s.lastReset := rfl
@[simp] theorem State.modAlw_settings (f : AlwRt → AlwRt) :
    (s.modAlw f).settings = s.settings := rfl
@[simp] theorem State.modAlw_rif (f : AlwRt → AlwRt) :
    (s.modAlw f).rif = s.rif := rfl
@[simp] theorem State.modAlw_phases (f : AlwRt → AlwRt) :
    (s.modAlw f).phases = s.phases := rfl
@[simp] theorem State.modAlw_sequences (f : AlwRt → AlwRt) :
    (s.modAlw f).sequences = s.sequences := rfl
@[simp] theorem State.modAlw_signals (f : AlwRt → AlwRt) :
    (s.modAlw f).signals = s.signals := rfl
@[simp] theorem State.modAlw_limits (f : AlwRt → AlwRt) :
    (s.modAlw f).limits = s.limits := rfl
@[simp] theorem State.modAlw_holds (f : AlwRt → AlwRt) :
    (s.modAlw f).holds = s.holds := rfl
@[simp] theorem State.modAlw_seq (f : AlwRt → AlwRt) :
    (s.modAlw f).seq = s.seq := rfl
@[simp] theorem State.modAlw_ala (f : AlwRt → AlwRt) :
    (s.modAlw f).ala = s.ala := rfl
@[simp] theorem State.modAlw_cnv (f : AlwRt → AlwRt) :
    (s.modAlw f).cnv = s.cnv := rfl
@[simp] theorem State.modAlw_alw (f : AlwRt → AlwRt) :
    (s.modAlw f).alw = f s.alw := rfl
@[simp] theorem State.modAlw_yaw (f : AlwRt → AlwRt) :
    (s.modAlw f).yaw = s.yaw := rfl
@[simp] theorem State.modAlw_clc (f : AlwRt → AlwRt) :
    (s.modAlw f).clc = s.clc := rfl
@[simp] theorem State.modAlw_evu (f : AlwRt → AlwRt) :
    (s.modAlw f).evu = s.evu := rfl
@[simp] theorem State.modAlw_work (f : AlwRt → AlwRt) :
    (s.modAlw f).work = s.work := rfl
@[simp] theorem State.modAlw_schedule (f : AlwRt → AlwRt) :
    (s.modAlw f).schedule = s.schedule := rfl
@[simp] theorem State.modAlw_pending (f : AlwRt → AlwRt) :
    (s.modAlw f).pending = s.pending := rfl

/-! ### modYaw -/

@[simp] theorem State.modYaw_addrStraps (f : YawRt → YawRt) :
    (s.modYaw f).addrStraps = s.addrStraps := rfl
@[simp] theorem State.modYaw_bypass (f : YawRt → YawRt) :
    (s.modYaw f).bypass = s.bypass := rfl
@[simp] theorem State.modYaw_part (f : YawRt → YawRt) :
    (s.modYaw f).part = s.part := rfl
@[simp] theorem State.modYaw_image (f : YawRt → YawRt) :
    (s.modYaw f).image = s.image := rfl
@[simp] theorem State.modYaw_capture (f : YawRt → YawRt) :
    (s.modYaw f).capture = s.capture := rfl
@[simp] theorem State.modYaw_imageValid (f : YawRt → YawRt) :
    (s.modYaw f).imageValid = s.imageValid := rfl
@[simp] theorem State.modYaw_ownAddress (f : YawRt → YawRt) :
    (s.modYaw f).ownAddress = s.ownAddress := rfl
@[simp] theorem State.modYaw_lastReset (f : YawRt → YawRt) :
    (s.modYaw f).lastReset = s.lastReset := rfl
@[simp] theorem State.modYaw_settings (f : YawRt → YawRt) :
    (s.modYaw f).settings = s.settings := rfl
@[simp] theorem State.modYaw_rif (f : YawRt → YawRt) :
    (s.modYaw f).rif = s.rif := rfl
@[simp] theorem State.modYaw_phases (f : YawRt → YawRt) :
    (s.modYaw f).phases = s.phases := rfl
@[simp] theorem State.modYaw_sequences (f : YawRt → YawRt) :
    (s.modYaw f).sequences = s.sequences := rfl
@[simp] theorem State.modYaw_signals (f : YawRt → YawRt) :
    (s.modYaw f).signals = s.signals := rfl
@[simp] theorem State.modYaw_limits (f : YawRt → YawRt) :
    (s.modYaw f).limits = s.limits := rfl
@[simp] theorem State.modYaw_holds (f : YawRt → YawRt) :
    (s.modYaw f).holds = s.holds := rfl
@[simp] theorem State.modYaw_seq (f : YawRt → YawRt) :
    (s.modYaw f).seq = s.seq := rfl
@[simp] theorem State.modYaw_ala (f : YawRt → YawRt) :
    (s.modYaw f).ala = s.ala := rfl
@[simp] theorem State.modYaw_cnv (f : YawRt → YawRt) :
    (s.modYaw f).cnv = s.cnv := rfl
@[simp] theorem State.modYaw_alw (f : YawRt → YawRt) :
    (s.modYaw f).alw = s.alw := rfl
@[simp] theorem State.modYaw_yaw (f : YawRt → YawRt) :
    (s.modYaw f).yaw = f s.yaw := rfl
@[simp] theorem State.modYaw_clc (f : YawRt → YawRt) :
    (s.modYaw f).clc = s.clc := rfl
@[simp] theorem State.modYaw_evu (f : YawRt → YawRt) :
    (s.modYaw f).evu = s.evu := rfl
@[simp] theorem State.modYaw_work (f : YawRt → YawRt) :
    (s.modYaw f).work = s.work := rfl
@[simp] theorem State.modYaw_schedule (f : YawRt → YawRt) :
    (s.modYaw f).schedule = s.schedule := rfl
@[simp] theorem State.modYaw_pending (f : YawRt → YawRt) :
    (s.modYaw f).pending = s.pending := rfl

/-! ### modClc -/

@[simp] theorem State.modClc_addrStraps (f : ClcRt → ClcRt) :
    (s.modClc f).addrStraps = s.addrStraps := rfl
@[simp] theorem State.modClc_bypass (f : ClcRt → ClcRt) :
    (s.modClc f).bypass = s.bypass := rfl
@[simp] theorem State.modClc_part (f : ClcRt → ClcRt) :
    (s.modClc f).part = s.part := rfl
@[simp] theorem State.modClc_image (f : ClcRt → ClcRt) :
    (s.modClc f).image = s.image := rfl
@[simp] theorem State.modClc_capture (f : ClcRt → ClcRt) :
    (s.modClc f).capture = s.capture := rfl
@[simp] theorem State.modClc_imageValid (f : ClcRt → ClcRt) :
    (s.modClc f).imageValid = s.imageValid := rfl
@[simp] theorem State.modClc_ownAddress (f : ClcRt → ClcRt) :
    (s.modClc f).ownAddress = s.ownAddress := rfl
@[simp] theorem State.modClc_lastReset (f : ClcRt → ClcRt) :
    (s.modClc f).lastReset = s.lastReset := rfl
@[simp] theorem State.modClc_settings (f : ClcRt → ClcRt) :
    (s.modClc f).settings = s.settings := rfl
@[simp] theorem State.modClc_rif (f : ClcRt → ClcRt) :
    (s.modClc f).rif = s.rif := rfl
@[simp] theorem State.modClc_phases (f : ClcRt → ClcRt) :
    (s.modClc f).phases = s.phases := rfl
@[simp] theorem State.modClc_sequences (f : ClcRt → ClcRt) :
    (s.modClc f).sequences = s.sequences := rfl
@[simp] theorem State.modClc_signals (f : ClcRt → ClcRt) :
    (s.modClc f).signals = s.signals := rfl
@[simp] theorem State.modClc_limits (f : ClcRt → ClcRt) :
    (s.modClc f).limits = s.limits := rfl
@[simp] theorem State.modClc_holds (f : ClcRt → ClcRt) :
    (s.modClc f).holds = s.holds := rfl
@[simp] theorem State.modClc_seq (f : ClcRt → ClcRt) :
    (s.modClc f).seq = s.seq := rfl
@[simp] theorem State.modClc_ala (f : ClcRt → ClcRt) :
    (s.modClc f).ala = s.ala := rfl
@[simp] theorem State.modClc_cnv (f : ClcRt → ClcRt) :
    (s.modClc f).cnv = s.cnv := rfl
@[simp] theorem State.modClc_alw (f : ClcRt → ClcRt) :
    (s.modClc f).alw = s.alw := rfl
@[simp] theorem State.modClc_yaw (f : ClcRt → ClcRt) :
    (s.modClc f).yaw = s.yaw := rfl
@[simp] theorem State.modClc_clc (f : ClcRt → ClcRt) :
    (s.modClc f).clc = f s.clc := rfl
@[simp] theorem State.modClc_evu (f : ClcRt → ClcRt) :
    (s.modClc f).evu = s.evu := rfl
@[simp] theorem State.modClc_work (f : ClcRt → ClcRt) :
    (s.modClc f).work = s.work := rfl
@[simp] theorem State.modClc_schedule (f : ClcRt → ClcRt) :
    (s.modClc f).schedule = s.schedule := rfl
@[simp] theorem State.modClc_pending (f : ClcRt → ClcRt) :
    (s.modClc f).pending = s.pending := rfl

/-! ### modEvu -/

@[simp] theorem State.modEvu_addrStraps (f : EvuRt → EvuRt) :
    (s.modEvu f).addrStraps = s.addrStraps := rfl
@[simp] theorem State.modEvu_bypass (f : EvuRt → EvuRt) :
    (s.modEvu f).bypass = s.bypass := rfl
@[simp] theorem State.modEvu_part (f : EvuRt → EvuRt) :
    (s.modEvu f).part = s.part := rfl
@[simp] theorem State.modEvu_image (f : EvuRt → EvuRt) :
    (s.modEvu f).image = s.image := rfl
@[simp] theorem State.modEvu_capture (f : EvuRt → EvuRt) :
    (s.modEvu f).capture = s.capture := rfl
@[simp] theorem State.modEvu_imageValid (f : EvuRt → EvuRt) :
    (s.modEvu f).imageValid = s.imageValid := rfl
@[simp] theorem State.modEvu_ownAddress (f : EvuRt → EvuRt) :
    (s.modEvu f).ownAddress = s.ownAddress := rfl
@[simp] theorem State.modEvu_lastReset (f : EvuRt → EvuRt) :
    (s.modEvu f).lastReset = s.lastReset := rfl
@[simp] theorem State.modEvu_settings (f : EvuRt → EvuRt) :
    (s.modEvu f).settings = s.settings := rfl
@[simp] theorem State.modEvu_rif (f : EvuRt → EvuRt) :
    (s.modEvu f).rif = s.rif := rfl
@[simp] theorem State.modEvu_phases (f : EvuRt → EvuRt) :
    (s.modEvu f).phases = s.phases := rfl
@[simp] theorem State.modEvu_sequences (f : EvuRt → EvuRt) :
    (s.modEvu f).sequences = s.sequences := rfl
@[simp] theorem State.modEvu_signals (f : EvuRt → EvuRt) :
    (s.modEvu f).signals = s.signals := rfl
@[simp] theorem State.modEvu_limits (f : EvuRt → EvuRt) :
    (s.modEvu f).limits = s.limits := rfl
@[simp] theorem State.modEvu_holds (f : EvuRt → EvuRt) :
    (s.modEvu f).holds = s.holds := rfl
@[simp] theorem State.modEvu_seq (f : EvuRt → EvuRt) :
    (s.modEvu f).seq = s.seq := rfl
@[simp] theorem State.modEvu_ala (f : EvuRt → EvuRt) :
    (s.modEvu f).ala = s.ala := rfl
@[simp] theorem State.modEvu_cnv (f : EvuRt → EvuRt) :
    (s.modEvu f).cnv = s.cnv := rfl
@[simp] theorem State.modEvu_alw (f : EvuRt → EvuRt) :
    (s.modEvu f).alw = s.alw := rfl
@[simp] theorem State.modEvu_yaw (f : EvuRt → EvuRt) :
    (s.modEvu f).yaw = s.yaw := rfl
@[simp] theorem State.modEvu_clc (f : EvuRt → EvuRt) :
    (s.modEvu f).clc = s.clc := rfl
@[simp] theorem State.modEvu_evu (f : EvuRt → EvuRt) :
    (s.modEvu f).evu = f s.evu := rfl
@[simp] theorem State.modEvu_work (f : EvuRt → EvuRt) :
    (s.modEvu f).work = s.work := rfl
@[simp] theorem State.modEvu_schedule (f : EvuRt → EvuRt) :
    (s.modEvu f).schedule = s.schedule := rfl
@[simp] theorem State.modEvu_pending (f : EvuRt → EvuRt) :
    (s.modEvu f).pending = s.pending := rfl

/-! ### modEvent -/

@[simp] theorem State.modEvent_addrStraps (c : Code) (f : EventRt → EventRt) :
    (s.modEvent c f).addrStraps = s.addrStraps := rfl
@[simp] theorem State.modEvent_bypass (c : Code) (f : EventRt → EventRt) :
    (s.modEvent c f).bypass = s.bypass := rfl
@[simp] theorem State.modEvent_part (c : Code) (f : EventRt → EventRt) :
    (s.modEvent c f).part = s.part := rfl
@[simp] theorem State.modEvent_image (c : Code) (f : EventRt → EventRt) :
    (s.modEvent c f).image = s.image := rfl
@[simp] theorem State.modEvent_capture (c : Code) (f : EventRt → EventRt) :
    (s.modEvent c f).capture = s.capture := rfl
@[simp] theorem State.modEvent_imageValid (c : Code) (f : EventRt → EventRt) :
    (s.modEvent c f).imageValid = s.imageValid := rfl
@[simp] theorem State.modEvent_ownAddress (c : Code) (f : EventRt → EventRt) :
    (s.modEvent c f).ownAddress = s.ownAddress := rfl
@[simp] theorem State.modEvent_lastReset (c : Code) (f : EventRt → EventRt) :
    (s.modEvent c f).lastReset = s.lastReset := rfl
@[simp] theorem State.modEvent_settings (c : Code) (f : EventRt → EventRt) :
    (s.modEvent c f).settings = s.settings := rfl
@[simp] theorem State.modEvent_rif (c : Code) (f : EventRt → EventRt) :
    (s.modEvent c f).rif = s.rif := rfl
@[simp] theorem State.modEvent_phases (c : Code) (f : EventRt → EventRt) :
    (s.modEvent c f).phases = s.phases := rfl
@[simp] theorem State.modEvent_sequences (c : Code) (f : EventRt → EventRt) :
    (s.modEvent c f).sequences = s.sequences := rfl
@[simp] theorem State.modEvent_signals (c : Code) (f : EventRt → EventRt) :
    (s.modEvent c f).signals = s.signals := rfl
@[simp] theorem State.modEvent_limits (c : Code) (f : EventRt → EventRt) :
    (s.modEvent c f).limits = s.limits := rfl
@[simp] theorem State.modEvent_holds (c : Code) (f : EventRt → EventRt) :
    (s.modEvent c f).holds = s.holds := rfl
@[simp] theorem State.modEvent_seq (c : Code) (f : EventRt → EventRt) :
    (s.modEvent c f).seq = s.seq := rfl
@[simp] theorem State.modEvent_ala (c : Code) (f : EventRt → EventRt) :
    (s.modEvent c f).ala = s.ala := rfl
@[simp] theorem State.modEvent_cnv (c : Code) (f : EventRt → EventRt) :
    (s.modEvent c f).cnv = s.cnv := rfl
@[simp] theorem State.modEvent_alw (c : Code) (f : EventRt → EventRt) :
    (s.modEvent c f).alw = s.alw := rfl
@[simp] theorem State.modEvent_yaw (c : Code) (f : EventRt → EventRt) :
    (s.modEvent c f).yaw = s.yaw := rfl
@[simp] theorem State.modEvent_clc (c : Code) (f : EventRt → EventRt) :
    (s.modEvent c f).clc = s.clc := rfl
@[simp] theorem State.modEvent_evu (c : Code) (f : EventRt → EventRt) :
    (s.modEvent c f).evu = { s.evu with events := updAt s.evu.events c f } := rfl
@[simp] theorem State.modEvent_work (c : Code) (f : EventRt → EventRt) :
    (s.modEvent c f).work = s.work := rfl
@[simp] theorem State.modEvent_schedule (c : Code) (f : EventRt → EventRt) :
    (s.modEvent c f).schedule = s.schedule := rfl
@[simp] theorem State.modEvent_pending (c : Code) (f : EventRt → EventRt) :
    (s.modEvent c f).pending = s.pending := rfl

/-! ### modRif -/

@[simp] theorem State.modRif_addrStraps (f : RifRt → RifRt) :
    (s.modRif f).addrStraps = s.addrStraps := rfl
@[simp] theorem State.modRif_bypass (f : RifRt → RifRt) :
    (s.modRif f).bypass = s.bypass := rfl
@[simp] theorem State.modRif_part (f : RifRt → RifRt) :
    (s.modRif f).part = s.part := rfl
@[simp] theorem State.modRif_image (f : RifRt → RifRt) :
    (s.modRif f).image = s.image := rfl
@[simp] theorem State.modRif_capture (f : RifRt → RifRt) :
    (s.modRif f).capture = s.capture := rfl
@[simp] theorem State.modRif_imageValid (f : RifRt → RifRt) :
    (s.modRif f).imageValid = s.imageValid := rfl
@[simp] theorem State.modRif_ownAddress (f : RifRt → RifRt) :
    (s.modRif f).ownAddress = s.ownAddress := rfl
@[simp] theorem State.modRif_lastReset (f : RifRt → RifRt) :
    (s.modRif f).lastReset = s.lastReset := rfl
@[simp] theorem State.modRif_settings (f : RifRt → RifRt) :
    (s.modRif f).settings = s.settings := rfl
@[simp] theorem State.modRif_rif (f : RifRt → RifRt) :
    (s.modRif f).rif = f s.rif := rfl
@[simp] theorem State.modRif_phases (f : RifRt → RifRt) :
    (s.modRif f).phases = s.phases := rfl
@[simp] theorem State.modRif_sequences (f : RifRt → RifRt) :
    (s.modRif f).sequences = s.sequences := rfl
@[simp] theorem State.modRif_signals (f : RifRt → RifRt) :
    (s.modRif f).signals = s.signals := rfl
@[simp] theorem State.modRif_limits (f : RifRt → RifRt) :
    (s.modRif f).limits = s.limits := rfl
@[simp] theorem State.modRif_holds (f : RifRt → RifRt) :
    (s.modRif f).holds = s.holds := rfl
@[simp] theorem State.modRif_seq (f : RifRt → RifRt) :
    (s.modRif f).seq = s.seq := rfl
@[simp] theorem State.modRif_ala (f : RifRt → RifRt) :
    (s.modRif f).ala = s.ala := rfl
@[simp] theorem State.modRif_cnv (f : RifRt → RifRt) :
    (s.modRif f).cnv = s.cnv := rfl
@[simp] theorem State.modRif_alw (f : RifRt → RifRt) :
    (s.modRif f).alw = s.alw := rfl
@[simp] theorem State.modRif_yaw (f : RifRt → RifRt) :
    (s.modRif f).yaw = s.yaw := rfl
@[simp] theorem State.modRif_clc (f : RifRt → RifRt) :
    (s.modRif f).clc = s.clc := rfl
@[simp] theorem State.modRif_evu (f : RifRt → RifRt) :
    (s.modRif f).evu = s.evu := rfl
@[simp] theorem State.modRif_work (f : RifRt → RifRt) :
    (s.modRif f).work = s.work := rfl
@[simp] theorem State.modRif_schedule (f : RifRt → RifRt) :
    (s.modRif f).schedule = s.schedule := rfl
@[simp] theorem State.modRif_pending (f : RifRt → RifRt) :
    (s.modRif f).pending = s.pending := rfl

/-! ### hand -/

@[simp] theorem State.hand_addrStraps (w : Work) :
    (s.hand w).addrStraps = s.addrStraps := rfl
@[simp] theorem State.hand_bypass (w : Work) :
    (s.hand w).bypass = s.bypass := rfl
@[simp] theorem State.hand_part (w : Work) :
    (s.hand w).part = s.part := rfl
@[simp] theorem State.hand_image (w : Work) :
    (s.hand w).image = s.image := rfl
@[simp] theorem State.hand_capture (w : Work) :
    (s.hand w).capture = s.capture := rfl
@[simp] theorem State.hand_imageValid (w : Work) :
    (s.hand w).imageValid = s.imageValid := rfl
@[simp] theorem State.hand_ownAddress (w : Work) :
    (s.hand w).ownAddress = s.ownAddress := rfl
@[simp] theorem State.hand_lastReset (w : Work) :
    (s.hand w).lastReset = s.lastReset := rfl
@[simp] theorem State.hand_settings (w : Work) :
    (s.hand w).settings = s.settings := rfl
@[simp] theorem State.hand_rif (w : Work) :
    (s.hand w).rif = s.rif := rfl
@[simp] theorem State.hand_phases (w : Work) :
    (s.hand w).phases = s.phases := rfl
@[simp] theorem State.hand_sequences (w : Work) :
    (s.hand w).sequences = s.sequences := rfl
@[simp] theorem State.hand_signals (w : Work) :
    (s.hand w).signals = s.signals := rfl
@[simp] theorem State.hand_limits (w : Work) :
    (s.hand w).limits = s.limits := rfl
@[simp] theorem State.hand_holds (w : Work) :
    (s.hand w).holds = s.holds := rfl
@[simp] theorem State.hand_seq (w : Work) :
    (s.hand w).seq = s.seq := rfl
@[simp] theorem State.hand_ala (w : Work) :
    (s.hand w).ala = s.ala := rfl
@[simp] theorem State.hand_cnv (w : Work) :
    (s.hand w).cnv = s.cnv := rfl
@[simp] theorem State.hand_alw (w : Work) :
    (s.hand w).alw = s.alw := rfl
@[simp] theorem State.hand_yaw (w : Work) :
    (s.hand w).yaw = s.yaw := rfl
@[simp] theorem State.hand_clc (w : Work) :
    (s.hand w).clc = s.clc := rfl
@[simp] theorem State.hand_evu (w : Work) :
    (s.hand w).evu = s.evu := rfl
@[simp] theorem State.hand_work (w : Work) :
    (s.hand w).work = s.work ++ [w] := rfl
@[simp] theorem State.hand_schedule (w : Work) :
    (s.hand w).schedule = s.schedule := rfl
@[simp] theorem State.hand_pending (w : Work) :
    (s.hand w).pending = s.pending := rfl

/-! ### emitLine -/

@[simp] theorem State.emitLine_addrStraps (o : LineOut) :
    (s.emitLine o).addrStraps = s.addrStraps := rfl
@[simp] theorem State.emitLine_bypass (o : LineOut) :
    (s.emitLine o).bypass = s.bypass := rfl
@[simp] theorem State.emitLine_part (o : LineOut) :
    (s.emitLine o).part = s.part := rfl
@[simp] theorem State.emitLine_image (o : LineOut) :
    (s.emitLine o).image = s.image := rfl
@[simp] theorem State.emitLine_capture (o : LineOut) :
    (s.emitLine o).capture = s.capture := rfl
@[simp] theorem State.emitLine_imageValid (o : LineOut) :
    (s.emitLine o).imageValid = s.imageValid := rfl
@[simp] theorem State.emitLine_ownAddress (o : LineOut) :
    (s.emitLine o).ownAddress = s.ownAddress := rfl
@[simp] theorem State.emitLine_lastReset (o : LineOut) :
    (s.emitLine o).lastReset = s.lastReset := rfl
@[simp] theorem State.emitLine_settings (o : LineOut) :
    (s.emitLine o).settings = s.settings := rfl
@[simp] theorem State.emitLine_rif (o : LineOut) :
    (s.emitLine o).rif = { s.rif with line := s.rif.line ++ [o] } := rfl
@[simp] theorem State.emitLine_phases (o : LineOut) :
    (s.emitLine o).phases = s.phases := rfl
@[simp] theorem State.emitLine_sequences (o : LineOut) :
    (s.emitLine o).sequences = s.sequences := rfl
@[simp] theorem State.emitLine_signals (o : LineOut) :
    (s.emitLine o).signals = s.signals := rfl
@[simp] theorem State.emitLine_limits (o : LineOut) :
    (s.emitLine o).limits = s.limits := rfl
@[simp] theorem State.emitLine_holds (o : LineOut) :
    (s.emitLine o).holds = s.holds := rfl
@[simp] theorem State.emitLine_seq (o : LineOut) :
    (s.emitLine o).seq = s.seq := rfl
@[simp] theorem State.emitLine_ala (o : LineOut) :
    (s.emitLine o).ala = s.ala := rfl
@[simp] theorem State.emitLine_cnv (o : LineOut) :
    (s.emitLine o).cnv = s.cnv := rfl
@[simp] theorem State.emitLine_alw (o : LineOut) :
    (s.emitLine o).alw = s.alw := rfl
@[simp] theorem State.emitLine_yaw (o : LineOut) :
    (s.emitLine o).yaw = s.yaw := rfl
@[simp] theorem State.emitLine_clc (o : LineOut) :
    (s.emitLine o).clc = s.clc := rfl
@[simp] theorem State.emitLine_evu (o : LineOut) :
    (s.emitLine o).evu = s.evu := rfl
@[simp] theorem State.emitLine_work (o : LineOut) :
    (s.emitLine o).work = s.work := rfl
@[simp] theorem State.emitLine_schedule (o : LineOut) :
    (s.emitLine o).schedule = s.schedule := rfl
@[simp] theorem State.emitLine_pending (o : LineOut) :
    (s.emitLine o).pending = s.pending := rfl

/-! ### pushClass1 -/

@[simp] theorem State.pushClass1_addrStraps (f : CmdFrame) :
    (s.pushClass1 f).addrStraps = s.addrStraps := rfl
@[simp] theorem State.pushClass1_bypass (f : CmdFrame) :
    (s.pushClass1 f).bypass = s.bypass := rfl
@[simp] theorem State.pushClass1_part (f : CmdFrame) :
    (s.pushClass1 f).part = s.part := rfl
@[simp] theorem State.pushClass1_image (f : CmdFrame) :
    (s.pushClass1 f).image = s.image := rfl
@[simp] theorem State.pushClass1_capture (f : CmdFrame) :
    (s.pushClass1 f).capture = s.capture := rfl
@[simp] theorem State.pushClass1_imageValid (f : CmdFrame) :
    (s.pushClass1 f).imageValid = s.imageValid := rfl
@[simp] theorem State.pushClass1_ownAddress (f : CmdFrame) :
    (s.pushClass1 f).ownAddress = s.ownAddress := rfl
@[simp] theorem State.pushClass1_lastReset (f : CmdFrame) :
    (s.pushClass1 f).lastReset = s.lastReset := rfl
@[simp] theorem State.pushClass1_settings (f : CmdFrame) :
    (s.pushClass1 f).settings = s.settings := rfl
@[simp] theorem State.pushClass1_rif (f : CmdFrame) :
    (s.pushClass1 f).rif = { s.rif with class1 := s.rif.class1 ++ [f] } := rfl
@[simp] theorem State.pushClass1_phases (f : CmdFrame) :
    (s.pushClass1 f).phases = s.phases := rfl
@[simp] theorem State.pushClass1_sequences (f : CmdFrame) :
    (s.pushClass1 f).sequences = s.sequences := rfl
@[simp] theorem State.pushClass1_signals (f : CmdFrame) :
    (s.pushClass1 f).signals = s.signals := rfl
@[simp] theorem State.pushClass1_limits (f : CmdFrame) :
    (s.pushClass1 f).limits = s.limits := rfl
@[simp] theorem State.pushClass1_holds (f : CmdFrame) :
    (s.pushClass1 f).holds = s.holds := rfl
@[simp] theorem State.pushClass1_seq (f : CmdFrame) :
    (s.pushClass1 f).seq = s.seq := rfl
@[simp] theorem State.pushClass1_ala (f : CmdFrame) :
    (s.pushClass1 f).ala = s.ala := rfl
@[simp] theorem State.pushClass1_cnv (f : CmdFrame) :
    (s.pushClass1 f).cnv = s.cnv := rfl
@[simp] theorem State.pushClass1_alw (f : CmdFrame) :
    (s.pushClass1 f).alw = s.alw := rfl
@[simp] theorem State.pushClass1_yaw (f : CmdFrame) :
    (s.pushClass1 f).yaw = s.yaw := rfl
@[simp] theorem State.pushClass1_clc (f : CmdFrame) :
    (s.pushClass1 f).clc = s.clc := rfl
@[simp] theorem State.pushClass1_evu (f : CmdFrame) :
    (s.pushClass1 f).evu = s.evu := rfl
@[simp] theorem State.pushClass1_work (f : CmdFrame) :
    (s.pushClass1 f).work = s.work := rfl
@[simp] theorem State.pushClass1_schedule (f : CmdFrame) :
    (s.pushClass1 f).schedule = s.schedule := rfl
@[simp] theorem State.pushClass1_pending (f : CmdFrame) :
    (s.pushClass1 f).pending = s.pending := rfl

/-! ### pushAnswer -/

@[simp] theorem State.pushAnswer_addrStraps (a : MgtAnswer) :
    (s.pushAnswer a).addrStraps = s.addrStraps := rfl
@[simp] theorem State.pushAnswer_bypass (a : MgtAnswer) :
    (s.pushAnswer a).bypass = s.bypass := rfl
@[simp] theorem State.pushAnswer_part (a : MgtAnswer) :
    (s.pushAnswer a).part = s.part := rfl
@[simp] theorem State.pushAnswer_image (a : MgtAnswer) :
    (s.pushAnswer a).image = s.image := rfl
@[simp] theorem State.pushAnswer_capture (a : MgtAnswer) :
    (s.pushAnswer a).capture = s.capture := rfl
@[simp] theorem State.pushAnswer_imageValid (a : MgtAnswer) :
    (s.pushAnswer a).imageValid = s.imageValid := rfl
@[simp] theorem State.pushAnswer_ownAddress (a : MgtAnswer) :
    (s.pushAnswer a).ownAddress = s.ownAddress := rfl
@[simp] theorem State.pushAnswer_lastReset (a : MgtAnswer) :
    (s.pushAnswer a).lastReset = s.lastReset := rfl
@[simp] theorem State.pushAnswer_settings (a : MgtAnswer) :
    (s.pushAnswer a).settings = s.settings := rfl
@[simp] theorem State.pushAnswer_rif (a : MgtAnswer) :
    (s.pushAnswer a).rif = { s.rif with class3 := s.rif.class3 ++ [a] } := rfl
@[simp] theorem State.pushAnswer_phases (a : MgtAnswer) :
    (s.pushAnswer a).phases = s.phases := rfl
@[simp] theorem State.pushAnswer_sequences (a : MgtAnswer) :
    (s.pushAnswer a).sequences = s.sequences := rfl
@[simp] theorem State.pushAnswer_signals (a : MgtAnswer) :
    (s.pushAnswer a).signals = s.signals := rfl
@[simp] theorem State.pushAnswer_limits (a : MgtAnswer) :
    (s.pushAnswer a).limits = s.limits := rfl
@[simp] theorem State.pushAnswer_holds (a : MgtAnswer) :
    (s.pushAnswer a).holds = s.holds := rfl
@[simp] theorem State.pushAnswer_seq (a : MgtAnswer) :
    (s.pushAnswer a).seq = s.seq := rfl
@[simp] theorem State.pushAnswer_ala (a : MgtAnswer) :
    (s.pushAnswer a).ala = s.ala := rfl
@[simp] theorem State.pushAnswer_cnv (a : MgtAnswer) :
    (s.pushAnswer a).cnv = s.cnv := rfl
@[simp] theorem State.pushAnswer_alw (a : MgtAnswer) :
    (s.pushAnswer a).alw = s.alw := rfl
@[simp] theorem State.pushAnswer_yaw (a : MgtAnswer) :
    (s.pushAnswer a).yaw = s.yaw := rfl
@[simp] theorem State.pushAnswer_clc (a : MgtAnswer) :
    (s.pushAnswer a).clc = s.clc := rfl
@[simp] theorem State.pushAnswer_evu (a : MgtAnswer) :
    (s.pushAnswer a).evu = s.evu := rfl
@[simp] theorem State.pushAnswer_work (a : MgtAnswer) :
    (s.pushAnswer a).work = s.work := rfl
@[simp] theorem State.pushAnswer_schedule (a : MgtAnswer) :
    (s.pushAnswer a).schedule = s.schedule := rfl
@[simp] theorem State.pushAnswer_pending (a : MgtAnswer) :
    (s.pushAnswer a).pending = s.pending := rfl

/-! ### placeRef -/

@[simp] theorem State.placeRef_addrStraps (iq ip : Nat) :
    (s.placeRef iq ip).addrStraps = s.addrStraps := rfl
@[simp] theorem State.placeRef_bypass (iq ip : Nat) :
    (s.placeRef iq ip).bypass = s.bypass := rfl
@[simp] theorem State.placeRef_part (iq ip : Nat) :
    (s.placeRef iq ip).part = s.part := rfl
@[simp] theorem State.placeRef_image (iq ip : Nat) :
    (s.placeRef iq ip).image = s.image := rfl
@[simp] theorem State.placeRef_capture (iq ip : Nat) :
    (s.placeRef iq ip).capture = s.capture := rfl
@[simp] theorem State.placeRef_imageValid (iq ip : Nat) :
    (s.placeRef iq ip).imageValid = s.imageValid := rfl
@[simp] theorem State.placeRef_ownAddress (iq ip : Nat) :
    (s.placeRef iq ip).ownAddress = s.ownAddress := rfl
@[simp] theorem State.placeRef_lastReset (iq ip : Nat) :
    (s.placeRef iq ip).lastReset = s.lastReset := rfl
@[simp] theorem State.placeRef_settings (iq ip : Nat) :
    (s.placeRef iq ip).settings = s.settings := rfl
@[simp] theorem State.placeRef_phases (iq ip : Nat) :
    (s.placeRef iq ip).phases = s.phases := rfl
@[simp] theorem State.placeRef_sequences (iq ip : Nat) :
    (s.placeRef iq ip).sequences = s.sequences := rfl
@[simp] theorem State.placeRef_signals (iq ip : Nat) :
    (s.placeRef iq ip).signals = s.signals := rfl
@[simp] theorem State.placeRef_limits (iq ip : Nat) :
    (s.placeRef iq ip).limits = s.limits := rfl
@[simp] theorem State.placeRef_holds (iq ip : Nat) :
    (s.placeRef iq ip).holds = s.holds := rfl
@[simp] theorem State.placeRef_seq (iq ip : Nat) :
    (s.placeRef iq ip).seq = s.seq := rfl
@[simp] theorem State.placeRef_ala (iq ip : Nat) :
    (s.placeRef iq ip).ala = s.ala := rfl
@[simp] theorem State.placeRef_cnv (iq ip : Nat) :
    (s.placeRef iq ip).cnv = s.cnv := rfl
@[simp] theorem State.placeRef_alw (iq ip : Nat) :
    (s.placeRef iq ip).alw = s.alw := rfl
@[simp] theorem State.placeRef_yaw (iq ip : Nat) :
    (s.placeRef iq ip).yaw = s.yaw := rfl
@[simp] theorem State.placeRef_clc (iq ip : Nat) :
    (s.placeRef iq ip).clc = s.clc := rfl
@[simp] theorem State.placeRef_evu (iq ip : Nat) :
    (s.placeRef iq ip).evu = s.evu := rfl
@[simp] theorem State.placeRef_work (iq ip : Nat) :
    (s.placeRef iq ip).work = s.work := rfl
@[simp] theorem State.placeRef_schedule (iq ip : Nat) :
    (s.placeRef iq ip).schedule = s.schedule := rfl
@[simp] theorem State.placeRef_pending (iq ip : Nat) :
    (s.placeRef iq ip).pending = s.pending := rfl

/-! ### placeBlock -/

@[simp] theorem State.placeBlock_addrStraps :
    (s.placeBlock).addrStraps = s.addrStraps := rfl
@[simp] theorem State.placeBlock_bypass :
    (s.placeBlock).bypass = s.bypass := rfl
@[simp] theorem State.placeBlock_part :
    (s.placeBlock).part = s.part := rfl
@[simp] theorem State.placeBlock_image :
    (s.placeBlock).image = s.image := rfl
@[simp] theorem State.placeBlock_capture :
    (s.placeBlock).capture = s.capture := rfl
@[simp] theorem State.placeBlock_imageValid :
    (s.placeBlock).imageValid = s.imageValid := rfl
@[simp] theorem State.placeBlock_ownAddress :
    (s.placeBlock).ownAddress = s.ownAddress := rfl
@[simp] theorem State.placeBlock_lastReset :
    (s.placeBlock).lastReset = s.lastReset := rfl
@[simp] theorem State.placeBlock_settings :
    (s.placeBlock).settings = s.settings := rfl
@[simp] theorem State.placeBlock_phases :
    (s.placeBlock).phases = s.phases := rfl
@[simp] theorem State.placeBlock_sequences :
    (s.placeBlock).sequences = s.sequences := rfl
@[simp] theorem State.placeBlock_signals :
    (s.placeBlock).signals = s.signals := rfl
@[simp] theorem State.placeBlock_limits :
    (s.placeBlock).limits = s.limits := rfl
@[simp] theorem State.placeBlock_holds :
    (s.placeBlock).holds = s.holds := rfl
@[simp] theorem State.placeBlock_seq :
    (s.placeBlock).seq = s.seq := rfl
@[simp] theorem State.placeBlock_ala :
    (s.placeBlock).ala = s.ala := rfl
@[simp] theorem State.placeBlock_cnv :
    (s.placeBlock).cnv = s.cnv := rfl
@[simp] theorem State.placeBlock_alw :
    (s.placeBlock).alw = s.alw := rfl
@[simp] theorem State.placeBlock_yaw :
    (s.placeBlock).yaw = s.yaw := rfl
@[simp] theorem State.placeBlock_clc :
    (s.placeBlock).clc = s.clc := rfl
@[simp] theorem State.placeBlock_evu :
    (s.placeBlock).evu = s.evu := rfl
@[simp] theorem State.placeBlock_work :
    (s.placeBlock).work = s.work := rfl
@[simp] theorem State.placeBlock_schedule :
    (s.placeBlock).schedule = s.schedule := rfl
@[simp] theorem State.placeBlock_pending :
    (s.placeBlock).pending = s.pending := rfl

/-! ### putInhibit -/

@[simp] theorem State.putInhibit_addrStraps (r : Inhibit) (b : Bool) :
    (s.putInhibit r b).addrStraps = s.addrStraps := rfl
@[simp] theorem State.putInhibit_bypass (r : Inhibit) (b : Bool) :
    (s.putInhibit r b).bypass = s.bypass := rfl
@[simp] theorem State.putInhibit_part (r : Inhibit) (b : Bool) :
    (s.putInhibit r b).part = s.part := rfl
@[simp] theorem State.putInhibit_image (r : Inhibit) (b : Bool) :
    (s.putInhibit r b).image = s.image := rfl
@[simp] theorem State.putInhibit_capture (r : Inhibit) (b : Bool) :
    (s.putInhibit r b).capture = s.capture := rfl
@[simp] theorem State.putInhibit_imageValid (r : Inhibit) (b : Bool) :
    (s.putInhibit r b).imageValid = s.imageValid := rfl
@[simp] theorem State.putInhibit_ownAddress (r : Inhibit) (b : Bool) :
    (s.putInhibit r b).ownAddress = s.ownAddress := rfl
@[simp] theorem State.putInhibit_lastReset (r : Inhibit) (b : Bool) :
    (s.putInhibit r b).lastReset = s.lastReset := rfl
@[simp] theorem State.putInhibit_settings (r : Inhibit) (b : Bool) :
    (s.putInhibit r b).settings = s.settings := rfl
@[simp] theorem State.putInhibit_rif (r : Inhibit) (b : Bool) :
    (s.putInhibit r b).rif = s.rif := rfl
@[simp] theorem State.putInhibit_phases (r : Inhibit) (b : Bool) :
    (s.putInhibit r b).phases = s.phases := rfl
@[simp] theorem State.putInhibit_sequences (r : Inhibit) (b : Bool) :
    (s.putInhibit r b).sequences = s.sequences := rfl
@[simp] theorem State.putInhibit_signals (r : Inhibit) (b : Bool) :
    (s.putInhibit r b).signals = s.signals := rfl
@[simp] theorem State.putInhibit_limits (r : Inhibit) (b : Bool) :
    (s.putInhibit r b).limits = s.limits := rfl
@[simp] theorem State.putInhibit_holds (r : Inhibit) (b : Bool) :
    (s.putInhibit r b).holds = s.holds := rfl
@[simp] theorem State.putInhibit_seq (r : Inhibit) (b : Bool) :
    (s.putInhibit r b).seq = s.seq := rfl
@[simp] theorem State.putInhibit_ala (r : Inhibit) (b : Bool) :
    (s.putInhibit r b).ala = s.ala := rfl
@[simp] theorem State.putInhibit_cnv (r : Inhibit) (b : Bool) :
    (s.putInhibit r b).cnv = s.cnv := rfl
@[simp] theorem State.putInhibit_alw (r : Inhibit) (b : Bool) :
    (s.putInhibit r b).alw = s.alw := rfl
@[simp] theorem State.putInhibit_yaw (r : Inhibit) (b : Bool) :
    (s.putInhibit r b).yaw = { s.yaw with inhibit := s.yaw.inhibit.put r b } := rfl
@[simp] theorem State.putInhibit_clc (r : Inhibit) (b : Bool) :
    (s.putInhibit r b).clc = s.clc := rfl
@[simp] theorem State.putInhibit_evu (r : Inhibit) (b : Bool) :
    (s.putInhibit r b).evu = s.evu := rfl
@[simp] theorem State.putInhibit_work (r : Inhibit) (b : Bool) :
    (s.putInhibit r b).work = s.work := rfl
@[simp] theorem State.putInhibit_schedule (r : Inhibit) (b : Bool) :
    (s.putInhibit r b).schedule = s.schedule := rfl
@[simp] theorem State.putInhibit_pending (r : Inhibit) (b : Bool) :
    (s.putInhibit r b).pending = s.pending := rfl

/-! ### withSettings -/

@[simp] theorem State.withSettings_addrStraps (f : Settings → Settings) :
    (s.withSettings f).addrStraps = s.addrStraps := rfl
@[simp] theorem State.withSettings_bypass (f : Settings → Settings) :
    (s.withSettings f).bypass = s.bypass := rfl
@[simp] theorem State.withSettings_part (f : Settings → Settings) :
    (s.withSettings f).part = s.part := rfl
@[simp] theorem State.withSettings_image (f : Settings → Settings) :
    (s.withSettings f).image = s.image := rfl
@[simp] theorem State.withSettings_capture (f : Settings → Settings) :
    (s.withSettings f).capture = s.capture := rfl
@[simp] theorem State.withSettings_imageValid (f : Settings → Settings) :
    (s.withSettings f).imageValid = s.imageValid := rfl
@[simp] theorem State.withSettings_ownAddress (f : Settings → Settings) :
    (s.withSettings f).ownAddress = s.ownAddress := rfl
@[simp] theorem State.withSettings_lastReset (f : Settings → Settings) :
    (s.withSettings f).lastReset = s.lastReset := rfl
@[simp] theorem State.withSettings_settings (f : Settings → Settings) :
    (s.withSettings f).settings = f s.settings := rfl
@[simp] theorem State.withSettings_rif (f : Settings → Settings) :
    (s.withSettings f).rif = s.rif := rfl
@[simp] theorem State.withSettings_phases (f : Settings → Settings) :
    (s.withSettings f).phases = s.phases := rfl
@[simp] theorem State.withSettings_sequences (f : Settings → Settings) :
    (s.withSettings f).sequences = s.sequences := rfl
@[simp] theorem State.withSettings_signals (f : Settings → Settings) :
    (s.withSettings f).signals = s.signals := rfl
@[simp] theorem State.withSettings_limits (f : Settings → Settings) :
    (s.withSettings f).limits = s.limits := rfl
@[simp] theorem State.withSettings_holds (f : Settings → Settings) :
    (s.withSettings f).holds = s.holds := rfl
@[simp] theorem State.withSettings_seq (f : Settings → Settings) :
    (s.withSettings f).seq = s.seq := rfl
@[simp] theorem State.withSettings_ala (f : Settings → Settings) :
    (s.withSettings f).ala = s.ala := rfl
@[simp] theorem State.withSettings_cnv (f : Settings → Settings) :
    (s.withSettings f).cnv = s.cnv := rfl
@[simp] theorem State.withSettings_alw (f : Settings → Settings) :
    (s.withSettings f).alw = s.alw := rfl
@[simp] theorem State.withSettings_yaw (f : Settings → Settings) :
    (s.withSettings f).yaw = s.yaw := rfl
@[simp] theorem State.withSettings_clc (f : Settings → Settings) :
    (s.withSettings f).clc = s.clc := rfl
@[simp] theorem State.withSettings_evu (f : Settings → Settings) :
    (s.withSettings f).evu = s.evu := rfl
@[simp] theorem State.withSettings_work (f : Settings → Settings) :
    (s.withSettings f).work = s.work := rfl
@[simp] theorem State.withSettings_schedule (f : Settings → Settings) :
    (s.withSettings f).schedule = s.schedule := rfl
@[simp] theorem State.withSettings_pending (f : Settings → Settings) :
    (s.withSettings f).pending = s.pending := rfl

/-! ### modPort -/

@[simp] theorem State.modPort_addrStraps (p : Port) (f : PortRt → PortRt) :
    (s.modPort p f).addrStraps = s.addrStraps := rfl
@[simp] theorem State.modPort_bypass (p : Port) (f : PortRt → PortRt) :
    (s.modPort p f).bypass = s.bypass := rfl
@[simp] theorem State.modPort_part (p : Port) (f : PortRt → PortRt) :
    (s.modPort p f).part = s.part := rfl
@[simp] theorem State.modPort_image (p : Port) (f : PortRt → PortRt) :
    (s.modPort p f).image = s.image := rfl
@[simp] theorem State.modPort_capture (p : Port) (f : PortRt → PortRt) :
    (s.modPort p f).capture = s.capture := rfl
@[simp] theorem State.modPort_imageValid (p : Port) (f : PortRt → PortRt) :
    (s.modPort p f).imageValid = s.imageValid := rfl
@[simp] theorem State.modPort_ownAddress (p : Port) (f : PortRt → PortRt) :
    (s.modPort p f).ownAddress = s.ownAddress := rfl
@[simp] theorem State.modPort_lastReset (p : Port) (f : PortRt → PortRt) :
    (s.modPort p f).lastReset = s.lastReset := rfl
@[simp] theorem State.modPort_settings (p : Port) (f : PortRt → PortRt) :
    (s.modPort p f).settings = s.settings := rfl
@[simp] theorem State.modPort_phases (p : Port) (f : PortRt → PortRt) :
    (s.modPort p f).phases = s.phases := rfl
@[simp] theorem State.modPort_sequences (p : Port) (f : PortRt → PortRt) :
    (s.modPort p f).sequences = s.sequences := rfl
@[simp] theorem State.modPort_signals (p : Port) (f : PortRt → PortRt) :
    (s.modPort p f).signals = s.signals := rfl
@[simp] theorem State.modPort_limits (p : Port) (f : PortRt → PortRt) :
    (s.modPort p f).limits = s.limits := rfl
@[simp] theorem State.modPort_holds (p : Port) (f : PortRt → PortRt) :
    (s.modPort p f).holds = s.holds := rfl
@[simp] theorem State.modPort_seq (p : Port) (f : PortRt → PortRt) :
    (s.modPort p f).seq = s.seq := rfl
@[simp] theorem State.modPort_ala (p : Port) (f : PortRt → PortRt) :
    (s.modPort p f).ala = s.ala := rfl
@[simp] theorem State.modPort_cnv (p : Port) (f : PortRt → PortRt) :
    (s.modPort p f).cnv = s.cnv := rfl
@[simp] theorem State.modPort_alw (p : Port) (f : PortRt → PortRt) :
    (s.modPort p f).alw = s.alw := rfl
@[simp] theorem State.modPort_yaw (p : Port) (f : PortRt → PortRt) :
    (s.modPort p f).yaw = s.yaw := rfl
@[simp] theorem State.modPort_clc (p : Port) (f : PortRt → PortRt) :
    (s.modPort p f).clc = s.clc := rfl
@[simp] theorem State.modPort_evu (p : Port) (f : PortRt → PortRt) :
    (s.modPort p f).evu = s.evu := rfl
@[simp] theorem State.modPort_work (p : Port) (f : PortRt → PortRt) :
    (s.modPort p f).work = s.work := rfl
@[simp] theorem State.modPort_schedule (p : Port) (f : PortRt → PortRt) :
    (s.modPort p f).schedule = s.schedule := rfl
@[simp] theorem State.modPort_pending (p : Port) (f : PortRt → PortRt) :
    (s.modPort p f).pending = s.pending := rfl
@[simp] theorem State.modPort_rif_class0 (p : Port) (f : PortRt → PortRt) :
    (s.modPort p f).rif.class0 = s.rif.class0 := by
  cases p <;> rfl
@[simp] theorem State.modPort_rif_class1 (p : Port) (f : PortRt → PortRt) :
    (s.modPort p f).rif.class1 = s.rif.class1 := by
  cases p <;> rfl
@[simp] theorem State.modPort_rif_class2 (p : Port) (f : PortRt → PortRt) :
    (s.modPort p f).rif.class2 = s.rif.class2 := by
  cases p <;> rfl
@[simp] theorem State.modPort_rif_class3 (p : Port) (f : PortRt → PortRt) :
    (s.modPort p f).rif.class3 = s.rif.class3 := by
  cases p <;> rfl
@[simp] theorem State.modPort_rif_buffer (p : Port) (f : PortRt → PortRt) :
    (s.modPort p f).rif.buffer = s.rif.buffer := by
  cases p <;> rfl
@[simp] theorem State.modPort_rif_ringTime (p : Port) (f : PortRt → PortRt) :
    (s.modPort p f).rif.ringTime = s.rif.ringTime := by
  cases p <;> rfl
@[simp] theorem State.modPort_rif_cycle (p : Port) (f : PortRt → PortRt) :
    (s.modPort p f).rif.cycle = s.rif.cycle := by
  cases p <;> rfl
@[simp] theorem State.modPort_rif_line (p : Port) (f : PortRt → PortRt) :
    (s.modPort p f).rif.line = s.rif.line := by
  cases p <;> rfl
@[simp] theorem State.modPort_same (p : Port) (f : PortRt → PortRt) :
    (s.modPort p f).port p = f (s.port p) := by
  cases p <;> rfl

end Sys2Proof.Machine
end

