-- ==== Sys2Proof/Laws/Tables.lean ====
section
/-! SUPPORT. Laws/Tables.lean: one-entry updates of a table, the list of indices, and lists cut from the
front. -/

namespace Sys2Proof.Machine

variable {α : Type} {n : Nat}

theorem updAt_val (v : Vector α n) (i : Fin n) (f : α → α) (k : Nat) (h : k < n) :
    (updAt v i f)[k] = if (i : Nat) = k then f v[i] else v[k] := by
  simp [updAt, Vector.getElem_set]

theorem updAt_get (v : Vector α n) (i j : Fin n) (f : α → α) :
    (updAt v i f)[j] = if i = j then f v[i] else v[j] := by
  show (updAt v i f)[(j : Nat)] = _
  rw [updAt_val]
  simp [Fin.ext_iff]

theorem updAt_same (v : Vector α n) (i : Fin n) (f : α → α) : (updAt v i f)[i] = f v[i] := by
  rw [updAt_get, if_pos rfl]

@[simp] theorem updAt_same_val (v : Vector α n) (i : Fin n) (f : α → α) :
    (updAt v i f)[(i : Nat)] = f v[(i : Nat)] := updAt_same v i f

theorem updAt_other (v : Vector α n) {i j : Fin n} (f : α → α) (h : i ≠ j) :
    (updAt v i f)[j] = v[j] := by
  rw [updAt_get, if_neg h]

/-- What holds of every entry before and of the changed one holds of every entry after. -/
theorem updAt_all (P : Fin n → α → Prop) (v : Vector α n) (i : Fin n) (f : α → α)
    (h : ∀ j, P j v[j]) (hi : P i (f v[i])) (j : Fin n) : P j (updAt v i f)[j] := by
  rw [updAt_get]
  split
  · next e => exact e ▸ hi
  · exact h j

/-- A property carried along a fold. -/
theorem foldl_keeps {β σ : Type} (P : σ → Prop) (f : σ → β → σ) (h : ∀ s b, P s → P (f s b))
    (l : List β) (s : σ) (hs : P s) : P (l.foldl f s) := by
  induction l generalizing s with
  | nil => exact hs
  | cons b l ih => exact ih _ (h _ _ hs)

/-- A reflexive and transitive relation carried along a fold. -/
theorem foldl_rel {β σ : Type} (R : σ → σ → Prop) (hr : ∀ s, R s s)
    (ht : ∀ s t u, R s t → R t u → R s u) (f : σ → β → σ) (h : ∀ s b, R s (f s b)) (l : List β)
    (s : σ) : R s (l.foldl f s) := by
  induction l generalizing s with
  | nil => exact hr s
  | cons b l ih => exact ht _ _ _ (h s b) (ih _)

end Sys2Proof.Machine
end

