-- ==== Sys2Proof/Laws/Events.lean ====
section
/-! SUPPORT. Laws/Events.lean: all that EVU's operations can do. `Evt s t` says that `t` is `s` but for the
event state and class 2, and that the laws of chapter 9 are kept; `raise`, `raiseKind` and the dispatch
test are such changes. -/

namespace Sys2Proof.Machine

/-! ### Laws on the event state alone -/

def EvuRt.noBoth (e : EvuRt) : Prop :=
  ∀ c : Code, ¬(e.events[c].pending = true ∧ e.events[c].inService = true)

def EvuRt.oneService (e : EvuRt) (st : Settings) : Prop :=
  ∀ c d : Code, e.events[c].inService = true → e.events[d].inService = true →
    st.events[c].group = st.events[d].group → c = d

def EvuRt.logOk (e : EvuRt) : Prop :=
  e.log.length ≤ 64 ∧
  ∀ k, (h : k < e.log.length) → e.log[k].sequence = e.nextSeq - BitVec.ofNat 16 (e.log.length - k)

/-- What an event operation does to the event state and to class 2. -/
structure EvuStep (st : Settings) (up : Bool) (e : EvuRt) (q : List Notice) (e' : EvuRt)
    (q' : List Notice) : Prop where
  noBoth : e.noBoth → e'.noBoth
  oneService : e.oneService st → e'.oneService st
  logOk : e.logOk → e'.logOk
  grows : e.log.length ≤ 64 → LogGrows e e'
  kept : e.firstOut <+: e'.firstOut
  four : e.firstOut.length ≤ 4 → e'.firstOut.length ≤ 4
  quota : q.length ≤ 4 → q'.length ≤ 4
  down : up = false → q' = q ∧ ∀ c : Code, e'.events[c].inService = e.events[c].inService

theorem newest64_length (l : List FaultRecord) : (newest64 l).length ≤ 64 := by
  simp [newest64]; omega

theorem newest64_of_le {l : List FaultRecord} (h : l.length ≤ 64) : newest64 l = l := by
  rw [newest64, Nat.sub_eq_zero_of_le h, List.drop_zero]

theorem newest64_append (a b : List FaultRecord) : newest64 (newest64 a ++ b) = newest64 (a ++ b) := by
  simp only [newest64, List.length_append, List.length_drop]
  rw [show a.drop (a.length - 64) ++ b = (a ++ b).drop (a.length - 64) by
    rw [List.drop_append_of_le_length (by omega)]]
  rw [List.drop_drop]
  congr 1
  omega

namespace LogGrows

variable {e f g : EvuRt}

/-- Nothing has joined the log. -/
theorem same (h : e.log.length ≤ 64) (hl : f.log = e.log) (hs : f.nextSeq = e.nextSeq) : LogGrows e f :=
  ⟨[], by simp [hl, newest64_of_le h], by simp [hs], by simp⟩

theorem length (h : LogGrows e f) : f.log.length ≤ 64 := by
  obtain ⟨x, hx, _⟩ := h
  rw [hx]
  exact newest64_length _

theorem trans (a : LogGrows e f) (b : LogGrows f g) : LogGrows e g := by
  obtain ⟨x, hx, sx, kx⟩ := a
  obtain ⟨y, hy, sy, ky⟩ := b
  refine ⟨x ++ y, by rw [hy, hx, newest64_append, List.append_assoc], ?_, fun k h => ?_⟩
  · rw [sy, sx, List.length_append, BitVec.ofNat_add, BitVec.add_assoc]
  · by_cases hk : k < x.length
    · rw [List.getElem_append_left hk]
      exact kx k hk
    · rw [List.getElem_append_right (by omega), ky, sx, BitVec.add_assoc, ← BitVec.ofNat_add,
        Nat.add_sub_cancel' (Nat.le_of_not_lt hk)]

end LogGrows

namespace EvuStep

variable {st : Settings} {up : Bool} {e f g : EvuRt} {q r u : List Notice}

theorem refl : EvuStep st up e q e q where
  noBoth h := h
  oneService h := h
  logOk h := h
  grows h := LogGrows.same h rfl rfl
  kept := List.prefix_rfl
  four h := h
  quota h := h
  down _ := ⟨rfl, fun _ => rfl⟩

theorem trans (a : EvuStep st up e q f r) (b : EvuStep st up f r g u) : EvuStep st up e q g u where
  noBoth h := b.noBoth (a.noBoth h)
  oneService h := b.oneService (a.oneService h)
  logOk h := b.logOk (a.logOk h)
  grows h := (a.grows h).trans (b.grows (a.grows h).length)
  kept := a.kept.trans b.kept
  four h := b.four (a.four h)
  quota h := b.quota (a.quota h)
  down h := ⟨(b.down h).1.trans (a.down h).1, fun c => ((b.down h).2 c).trans ((a.down h).2 c)⟩

/-- A change of one code's event state. -/
theorem event (c : Code) (h : EventRt → EventRt)
    (hs : (h e.events[c]).inService = e.events[c].inService)
    (hb : (h e.events[c]).pending = true → (h e.events[c]).inService = true →
      e.events[c].pending = true) :
    EvuStep st up e q { e with events := updAt e.events c h } q where
  noBoth hn := by
    intro d
    refine updAt_all (fun d (x : EventRt) => ¬(x.pending = true ∧ x.inService = true)) _ _ _ hn ?_ d
    exact fun ⟨h1, h2⟩ => hn c ⟨hb h1 h2, by rw [← hs]; exact h2⟩
  oneService hn := by
    have hk : ∀ d : Code, (updAt e.events c h)[d].inService = e.events[d].inService := fun d =>
      updAt_all (fun d (x : EventRt) => x.inService = e.events[d].inService) _ _ _ (fun _ => rfl) hs d
    intro a b ha hb
    exact hn a b (by rw [← hk]; exact ha) (by rw [← hk]; exact hb)
  logOk h := h
  grows h := LogGrows.same h rfl rfl
  kept := List.prefix_rfl
  four h := h
  quota h := h
  down _ := ⟨rfl, fun d =>
    updAt_all (fun d (x : EventRt) => x.inService = e.events[d].inService) _ _ _ (fun _ => rfl) hs d⟩

end EvuStep

/-- The part is as it was, but for the event state and class 2. -/
structure Evt (s t : State) : Prop where
  eq : t = { s with evu := t.evu, rif := { s.rif with class2 := t.rif.class2 } }
  step : EvuStep s.settings (s.rif.portOut.state == .up) s.evu s.rif.class2 t.evu t.rif.class2

namespace Evt

variable {s t u : State}

theorem settings (h : Evt s t) : t.settings = s.settings := by
  have := congrArg State.settings h.eq
  exact this

theorem seq (h : Evt s t) : t.seq = s.seq := by
  have := congrArg State.seq h.eq
  exact this

theorem ala (h : Evt s t) : t.ala = s.ala := by
  have := congrArg State.ala h.eq
  exact this

theorem portOut (h : Evt s t) : t.rif.portOut = s.rif.portOut :=
  by have := congrArg (fun x : State => x.rif.portOut) h.eq; exact this

theorem refl (s : State) : Evt s s := ⟨rfl, EvuStep.refl⟩

theorem trans (a : Evt s t) (b : Evt t u) : Evt s u where
  eq := by
    have h := b.eq
    generalize u.evu = e at h
    generalize u.rif.class2 = q at h
    subst h
    have h := a.eq
    generalize t.evu = e' at h
    generalize t.rif.class2 = q' at h
    subst h
    rfl
  step := by
    have h := b.step
    rw [a.settings, a.portOut] at h
    exact a.step.trans h

theorem modEvent (c : Code) (h : EventRt → EventRt)
    (hs : (h s.evu.events[c]).inService = s.evu.events[c].inService)
    (hb : (h s.evu.events[c]).pending = true → (h s.evu.events[c]).inService = true →
      s.evu.events[c].pending = true) : Evt s (s.modEvent c h) :=
  ⟨rfl, EvuStep.event c h hs hb⟩

end Evt

/-! ### An occurrence -/

theorem evt_countOccurrence (s : State) (c : Code) (d : List Int) : Evt s (s.countOccurrence c d) :=
  Evt.modEvent _ _ rfl fun h _ => h

theorem evt_markOccurrence (s : State) (c : Code) (k : EventKind) : Evt s (s.markOccurrence c k) := by
  refine Evt.modEvent _ _ ?_ ?_
  · split <;> rfl
  · split
    · exact fun h _ => h
    · next h => exact fun _ h' => absurd h' h

theorem evt_addFirstOut (s : State) (c : Code) (k : EventKind) (d : List Int)
    (h : s.firstOutRoom c = true) : Evt s (s.addFirstOut c k d) where
  eq := rfl
  step := {
    noBoth := id
    oneService := id
    logOk := id
    grows := fun h => LogGrows.same h rfl rfl
    kept := List.prefix_append _ _
    four := fun _ => by
      simp only [State.firstOutRoom, Bool.and_eq_true, decide_eq_true_eq] at h
      simp [State.addFirstOut]; omega
    quota := id
    down := fun _ => ⟨rfl, fun _ => rfl⟩ }

theorem logOk_add {e : EvuRt} (h : e.logOk) (r : FaultRecord) (hr : r.sequence = e.nextSeq) :
    EvuRt.logOk { e with
      nextSeq := e.nextSeq + 1
      log := (if e.log.length < 64 then e.log else e.log.tail) ++ [r] } := by
  obtain ⟨h64, hs⟩ := h
  refine ⟨by simp only; split <;> simp <;> omega, ?_⟩
  intro k hk
  simp only at hk ⊢
  split at hk
  · next hl =>
    simp only [hl, if_true]
    by_cases he : k < e.log.length
    · rw [List.getElem_append_left he, hs k he]
      simp only [List.length_append, List.length_singleton]
      rw [show e.log.length + 1 - k = (e.log.length - k) + 1 by omega, BitVec.ofNat_add]
      bv_omega
    · have : k = e.log.length := by simp at hk; omega
      subst this
      simp [hr]
  · next hl =>
    simp only [hl, if_false]
    by_cases he : k < e.log.tail.length
    · rw [List.getElem_append_left he, List.getElem_tail, hs (k + 1) (by simp at he; omega)]
      simp only [List.length_append, List.length_tail, List.length_singleton] at he ⊢
      rw [show e.log.length - 1 + 1 - k = (e.log.length - (k + 1)) + 1 by omega, BitVec.ofNat_add]
      bv_omega
    · have hk' : k = e.log.tail.length := by
        simp only [List.length_append, List.length_singleton] at hk; omega
      rw [List.getElem_append_right (by omega)]
      simp [hr, hk']

theorem evt_logRecord (s : State) (c : Code) (k : EventKind) (d : List Int) :
    Evt s (s.logRecord c k d) where
  eq := rfl
  step := {
    noBoth := id
    oneService := id
    logOk := fun h => logOk_add h _ rfl
    grows := fun h => by
      refine ⟨[⟨s.evu.nextSeq, s.rif.ringTime, c, k, s.evu.events[c].count, s.cnv.state, s.yaw.state, d,
        s.snapshot c⟩], ?_, rfl, fun k hk => ?_⟩
      · simp only [State.logRecord, State.modEvu_evu]
        split
        · rw [newest64_of_le (by simp; omega)]
        · have h64 : s.evu.log.length = 64 := by omega
          simp [newest64, h64, List.drop_append_of_le_length, List.drop_one]
      · have : k = 0 := by simpa using hk
        subst this
        simp
    kept := List.prefix_rfl
    four := id
    quota := id
    down := fun _ => ⟨rfl, fun _ => rfl⟩ }

theorem evt_occur (s : State) (c : Code) (k : EventKind) (d : List Int) : Evt s (s.occur c k d) := by
  unfold State.occur
  refine (evt_countOccurrence s c d).trans ?_
  dsimp only
  generalize s.countOccurrence c d = t
  refine Evt.trans (t := if t.settings.events[c].log then t.logRecord c k d else t) ?_ ?_
  · split
    · exact evt_logRecord ..
    · exact Evt.refl _
  generalize (if t.settings.events[c].log then t.logRecord c k d else t) = u
  refine Evt.trans (t := if u.firstOutRoom c then u.addFirstOut c k d else u) ?_ (evt_markOccurrence ..)
  split
  · exact evt_addFirstOut _ _ _ _ ‹_›
  · exact Evt.refl _

/-! ### The dispatch test -/

theorem foldl_min_le (l : List Code) (f : Code → Nat) (g : Nat) (c : Code) (h : c ∈ l) :
    l.foldl (fun g c => min g (f c)) g ≤ f c := by
  have mono : ∀ (l : List Code) (g : Nat), l.foldl (fun g c => min g (f c)) g ≤ g := by
    intro l
    induction l with
    | nil => simp
    | cons a l ih => intro g; exact Nat.le_trans (ih _) (Nat.min_le_left _ _)
  induction l generalizing g with
  | nil => simp at h
  | cons a l ih =>
    simp only [List.foldl_cons]
    rcases List.mem_cons.mp h with rfl | h
    · exact Nat.le_trans (mono _ _) (Nat.min_le_right _ _)
    · exact ih _ h

theorem serviceFloor_le (s : State) (c : Code) (h : s.evu.events[c].inService = true) :
    s.serviceFloor ≤ s.settings.events[c].group :=
  foldl_min_le _ (fun c => s.settings.events[c].group) _ _ ((mem_selectIx _ _ _).mpr h)

theorem chooseCode_dispatchable {s : State} {c : Code} (h : s.chooseCode = some c) :
    s.dispatchable c = true := by
  have key := foldl_keeps (fun b : Option Code => ∀ d, b = some d → s.dispatchable d = true)
    (fun best c =>
      if s.dispatchable c then
        match best with
        | none => some c
        | some b => if s.settings.events[c].group < s.settings.events[b].group then some c else best
      else best)
    (by
      intro best c hb d hd
      split at hd
      · next hc =>
        split at hd
        · cases hd; exact hc
        · split at hd
          · cases hd; exact hc
          · exact hb d hd
      · exact hb d hd)
    (selectIx EventRt.pending s.evu.events) none (by simp)
  exact key c h

/-- A code that is dispatchable shares its group with no code in service. -/
theorem dispatchable_alone {s : State} {c d : Code} (h : s.dispatchable c = true)
    (hd : s.evu.events[d].inService = true) : s.settings.events[c].group ≠ s.settings.events[d].group := by
  simp only [State.dispatchable, Bool.and_eq_true, decide_eq_true_eq] at h
  have := serviceFloor_le s d hd
  intro e
  rw [e] at h
  omega

theorem evt_buildNotice (s : State) (c : Code) (h : s.dispatchable c = true)
    (hq : s.rif.class2.length < 4) (hu : s.rif.portOut.state = .up) : Evt s (s.buildNotice c) where
  eq := rfl
  step := {
    noBoth := by
      intro hn d
      refine updAt_all (fun d (x : EventRt) => ¬(x.pending = true ∧ x.inService = true)) _ _ _ hn ?_ d
      split <;> simp
    oneService := by
      intro hn a b ha hb hg
      have key : ∀ d : Code, (s.buildNotice c).evu.events[d].inService = true →
          d = c ∨ s.evu.events[d].inService = true := by
        intro d
        by_cases hd : c = d
        · exact fun _ => .inl hd.symm
        · intro h
          simp only [State.buildNotice, State.modEvent_evu, State.modRif_evu, updAt_other _ _ hd] at h
          exact .inr h
      rcases key a ha with rfl | ha' <;> rcases key b hb with rfl | hb'
      · rfl
      · exact absurd hg (dispatchable_alone h hb')
      · exact absurd hg.symm (dispatchable_alone h ha')
      · exact hn a b ha' hb' hg
    logOk := id
    grows := fun h => LogGrows.same h rfl rfl
    kept := List.prefix_rfl
    four := id
    quota := fun _ => by simp [State.buildNotice]; omega
    down := fun h => by simp [hu] at h }

theorem evt_dispatchUpTo (n : Nat) (s : State) : Evt s (dispatchUpTo n s) := by
  induction n generalizing s with
  | zero => exact Evt.refl s
  | succ n ih =>
    unfold dispatchUpTo
    split
    · next h =>
      split
      · exact Evt.refl s
      · next c hc => exact (evt_buildNotice s c (chooseCode_dispatchable hc) h.1 h.2).trans (ih _)
    · exact Evt.refl s

theorem evt_dispatchTest (s : State) : Evt s s.dispatchTest := evt_dispatchUpTo 4 s

theorem evt_occurTested (s : State) (c : Code) (k : EventKind) (d : List Int) :
    Evt s (s.occurTested c k d) := by
  unfold State.occurTested
  split
  · exact (evt_occur ..).trans (evt_dispatchTest _)
  · exact Evt.refl s

theorem evt_raiseKind (s : State) (c : Code) (k : EventKind) (d : List Int) :
    Evt s (s.raiseKind c k d) := by
  unfold State.raiseKind
  dsimp only
  split
  · exact (evt_occurTested ..).trans (evt_occurTested ..)
  · exact evt_occurTested ..

theorem evt_raise (s : State) (c : Code) (d : List Int) : Evt s (s.raise c d) :=
  evt_raiseKind s c .occurred d

end Sys2Proof.Machine
end

