-- ==== Sys2Proof/Laws/Calm.lean ====
section
/-! SUPPORT. Laws/Calm.lean: `Calm s t` says all that the shared blocks EVU, SIG, SEQ and ALA can do to the
part: `t` is `s` but for the event state, classes 1 and 2, the signals, the sequencer, the allocator, the
cooling record and the hand-overs, and the laws of these are kept. -/

namespace Sys2Proof.Machine

/-! ### Laws on one block alone -/

def SeqRt.engineOk (q : SeqRt) : Prop :=
  (∀ c : ChanIx, q.chans[c].state = .running ↔ q.holder = some c) ∧
  ∀ o, q.opened = some o → q.holder = some o.chan ∧ 1 ≤ o.items.length ∧ o.items.length ≤ 7

def AlaRt.claimsOk (a : AlaRt) : Prop :=
  (a.queue.map Claim.tag).Nodup ∧
  ∀ q ∈ a.queue, q.amount ≠ 0 ∧ (q.increase = true ↔ a.tags[q.tag].grant ≠ 0)

def AlaRt.budgetOk (a : AlaRt) (st : Settings) : Prop :=
  a.sum ≤ st.capacity a.mode ∨ ∀ t : TagIx, a.tags[t].grant ≠ 0 → st.tags[t].cls = 0

/-- The notice that the grant of a tag of YAW has been freed waits for YAW. -/
def noticed (w : List Work) (t : TagIx) : Prop := Work.released .yaw t ∈ w

theorem noticed_append {w l : List Work} {t : TagIx} (h : noticed w t) : noticed (w ++ l) t :=
  List.mem_append_left _ h

/-- What an event of ALA can do to the grants: the sum is within the budget, or no grant has grown. -/
def Shrinks (st : Settings) (a b : AlaRt) : Prop :=
  b.mode = a.mode ∧ (b.sum ≤ st.capacity b.mode ∨ ∀ k : TagIx, b.tags[k].grant ≤ a.tags[k].grant)

theorem sum_le_of_get (l m : List Nat) (hl : l.length = m.length)
    (h : ∀ (i : Nat) (h1 : i < l.length) (h2 : i < m.length), l[i] ≤ m[i]) : l.sum ≤ m.sum := by
  induction l generalizing m with
  | nil => simp
  | cons a l ih =>
    cases m with
    | nil => simp at hl
    | cons b m =>
      have h0 := h 0 (by simp) (by simp)
      have := ih m (by simpa using hl) fun i h1 h2 => by
        have := h (i + 1) (by simpa using h1) (by simpa using h2)
        simpa using this
      simp at h0 ⊢
      omega

theorem AlaRt.sum_mono {a b : AlaRt} (h : ∀ k : TagIx, b.tags[k].grant ≤ a.tags[k].grant) :
    b.sum ≤ a.sum := by
  refine sum_le_of_get _ _ (by simp) fun i h1 h2 => ?_
  simp at h1
  simpa using h ⟨i, h1⟩

namespace Shrinks

variable {st : Settings} {a b c : AlaRt}

theorem refl : Shrinks st a a := ⟨rfl, .inr fun _ => Nat.le_refl _⟩

theorem trans (h : Shrinks st a b) (g : Shrinks st b c) : Shrinks st a c := by
  refine ⟨g.1.trans h.1, ?_⟩
  rcases g.2 with g2 | g2
  · exact .inl g2
  · rcases h.2 with h2 | h2
    · left
      rw [g.1]
      exact (AlaRt.sum_mono g2).trans h2
    · exact .inr fun k => (g2 k).trans (h2 k)

/-- The law of R69 is kept. -/
theorem budget (h : Shrinks st a b) : a.budgetOk st → b.budgetOk st := by
  rcases h.2 with h2 | h2
  · exact fun _ => .inl h2
  · rintro (g | g)
    · exact .inl ((AlaRt.sum_mono h2).trans (by rw [h.1]; exact g))
    · exact .inr fun k hk => g k fun e => hk (Nat.le_zero.mp (e ▸ h2 k))

end Shrinks

/-- `Calm` but for the notices of grants that are gone. -/
structure CalmBase (s t : State) : Prop where
  eq : t = { s with
    evu := t.evu, rif := { s.rif with class1 := t.rif.class1, class2 := t.rif.class2 }
    signals := t.signals, seq := t.seq, ala := t.ala, clc := t.clc, work := t.work }
  evu : EvuStep s.settings (s.rif.portOut.state == .up) s.evu s.rif.class2 t.evu t.rif.class2
  class1 : s.rif.class1.length ≤ 6 → t.rif.class1.length ≤ 6
  work : s.work <+: t.work
  seq : s.seq.engineOk → t.seq.engineOk
  claims : s.ala.claimsOk → t.ala.claimsOk
  shrinks : Shrinks s.settings s.ala t.ala
  cf : s.settings.factorsBounded → s.clc.cf ≤ 16384 → t.clc.cf ≤ 16384

/-- What the shared blocks can do; a tag of YAW that loses its grant leaves a notice for YAW. -/
structure Calm (s t : State) : Prop extends CalmBase s t where
  grants : s.ala.claimsOk → ∀ k : TagIx, s.settings.tags[k].owner = .yaw → s.ala.tags[k].grant ≠ 0 →
    t.ala.tags[k].grant ≠ 0 ∨ noticed t.work k

namespace CalmBase

variable {s t u : State}

theorem addrStraps (h : CalmBase s t) : t.addrStraps = s.addrStraps := by
  have := congrArg State.addrStraps h.eq; exact this
theorem bypass (h : CalmBase s t) : t.bypass = s.bypass := by
  have := congrArg State.bypass h.eq; exact this
theorem part (h : CalmBase s t) : t.part = s.part := by have := congrArg State.part h.eq; exact this
theorem image (h : CalmBase s t) : t.image = s.image := by have := congrArg State.image h.eq; exact this
theorem capture (h : CalmBase s t) : t.capture = s.capture := by
  have := congrArg State.capture h.eq; exact this
theorem settings (h : CalmBase s t) : t.settings = s.settings := by
  have := congrArg State.settings h.eq; exact this
theorem phases (h : CalmBase s t) : t.phases = s.phases := by
  have := congrArg State.phases h.eq; exact this
theorem limits (h : CalmBase s t) : t.limits = s.limits := by
  have := congrArg State.limits h.eq; exact this
theorem holds (h : CalmBase s t) : t.holds = s.holds := by have := congrArg State.holds h.eq; exact this
theorem cnv (h : CalmBase s t) : t.cnv = s.cnv := by have := congrArg State.cnv h.eq; exact this
theorem alw (h : CalmBase s t) : t.alw = s.alw := by have := congrArg State.alw h.eq; exact this
theorem yaw (h : CalmBase s t) : t.yaw = s.yaw := by have := congrArg State.yaw h.eq; exact this
theorem schedule (h : CalmBase s t) : t.schedule = s.schedule := by
  have := congrArg State.schedule h.eq; exact this
theorem pending (h : CalmBase s t) : t.pending = s.pending := by
  have := congrArg State.pending h.eq; exact this
theorem class0 (h : CalmBase s t) : t.rif.class0 = s.rif.class0 := by
  have := congrArg (fun x : State => x.rif.class0) h.eq; exact this
theorem class3 (h : CalmBase s t) : t.rif.class3 = s.rif.class3 := by
  have := congrArg (fun x : State => x.rif.class3) h.eq; exact this
theorem portOut (h : CalmBase s t) : t.rif.portOut = s.rif.portOut := by
  have := congrArg (fun x : State => x.rif.portOut) h.eq; exact this
theorem portIn (h : CalmBase s t) : t.rif.portIn = s.rif.portIn := by
  have := congrArg (fun x : State => x.rif.portIn) h.eq; exact this

theorem trans (a : CalmBase s t) (b : CalmBase t u) : CalmBase s u where
  eq := by
    have h := b.eq
    generalize u.evu = x1, u.rif.class1 = x2, u.rif.class2 = x3, u.signals = x4, u.seq = x5,
      u.ala = x6, u.work = x7, u.clc = x8 at h
    subst h
    have h := a.eq
    generalize t.evu = y1, t.rif.class1 = y2, t.rif.class2 = y3, t.signals = y4, t.seq = y5,
      t.ala = y6, t.work = y7, t.clc = y8 at h
    subst h
    rfl
  evu := by
    have h := b.evu
    rw [a.settings, a.portOut] at h
    exact a.evu.trans h
  class1 h := b.class1 (a.class1 h)
  work := a.work.trans b.work
  seq h := b.seq (a.seq h)
  claims h := b.claims (a.claims h)
  shrinks := by
    have := b.shrinks
    rw [a.settings] at this
    exact a.shrinks.trans this
  cf hs h := by
    have := b.cf
    rw [a.settings] at this
    exact this hs (a.cf hs h)

theorem budget (h : CalmBase s t) : s.ala.budgetOk s.settings → t.ala.budgetOk s.settings :=
  h.shrinks.budget

end CalmBase

namespace Calm

variable {s t u : State}

theorem refl (s : State) : Calm s s where
  eq := rfl
  evu := EvuStep.refl
  class1 := id
  work := List.prefix_rfl
  seq := id
  claims := id
  shrinks := Shrinks.refl
  cf _ := id
  grants _ _ _ h := .inl h

theorem trans (a : Calm s t) (b : Calm t u) : Calm s u where
  toCalmBase := a.toCalmBase.trans b.toCalmBase
  grants hc k ho hg := by
    have hb := b.grants (a.claims hc) k
    rw [a.settings] at hb
    rcases a.grants hc k ho hg with h | h
    · exact hb ho h
    · obtain ⟨l, hl⟩ := b.work
      exact .inr (hl ▸ noticed_append h)

/-! ### Single changes -/

theorem of_evt (h : Evt s t) : Calm s t where
  eq := by
    have e := h.eq
    generalize t.evu = x1, t.rif.class2 = x2 at e
    subst e
    rfl
  evu := h.step
  class1 := by have := congrArg (fun x : State => x.rif.class1) h.eq; dsimp at this; rw [this]; exact id
  work := by have := congrArg State.work h.eq; dsimp at this; rw [this]
  seq := by have := congrArg State.seq h.eq; dsimp at this; rw [this]; exact id
  claims := by have := congrArg State.ala h.eq; dsimp at this; rw [this]; exact id
  shrinks := by have := congrArg State.ala h.eq; dsimp at this; rw [this]; exact Shrinks.refl
  cf := by have := congrArg State.clc h.eq; dsimp at this; rw [this]; exact fun _ => id
  grants _ k _ hg := by
    have := congrArg State.ala h.eq
    dsimp only at this
    rw [this]
    exact .inl hg

theorem signals (v : Vector SignalRt 96) : Calm s { s with signals := v } where
  eq := rfl
  evu := EvuStep.refl
  class1 := id
  work := List.prefix_rfl
  seq := id
  claims := id
  shrinks := Shrinks.refl
  cf _ := id
  grants _ _ _ h := .inl h

theorem hand (w : Work) : Calm s (s.hand w) where
  eq := rfl
  evu := EvuStep.refl
  class1 := id
  work := List.prefix_append _ _
  seq := id
  claims := id
  shrinks := Shrinks.refl
  cf _ := id
  grants _ _ _ h := .inl h

theorem pushClass1 (f : CmdFrame) (h : s.class1Room = true) : Calm s (s.pushClass1 f) where
  eq := rfl
  evu := EvuStep.refl
  class1 _ := by
    simp only [State.class1Room, decide_eq_true_eq] at h
    simp; omega
  work := List.prefix_rfl
  seq := id
  claims := id
  shrinks := Shrinks.refl
  cf _ := id
  grants _ _ _ h := .inl h

theorem seqTo (q : SeqRt) (h : s.seq.engineOk → q.engineOk) : Calm s { s with seq := q } where
  eq := rfl
  evu := EvuStep.refl
  class1 := id
  work := List.prefix_rfl
  seq := h
  claims := id
  shrinks := Shrinks.refl
  cf _ := id
  grants _ _ _ h := .inl h

theorem alaTo (a : AlaRt) (hc : s.ala.claimsOk → a.claimsOk)
    (hb : Shrinks s.settings s.ala a)
    (hg : s.ala.claimsOk → ∀ k : TagIx, s.settings.tags[k].owner = .yaw → s.ala.tags[k].grant ≠ 0 →
      a.tags[k].grant ≠ 0) : Calm s { s with ala := a } where
  eq := rfl
  evu := EvuStep.refl
  class1 := id
  work := List.prefix_rfl
  seq := id
  claims := hc
  shrinks := hb
  cf _ := id
  grants hc' k ho h := .inl (hg hc' k ho h)

theorem modClc (f : ClcRt → ClcRt)
    (h : s.settings.factorsBounded → s.clc.cf ≤ 16384 → (f s.clc).cf ≤ 16384) : Calm s (s.modClc f) where
  eq := rfl
  evu := EvuStep.refl
  class1 := id
  work := List.prefix_rfl
  seq := id
  claims := id
  shrinks := Shrinks.refl
  cf := h
  grants _ _ _ h := .inl h

theorem raise (c : Code) (d : List Int) : Calm s (s.raise c d) := of_evt (evt_raise s c d)
theorem raiseKind (c : Code) (k : EventKind) (d : List Int) : Calm s (s.raiseKind c k d) :=
  of_evt (evt_raiseKind s c k d)

theorem ite (p : Prop) [Decidable p] {a b : State} (ha : p → Calm s a) (hb : ¬p → Calm s b) :
    Calm s (if p then a else b) := by
  split
  · exact ha ‹_›
  · exact hb ‹_›

end Calm

theorem calm_modSignal (s : State) (i : SigIx) (f : SignalRt → SignalRt) : Calm s (s.modSignal i f) :=
  Calm.signals _
theorem calm_modSlot (s : State) (i : SigIx) (k : SlotIx) (f : Contributor → Contributor) :
    Calm s (s.modSlot i k f) := Calm.signals _

end Sys2Proof.Machine
end

