-- ==== Sys2Proof/Laws/Signals.lean ====
section
/-! SUPPORT. Laws/Signals.lean: what SIG's and SIN's operations can do to the part, through `Calm`. -/

namespace Sys2Proof.Machine

theorem calm_raiseLoss (s : State) (i : SigIx) : Calm s (s.raiseLoss i) := Calm.raise _ _

theorem calm_raiseRecovery (s : State) (i : SigIx) : Calm s (s.raiseRecovery i) := by
  unfold State.raiseRecovery
  dsimp only
  split
  · exact Calm.raise _ _
  · exact Calm.raiseKind _ _ _

theorem calm_lossEvents (s : State) (i : SigIx) (a b : Quality) : Calm s (s.lossEvents i a b) := by
  unfold State.lossEvents
  split
  · exact (calm_modSignal s i _).trans (calm_raiseLoss _ i)
  · split
    · exact (calm_modSignal s i _).trans (calm_raiseRecovery _ i)
    · exact Calm.refl s

theorem calm_notify (s : State) (i : SigIx) (c : Cause) : Calm s (s.notify i c) := Calm.hand _

theorem calm_setMerged (s : State) (i : SigIx) : Calm s (s.setMerged i) := calm_modSignal s i _

theorem calm_evaluate (s : State) (i : SigIx) (c : Cause) : Calm s (s.evaluate i c) := by
  unfold State.evaluate
  dsimp only
  refine (calm_setMerged s i).trans (Calm.trans (t := if c = .sample ∨ signalMoved s (s.setMerged i) i
    then (s.setMerged i).notify i c else s.setMerged i) ?_ (calm_lossEvents _ _ _ _))
  split
  · exact calm_notify _ _ _
  · exact Calm.refl _

theorem calm_clearLoss (s : State) (i : SigIx) (q : Quality) : Calm s (s.clearLoss i q) := by
  unfold State.clearLoss
  split
  · exact Calm.refl s
  · exact calm_modSignal s i _

theorem calm_evaluateWrite (s : State) (i : SigIx) : Calm s (s.evaluateWrite i) := by
  unfold State.evaluateWrite
  dsimp only
  refine ((calm_setMerged s i).trans (calm_clearLoss _ i s.signals[i].quality)).trans ?_
  split
  · exact calm_notify _ _ _
  · exact Calm.refl _

theorem calm_useItem (s : State) (e : SampleEntry) (it : SampleItem) : Calm s (s.useItem e it) := by
  unfold State.useItem
  dsimp only
  split
  · exact (calm_modSlot s _ _ _).trans (calm_evaluate _ _ _)
  · split
    · exact (calm_modSlot s _ _ _).trans (calm_evaluate _ _ _)
    · split
      · exact (calm_modSlot s _ _ _).trans (calm_evaluate _ _ _)
      · refine (calm_modSlot s e.target e.slot fun k => k.accept (engineering e it.raw) it.quality).trans
          (Calm.trans ?_ (calm_evaluate _ _ _))
        split
        · exact calm_modSignal _ _ _
        · exact Calm.refl _

theorem calm_publish (s : State) (f : Feed) (v : Int) : Calm s (s.publish f v) := by
  unfold State.publish
  split
  · exact Calm.refl s
  · exact ((calm_modSignal s _ _).trans (calm_notify _ _ _)).trans (calm_lossEvents _ _ _ _)

theorem calm_ageSignals (s : State) : Calm s s.ageSignals := Calm.signals _

theorem calm_staleContributor (s : State) (i : SigIx) (k : SlotIx) : Calm s (s.staleContributor i k) := by
  unfold State.staleContributor
  split
  · exact (calm_modSlot s i k _).trans (calm_evaluate _ _ _)
  · exact Calm.refl s

end Sys2Proof.Machine
end

