-- ==== Sys2Proof/Laws/Grants.lean ====
section
/-! SUPPORT. Laws/Grants.lean: what a grant told to its requester can do to the part, through `Calm`: the end of
a wait and of a run, and a stage change of CLC. -/

namespace Sys2Proof.Machine

/-! ### One channel's record changes -/

/-- A change that neither makes a channel RUNNING nor stops it. -/
theorem engineOk_chan {q : SeqRt} (c : ChanIx) (f : ChanRt → ChanRt)
    (h : (f q.chans[c]).state = .running ↔ q.chans[c].state = .running) (ho : q.engineOk) :
    SeqRt.engineOk { q with chans := updAt q.chans c f } := by
  refine ⟨fun d => ?_, ho.2⟩
  show (updAt q.chans c f)[d].state = _ ↔ _
  by_cases e : c = d
  · subst e; rw [updAt_same, h]; exact ho.1 c
  · rw [updAt_other _ _ e]; exact ho.1 d

/-- A channel that no longer runs gives the engine back. -/
theorem engineOk_leave {q : SeqRt} (c : ChanIx) (f : ChanRt → ChanRt)
    (h : (f q.chans[c]).state ≠ .running) (hopen : ∀ o, q.opened = some o → o.chan ≠ c)
    (ho : q.engineOk) :
    SeqRt.engineOk { q with
      chans := updAt q.chans c f, holder := if q.holder = some c then none else q.holder } := by
  refine ⟨fun d => ?_, fun o hop => ?_⟩
  · show (updAt q.chans c f)[d].state = _ ↔ _
    by_cases e : c = d
    · subst e
      rw [updAt_same]
      constructor
      · exact fun h' => absurd h' h
      · intro h'
        dsimp only at h'
        split at h'
        · cases h'
        · next hn => exact absurd h' hn
    · rw [updAt_other _ _ e, ho.1 d]
      dsimp only
      split
      · next hc => rw [hc]; simp [e]
      · exact Iff.rfl
  · have := ho.2 o hop
    refine ⟨?_, this.2⟩
    dsimp only
    rw [if_neg]
    · exact this.1
    · rw [this.1]
      exact fun e => hopen o hop (Option.some.inj e)

theorem calm_modChan {s : State} (c : ChanIx) (f : ChanRt → ChanRt)
    (h : (f (s.chan c)).state = .running ↔ (s.chan c).state = .running) : Calm s (s.modChan c f) :=
  Calm.seqTo _ (engineOk_chan c f h)

theorem calm_leave {s : State} (c : ChanIx) (f : ChanRt → ChanRt) (h : (f (s.chan c)).state ≠ .running)
    (hopen : s.seq.engineOk → ∀ o, s.seq.opened = some o → o.chan ≠ c) :
    Calm s ((s.modChan c f).releaseEngine c) :=
  Calm.seqTo _ fun ho => engineOk_leave c f h (hopen ho) ho

/-! ### Requests -/

theorem calm_request (s : State) (c : ChanIx) (who : Requester) : Calm s (s.request c who) := by
  unfold State.request
  split
  · next h => exact calm_modChan c _ (by simp [ChanRt.request, h])
  · exact Calm.raise ..
  all_goals exact Calm.refl s

theorem calm_unmaskChan (s : State) (c : ChanIx) : Calm s (s.unmaskChan c) := by
  unfold State.unmaskChan
  split
  · next h =>
    simp only [State.isMasked, Bool.and_eq_true, beq_iff_eq] at h
    exact calm_modChan c _ (by simp [ChanRt.load, h.1])
  · exact Calm.refl s

theorem calm_foldl {β : Type} (f : State → β → State) (h : ∀ s b, Calm s (f s b)) (l : List β)
    (s : State) : Calm s (l.foldl f s) :=
  foldl_rel Calm Calm.refl (fun _ _ _ => Calm.trans) f h l s

theorem calm_unmaskAll (s : State) : Calm s s.unmaskAll := calm_foldl _ calm_unmaskChan _ s

/-! ### Ends of a run and of a wait -/

theorem calm_notifyOwner (s : State) (c : ChanIx) (e : RunEnd) : Calm s (s.notifyOwner c e) := by
  unfold State.notifyOwner
  dsimp only
  split
  · exact Calm.refl s
  · exact Calm.hand _

theorem calm_requestStepLink (s : State) (c : ChanIx) (st : Step) : Calm s (s.requestStepLink c st) := by
  cases st <;> first | exact Calm.refl s | exact calm_request ..

theorem calm_requestLink (s : State) (c : ChanIx) : Calm s (s.requestLink c) := by
  unfold State.requestLink
  split
  · exact Calm.refl s
  · exact calm_request ..

theorem calm_finishRun (s : State) (c : ChanIx)
    (hopen : s.seq.engineOk → ∀ o, s.seq.opened = some o → o.chan ≠ c) : Calm s (s.finishRun c) := by
  refine Calm.trans (Calm.trans (Calm.trans (calm_leave c _ ?_ hopen) (calm_requestStepLink _ c _))
    (calm_requestLink _ c)) (calm_notifyOwner _ _ _)
  unfold ChanRt.endRun
  split <;> simp

/-- A channel that waits does not hold the engine, so the open frame is not its. -/
theorem waiting_noFrame {s : State} {c : ChanIx} (h : (s.chan c).state ≠ .running) :
    s.seq.engineOk → ∀ o, s.seq.opened = some o → o.chan ≠ c := by
  intro he o ho e
  have := (he.2 o ho).1
  rw [e] at this
  exact h ((he.1 c).mpr this)

theorem calm_completeStep (s : State) (c : ChanIx) : Calm s (s.modChan c ChanRt.completeStep) :=
  calm_modChan c _ Iff.rfl

theorem calm_completeWait (s : State) (c : ChanIx) (h : (s.chan c).state ≠ .running) :
    Calm s (s.completeWait c) := by
  have h' : ((s.modChan c ChanRt.completeStep).chan c).state ≠ .running := by
    simpa [State.chan, ChanRt.completeStep] using h
  unfold State.completeWait
  dsimp only
  split
  · exact (calm_completeStep s c).trans (calm_finishRun _ c (waiting_noFrame h'))
  · exact (calm_completeStep s c).trans (calm_modChan c _ (by simp [h']))

theorem calm_chanGranted (s : State) (c : ChanIx) : Calm s (s.chanGranted c) := by
  unfold State.chanGranted
  split
  · next h => exact calm_completeWait s c (by rw [h]; simp)
  · exact Calm.refl s

/-! ### CLC's commands and stage change -/

/-- A change of CLC's record that leaves the cooling factor. -/
theorem calm_clc (s : State) (f : ClcRt → ClcRt) (h : (f s.clc).cf = s.clc.cf) : Calm s (s.modClc f) :=
  Calm.modClc f fun _ hc => by rw [h]; exact hc

theorem health_le (s : State) (h : s.settings.factorsBounded) : s.health ≤ 16384 := by
  unfold State.health
  split
  · omega
  · omega
  · omega
  · exact h.2

theorem calm_formCf (s : State) : Calm s s.formCf := by
  unfold State.formCf
  dsimp only
  refine Calm.trans ?_ (calm_publish _ _ _)
  refine Calm.modClc _ fun hb _ => ?_
  have h1 : (s.stage s.clc.actual).capacity ≤ 16384 := hb.1 s.clc.actual
  have h2 := health_le s hb
  have h3 := Nat.mul_le_mul h1 h2
  show _ / 16384 ≤ 16384
  omega

theorem calm_stageCommand (s : State) : Calm s s.stageCommand := by
  unfold State.stageCommand
  split
  · split
    · exact Calm.pushClass1 _ ‹_›
    · exact calm_clc s _ rfl
  · exact Calm.refl s

theorem calm_heaterCommand (s : State) (on : Bool) : Calm s (s.heaterCommand on) := by
  unfold State.heaterCommand
  split
  · split
    · exact Calm.pushClass1 _ ‹_›
    · exact calm_clc s _ rfl
  · exact Calm.refl s

theorem calm_changeStage (s : State) (k : StageIx) : Calm s (s.changeStage k) := by
  unfold State.changeStage
  refine Calm.trans ?_ (calm_stageCommand _)
  refine Calm.trans ?_ (calm_formCf _)
  exact calm_clc s _ rfl

theorem calm_otherGranted (s : State) (t : TagIx) : Calm s (s.otherGranted t) := by
  unfold State.otherGranted
  split
  · exact Calm.trans (calm_clc s _ rfl) (calm_heaterCommand _ _)
  · split
    · exact Calm.trans (calm_clc s _ rfl) (calm_stageCommand _)
    · exact Calm.refl s

theorem calm_clcGranted (s : State) (t : TagIx) : Calm s (s.clcGranted t) := by
  unfold State.clcGranted
  split
  · split
    · refine Calm.trans ?_ (Calm.hand _)
      refine Calm.trans ?_ (calm_changeStage _ _)
      exact calm_clc s _ rfl
    · exact calm_otherGranted s t
  · exact calm_otherGranted s t

theorem calm_takeGrant (s : State) (who : Claimant) (t : TagIx) : Calm s (s.takeGrant who t) := by
  cases who with
  | chan c => exact calm_chanGranted s c
  | clc => exact calm_clcGranted s t

/-! ### What a grant told leaves in SEQ -/

/-- What telling grants can do to SEQ: the engine keeps its open frame, and a channel's record changes only from
IDLE or from a wait in CLAIM, and to a state that is not RUNNING. -/
structure Told (s t : State) : Prop where
  opened : t.seq.opened = s.seq.opened
  chan (c : ChanIx) : t.chan c = s.chan c ∨
    ((s.chan c).state = .idle ∨ (s.chan c).state = .waiting .claim) ∧ (t.chan c).state ≠ .running

namespace Told

variable {s t u : State}

theorem of_seq (h : t.seq = s.seq) : Told s t :=
  ⟨by rw [h], fun c => .inl (by simp only [State.chan, h])⟩

theorem refl (s : State) : Told s s := of_seq rfl

theorem trans (a : Told s t) (b : Told t u) : Told s u where
  opened := b.opened.trans a.opened
  chan c := by
    rcases a.chan c with ha | ha <;> rcases b.chan c with hb | hb
    · exact .inl (hb.trans ha)
    · exact .inr ⟨by rw [← ha]; exact hb.1, hb.2⟩
    · exact .inr ⟨ha.1, by rw [hb]; exact ha.2⟩
    · exact .inr ⟨ha.1, hb.2⟩

theorem notRunning (h : Told s t) (c : ChanIx) (hc : (s.chan c).state ≠ .running) :
    (t.chan c).state ≠ .running := by
  rcases h.chan c with e | e
  · rwa [e]
  · exact e.2

/-- One channel's record changes, from IDLE or from a wait in CLAIM. -/
theorem modChan (c : ChanIx) (f : ChanRt → ChanRt)
    (h : (s.chan c).state = .idle ∨ (s.chan c).state = .waiting .claim)
    (hf : (f (s.chan c)).state ≠ .running) : Told s (s.modChan c f) where
  opened := rfl
  chan d := by
    by_cases e : c = d
    · subst e
      exact .inr ⟨h, by simpa [State.chan] using hf⟩
    · exact .inl (by simp [State.chan, updAt_other _ _ e])

end Told

theorem told_request (s : State) (c : ChanIx) (who : Requester) : Told s (s.request c who) := by
  unfold State.request
  split
  · next h => exact Told.modChan c _ (.inl h) (by simp [ChanRt.request])
  · exact Told.of_seq (evt_raise _ _ _).seq
  all_goals exact Told.refl s

theorem told_notifyOwner (s : State) (c : ChanIx) (e : RunEnd) : Told s (s.notifyOwner c e) := by
  unfold State.notifyOwner
  dsimp only
  split
  · exact Told.refl s
  · exact Told.of_seq rfl

theorem told_requestStepLink (s : State) (c : ChanIx) (st : Step) : Told s (s.requestStepLink c st) := by
  cases st <;> first | exact Told.refl s | exact told_request ..

theorem told_requestLink (s : State) (c : ChanIx) : Told s (s.requestLink c) := by
  unfold State.requestLink
  split
  · exact Told.refl s
  · exact told_request ..

theorem told_releaseEngine (s : State) (c : ChanIx) : Told s (s.releaseEngine c) := ⟨rfl, fun _ => .inl rfl⟩

theorem told_finishRun (s : State) (c : ChanIx) (h : (s.chan c).state = .waiting .claim) :
    Told s (s.finishRun c) := by
  refine Told.trans (Told.trans (Told.trans (Told.trans (Told.modChan c _ (.inr h) ?_)
    (told_releaseEngine _ c)) (told_requestStepLink _ c _)) (told_requestLink _ c)) (told_notifyOwner _ _ _)
  unfold ChanRt.endRun
  split <;> simp

theorem told_chanGranted (s : State) (c : ChanIx) : Told s (s.chanGranted c) := by
  unfold State.chanGranted
  split
  · next h =>
    have h' : ((s.modChan c ChanRt.completeStep).chan c).state = .waiting .claim := by
      simpa [State.chan, ChanRt.completeStep] using h
    have h1 : Told s (s.modChan c ChanRt.completeStep) :=
      Told.modChan c _ (.inr h) (by simp [ChanRt.completeStep, h])
    unfold State.completeWait
    dsimp only
    split
    · exact h1.trans (told_finishRun _ c h')
    · exact h1.trans (Told.modChan c _ (.inr h') (by simp))
  · exact Told.refl s

theorem lossEvents_seq (s : State) (i : SigIx) (a b : Quality) : (s.lossEvents i a b).seq = s.seq := by
  unfold State.lossEvents
  split
  · exact (evt_raise _ _ _).seq
  · split
    · unfold State.raiseRecovery
      dsimp only
      split
      · exact (evt_raise _ _ _).seq
      · exact (evt_raiseKind _ _ _ _).seq
    · rfl

theorem publish_seq (s : State) (f : Feed) (v : Int) : (s.publish f v).seq = s.seq := by
  unfold State.publish
  split
  · rfl
  · exact lossEvents_seq ..

theorem stageCommand_seq (s : State) : s.stageCommand.seq = s.seq := by
  unfold State.stageCommand
  split
  · split <;> rfl
  · rfl

theorem heaterCommand_seq (s : State) (on : Bool) : (s.heaterCommand on).seq = s.seq := by
  unfold State.heaterCommand
  split
  · split <;> rfl
  · rfl

theorem changeStage_seq (s : State) (k : StageIx) : (s.changeStage k).seq = s.seq := by
  unfold State.changeStage
  rw [stageCommand_seq]
  exact publish_seq ..

theorem otherGranted_seq (s : State) (t : TagIx) : (s.otherGranted t).seq = s.seq := by
  unfold State.otherGranted
  split
  · exact heaterCommand_seq ..
  · split
    · exact stageCommand_seq _
    · rfl

theorem clcGranted_seq (s : State) (t : TagIx) : (s.clcGranted t).seq = s.seq := by
  unfold State.clcGranted
  split
  · split
    · exact changeStage_seq ..
    · exact otherGranted_seq ..
  · exact otherGranted_seq ..

theorem told_takeGrant (s : State) (who : Claimant) (t : TagIx) : Told s (s.takeGrant who t) := by
  cases who with
  | chan c => exact told_chanGranted s c
  | clc => exact Told.of_seq (clcGranted_seq s t)

end Sys2Proof.Machine
end

