-- ==== Sys2Proof/Laws/Allocator.lean ====
section
/-! SUPPORT. Laws/Allocator.lean: what ALA's operations keep: the laws of R68 and R69, the grants of the tags
that are not freed or shed, and, through `Calm`, everything of other blocks. -/

namespace Sys2Proof.Machine

/-! ### Grants and their sum -/

theorem sum_set_map {α : Type} (f : α → Nat) (l : List α) (n : Nat) (h : n < l.length) (a : α) :
    ((l.set n a).map f).sum + f l[n] = (l.map f).sum + f a := by
  induction l generalizing n with
  | nil => simp at h
  | cons b l ih =>
    cases n with
    | zero => simp; omega
    | succ n =>
      have := ih n (by simpa using h)
      simp only [List.set_cons_succ, List.map_cons, List.sum_cons, List.getElem_cons_succ]
      omega

/-- The sum of grants after one tag's record has changed. -/
theorem AlaRt.sum_updAt (a : AlaRt) (t : TagIx) (f : TagRt → TagRt) :
    AlaRt.sum { a with tags := updAt a.tags t f } + a.tags[t].grant = a.sum + (f a.tags[t]).grant := by
  simp only [AlaRt.sum, updAt, Vector.toList_set]
  have := sum_set_map TagRt.grant a.tags.toList t (by simp) (f a.tags[t])
  simpa using this

theorem mem_le_sum (l : List Nat) (n : Nat) (h : n ∈ l) : n ≤ l.sum := List.single_le_sum (by simp) _ h

theorem AlaRt.grant_le_sum (a : AlaRt) (t : TagIx) : a.tags[t].grant ≤ a.sum :=
  mem_le_sum _ _ (List.mem_map.mpr ⟨a.tags[t], by simp, rfl⟩)

@[simp] theorem AlaRt.dropRank_mode (a : AlaRt) (t : TagIx) : (a.dropRank t).mode = a.mode := by
  unfold AlaRt.dropRank; split <;> rfl
@[simp] theorem AlaRt.dropRank_queue (a : AlaRt) (t : TagIx) : (a.dropRank t).queue = a.queue := by
  unfold AlaRt.dropRank; split <;> rfl

theorem AlaRt.dropRank_grant (a : AlaRt) (t k : TagIx) :
    (a.dropRank t).tags[k].grant = a.tags[k].grant := by
  unfold AlaRt.dropRank
  split
  · rfl
  · simp only [updAt_get]
    split
    · next h => subst h; simp
    · simp

theorem AlaRt.sum_eq_of_grants {a b : AlaRt} (h : ∀ k : TagIx, b.tags[k].grant = a.tags[k].grant) :
    b.sum = a.sum := by
  unfold AlaRt.sum
  congr 1
  apply List.ext_getElem
  · simp
  · intro i h1 h2
    simp at h1
    simpa using h ⟨i, h1⟩

@[simp] theorem AlaRt.dropRank_sum (a : AlaRt) (t : TagIx) : (a.dropRank t).sum = a.sum :=
  AlaRt.sum_eq_of_grants (a.dropRank_grant t)

/-! ### clearGrant and giveGrant -/

@[simp] theorem AlaRt.clearGrant_mode (a : AlaRt) (t : TagIx) : (a.clearGrant t).mode = a.mode := by
  simp [AlaRt.clearGrant]

theorem AlaRt.clearGrant_grant (a : AlaRt) (t k : TagIx) :
    (a.clearGrant t).tags[k].grant = if t = k then 0 else a.tags[k].grant := by
  simp only [AlaRt.clearGrant, updAt_get]
  split
  · rfl
  · exact a.dropRank_grant t k

theorem AlaRt.clearGrant_sum (a : AlaRt) (t : TagIx) :
    (a.clearGrant t).sum + a.tags[t].grant = a.sum := by
  have := (a.dropRank t).sum_updAt t fun r => { r with grant := 0 }
  rw [a.dropRank_grant, a.dropRank_sum] at this
  exact this

@[simp] theorem AlaRt.giveGrant_mode (a : AlaRt) (t : TagIx) (n : Nat) (now : RingTime) :
    (a.giveGrant t n now).mode = a.mode := by
  simp [AlaRt.giveGrant]
@[simp] theorem AlaRt.giveGrant_queue (a : AlaRt) (t : TagIx) (n : Nat) (now : RingTime) :
    (a.giveGrant t n now).queue = a.queue := by
  simp [AlaRt.giveGrant]

theorem AlaRt.giveGrant_grant (a : AlaRt) (t k : TagIx) (n : Nat) (now : RingTime) :
    (a.giveGrant t n now).tags[k].grant = if t = k then n else a.tags[k].grant := by
  simp only [AlaRt.giveGrant, updAt_get]
  split
  · rfl
  · exact a.dropRank_grant t k

/-- A tag that gives up its rank has none, and the tags ranked above it move down by one (R65). -/
theorem AlaRt.dropRank_rank (a : AlaRt) (i t : TagIx) :
    (a.dropRank i).tags[t].rank = if i = t then none else a.tags[t].rank.map fun j =>
      match a.tags[i].rank with
      | none => j
      | some k => if k < j then j - 1 else j := by
  unfold AlaRt.dropRank
  split
  · rename_i h
    split
    · rename_i e
      exact e ▸ h
    · simp only [h]
      cases a.tags[t].rank <;> rfl
  · rename_i k h
    simp only [updAt_get, h]
    split
    · rfl
    · simp

/-- The ranks after a grant or an increase: the tag stands above every other tag that has one, and the tags that
were ranked above it have moved down by one (R65) [57]. -/
theorem AlaRt.giveGrant_rank (a : AlaRt) (i : TagIx) (n : Nat) (now : RingTime) :
    (a.giveGrant i n now).tags[i].rank = some (((List.finRange 16).filter fun t : TagIx =>
      decide (t ≠ i ∧ a.tags[t].rank ≠ none)).length + 1) ∧
    ∀ t : TagIx, t ≠ i → (a.giveGrant i n now).tags[t].rank = (a.dropRank i).tags[t].rank := by
  have hr : (a.dropRank i).ranked = ((List.finRange 16).filter fun t : TagIx =>
      decide (t ≠ i ∧ a.tags[t].rank ≠ none)).length := by
    have e : (a.dropRank i).tags.toList = (List.finRange 16).map fun t : TagIx => (a.dropRank i).tags[t] := by
      apply List.ext_getElem <;> simp
    rw [AlaRt.ranked, e, List.filter_map, List.length_map]
    congr 1
    refine List.filter_congr fun t _ => ?_
    simp only [Function.comp, AlaRt.dropRank_rank]
    by_cases e : t = i
    · simp [e]
    · cases h : a.tags[t].rank <;> simp [e, Ne.symm e]
  constructor
  · simp [AlaRt.giveGrant, hr]
  · intro t ht
    simp only [AlaRt.giveGrant, updAt_get, if_neg (Ne.symm ht)]

theorem AlaRt.giveGrant_sum (a : AlaRt) (t : TagIx) (n : Nat) (now : RingTime) :
    (a.giveGrant t n now).sum + a.tags[t].grant = a.sum + n := by
  have := (a.dropRank t).sum_updAt t fun r =>
    { r with grant := n, time := now, rank := some ((a.dropRank t).ranked + 1) }
  rw [a.dropRank_grant, a.dropRank_sum] at this
  exact this

theorem AlaRt.clearGrant_shrinks (st : Settings) (a : AlaRt) (t : TagIx) :
    Shrinks st a (a.clearGrant t) := by
  refine ⟨by simp, .inr fun k => ?_⟩
  rw [a.clearGrant_grant]
  split
  · exact Nat.zero_le _
  · exact Nat.le_refl _

theorem AlaRt.clearGrant_claims {a : AlaRt} (t : TagIx) (h : a.claimsOk) : (a.clearGrant t).claimsOk := by
  obtain ⟨hn, hi⟩ := h
  have htag : (a.clearGrant t).queue.map Claim.tag = a.queue.map Claim.tag := by
    simp only [AlaRt.clearGrant, List.map_map, AlaRt.dropRank_queue]
    apply List.map_congr_left
    intro q _
    simp only [Function.comp]
    split <;> rfl
  refine ⟨by rw [htag]; exact hn, ?_⟩
  intro q hq
  simp only [AlaRt.clearGrant, AlaRt.dropRank_queue, List.mem_map] at hq
  obtain ⟨p, hp, rfl⟩ := hq
  rw [a.clearGrant_grant]
  split
  · next e => exact ⟨(hi p hp).1, by simp [e]⟩
  · next e => rw [if_neg (Ne.symm e)]; exact hi p hp

/-! ### Requests of the queue -/

theorem calm_released (s : State) (t : TagIx) :
    Calm s (if s.settings.tags[t].owner = .none then s.modAla fun a => a.clearGrant t
      else (s.modAla fun a => a.clearGrant t).hand (.released s.settings.tags[t].owner t)) where
  eq := by split <;> rfl
  evu := by split <;> exact EvuStep.refl
  class1 := by split <;> exact id
  work := by split <;> simp
  seq := by split <;> exact id
  claims h := by split <;> exact AlaRt.clearGrant_claims t h
  shrinks := by split <;> exact AlaRt.clearGrant_shrinks _ _ t
  cf := by split <;> exact fun _ => id
  grants _ k ho hg := by
    by_cases e : t = k
    · subst e
      right
      rw [if_neg (by rw [ho]; simp), ho]
      simp [noticed]
    · left
      split <;> simp only [State.hand_ala, State.modAla_ala, AlaRt.clearGrant_grant, if_neg e] <;>
        exact hg

theorem calm_grantHead (s : State) (q : Claim) (rest : List Claim) (own : Option TagIx)
    (hq : s.ala.queue = q :: rest) (hf : s.fits q = true) : Calm s (s.grantHead q own) := by
  have hsum := s.ala.giveGrant_sum q.tag q.amount s.rif.ringTime
  have hle := s.ala.grant_le_sum q.tag
  have key : Calm s (s.modAla fun a =>
      { a.giveGrant q.tag q.amount s.rif.ringTime with queue := a.queue.tail }) := by
    refine Calm.alaTo _ ?_ ?_ ?_
    · rintro ⟨hn, hi⟩
      rw [hq] at hn hi
      simp only [List.map_cons, List.nodup_cons] at hn
      refine ⟨by simp [hq, hn.2], ?_⟩
      intro p hp
      simp only [hq, List.tail_cons] at hp
      have hne : q.tag ≠ p.tag := fun e => hn.1 (e ▸ List.mem_map_of_mem hp)
      rw [show ({ s.ala.giveGrant q.tag q.amount s.rif.ringTime with queue := s.ala.queue.tail } :
        AlaRt).tags[p.tag].grant = s.ala.tags[p.tag].grant by
          simp only [AlaRt.giveGrant_grant, if_neg hne]]
      exact hi p (List.mem_cons_of_mem _ hp)
    · refine ⟨s.ala.giveGrant_mode q.tag q.amount s.rif.ringTime, .inl ?_⟩
      have hf' := of_decide_eq_true hf
      simp only [State.budget, State.tag] at hf'
      show (s.ala.giveGrant q.tag q.amount s.rif.ringTime).sum ≤
        s.settings.capacity (s.ala.giveGrant q.tag q.amount s.rif.ringTime).mode
      rw [AlaRt.giveGrant_mode]
      split at hf' <;> omega
    · intro hc k _ hg
      show (s.ala.giveGrant q.tag q.amount s.rif.ringTime).tags[k].grant ≠ 0
      rw [AlaRt.giveGrant_grant]
      split
      · exact (hc.2 q (by simp [hq])).1
      · exact hg
  unfold State.grantHead
  split
  · exact key
  · exact key.trans (calm_takeGrant _ _ _)

theorem calm_headTestUpTo (own : Option TagIx) (n : Nat) (s : State) :
    Calm s (headTestUpTo own n s) := by
  induction n generalizing s with
  | zero => exact Calm.refl s
  | succ n ih =>
    unfold headTestUpTo
    split
    · exact Calm.refl s
    · next q rest hq =>
      split
      · next h =>
        simp only [Bool.and_eq_true] at h
        exact (calm_grantHead s q rest own hq h.1).trans (ih _)
      · exact Calm.refl s

theorem calm_headTest (s : State) (own : Option TagIx) : Calm s (s.headTest own) :=
  calm_headTestUpTo own _ s

theorem calm_freeTag (s : State) (t : TagIx) : Calm s (s.freeTag t) := by
  unfold State.freeTag
  split
  · exact Calm.refl s
  · exact (calm_released s t).trans (calm_headTest _ _)

theorem calm_withdraw (s : State) (who : Claimant) (t : TagIx) : Calm s (s.withdraw who t) := by
  unfold State.withdraw
  split
  · refine Calm.trans ?_ (calm_headTest _ _)
    refine Calm.alaTo _ ?_ ⟨rfl, .inr fun _ => Nat.le_refl _⟩ fun _ _ _ h => h
    rintro ⟨hn, hi⟩
    exact ⟨hn.sublist (List.filter_sublist.map _), fun q hq => hi q (List.mem_filter.mp hq).1⟩
  · exact Calm.refl s

theorem calm_withdrawAll (s : State) (who : Claimant) : Calm s (s.withdrawAll who) := by
  unfold State.withdrawAll
  split
  · refine Calm.trans ?_ (calm_headTest _ _)
    refine Calm.alaTo _ ?_ ⟨rfl, .inr fun _ => Nat.le_refl _⟩ fun _ _ _ h => h
    rintro ⟨hn, hi⟩
    exact ⟨hn.sublist (List.filter_sublist.map _), fun q hq => hi q (List.mem_filter.mp hq).1⟩
  · exact Calm.refl s

theorem claimsOk_enqueue (s : State) (q : Claim) (hq : s.ala.queued q.tag = false) (ha : q.amount ≠ 0)
    (hi : q.increase = true ↔ s.ala.tags[q.tag].grant ≠ 0) (h : s.ala.claimsOk) :
    (s.enqueue q).ala.claimsOk := by
  obtain ⟨hn, hc⟩ := h
  have hnot : q.tag ∉ s.ala.queue.map Claim.tag := by
    simp only [AlaRt.queued, List.any_eq_false, beq_iff_eq] at hq
    simp only [List.mem_map, not_exists, not_and]
    exact hq
  set p : Claim → Bool := fun e => decide (s.settings.tags[e.tag].cls ≤ s.settings.tags[q.tag].cls)
  have hperm : ((s.enqueue q).ala.queue).Perm (q :: s.ala.queue) := by
    show (s.ala.queue.takeWhile p ++ q :: s.ala.queue.dropWhile p).Perm _
    refine List.perm_middle.trans (List.Perm.cons _ ?_)
    rw [List.takeWhile_append_dropWhile]
  refine ⟨(hperm.map Claim.tag).nodup_iff.mpr (by simpa using ⟨by simpa using hnot, hn⟩), ?_⟩
  intro e he
  rcases List.mem_cons.mp (hperm.mem_iff.mp he) with rfl | he
  · exact ⟨ha, hi⟩
  · exact hc e he

theorem calm_joinQueue (s : State) (t : TagIx) (n : Nat) (who : Claimant) (inc : Bool)
    (hq : s.ala.queued t = false) (hn : n ≠ 0) (hi : inc = true ↔ s.ala.tags[t].grant ≠ 0) :
    Calm s (s.joinQueue t n who inc).1 := by
  unfold State.joinQueue
  refine Calm.trans ?_ (calm_headTest _ _)
  exact Calm.alaTo _ (claimsOk_enqueue s ⟨t, n, who, inc⟩ hq hn hi)
    ⟨rfl, .inr fun _ => Nat.le_refl _⟩ fun _ _ _ h => h

theorem calm_claimTag (s : State) (t : TagIx) (n : Nat) (who : Claimant) :
    Calm s (s.claimTag t n who).1 := by
  unfold State.claimTag
  dsimp only
  split
  · exact Calm.refl s
  · next h =>
    have hq : s.ala.queued t = false := by
      simp only [Bool.or_eq_true, not_or, Bool.not_eq_true] at h
      exact h.2
    split
    · next hg =>
      split
      · exact Calm.refl s
      · next hn => exact calm_joinQueue s t n who false hq hn (by simpa [State.tag] using hg)
    · next hg =>
      split
      · exact calm_freeTag s t
      · next hn =>
        split
        · next hle =>
          refine Calm.trans ?_ (calm_headTest _ _)
          have hl : n ≤ s.ala.tags[t].grant := hle
          refine Calm.alaTo _ ?_ ?_ ?_
          · rintro ⟨hd, hc⟩
            refine ⟨hd, fun q hqm => ?_⟩
            have hne : t ≠ q.tag := by
              rintro rfl
              simp only [AlaRt.queued, List.any_eq_false, beq_iff_eq] at hq
              exact hq q hqm rfl
            rw [updAt_other _ _ hne]
            exact hc q hqm
          · refine ⟨rfl, .inr fun k => ?_⟩
            by_cases e : t = k
            · subst e
              simp only [updAt_same]
              exact hl
            · simp only [updAt_other _ _ e, Nat.le_refl]
          · intro _ k _ hk
            by_cases e : t = k
            · subst e; rw [updAt_same]; exact hn
            · rwa [updAt_other _ _ e]
        · split
          · next hroom =>
            have hs := s.ala.giveGrant_sum t n s.rif.ringTime
            have hl := s.ala.grant_le_sum t
            refine Calm.alaTo _ ?_ ?_ ?_
            · intro _
              exact ⟨by simp [hroom.2], by simp [hroom.2]⟩
            · refine ⟨s.ala.giveGrant_mode t n s.rif.ringTime, .inl ?_⟩
              have h1 := hroom.1
              simp only [State.tag, State.budget] at h1
              show (s.ala.giveGrant t n s.rif.ringTime).sum ≤
                s.settings.capacity (s.ala.giveGrant t n s.rif.ringTime).mode
              rw [AlaRt.giveGrant_mode]
              omega
            · intro _ k _ hk
              show (s.ala.giveGrant t n s.rif.ringTime).tags[k].grant ≠ 0
              rw [AlaRt.giveGrant_grant]
              split
              · exact hn
              · exact hk
          · exact calm_joinQueue s t n who true hq hn (by simpa [State.tag] using hg)

/-! ### What the head test leaves in SEQ -/

theorem told_headTestUpTo (own : Option TagIx) (n : Nat) (s : State) : Told s (headTestUpTo own n s) := by
  induction n generalizing s with
  | zero => exact Told.refl s
  | succ n ih =>
    unfold headTestUpTo
    split
    · exact Told.refl s
    · next q _ _ =>
      split
      · refine Told.trans ?_ (ih _)
        unfold State.grantHead
        dsimp only
        split
        · exact Told.of_seq rfl
        · exact Told.trans (t := s.modAla _) (Told.of_seq rfl) (told_takeGrant _ _ _)
      · exact Told.refl s

theorem told_headTest (s : State) (own : Option TagIx) : Told s (s.headTest own) :=
  told_headTestUpTo own _ s

theorem told_freeTag (s : State) (t : TagIx) : Told s (s.freeTag t) := by
  unfold State.freeTag
  split
  · exact Told.refl s
  · refine Told.trans (Told.of_seq ?_) (told_headTest _ _)
    split <;> rfl

theorem told_withdraw (s : State) (who : Claimant) (t : TagIx) : Told s (s.withdraw who t) := by
  unfold State.withdraw
  split
  · exact Told.trans (t := s.modAla _) (Told.of_seq rfl) (told_headTest _ _)
  · exact Told.refl s

theorem told_withdrawAll (s : State) (who : Claimant) : Told s (s.withdrawAll who) := by
  unfold State.withdrawAll
  split
  · exact Told.trans (t := s.modAla _) (Told.of_seq rfl) (told_headTest _ _)
  · exact Told.refl s

theorem told_joinQueue (s : State) (t : TagIx) (n : Nat) (who : Claimant) (inc : Bool) :
    Told s (s.joinQueue t n who inc).1 :=
  Told.trans (t := s.enqueue _) (Told.of_seq rfl) (told_headTest _ _)

theorem told_claimTag (s : State) (t : TagIx) (n : Nat) (who : Claimant) :
    Told s (s.claimTag t n who).1 := by
  unfold State.claimTag
  dsimp only
  split
  · exact Told.refl s
  · split
    · split
      · exact Told.refl s
      · exact told_joinQueue ..
    · split
      · exact told_freeTag s t
      · split
        · exact Told.trans (t := s.modAla _) (Told.of_seq rfl) (told_headTest _ _)
        · split
          · exact Told.of_seq rfl
          · exact told_joinQueue ..

end Sys2Proof.Machine
end

