-- ==== Sys2Proof/Laws/Sequencer.lean ====
section
/-! SUPPORT. Laws/Sequencer.lean: what SEQ's operations keep: the law of R46 on the engine and the open
frame, and, through `Calm`, everything of other blocks. -/

namespace Sys2Proof.Machine

/-! ### The Frame Builder -/

/-- With no open frame, the engine law speaks of the engine alone. -/
theorem engineOk_noFrame {q : SeqRt} (h : q.engineOk) : SeqRt.engineOk { q with opened := none } :=
  ⟨h.1, fun _ e => by cases e⟩

theorem calm_queueWait (s : State) (c : ChanIx) (f : CmdFrame) (ho : s.seq.opened = none) :
    Calm s (s.queueWait c f) :=
  calm_leave c _ (by simp) fun _ o h => by rw [ho] at h; cases h

theorem calm_closeFrame (s : State) (c : ChanIx) : Calm s (s.closeFrame c).1 := by
  unfold State.closeFrame
  split
  · exact Calm.refl s
  · have h1 : Calm s (s.modSeq fun q => { q with opened := none }) := Calm.seqTo _ engineOk_noFrame
    dsimp only
    split
    · next hr => exact h1.trans (Calm.pushClass1 _ hr)
    · exact h1.trans (calm_queueWait _ c _ rfl)

/-- After a close there is no open frame; when the channel goes on, SEQ is otherwise as it was. -/
theorem closeFrame_opened (s : State) (c : ChanIx) : (s.closeFrame c).1.seq.opened = none := by
  unfold State.closeFrame
  split
  · assumption
  · dsimp only
    split <;> rfl

theorem closeFrame_chans (s : State) (c : ChanIx) (h : (s.closeFrame c).2 = true) :
    (s.closeFrame c).1.seq = { s.seq with opened := none } := by
  unfold State.closeFrame at h ⊢
  split
  · next ho => rw [← ho]
  · next ho =>
    rw [ho] at h
    dsimp only at h ⊢
    split
    · rfl
    · next hr => simp [hr] at h

/-! ### Ends of a run -/

theorem calm_terminalCount (s : State) (c : ChanIx) : Calm s (s.terminalCount c) := by
  unfold State.terminalCount
  dsimp only
  split
  · exact (calm_closeFrame s c).trans
      (calm_finishRun _ c fun _ o h => by rw [closeFrame_opened] at h; cases h)
  · exact calm_closeFrame s c

theorem calm_stepFault (s : State) (c : ChanIx) (f : StepFault)
    (hopen : s.seq.engineOk → ∀ o, s.seq.opened = some o → o.chan ≠ c) : Calm s (s.stepFault c f) := by
  unfold State.stepFault
  dsimp only
  exact ((calm_leave c _ (by simp) hopen).trans (Calm.raise _ _)).trans (calm_notifyOwner _ _ _)

theorem calm_withdrawChan (s : State) (c : ChanIx) : Calm s (s.withdrawChan c) := by
  unfold State.withdrawChan
  split
  · exact calm_withdraw ..
  · exact Calm.refl s

theorem calm_offerOrDrop (s : State) (f : CmdFrame) : Calm s (s.offerOrDrop f) := by
  unfold State.offerOrDrop
  split
  · exact Calm.pushClass1 _ ‹_›
  · exact Calm.refl s

theorem offerOrDrop_seq (s : State) (f : CmdFrame) : (s.offerOrDrop f).seq = s.seq := by
  unfold State.offerOrDrop; split <;> rfl

theorem calm_dropOpen (s : State) (c : ChanIx) : Calm s (s.dropOpen c) := by
  unfold State.dropOpen
  split
  · exact Calm.refl s
  · split
    · exact (Calm.seqTo _ engineOk_noFrame).trans (calm_offerOrDrop _ _)
    · exact Calm.refl s

theorem calm_dropHeld (s : State) (c : ChanIx) : Calm s (s.dropHeld c) := by
  unfold State.dropHeld
  split
  · exact Calm.refl s
  · exact (calm_modChan c _ Iff.rfl).trans (calm_offerOrDrop _ _)

theorem dropOpen_opened (s : State) (c : ChanIx) :
    ∀ o, (s.dropOpen c).seq.opened = some o → o.chan ≠ c := by
  unfold State.dropOpen
  intro o ho
  split at ho
  · next h => rw [h] at ho; cases ho
  · next p h =>
    split at ho
    · rw [offerOrDrop_seq] at ho; cases ho
    · next hc => rw [h] at ho; cases ho; exact hc

theorem dropHeld_opened (s : State) (c : ChanIx) : (s.dropHeld c).seq.opened = s.seq.opened := by
  unfold State.dropHeld
  split
  · rfl
  · rw [offerOrDrop_seq]; rfl

theorem calm_abortChan (s : State) (c : ChanIx) (p : Party) : Calm s (s.abortChan c p) := by
  unfold State.abortChan
  split
  · exact Calm.refl s
  · dsimp only
    refine Calm.trans ?_ (calm_notifyOwner _ _ _)
    refine Calm.trans ?_ (Calm.raise _ _)
    refine (((calm_withdrawChan s c).trans (calm_dropOpen _ c)).trans (calm_dropHeld _ c)).trans ?_
    exact calm_leave c _ (by simp) fun _ => by rw [dropHeld_opened]; exact dropOpen_opened _ c

/-! ### Steps of the engine -/

/-- A channel leaves the engine after a close that let it go on. -/
theorem calm_closeLeave (s : State) (c : ChanIx) (f : ChanRt → ChanRt)
    (h : ∀ r, (f r).state ≠ .running) :
    Calm s (if (s.closeFrame c).2 then ((s.closeFrame c).1.modChan c f).releaseEngine c
      else (s.closeFrame c).1) := by
  split
  · exact (calm_closeFrame s c).trans
      (calm_leave c f (h _) fun _ o ho => by rw [closeFrame_opened] at ho; cases ho)
  · exact calm_closeFrame s c

theorem calm_afterStep (s : State) (c : ChanIx) : Calm s (s.afterStep c) := by
  unfold State.afterStep
  split
  · exact calm_terminalCount s c
  · split
    · exact calm_closeLeave s c _ fun _ => by simp
    · exact Calm.refl s

theorem calm_completeNow (s : State) (c : ChanIx) : Calm s (s.completeNow c) :=
  (calm_completeStep s c).trans (calm_afterStep _ c)

theorem calm_suspend (s : State) (c : ChanIx) : Calm s (s.suspend c) :=
  calm_closeLeave s c _ fun _ => by simp

theorem calm_goOn (s : State) (c : ChanIx) : Calm s (s.goOn c) := by
  unfold State.goOn
  split
  · exact calm_terminalCount s c
  · split
    · exact Calm.refl s
    · exact calm_suspend s c

/-- The engine goes to a channel that is REQUESTED. -/
theorem engineOk_grant {q : SeqRt} (c : ChanIx) (hq : q.holder = none) (ho : q.engineOk) :
    SeqRt.engineOk { q with
      holder := some c, lastGranted := c
      chans := updAt q.chans c fun r => { r with state := .running } } := by
  refine ⟨fun d => ?_, fun o h => ?_⟩
  · show (updAt q.chans c _)[d].state = _ ↔ some c = some d
    by_cases e : c = d
    · subst e; rw [updAt_same]; simp
    · rw [updAt_other _ _ e, ho.1 d, hq]; simp [e]
  · have := (ho.2 o h).1
    rw [hq] at this; cases this

theorem calm_resume (s : State) (c : ChanIx) (h : (s.chan c).held = none ∨ s.class1Room = true) :
    Calm s (s.resume c) := by
  unfold State.resume
  split
  · exact calm_goOn s c
  · next hf =>
    have hr : s.class1Room = true := h.resolve_left (by rw [hf]; simp)
    rw [if_pos hr]
    exact ((calm_modChan (s := s) c (fun r => { r with held := none }) Iff.rfl).trans
      (Calm.pushClass1 _ hr)).trans (calm_goOn _ c)

theorem calm_grantEngine (s : State) : Calm s s.grantEngine := by
  unfold State.grantEngine
  split
  · exact Calm.refl s
  · next hh =>
    split
    · exact Calm.refl s
    · next c _ =>
      have h1 : Calm s ((s.modSeq fun q => { q with holder := some c, lastGranted := c }).modChan c
          fun r => { r with state := .running }) := Calm.seqTo (s := s) _ (engineOk_grant c hh)
      by_cases hr : (((s.modSeq fun q => { q with holder := some c, lastGranted := c }).modChan c
          fun r => { r with state := .running }).chan c).held = none ∨ s.class1Room = true
      · exact h1.trans (calm_resume _ c hr)
      · simp only [not_or] at hr
        unfold State.resume
        split
        · next e => exact absurd e hr.1
        · split
          · next hy => exact absurd hy hr.2
          refine Calm.seqTo (s := s) _ fun ho => ?_
          refine engineOk_leave (q := { s.seq with
            holder := some c, lastGranted := c
            chans := updAt s.seq.chans c fun r => { r with state := .running } }) c
            (fun r => { r with state := .waiting .queue }) (by simp) ?_ (engineOk_grant c hh ho)
          intro o h
          have := (ho.2 o h).1
          rw [hh] at this; cases this

/-- A turn of the engine keeps what the step keeps, for the channel that holds it and runs. -/
theorem calm_engineStep (s : State) (f : State → ChanIx → Step → Option State)
    (h : ∀ c st t, s.seq.holder = some c → (s.chan c).state = .running → f s c st = some t → Calm s t) :
    Calm s (s.engineStep f) := by
  unfold State.engineStep
  split
  · exact Calm.refl s
  · next c hc =>
    split
    · exact Calm.refl s
    · next t ht =>
      split
      · next hr =>
        split
        · exact h c _ t hc hr.1 ht
        · exact calm_suspend s c
      · exact Calm.refl s

/-- A full frame is closed at once: it is enough that the part without it keeps what it keeps. -/
theorem calm_closeFull {s u : State} (c : ChanIx) (o : OpenFrame) (ho : u.seq.opened = some o)
    (h : Calm s (u.modSeq fun q => { q with opened := none })) : Calm s (u.closeFrame c).1 := by
  unfold State.closeFrame
  rw [ho]
  dsimp only
  generalize hv : (u.modSeq fun q => { q with opened := none }) = v at h
  have hn : v.seq.opened = none := by rw [← hv]; rfl
  by_cases hr : v.class1Room = true
  · rw [if_pos hr]; exact h.trans (Calm.pushClass1 _ hr)
  · rw [if_neg hr]; exact h.trans (calm_queueWait _ c _ hn)

theorem calm_addItem (s : State) (c : ChanIx) (o : OpenFrame) (i : CmdItem) (hc : s.seq.holder = some c)
    (ho : s.seq.engineOk → o.chan = c ∧ o.items.length ≤ 7) : Calm s (s.addItem c o i) := by
  unfold State.addItem
  dsimp only
  split
  · next hl =>
    refine Calm.trans (Calm.seqTo (s := s) { s.seq with
      opened := some { o with items := o.items ++ [i] }
      chans := updAt s.seq.chans c ChanRt.completeStep } ?_) (calm_afterStep _ c)
    intro he
    refine ⟨(engineOk_chan c ChanRt.completeStep Iff.rfl he).1, ?_⟩
    rintro p hp
    cases hp
    obtain ⟨h1, h2⟩ := ho he
    refine ⟨?_, by simp, by simp at hl ⊢; omega⟩
    show s.seq.holder = some o.chan
    rw [hc, h1]
  · have h1 : Calm s ((((s.modSeq fun q => { q with opened := some { o with items := o.items ++ [i] } }).modChan
        c ChanRt.completeStep)).modSeq fun q => { q with opened := none }) :=
      Calm.seqTo (s := s) { s.seq with opened := none, chans := updAt s.seq.chans c ChanRt.completeStep }
        fun he => engineOk_noFrame (engineOk_chan c ChanRt.completeStep Iff.rfl he)
    have h2 := calm_closeFull c _ rfl h1
    split
    · exact h2.trans (calm_afterStep _ c)
    · exact h2

theorem calm_emitStep (s : State) (c : ChanIx) (n : Node) (i : CmdItem) (hc : s.seq.holder = some c) :
    Calm s (s.emitStep c n i) := by
  unfold State.emitStep
  dsimp only
  split
  · exact calm_addItem s c _ i hc fun _ => ⟨rfl, by simp⟩
  · next o ho =>
    split
    · refine calm_addItem s c o i hc fun he => ?_
      have := he.2 o ho
      rw [hc] at this
      exact ⟨(Option.some.inj this.1).symm, this.2.2⟩
    · split
      · next hp =>
        refine (calm_closeFrame s c).trans (calm_addItem _ c _ i ?_ fun _ => ⟨rfl, by simp⟩)
        rw [closeFrame_chans s c hp]
        exact hc
      · exact calm_closeFrame s c

theorem calm_afterClose (s : State) (c : ChanIx) (f : State → State)
    (h : ∀ t, t.seq.opened = none → Calm t (f t)) : Calm s (s.afterClose c f) := by
  unfold State.afterClose
  dsimp only
  split
  · exact (calm_closeFrame s c).trans (h _ (closeFrame_opened s c))
  · exact calm_closeFrame s c

theorem calm_waitFor (s : State) (c : ChanIx) (k : WaitKind) (ho : s.seq.opened = none) :
    Calm s (s.waitFor c k) :=
  calm_leave c _ (by simp) fun _ o h => by rw [ho] at h; cases h

theorem calm_awaitStep (s : State) (c : ChanIx) (i : SigIx) (sense : Sense) (level : Int) :
    Calm s (s.awaitStep c i sense level) := by
  refine calm_afterClose s c _ fun t ht => ?_
  split
  · exact calm_completeNow t c
  · exact calm_waitFor t c _ ht

theorem calm_claimStep (s : State) (c : ChanIx) (t : TagIx) (n : Nat) :
    Calm s (s.claimStep c t n) := by
  refine calm_afterClose s c _ fun u hu => ?_
  have h := calm_claimTag u t n (.chan c)
  have ho : (u.claimTag t n (.chan c)).1.seq.opened = none := by rw [(told_claimTag u t n _).opened]; exact hu
  dsimp only
  split
  · exact h.trans (calm_completeNow _ c)
  · exact h.trans (calm_waitFor _ c _ ho)
  · exact h.trans (calm_stepFault _ c _ fun _ o e => by rw [ho] at e; cases e)

theorem calm_freeStep (s : State) (c : ChanIx) (t : TagIx) : Calm s (s.freeStep c t) :=
  (calm_freeTag s t).trans (calm_completeNow _ c)

theorem calm_linkStep (s : State) (c : ChanIx) : Calm s (s.linkStep c) :=
  (calm_modChan c _ Iff.rfl).trans (calm_terminalCount _ c)

/-! ### What other blocks and time tell SEQ -/

/-- A change of every channel that starts and stops none. -/
theorem engineOk_map {q : SeqRt} (f : ChanRt → ChanRt)
    (h : ∀ r, (f r).state = .running ↔ r.state = .running) (ho : q.engineOk) :
    SeqRt.engineOk { q with chans := q.chans.map f } := by
  refine ⟨fun c => ?_, ho.2⟩
  have : (q.chans.map f)[c] = f q.chans[c] := by simp
  show (q.chans.map f)[c].state = _ ↔ _
  rw [this, h]
  exact ho.1 c

theorem calm_releaseQueueWaits (s : State) : Calm s s.releaseQueueWaits := by
  refine Calm.seqTo _ (engineOk_map _ fun r => ?_)
  split
  · next h => simp [h]
  · exact Iff.rfl

theorem calm_seqTick (s : State) : Calm s s.seqTick := by
  refine Calm.seqTo _ (engineOk_map _ fun r => ?_)
  unfold ChanRt.tick
  split <;> simp_all

theorem calm_updateChan (s : State) (i : SigIx) (v : Int) (q : Quality) (c : ChanIx) :
    Calm s (s.updateChan i v q c) := by
  unfold State.updateChan
  split
  · next h _ =>
    split
    · exact calm_completeWait s c (by rw [h]; simp)
    · exact Calm.refl s
  · next h =>
    dsimp only
    split
    · exact calm_modChan c _ (by simp [h])
    · exact Calm.refl s
  · exact Calm.refl s

theorem calm_seqUpdate (s : State) (i : SigIx) (v : Int) (q : Quality) : Calm s (s.seqUpdate i v q) :=
  calm_foldl _ (fun s c => calm_updateChan s i v q c) _ s

theorem calm_awaitExpiry (s : State) (c : ChanIx) : Calm s (s.awaitExpiry c) := by
  unfold State.awaitExpiry
  split
  · next h _ =>
    split
    · exact calm_stepFault s c _ (waiting_noFrame (by rw [h]; simp))
    · exact Calm.refl s
  · exact Calm.refl s

theorem calm_dwellExpiry (s : State) (c : ChanIx) : Calm s (s.dwellExpiry c) := by
  unfold State.dwellExpiry
  split
  · next h _ =>
    split
    · exact calm_completeWait s c (by rw [h]; simp)
    · exact Calm.refl s
  · exact Calm.refl s

theorem calm_claimExpiry (s : State) (c : ChanIx) : Calm s (s.claimExpiry c) := by
  unfold State.claimExpiry
  split
  · next h _ =>
    split
    · refine (calm_withdraw s _ _).trans (calm_stepFault _ c _ (waiting_noFrame ?_))
      exact (told_withdraw s _ _).notRunning c (by rw [h]; simp)
    · exact Calm.refl s
  · exact Calm.refl s

/-! ### Management requests -/

theorem calm_startChan (s : State) (c : ChanIx) : Calm s (s.startChan c).1 := by
  unfold State.startChan
  split
  · next h =>
    simp only [State.isMasked, beq_iff_eq] at h
    split
    · exact calm_modChan c _ (by simp [ChanRt.load, h])
    · exact Calm.refl s
  · exact calm_request ..

theorem calm_unmaskRequest (s : State) (c : ChanIx) : Calm s (s.unmaskRequest c).1 := by
  unfold State.unmaskRequest
  split
  · split
    · exact calm_unmaskChan s c
    · exact Calm.refl s
  · exact Calm.refl s

theorem calm_maskRequest (s : State) (c : ChanIx) : Calm s (s.maskRequest c).1 := by
  unfold State.maskRequest
  split
  · next h => exact calm_modChan c _ (by simp [h])
  all_goals exact Calm.refl s

theorem calm_abortRequest (s : State) (c : ChanIx) : Calm s (s.abortRequest c).1 := by
  unfold State.abortRequest
  split
  · exact Calm.refl s
  · exact calm_abortChan s c _

end Sys2Proof.Machine
end

