-- ==== Sys2Proof/Laws/Reach.lean ====
section
/-! SUPPORT. Laws/Reach.lean: `Reach s t` says all that the blocks' reactions within one command can do to
the part: pins, part state, image, settings, ports, ring time, class 3 and the queue of commands stay as
they are, and every law of Safety.lean is kept. `ReachBase` leaves out the three laws that a reaction may
break and mend before it ends. -/

namespace Sys2Proof.Machine

/-! ### Class 0 (R176) -/

/-- The shapes, one by one. -/
theorem class0Shape_cases {q : List Class0} (h : class0Shape q = true) :
    q = [] ∨ (∃ g, q = [g]) ∨ (∃ a b c d, q = [.ref a b c, .block d]) ∨
      (∃ d a b c, q = [.block d, .ref a b c]) ∨
      ∃ a b c d a' b' c', q = [.ref a b c, .block d, .ref a' b' c'] := by
  unfold class0Shape at h
  split at h
  · exact .inl rfl
  · exact .inr (.inl ⟨_, rfl⟩)
  · exact .inr (.inr (.inl ⟨_, _, _, _, rfl⟩))
  · exact .inr (.inr (.inr (.inl ⟨_, _, _, _, rfl⟩)))
  · exact .inr (.inr (.inr (.inr ⟨_, _, _, _, _, _, _, rfl⟩)))
  · cases h

theorem placeRefIn_shape (d : Node) (iq ip : Nat) (q : List Class0) (h : class0Shape q = true) :
    class0Shape (placeRefIn (.ref d iq ip) q) = true := by
  obtain rfl | ⟨g, rfl⟩ | ⟨_, _, _, _, rfl⟩ | ⟨_, _, _, _, rfl⟩ | ⟨_, _, _, _, _, _, _, rfl⟩ :=
    class0Shape_cases h
  · rfl
  · cases g <;> rfl
  all_goals rfl

theorem placeBlockIn_shape (d : Node) (q : List Class0) (h : class0Shape q = true) :
    class0Shape (placeBlockIn d q) = true := by
  obtain rfl | ⟨g, rfl⟩ | ⟨_, _, _, _, rfl⟩ | ⟨_, _, _, _, rfl⟩ | ⟨_, _, _, _, _, _, _, rfl⟩ :=
    class0Shape_cases h
  · rfl
  · cases g <;> rfl
  all_goals rfl

theorem class0Shape_length {q : List Class0} (h : class0Shape q = true) : q.length ≤ 3 := by
  obtain rfl | ⟨g, rfl⟩ | ⟨_, _, _, _, rfl⟩ | ⟨_, _, _, _, rfl⟩ | ⟨_, _, _, _, _, _, _, rfl⟩ :=
    class0Shape_cases h <;> simp

/-- A Block Command stays queued when a Reference Frame is placed. -/
theorem placeRefIn_block (f : Class0) (q : List Class0) (d : Node) (h : Class0.block d ∈ q) :
    Class0.block d ∈ placeRefIn f q := by
  induction q with
  | nil => cases h
  | cons g q ih =>
    cases q with
    | nil =>
      simp only [List.mem_singleton] at h
      subst h
      simp [placeRefIn, Class0.isRef]
    | cons g' q =>
      simp only [placeRefIn]
      rcases List.mem_cons.mp h with h | h
      · rw [h]; exact List.mem_cons_self ..
      · exact List.mem_cons_of_mem _ (ih h)

/-- A Block Command is queued after one is placed. -/
theorem placeBlockIn_block (d : Node) (q : List Class0) : ∃ e, Class0.block e ∈ placeBlockIn d q := by
  unfold placeBlockIn
  split
  · exact ⟨d, by simp⟩
  · next b hb =>
    have hm := List.mem_of_find?_eq_some hb
    have hp := List.find?_some hb
    cases b with
    | ref _ _ _ => simp [Class0.isRef] at hp
    | block e =>
      refine ⟨e, ?_⟩
      split
      · simp
      · exact hm

/-! ### Laws on one block alone -/

def YawRt.hardOk (y : YawRt) (p : YawCfg) : Prop :=
  y.state = .driving → ¬(y.increases y.direction = true ∧ p.hardLimit ≤ y.twist.natAbs)

def YawRt.rangeOk (y : YawRt) : Prop := y.window.length ≤ 64 ∧ -1000000 ≤ y.twist ∧ y.twist ≤ 1000000

def AlwRt.alwOk (a : AlwRt) : Prop :=
  a.lastIq ≤ a.ith ∧ a.ith ≤ a.a ∧ a.lastIp ≤ activeCap a.ith a.lastIq

/-- R125 on the blocks it names. -/
def grantHeld (y : YawRt) (a : AlaRt) (st : Settings) (w : List Work) : Prop :=
  y.state = .driving → (st.tags[st.yaw.tag].owner = .yaw ∧ a.tags[st.yaw.tag].grant ≠ 0) ∨
    noticed w st.yaw.tag

theorem yawGrantLaw_iff (s : State) : YawGrantLaw s ↔ grantHeld s.yaw s.ala s.settings s.work :=
  Iff.rfl

structure ReachBase (s t : State) : Prop where
  eq : t = { s with
    evu := t.evu
    rif := { s.rif with class0 := t.rif.class0, class1 := t.rif.class1, class2 := t.rif.class2 }
    signals := t.signals, seq := t.seq, ala := t.ala, work := t.work, limits := t.limits
    holds := t.holds, cnv := t.cnv, alw := t.alw, yaw := t.yaw, clc := t.clc, schedule := t.schedule }
  evu : EvuStep s.settings (s.rif.portOut.state == .up) s.evu s.rif.class2 t.evu t.rif.class2
  class0 : class0Shape s.rif.class0 = true → class0Shape t.rif.class0 = true
  block : BlockQueued s → BlockQueued t
  class1 : s.rif.class1.length ≤ 6 → t.rif.class1.length ≤ 6
  seq : s.seq.engineOk → t.seq.engineOk
  claims : s.ala.claimsOk → t.ala.claimsOk
  budget : s.ala.budgetOk s.settings → t.ala.budgetOk s.settings
  range : s.yaw.rangeOk → t.yaw.rangeOk
  yawGrant : s.ala.claimsOk → YawGrantLaw s → YawGrantLaw t
  cf : s.settings.factorsBounded → s.clc.cf ≤ 16384 → t.clc.cf ≤ 16384

structure Reach (s t : State) : Prop extends ReachBase s t where
  hard : s.yaw.hardOk s.settings.yaw → t.yaw.hardOk s.settings.yaw
  rest : RestLaw s → RestLaw t
  alw : s.settings.factorsBounded → s.clc.cf ≤ 16384 → s.alw.alwOk → t.alw.alwOk

namespace ReachBase

variable {s t u : State}

theorem addrStraps (h : ReachBase s t) : t.addrStraps = s.addrStraps := by
  have := congrArg State.addrStraps h.eq; exact this
theorem bypass (h : ReachBase s t) : t.bypass = s.bypass := by
  have := congrArg State.bypass h.eq; exact this
theorem part (h : ReachBase s t) : t.part = s.part := by have := congrArg State.part h.eq; exact this
theorem image (h : ReachBase s t) : t.image = s.image := by
  have := congrArg State.image h.eq; exact this
theorem capture (h : ReachBase s t) : t.capture = s.capture := by
  have := congrArg State.capture h.eq; exact this
theorem settings (h : ReachBase s t) : t.settings = s.settings := by
  have := congrArg State.settings h.eq; exact this
theorem pending (h : ReachBase s t) : t.pending = s.pending := by
  have := congrArg State.pending h.eq; exact this
theorem class3 (h : ReachBase s t) : t.rif.class3 = s.rif.class3 := by
  have := congrArg (fun x : State => x.rif.class3) h.eq; exact this
theorem portOut (h : ReachBase s t) : t.rif.portOut = s.rif.portOut := by
  have := congrArg (fun x : State => x.rif.portOut) h.eq; exact this
theorem portIn (h : ReachBase s t) : t.rif.portIn = s.rif.portIn := by
  have := congrArg (fun x : State => x.rif.portIn) h.eq; exact this

theorem refl (s : State) : ReachBase s s where
  eq := rfl
  evu := EvuStep.refl
  class0 := id
  block := id
  class1 := id
  seq := id
  claims := id
  budget := id
  range := id
  yawGrant _ := id
  cf _ := id

theorem trans (a : ReachBase s t) (b : ReachBase t u) : ReachBase s u where
  eq := by
    have h := b.eq
    generalize u.evu = x1, u.rif.class0 = x2, u.rif.class1 = x3, u.rif.class2 = x4, u.signals = x5,
      u.seq = x6, u.ala = x7, u.work = x8, u.limits = x9, u.holds = x10, u.cnv = x11, u.alw = x12,
      u.yaw = x13, u.clc = x14, u.schedule = x15 at h
    subst h
    have h := a.eq
    generalize t.evu = x1, t.rif.class0 = x2, t.rif.class1 = x3, t.rif.class2 = x4, t.signals = x5,
      t.seq = x6, t.ala = x7, t.work = x8, t.limits = x9, t.holds = x10, t.cnv = x11, t.alw = x12,
      t.yaw = x13, t.clc = x14, t.schedule = x15 at h
    subst h
    rfl
  evu := by
    have h := b.evu
    rw [a.settings, a.portOut] at h
    exact a.evu.trans h
  class0 h := b.class0 (a.class0 h)
  block h := b.block (a.block h)
  class1 h := b.class1 (a.class1 h)
  seq h := b.seq (a.seq h)
  claims h := b.claims (a.claims h)
  budget h := by
    have := b.budget
    rw [a.settings] at this
    exact this (a.budget h)
  range h := b.range (a.range h)
  yawGrant hc h := b.yawGrant (a.claims hc) (a.yawGrant hc h)
  cf hs h := by
    have := b.cf
    rw [a.settings] at this
    exact this hs (a.cf hs h)

theorem of_calm (h : Calm s t) : ReachBase s t where
  eq := by
    have e := h.eq
    generalize t.evu = x1, t.rif.class1 = x2, t.rif.class2 = x3, t.signals = x4, t.seq = x5,
      t.ala = x6, t.work = x7, t.clc = x8 at e
    subst e
    rfl
  evu := h.evu
  class0 := by rw [h.class0]; exact id
  block := by unfold BlockQueued; rw [h.class0]; exact id
  class1 := h.class1
  seq := h.seq
  claims := h.claims
  budget := h.budget
  range := by rw [h.yaw]; exact id
  yawGrant hc hy := by
    rw [yawGrantLaw_iff] at hy ⊢
    rw [h.yaw, h.settings]
    intro hd
    obtain ⟨l, hl⟩ := h.work
    rcases hy hd with ⟨ho, hg⟩ | hn
    · have := h.grants hc _ ho hg
      exact this.imp_left fun hg => ⟨ho, hg⟩
    · right
      rw [← hl]
      exact noticed_append hn
  cf := h.cf

end ReachBase

namespace Reach

variable {s t u : State}

theorem refl (s : State) : Reach s s := ⟨ReachBase.refl s, id, id, fun _ _ => id⟩

theorem trans (a : Reach s t) (b : Reach t u) : Reach s u where
  toReachBase := a.toReachBase.trans b.toReachBase
  hard h := by
    have := b.hard
    rw [a.settings] at this
    exact this (a.hard h)
  rest h := b.rest (a.rest h)
  alw hs hc h := by
    have := b.alw
    rw [a.settings] at this
    exact this hs (a.cf hs hc) (a.alw hs hc h)

theorem of_calm (h : Calm s t) : Reach s t where
  toReachBase := ReachBase.of_calm h
  hard := by rw [h.yaw]; exact id
  rest := by unfold RestLaw; rw [h.part, h.cnv, h.yaw]; exact id
  alw := by rw [h.alw]; exact fun _ _ => id

/-- In OPERATING the rest law asks nothing. -/
theorem of_operating (h : ReachBase s t) (hard : s.yaw.hardOk s.settings.yaw → t.yaw.hardOk s.settings.yaw)
    (alw : s.settings.factorsBounded → s.clc.cf ≤ 16384 → s.alw.alwOk → t.alw.alwOk)
    (ho : s.part = .operating) : Reach s t where
  toReachBase := h
  hard := hard
  rest _ hp := absurd (h.part.trans ho) hp
  alw := alw

theorem ite (p : Prop) [Decidable p] {a b : State} (ha : p → Reach s a) (hb : ¬p → Reach s b) :
    Reach s (if p then a else b) := by
  split
  · exact ha ‹_›
  · exact hb ‹_›

theorem raise (c : Code) (d : List Int) : Reach s (s.raise c d) := of_calm (Calm.raise c d)

theorem hand (w : Work) : Reach s (s.hand w) := of_calm (Calm.hand w)

end Reach

theorem reach_foldl {β : Type} (f : State → β → State) (h : ∀ s b, Reach s (f s b)) (l : List β)
    (s : State) : Reach s (l.foldl f s) :=
  foldl_rel Reach Reach.refl (fun _ _ _ => Reach.trans) f h l s

/-! ### Changes of one upper block -/

theorem reach_limits (s : State) (v : Vector LimitRt 48) : Reach s { s with limits := v } where
  eq := rfl
  evu := EvuStep.refl
  class0 := id
  block := id
  class1 := id
  seq := id
  claims := id
  budget := id
  range := id
  yawGrant _ := id
  cf _ := id
  hard := id
  rest := id
  alw _ _ := id

theorem reach_holds (s : State) (v : Holds) : Reach s { s with holds := v } where
  eq := rfl
  evu := EvuStep.refl
  class0 := id
  block := id
  class1 := id
  seq := id
  claims := id
  budget := id
  range := id
  yawGrant _ := id
  cf _ := id
  hard := id
  rest := id
  alw _ _ := id

theorem reach_schedule (s : State) (v : List (List Reader)) : Reach s { s with schedule := v } where
  eq := rfl
  evu := EvuStep.refl
  class0 := id
  block := id
  class1 := id
  seq := id
  claims := id
  budget := id
  range := id
  yawGrant _ := id
  cf _ := id
  hard := id
  rest := id
  alw _ _ := id

theorem reach_modClc (s : State) (f : ClcRt → ClcRt)
    (h : s.settings.factorsBounded → s.clc.cf ≤ 16384 → (f s.clc).cf ≤ 16384) :
    Reach s (s.modClc f) where
  eq := rfl
  evu := EvuStep.refl
  class0 := id
  block := id
  class1 := id
  seq := id
  claims := id
  budget := id
  range := id
  yawGrant _ := id
  cf := h
  hard := id
  rest := id
  alw _ _ := id

theorem base_modCnv (s : State) (f : CnvRt → CnvRt) : ReachBase s (s.modCnv f) where
  eq := rfl
  evu := EvuStep.refl
  class0 := id
  block := id
  class1 := id
  seq := id
  claims := id
  budget := id
  range := id
  yawGrant _ := id
  cf _ := id

theorem reach_modCnv (s : State) (f : CnvRt → CnvRt)
    (h : s.part ≠ .operating → s.cnv.state = .off → (f s.cnv).state = .off) : Reach s (s.modCnv f) where
  toReachBase := base_modCnv s f
  hard := id
  rest hr hp := ⟨h hp (hr hp).1, (hr hp).2⟩
  alw _ _ := id

theorem base_modAlw (s : State) (f : AlwRt → AlwRt) : ReachBase s (s.modAlw f) where
  eq := rfl
  evu := EvuStep.refl
  class0 := id
  block := id
  class1 := id
  seq := id
  claims := id
  budget := id
  range := id
  yawGrant _ := id
  cf _ := id

theorem base_placeRef (s : State) (iq ip : Nat) : ReachBase s (s.placeRef iq ip) where
  eq := rfl
  evu := EvuStep.refl
  class0 := placeRefIn_shape _ _ _ _
  block := fun ⟨d, h⟩ => ⟨d, placeRefIn_block _ _ _ h⟩
  class1 := id
  seq := id
  claims := id
  budget := id
  range := id
  yawGrant _ := id
  cf _ := id

theorem base_placeBlock (s : State) : ReachBase s s.placeBlock where
  eq := rfl
  evu := EvuStep.refl
  class0 := placeBlockIn_shape _ _
  block _ := placeBlockIn_block _ _
  class1 := id
  seq := id
  claims := id
  budget := id
  range := id
  yawGrant _ := id
  cf _ := id

theorem base_modYaw (s : State) (f : YawRt → YawRt) (hr : s.yaw.rangeOk → (f s.yaw).rangeOk)
    (hg : (f s.yaw).state = .driving → s.yaw.state = .driving ∨ s.yawGranted = true) :
    ReachBase s (s.modYaw f) where
  eq := rfl
  evu := EvuStep.refl
  class0 := id
  block := id
  class1 := id
  seq := id
  claims := id
  budget := id
  range := hr
  yawGrant _ hy hd := by
    rcases hg hd with h | h
    · exact hy h
    · simp only [State.yawGranted, State.tag, Bool.and_eq_true, bne_iff_ne, beq_iff_eq] at h
      exact .inl ⟨h.2, h.1⟩
  cf _ := id

/-- A change of the yaw record that moves nothing: neither state, direction nor twist. -/
theorem reach_modYaw (s : State) (f : YawRt → YawRt) (h1 : (f s.yaw).state = s.yaw.state)
    (h2 : (f s.yaw).direction = s.yaw.direction) (h3 : (f s.yaw).twist = s.yaw.twist)
    (h4 : s.yaw.window.length ≤ 64 → (f s.yaw).window.length ≤ 64)
    (h5 : s.part ≠ .operating → s.yaw.inhibit.config = true → (f s.yaw).inhibit.config = true) :
    Reach s (s.modYaw f) where
  toReachBase := base_modYaw s f (fun ⟨a, b⟩ => ⟨h4 a, by rw [h3]; exact b⟩)
    fun h => .inl (by rw [← h1]; exact h)
  hard h hd := by
    have := h (by rw [← h1]; exact hd)
    simp only [State.modYaw_yaw, YawRt.increases, h2, h3] at this ⊢
    exact this
  rest hr hp := ⟨(hr hp).1, by simp only [State.modYaw_yaw, h1]; exact (hr hp).2.1,
    h5 hp (hr hp).2.2⟩
  alw _ _ := id

end Sys2Proof.Machine
end

