-- ==== Sys2Proof/Laws/Cooling.lean ====
section
/-! SUPPORT. Laws/Cooling.lean: what CLC's operations can do to the part, through `Reach`. -/

namespace Sys2Proof.Machine

/-- A change of CLC's record that leaves the cooling factor. -/
theorem reach_clc (s : State) (f : ClcRt → ClcRt) (h : (f s.clc).cf = s.clc.cf) : Reach s (s.modClc f) :=
  reach_modClc s f fun _ hc => by rw [h]; exact hc

theorem reach_formCf (s : State) : Reach s s.formCf := Reach.of_calm (calm_formCf s)

theorem reach_stageCommand (s : State) : Reach s s.stageCommand := Reach.of_calm (calm_stageCommand s)

theorem reach_heaterCommand (s : State) (on : Bool) : Reach s (s.heaterCommand on) :=
  Reach.of_calm (calm_heaterCommand s on)

theorem reach_changeStage (s : State) (k : StageIx) : Reach s (s.changeStage k) :=
  Reach.of_calm (calm_changeStage s k)

theorem reach_offerStage (s : State) : Reach s s.offerStage := by
  unfold State.offerStage
  split
  · exact Reach.refl s
  · split
    · exact Reach.trans (reach_clc s _ rfl) (Reach.of_calm (Calm.pushClass1 _ ‹_›))
    · exact Reach.refl s

theorem reach_offerHeater (s : State) : Reach s s.offerHeater := by
  unfold State.offerHeater
  split
  · exact Reach.refl s
  · split
    · exact Reach.trans (reach_clc s _ rfl) (Reach.of_calm (Calm.pushClass1 _ ‹_›))
    · exact Reach.refl s

theorem reach_offerHeld (s : State) : Reach s s.offerHeld :=
  (reach_offerStage s).trans (reach_offerHeater _)

theorem reach_reportHeld (s : State) (k : StageIx) : Reach s (s.reportHeld k) := by
  unfold State.reportHeld
  split
  · exact Reach.refl s
  · exact Reach.trans (reach_clc s _ rfl) (Reach.raise _ _)

theorem reach_withdraw (s : State) (who : Claimant) (t : TagIx) : Reach s (s.withdraw who t) :=
  Reach.of_calm (calm_withdraw s who t)

theorem reach_claimTag (s : State) (t : TagIx) (n : Nat) (who : Claimant) :
    Reach s (s.claimTag t n who).1 := Reach.of_calm (calm_claimTag s t n who)

theorem reach_request (s : State) (c : ChanIx) (who : Requester) : Reach s (s.request c who) :=
  Reach.of_calm (calm_request s c who)

theorem reach_dropStageClaim (s : State) : Reach s s.dropStageClaim := by
  unfold State.dropStageClaim
  split
  · exact Reach.trans (reach_clc s _ rfl) (reach_withdraw _ _ _)
  · exact Reach.refl s

theorem reach_stageUp (s : State) (k : StageIx) : Reach s (s.stageUp k) := by
  unfold State.stageUp
  split
  · exact reach_changeStage s k
  · next t _ =>
    dsimp only
    have h := reach_claimTag s t (s.stage k).amount .clc
    generalize s.claimTag t (s.stage k).amount .clc = p at h ⊢
    refine h.trans ?_
    split
    · exact reach_changeStage _ k
    · exact Reach.trans (reach_clc _ _ rfl) (reach_reportHeld _ _)
    · exact reach_reportHeld _ _

theorem reach_stageDown (s : State) (k : StageIx) : Reach s (s.stageDown k) := by
  unfold State.stageDown
  dsimp only
  refine Reach.trans (reach_dropStageClaim s) ?_
  split
  · exact reach_changeStage _ k
  · next t _ =>
    have h := reach_claimTag s.dropStageClaim t (s.dropStageClaim.stage k).amount .clc
    generalize s.dropStageClaim.claimTag t (s.dropStageClaim.stage k).amount .clc = p at h ⊢
    refine h.trans ?_
    split
    · exact reach_changeStage _ k
    · exact Reach.trans (reach_withdraw _ _ _) (reach_changeStage _ _)
    · exact reach_changeStage _ _

theorem reach_stageTestAt (s : State) (v : Int) (q : Quality) : Reach s (s.stageTestAt v q) := by
  unfold State.stageTestAt
  split
  · dsimp only
    refine Reach.trans (t := if s.clc.target ≤ s.clc.actual then s.dropStageClaim else s) ?_ ?_
    · split
      · exact reach_dropStageClaim s
      · exact Reach.refl s
    · generalize (if s.clc.target ≤ s.clc.actual then s.dropStageClaim else s) = u
      split
      · exact reach_stageDown _ _
      · split
        · exact reach_stageUp _ _
        · exact Reach.refl _
  · exact Reach.refl s

theorem reach_stageTest (s : State) : Reach s s.stageTest := reach_stageTestAt s _ _

theorem reach_formTarget (s : State) (v : Int) (q : Quality) : Reach s (s.formTarget v q) := by
  unfold State.formTarget
  exact Reach.trans (reach_clc s _ rfl) (reach_stageTestAt _ _ _)

theorem reach_tellFullHold (s : State) (on : Bool) : Reach s (s.tellFullHold on) := by
  unfold State.tellFullHold
  exact Reach.trans (reach_clc s _ rfl) (reach_formTarget _ _ _)

theorem reach_dwellTest (s : State) : Reach s s.dwellTest := by
  unfold State.dwellTest
  split
  · exact Reach.trans (reach_clc s _ rfl) (reach_stageTest _)
  · exact Reach.refl s

theorem reach_dropPumpClaim (s : State) : Reach s s.dropPumpClaim := by
  unfold State.dropPumpClaim
  split
  · exact Reach.trans (reach_clc s _ rfl) (reach_withdraw _ _ _)
  · exact Reach.refl s

theorem reach_setDuty (s : State) (d : Duty) (f : ChangeFrom) : Reach s (s.setDuty d f) := by
  unfold State.setDuty
  refine Reach.trans ?_ (reach_formCf _)
  refine Reach.trans ?_ (reach_clc _ _ rfl)
  exact reach_dropPumpClaim s

theorem reach_requestChangeover (s : State) (ch : Option ChanIx) (f : ChangeFrom) :
    Reach s (s.requestChangeover ch f) := by
  unfold State.requestChangeover
  dsimp only
  refine Reach.trans (reach_clc s (fun c => { c with low := 0 }) rfl) ?_
  split
  · exact Reach.trans (reach_setDuty _ _ _) (Reach.raise _ _)
  · split
    · exact Reach.trans (reach_request _ _ _) (Reach.trans (reach_setDuty _ _ _) (Reach.raise _ _))
    · refine Reach.trans ?_ (Reach.raise _ _)
      exact Reach.trans (reach_request _ _ _) (reach_setDuty _ _ _)

theorem reach_changeoverDue (s : State) : Reach s s.changeoverDue := by
  unfold State.changeoverDue
  split
  · exact reach_requestChangeover _ _ _
  · exact reach_requestChangeover _ _ _
  · dsimp only
    refine Reach.trans (reach_clc s (fun c => { c with low := 0 }) rfl) ?_
    split
    · exact Reach.refl _
    · exact reach_request _ _ _
  · dsimp only
    refine Reach.trans (reach_clc s (fun c => { c with low := 0 }) rfl) ?_
    split
    · exact Reach.refl _
    · exact reach_request _ _ _
  · exact Reach.refl s

theorem reach_judgeFlow (s : State) (n : Nat) : Reach s (s.judgeFlow n) := by
  unfold State.judgeFlow
  split
  · split
    · dsimp only
      refine Reach.trans (reach_clc s (fun c => { c with low := satSucc 255 c.low }) rfl) ?_
      split
      · exact reach_changeoverDue _
      · exact Reach.refl _
    · exact reach_clc s _ rfl
  · exact Reach.refl s

theorem reach_publish (s : State) (f : Feed) (v : Int) : Reach s (s.publish f v) :=
  Reach.of_calm (calm_publish s f v)

theorem reach_endWindow (s : State) : Reach s s.endWindow := by
  unfold State.endWindow
  dsimp only
  refine Reach.trans (reach_clc s (fun c => { c with flowTimer := 0 }) rfl) ?_
  split
  · split
    · exact reach_clc _ _ rfl
    · refine Reach.trans ?_ (reach_judgeFlow _ _)
      refine Reach.trans ?_ (reach_publish _ _ _)
      refine Reach.trans ?_ (reach_publish _ _ _)
      exact reach_clc _ _ rfl
  · exact reach_clc _ _ rfl

theorem reach_windowTest (s : State) : Reach s s.windowTest := by
  unfold State.windowTest
  split
  · exact reach_endWindow s
  · exact Reach.refl s

theorem reach_dutyMoved (s : State) (d : Duty) : Reach s (s.dutyMoved d) := by
  unfold State.dutyMoved
  split
  · exact Reach.refl s
  · refine Reach.trans ?_ (reach_stageCommand _)
    refine Reach.trans ?_ (reach_clc _ _ rfl)
    exact reach_setDuty s _ _

theorem reach_clcOutcome (s : State) (c : ChanIx) (e : RunEnd) : Reach s (s.clcOutcome c e) := by
  unfold State.clcOutcome
  split
  · split
    · exact reach_dutyMoved _ _
    · split
      · exact reach_dutyMoved _ _
      · exact Reach.refl s
  all_goals
    split
    · exact Reach.trans (reach_dutyMoved _ _) (Reach.raise _ _)
    · exact Reach.refl s

theorem reach_freeTag (s : State) (t : TagIx) : Reach s (s.freeTag t) := Reach.of_calm (calm_freeTag s t)

theorem reach_dropHeaterClaim (s : State) (t : TagIx) : Reach s (s.dropHeaterClaim t) := by
  unfold State.dropHeaterClaim
  exact Reach.trans (reach_clc s _ rfl) (reach_withdraw _ _ _)

theorem reach_heaterTestAt (s : State) (v : Int) (q : Quality) : Reach s (s.heaterTestAt v q) := by
  unfold State.heaterTestAt
  split
  · split
    · split
      · rename_i t _ _ _ _ _
        dsimp only
        have h := reach_claimTag s t s.settings.clc.heaterAmount .clc
        generalize s.claimTag t s.settings.clc.heaterAmount .clc = p at h ⊢
        refine h.trans ?_
        split
        · exact Reach.trans (reach_clc _ _ rfl) (reach_heaterCommand _ _)
        · exact reach_clc _ _ rfl
        · exact Reach.refl _
      · exact Reach.refl s
    · split
      · exact reach_dropHeaterClaim _ _
      · exact Reach.refl s
    · split
      · refine Reach.trans ?_ (reach_clc _ _ rfl)
        exact Reach.trans (reach_heaterCommand _ _) (reach_freeTag _ _)
      · exact Reach.refl s
  · exact Reach.refl s

theorem reach_heaterTest (s : State) : Reach s s.heaterTest := reach_heaterTestAt s _ _

theorem reach_clcUpdate (s : State) (i : SigIx) (v : Int) (q : Quality) : Reach s (s.clcUpdate i v q) := by
  unfold State.clcUpdate
  dsimp only
  refine Reach.trans (t := if i = s.settings.clc.coolant then s.formTarget v q else s)
    (Reach.ite _ (fun _ => reach_formTarget s v q) fun _ => Reach.refl s) ?_
  generalize (if i = s.settings.clc.coolant then s.formTarget v q else s) = u
  split
  · exact reach_heaterTestAt _ _ _
  · exact Reach.refl _

theorem reach_clcShed (s : State) (t : TagIx) : Reach s (s.clcShed t) := by
  unfold State.clcShed
  dsimp only
  split
  · unfold State.fanShed
    refine Reach.trans ?_ (reach_stageTest _)
    exact Reach.trans (reach_dropStageClaim s) (reach_changeStage _ _)
  · split
    · unfold State.heaterShed
      dsimp only
      refine Reach.trans ?_ (reach_heaterCommand _ _)
      refine Reach.trans ?_ (reach_clc _ _ rfl)
      split
      · exact reach_dropHeaterClaim s t
      · exact Reach.refl s
    · split
      · unfold State.pumpShed
        exact Reach.trans (reach_clc s _ rfl) (reach_changeoverDue _)
      · exact Reach.refl s

theorem reach_clcTick (s : State) : Reach s s.clcTick := reach_clc s _ rfl

theorem reach_clcStart (s : State) : Reach s s.clcStart := by
  unfold State.clcStart
  dsimp only
  refine Reach.trans ?_ (reach_heaterTest _)
  refine Reach.trans ?_ (reach_stageTest _)
  refine Reach.trans ?_ (Reach.ite _ (fun _ => reach_heaterCommand _ _) fun _ => Reach.refl _)
  refine Reach.trans ?_ (reach_stageCommand _)
  split
  · exact Reach.refl s
  · split
    · next t _ _ _ =>
      have h := reach_claimTag s t s.settings.clc.pumpAmount .clc
      generalize s.claimTag t s.settings.clc.pumpAmount .clc = p at h ⊢
      refine h.trans ?_
      split
      · exact Reach.refl _
      · exact reach_clc _ _ rfl
      · exact Reach.refl _
    · exact Reach.refl s

theorem reach_clcStop (s : State) : Reach s s.clcStop := by
  unfold State.clcStop
  exact Reach.trans (reach_clc s _ rfl) (Reach.of_calm (calm_withdrawAll _ _))

theorem reach_restartClaims (s : State) : Reach s s.restartClaims := by
  unfold State.restartClaims
  dsimp only
  refine Reach.trans (reach_dropStageClaim s) ?_
  split
  · exact Reach.refl _
  · exact reach_freeTag _ _

theorem reach_heatersOff (s : State) : Reach s s.heatersOff := by
  unfold State.heatersOff
  split
  · exact Reach.trans (reach_clc s _ rfl) (reach_freeTag _ _)
  · exact reach_dropHeaterClaim _ _
  · exact Reach.refl s

theorem reach_restartStages (s : State) : Reach s s.restartStages := by
  unfold State.restartStages
  exact Reach.trans (reach_clc s _ rfl) (reach_formCf _)

end Sys2Proof.Machine
end

