-- ==== Sys2Proof/Laws/Yaw.lean ====
section
/-! SUPPORT. Laws/Yaw.lean: what YAW's operations can do to the part, through `Reach`. A stop is taken in
a state other than HELD, a start with an empty inhibit set, so that RestLaw is kept. -/

namespace Sys2Proof.Machine

theorem put_config (i : InhibitSet) (r : Inhibit) (b : Bool) (h : r ≠ .config ∨ b = true)
    (hc : i.config = true) : (i.put r b).config = true := by
  cases r <;> simp_all [InhibitSet.put]

theorem reach_putInhibit (s : State) (r : Inhibit) (b : Bool) (h : r ≠ .config ∨ b = true) :
    Reach s (s.putInhibit r b) :=
  reach_modYaw s _ rfl rfl rfl (fun h => h) fun _ hc => put_config _ r b h hc

/-- A yaw record that is not in DRIVING keeps the laws that speak of it. -/
theorem base_stillYaw (s : State) (f : YawRt → YawRt) (h1 : (f s.yaw).state ≠ .driving)
    (h2 : (f s.yaw).window = s.yaw.window) (h3 : (f s.yaw).twist = s.yaw.twist) :
    ReachBase s (s.modYaw f) :=
  base_modYaw s f (fun ⟨a, b⟩ => ⟨by rw [h2]; exact a, by rw [h3]; exact b⟩) fun h => absurd h h1

/-- A change to a record that is not in DRIVING, from a state other than HELD. -/
theorem reach_stillYaw (s : State) (f : YawRt → YawRt) (h1 : (f s.yaw).state ≠ .driving)
    (h2 : (f s.yaw).window = s.yaw.window) (h3 : (f s.yaw).twist = s.yaw.twist)
    (hs : s.yaw.state ≠ .held) : Reach s (s.modYaw f) where
  toReachBase := base_stillYaw s f h1 h2 h3
  hard _ hd := absurd hd h1
  rest hr hp := absurd (hr hp).2.1 hs
  alw _ _ := id

theorem stopped_state (y : YawRt) (c : StopCause) (f r : Bool) :
    (y.stopped c f r).state ≠ .driving := by
  unfold YawRt.stopped
  split <;> simp

theorem stopped_window (y : YawRt) (c : StopCause) (f r : Bool) :
    (y.stopped c f r).window = y.window := by
  unfold YawRt.stopped
  split <;> rfl

theorem stopped_twist (y : YawRt) (c : StopCause) (f r : Bool) :
    (y.stopped c f r).twist = y.twist := by
  unfold YawRt.stopped
  split <;> rfl

theorem stopped_held (y : YawRt) (c : StopCause) (f r : Bool) : (y.stopped c f r).state ≠ .held := by
  unfold YawRt.stopped
  split <;> simp

theorem reach_stopYaw (s : State) (c : StopCause) (f : Bool) (tell : State → State)
    (ht : ∀ s, Reach s (tell s)) (hs : s.yaw.state ≠ .held) : Reach s (s.stopYaw c f tell) := by
  unfold State.stopYaw
  refine Reach.trans ?_ (reach_request _ _ _)
  refine Reach.trans ?_ (ht _)
  exact reach_stillYaw s _ (stopped_state _ _ _ _) (stopped_window _ _ _ _) (stopped_twist _ _ _ _) hs

theorem reach_stop (s : State) (c : StopCause) (f : Bool) (hs : s.yaw.state ≠ .held) :
    Reach s (s.stopYaw c f) := reach_stopYaw s c f id Reach.refl hs

/-- What a block tells others leaves the yaw record, as a request does. -/
theorem stopYaw_state (s : State) (c : StopCause) (f : Bool) (tell : State → State)
    (ht : ∀ s, (tell s).yaw = s.yaw) : (s.stopYaw c f tell).yaw.state ≠ .driving := by
  unfold State.stopYaw
  rw [(calm_request _ _ _).yaw, ht]
  exact stopped_state _ _ _ _

theorem raise_yaw (s : State) (c : Code) (d : List Int) : (s.raise c d).yaw = s.yaw :=
  (Calm.raise (s := s) c d).yaw

theorem reach_addStopping (s : State) (r : Inhibit) : Reach s (s.addStopping r) := by
  unfold State.addStopping
  dsimp only
  have h := reach_putInhibit s r true (.inr rfl)
  split
  · refine h.trans (reach_stop _ _ _ ?_)
    rename_i hd
    simp only [Bool.and_eq_true, beq_iff_eq] at hd
    rw [hd.2]; simp
  · exact h

theorem reach_startYaw (s : State) (p : Purpose) (d : Direction) (hi : s.yaw.inhibit = noInhibit) :
    Reach s (s.startYaw p d) := by
  have base : ReachBase s (s.startYaw p d) ∧ (s.startYaw p d).yaw.state ≠ .driving := by
    unfold State.startYaw
    dsimp only
    split
    · constructor
      · refine ReachBase.trans ?_ (ReachBase.of_calm (calm_request _ _ _))
        refine ReachBase.trans (t := s.modYaw fun y => { y with hardBlocked := false }) ?_ ?_
        · exact (reach_modYaw s _ rfl rfl rfl id fun _ => id).toReachBase
        · exact base_stillYaw _ _ (by simp) rfl rfl
      · rw [(calm_request _ _ _).yaw]; simp
    · constructor
      · refine ReachBase.trans (t := s.modYaw fun y => { y with hardBlocked := false })
          (reach_modYaw s _ rfl rfl rfl id fun _ => id).toReachBase ?_
        split
        · refine ReachBase.trans ?_ (ReachBase.of_calm (Calm.raise _ _))
          refine ReachBase.trans ?_ (ReachBase.of_calm (calm_request _ _ _))
          exact base_stillYaw _ _ (by simp) rfl rfl
        · refine ReachBase.trans ?_ (ReachBase.of_calm (calm_request _ _ _))
          exact base_stillYaw _ _ (by simp) rfl rfl
      · split
        · rw [raise_yaw, (calm_request _ _ _).yaw]; simp
        · rw [(calm_request _ _ _).yaw]; simp
  refine ⟨base.1, fun _ hd => absurd hd base.2, fun hr hp => ?_, ?_⟩
  · rw [base.1.part] at hp
    have := (hr hp).2.2
    rw [hi] at this
    cases this
  · rw [show (s.startYaw p d).alw = s.alw from ?_]
    · exact fun _ _ => id
    · unfold State.startYaw
      dsimp only
      split
      · rw [(calm_request _ _ _).alw]; rfl
      · split
        · rw [(Calm.raise _ _).alw, (calm_request _ _ _).alw]; rfl
        · rw [(calm_request _ _ _).alw]; rfl

theorem reach_startDecision (s : State) : Reach s s.startDecision := by
  unfold State.startDecision
  dsimp only
  have idle : Reach s (s.modYaw fun y => { y with hardBlocked := false }) :=
    reach_modYaw s _ rfl rfl rfl id fun _ => id
  split
  · exact idle
  · rename_i h
    have hi : s.yaw.inhibit = noInhibit := by
      by_contra hn
      exact h (.inl hn)
    split
    · exact reach_startYaw s _ _ hi
    · split
      · exact idle
      · split
        · exact reach_modYaw s _ rfl rfl rfl id fun _ => id
        · exact reach_startYaw s _ _ hi

theorem reach_liftShed (s : State) : Reach s s.liftShed := by
  unfold State.liftShed
  split
  · exact reach_putInhibit s _ _ (.inl (by simp))
  · exact Reach.refl s

theorem reach_windowUpdate (s : State) : Reach s s.windowUpdate := by
  unfold State.windowUpdate
  split
  · exact (reach_liftShed s).trans (reach_startDecision _)
  · split
    · exact reach_stop s _ _ (by simp [*])
    · exact Reach.refl s
  all_goals exact Reach.refl s

theorem reach_publishLong (s : State) : Reach s s.publishLong := by
  unfold State.publishLong
  split
  · exact Reach.refl s
  · exact reach_publish s _ _

theorem append_window (y : YawRt) (v : Int) (h : y.window.length ≤ 64) :
    (y.append v).window.length ≤ 64 := by
  unfold YawRt.append
  dsimp only
  split
  · simp; omega
  · omega

theorem reach_windUpdate (s : State) (v : Int) (q : Quality) (c : Cause) :
    Reach s (s.windUpdate v q c) := by
  have sampled : Reach s ((s.modYaw fun y => y.append v).publishLong.windowUpdate) := by
    refine Reach.trans ?_ (reach_windowUpdate _)
    refine Reach.trans ?_ (reach_publishLong _)
    exact reach_modYaw s _ rfl rfl rfl (append_window _ v) fun _ => id
  unfold State.windUpdate
  split
  · exact Reach.refl s
  · dsimp only
    have h : Reach s (s.modYaw fun y => { y with window := [] }) :=
      reach_modYaw s _ rfl rfl rfl (fun _ => by simp) fun _ => id
    refine h.trans ?_
    split
    · rename_i hd
      exact reach_stop _ _ _ (by rw [hd.1]; simp)
    · exact Reach.refl _
  all_goals
    split
    · exact sampled
    · exact Reach.refl s

theorem turn_range (y : YawRt) (v : Int) (h : y.rangeOk) : (y.turn v).rangeOk := by
  unfold YawRt.turn
  split
  · exact h
  · obtain ⟨a, b, c⟩ := h
    refine ⟨a, ?_⟩
    simp only [limitTo]
    omega

theorem turn_state (y : YawRt) (v : Int) : (y.turn v).state = y.state := by
  unfold YawRt.turn
  split <;> rfl

theorem turn_inhibit (y : YawRt) (v : Int) : (y.turn v).inhibit = y.inhibit := by
  unfold YawRt.turn
  split <;> rfl

theorem reach_twistStops (s : State) : Reach s s.twistStops := by
  unfold State.twistStops
  dsimp only
  split
  · rename_i hd
    split
    · exact reach_stopYaw s _ _ _ (fun s => Reach.raise _ _) (by rw [hd]; simp)
    · split
      · exact reach_stop s _ _ (by rw [hd]; simp)
      · exact Reach.refl s
  · exact Reach.refl s

/-- The twist stops leave no move against the hard limit (R124). -/
theorem twistStops_hard (s : State) : s.twistStops.yaw.hardOk s.settings.yaw := by
  unfold State.twistStops
  dsimp only
  split
  · split
    · intro hd
      exact absurd hd (stopYaw_state s _ _ _ fun s => raise_yaw _ _ _)
    · rename_i h
      split
      · intro hd
        exact absurd hd (stopYaw_state s _ _ _ fun s => rfl)
      · intro _
        simpa [State.atHardLimit] using h
  · intro hd
    contradiction

theorem reach_headingUsable (s : State) (v : Int) : Reach s (s.headingUsable v) := by
  unfold State.headingUsable
  refine Reach.trans ?_ (reach_putInhibit _ _ _ (.inl (by simp)))
  have b : ReachBase s (s.modYaw fun y => y.turn v).publishTwist :=
    ReachBase.trans
      (base_modYaw s _ (turn_range _ v) fun h => .inl (by rw [← turn_state s.yaw v]; exact h))
      (ReachBase.of_calm (calm_publish _ _ _))
  have ht := reach_twistStops (s.modYaw fun y => y.turn v).publishTwist
  refine ⟨b.trans ht.toReachBase, fun _ => ?_, fun hr => ht.rest ?_, ?_⟩
  · have := twistStops_hard (s.modYaw fun y => y.turn v).publishTwist
    rw [b.settings] at this
    exact this
  · intro hp
    have hy : (s.modYaw fun y => y.turn v).publishTwist.yaw = s.yaw.turn v :=
      (calm_publish _ _ _).yaw
    have hcn : (s.modYaw fun y => y.turn v).publishTwist.cnv = s.cnv := (calm_publish _ _ _).cnv
    rw [b.part] at hp
    rw [hy, hcn, turn_state, turn_inhibit]
    exact hr hp
  · intro hb hc ha
    have h1 := ht.alw
    rw [b.settings] at h1
    refine h1 hb (b.cf hb hc) ?_
    rw [show (s.modYaw fun y => y.turn v).publishTwist.alw = s.alw from (calm_publish _ _ _).alw]
    exact ha

theorem reach_headingLoss (s : State) : Reach s s.headingLoss := by
  unfold State.headingLoss
  split
  · split
    · exact reach_stopYaw s _ _ _ (fun s => Reach.raise _ _) (by simp [*])
    · next hr =>
      dsimp only
      have h : Reach s (s.modYaw fun y => y.stopped .headingLost true (s.isMasked s.settings.yaw.stop)) :=
        reach_stillYaw s _ (stopped_state _ _ _ _) (stopped_window _ _ _ _) (stopped_twist _ _ _ _)
          (by simp [hr])
      refine Reach.trans (h.trans (Reach.trans (Reach.raise _ _) (Reach.of_calm (calm_abortChan _ _ _))))
        (reach_stop _ _ _ ?_)
      rw [(calm_abortChan _ _ _).yaw, raise_yaw]
      exact stopped_held _ _ _ _
    all_goals exact Reach.refl s
  · exact Reach.refl s

theorem reach_headingUpdate (s : State) (v : Int) (q : Quality) : Reach s (s.headingUpdate v q) := by
  unfold State.headingUpdate
  split
  · exact reach_headingUsable s v
  · exact reach_headingUsable s v
  · refine Reach.trans ?_ (reach_headingLoss _)
    refine Reach.trans ?_ (reach_putInhibit _ _ _ (.inr rfl))
    exact reach_modYaw s _ rfl rfl rfl id fun _ => id
  · exact reach_modYaw s _ rfl rfl rfl id fun _ => id

theorem reach_rollUpdate (s : State) (v : Int) (q : Quality) : Reach s (s.rollUpdate v q) := by
  unfold State.rollUpdate
  split <;> exact reach_putInhibit s _ _ (.inl (by simp))

theorem reach_yawUpdate (s : State) (i : SigIx) (v : Int) (q : Quality) (c : Cause) :
    Reach s (s.yawUpdate i v q c) := by
  unfold State.yawUpdate
  dsimp only
  have h1 : Reach s (if i = s.settings.yaw.heading then s.headingUpdate v q else s) :=
    Reach.ite _ (fun _ => reach_headingUpdate s v q) fun _ => Reach.refl s
  generalize (if i = s.settings.yaw.heading then s.headingUpdate v q else s) = t at h1 ⊢
  have h2 : Reach t (if i = t.settings.yaw.windDir then t.windUpdate v q c else t) :=
    Reach.ite _ (fun _ => reach_windUpdate t v q c) fun _ => Reach.refl t
  generalize (if i = t.settings.yaw.windDir then t.windUpdate v q c else t) = u at h2 ⊢
  exact h1.trans (h2.trans (Reach.ite _ (fun _ => reach_rollUpdate u v q) fun _ => Reach.refl u))

theorem reach_entryChecks (s : State) (hs : s.yaw.state = .releasing) : Reach s s.entryChecks := by
  have hn : s.yaw.state ≠ .held := by rw [hs]; simp
  unfold State.entryChecks
  dsimp only
  split
  · exact reach_stop s _ _ hn
  · rename_i hg
    split
    · exact reach_stop s _ _ hn
    · split
      · exact reach_stopYaw s _ _ _ (fun s => Reach.raise _ _) hn
      · rename_i hh
        refine ⟨base_modYaw s _ id fun _ => .inr (by simpa using hg), ?_, ?_, fun _ _ => id⟩
        · rintro _ _ ⟨a, b⟩
          refine hh (Bool.and_eq_true_iff.mpr ⟨a, ?_⟩)
          simpa [State.atHardLimit] using b
        · exact fun hr hp => absurd (hr hp).2.1 hn

theorem reach_releaseOutcome (s : State) (e : RunEnd) (hs : s.yaw.state = .releasing) :
    Reach s (s.releaseOutcome e) := by
  unfold State.releaseOutcome
  split
  · exact reach_entryChecks s hs
  all_goals exact reach_stop s _ _ (by rw [hs]; simp)

theorem reach_stopOutcome (s : State) (e : RunEnd) (hs : s.yaw.state = .stopping) :
    Reach s (s.stopOutcome e) := by
  have hn : s.yaw.state ≠ .held := by rw [hs]; simp
  unfold State.stopOutcome
  dsimp only
  split
  · refine reach_stillYaw s _ ?_ ?_ ?_ hn
    all_goals
      unfold YawRt.stopEnded
      split
      · simp
      · split <;> simp
  all_goals exact reach_stillYaw s _ (by simp) rfl rfl hn

theorem reach_yawOutcome (s : State) (c : ChanIx) (e : RunEnd) : Reach s (s.yawOutcome c e) := by
  unfold State.yawOutcome
  dsimp only
  split
  · split
    · exact reach_releaseOutcome s e (by assumption)
    · exact Reach.refl s
  · split
    · exact reach_stopOutcome s e (by assumption)
    · exact Reach.refl s
  · split
    · exact reach_modYaw s _ rfl rfl rfl id fun _ => id
    · exact Reach.refl s
  all_goals exact Reach.refl s

theorem reach_yawShed (s : State) (t : TagIx) : Reach s (s.yawShed t) := by
  unfold State.yawShed
  dsimp only
  refine (reach_putInhibit s .shed true (.inr rfl)).trans ?_
  split
  · rename_i hd
    exact reach_stop _ _ _ (by rw [hd.2]; simp)
  · exact Reach.refl _

theorem reach_yawReleased (s : State) (t : TagIx) : Reach s (s.yawReleased t) := by
  unfold State.yawReleased
  split
  · rename_i hd
    exact reach_stop _ _ _ (by rw [hd.2]; simp)
  · exact Reach.refl _

/-- A shed or release notice for the yaw tag ends DRIVING (R125). -/
theorem yawShed_stops (s : State) : (s.yawShed s.settings.yaw.tag).yaw.state ≠ .driving := by
  unfold State.yawShed
  dsimp only
  split
  · exact stopYaw_state _ _ _ _ fun s => rfl
  · rename_i h
    intro hd
    exact h ⟨rfl, hd⟩

theorem yawReleased_stops (s : State) : (s.yawReleased s.settings.yaw.tag).yaw.state ≠ .driving := by
  unfold State.yawReleased
  split
  · exact stopYaw_state _ _ _ _ fun s => rfl
  · rename_i h
    intro hd
    exact h ⟨rfl, hd⟩

theorem reach_tellLimit (s : State) (on : Bool) : Reach s (s.tellLimit on) := by
  unfold State.tellLimit
  split
  · exact reach_addStopping s _
  · exact reach_putInhibit s _ _ (.inl (by simp))

theorem reach_stallCheck (s : State) : Reach s s.stallCheck := by
  unfold State.stallCheck
  dsimp only
  split
  · rename_i hd
    split
    · exact reach_stopYaw s _ _ _ (fun s => Reach.raise _ _) (by rw [hd.1]; simp)
    · exact reach_modYaw s _ rfl rfl rfl id fun _ => id
  · exact Reach.refl s

theorem reach_restCheck (s : State) : Reach s s.restCheck := by
  unfold State.restCheck
  split
  · exact reach_putInhibit s _ _ (.inl (by simp))
  · exact Reach.refl s

theorem reach_yawTick (s : State) : Reach s s.yawTick := by
  have h : ∀ y : YawRt, y.tick.state = y.state ∧ y.tick.direction = y.direction ∧ y.tick.twist = y.twist ∧
      y.tick.window = y.window ∧ y.tick.inhibit = y.inhibit := by
    intro y
    unfold YawRt.tick
    split <;> simp
  obtain ⟨h1, h2, h3, h4, h5⟩ := h s.yaw
  exact reach_modYaw s _ h1 h2 h3 (by rw [h4]; exact id) (by rw [h5]; exact fun _ => id)

theorem reach_clearYaw (s : State) : Reach s s.clearYaw.1 := by
  unfold State.clearYaw
  split
  · rename_i h
    dsimp only
    refine reach_stillYaw s _ ?_ ?_ ?_ (by rw [h.1]; simp)
    all_goals simp
  · exact Reach.refl s

end Sys2Proof.Machine
end

