-- ==== Sys2Proof/Laws/Conversion.lean ====
section
/-! SUPPORT. Laws/Conversion.lean: what the operations of CNV can do to the part, through `Reach`, and
isqrt. -/

namespace Sys2Proof.Machine

/-! ### isqrt -/

/-- After the bits that are left, the root found is the largest whose square is at most `x`. -/
theorem isqrtBits_spec (b r x : Nat) (h1 : r * r ≤ x) (h2 : x < (r + 2 ^ b) * (r + 2 ^ b)) :
    isqrtBits b r x * isqrtBits b r x ≤ x ∧ x < (isqrtBits b r x + 1) * (isqrtBits b r x + 1) := by
  induction b generalizing r with
  | zero => simpa [isqrtBits] using ⟨h1, h2⟩
  | succ b ih =>
    unfold isqrtBits
    split
    · refine ih (r + 2 ^ b) ‹_› ?_
      rw [show r + 2 ^ b + 2 ^ b = r + 2 ^ (b + 1) by rw [Nat.pow_succ]; omega]
      exact h2
    · exact ih r h1 (by omega)

theorem isqrt_spec (x : Nat) (h : x < 2 ^ 34) :
    isqrt x * isqrt x ≤ x ∧ x < (isqrt x + 1) * (isqrt x + 1) :=
  isqrtBits_spec 17 0 x (by simp) (by simpa using h)

/-! ### CNV's record and ALW's -/

/-- A change of CNV's record that leaves its state. -/
theorem reach_cnv (s : State) (f : CnvRt → CnvRt) (h : (f s.cnv).state = s.cnv.state) :
    Reach s (s.modCnv f) :=
  reach_modCnv s f fun _ ho => by rw [h]; exact ho

theorem reach_modAlw (s : State) (f : AlwRt → AlwRt) (h : s.alw.alwOk → (f s.alw).alwOk) :
    Reach s (s.modAlw f) where
  toReachBase := base_modAlw s f
  hard := id
  rest := id
  alw _ _ := h

/-- A change of ALW's record that leaves the references and what bounds them. -/
theorem reach_alw (s : State) (f : AlwRt → AlwRt) (h1 : (f s.alw).lastIq = s.alw.lastIq)
    (h2 : (f s.alw).lastIp = s.alw.lastIp) (h3 : (f s.alw).ith = s.alw.ith)
    (h4 : (f s.alw).a = s.alw.a) : Reach s (s.modAlw f) :=
  reach_modAlw s f fun h => by unfold AlwRt.alwOk at h ⊢; rw [h1, h2, h3, h4]; exact h

theorem reach_placeBlock (s : State) : Reach s s.placeBlock :=
  ⟨base_placeBlock s, id, id, fun _ _ => id⟩

theorem reach_placeRef (s : State) (iq ip : Nat) : Reach s (s.placeRef iq ip) :=
  ⟨base_placeRef s iq ip, id, id, fun _ _ => id⟩

/-- The conversion state changes in OPERATING, or from a state other than OFF, or to OFF. -/
theorem reach_setConv (s : State) (k : ConvState)
    (h : s.part = .operating ∨ s.cnv.state ≠ .off ∨ k = .off) : Reach s (s.setConv k) := by
  unfold State.setConv
  refine Reach.trans ?_ (Reach.hand _)
  refine reach_modCnv s _ fun hp ho => ?_
  rcases h with h | h | h
  · exact absurd h hp
  · exact absurd ho h
  · exact h

/-! ### Trips -/

theorem reach_abortAwaited (s : State) (aw : ConvAwait) : Reach s (s.abortAwaited aw) := by
  unfold State.abortAwaited
  split
  · exact Reach.of_calm (calm_abortChan _ _ _)
  · exact Reach.of_calm (calm_abortChan _ _ _)
  · exact Reach.of_calm (calm_abortChan _ _ _)
  all_goals exact Reach.refl s

theorem reach_furtherCause (s : State) (c : TripCause) (d : Nat) : Reach s (s.furtherCause c d) := by
  unfold State.furtherCause
  refine Reach.trans ?_ (Reach.raise _ _)
  refine Reach.trans (reach_placeBlock s) ?_
  exact reach_cnv _ _ rfl

theorem reach_requestTrip (s : State) : Reach s s.requestTrip := by
  unfold State.requestTrip
  dsimp only
  split
  · exact Reach.trans (reach_request _ _ _) (reach_furtherCause _ _ _)
  · refine Reach.trans ?_ (reach_request _ _ _)
    exact reach_cnv s _ rfl

theorem reach_tripCnv (s : State) (c : TripCause) (d : Nat) : Reach s (s.tripCnv c d) := by
  unfold State.tripCnv
  split
  · rename_i ho
    split
    · exact reach_furtherCause s c d
    · dsimp only
      refine Reach.trans ?_ (reach_requestTrip _)
      refine Reach.trans ?_ (Reach.raise _ _)
      refine Reach.trans ?_ (reach_placeBlock _)
      refine Reach.trans ?_ (reach_abortAwaited _ _)
      refine Reach.trans ?_ (Reach.hand _)
      exact reach_modCnv s _ fun hp => absurd (by simpa [State.operating] using ho) hp
  · exact Reach.refl s

/-! ### Requests and outcomes -/

theorem reach_clearTrip (s : State) : Reach s s.clearTrip.1 := by
  unfold State.clearTrip
  split
  · exact Reach.refl s
  · split
    · exact Reach.refl s
    · split
      · exact Reach.refl s
      · refine Reach.trans ?_ (reach_setConv _ _ (.inr (.inr rfl)))
        exact reach_cnv s _ rfl

theorem reach_beginCharging (s : State) (ho : s.part = .operating) : Reach s s.beginCharging.1 := by
  unfold State.beginCharging
  dsimp only
  split
  · exact reach_request _ _ _
  · refine Reach.trans ?_ (reach_request _ _ _)
    refine Reach.trans ?_ (reach_setConv _ _ (.inl ho))
    exact reach_cnv s _ rfl

theorem reach_convStart (s : State) : Reach s s.convStart.1 := by
  unfold State.convStart
  dsimp only
  have h : Reach s (s.modCnv fun c => { c with autostartPending := false }) := reach_cnv s _ rfl
  split
  · rename_i hd
    exact h.trans (reach_beginCharging _ (by simpa [State.operating] using hd.1))
  · exact h

theorem reach_requestRun (s : State) : Reach s s.requestRun.1 := by
  unfold State.requestRun
  dsimp only
  split
  · exact reach_request _ _ _
  · refine Reach.trans ?_ (reach_request _ _ _)
    exact reach_cnv s _ rfl

theorem reach_convRun (s : State) : Reach s s.convRun.1 := by
  unfold State.convRun
  split
  · split
    · exact Reach.refl s
    · split
      · exact reach_requestRun s
      · exact Reach.refl s
  · exact Reach.refl s

theorem reach_beginStop (s : State) (h : s.cnv.state ≠ .off) : Reach s s.beginStop.1 := by
  unfold State.beginStop
  dsimp only
  have h1 : Reach s ((s.modCnv fun c => { c with awaited := .none }).setConv .stopping) :=
    Reach.trans (t := s.modCnv fun c => { c with awaited := .none }) (reach_cnv s _ rfl)
      (reach_setConv _ _ (.inr (.inl h)))
  have h2 := h1.trans (reach_abortAwaited _ s.cnv.awaited)
  split
  · exact h2.trans (Reach.trans (reach_request _ _ _) (reach_tripCnv _ _ _))
  · refine h2.trans (Reach.trans ?_ (reach_request _ _ _))
    exact reach_cnv _ _ rfl

theorem reach_convStop (s : State) : Reach s s.convStop.1 := by
  unfold State.convStop
  dsimp only
  have h : Reach s (s.modCnv fun c => { c with autostartPending := false }) := reach_cnv s _ rfl
  generalize (s.modCnv fun c => { c with autostartPending := false }) = t at h ⊢
  split
  · exact h
  · exact h
  · exact h
  all_goals exact h.trans (reach_beginStop t (by simp [*]))

theorem reach_enterStandby (s : State) (ho : s.part = .operating) : Reach s s.enterStandby := by
  unfold State.enterStandby
  dsimp only
  have h : Reach s ((s.modCnv fun c => { c with awaited := .none }).setConv .standby) :=
    Reach.trans (t := s.modCnv fun c => { c with awaited := .none }) (reach_cnv s _ rfl)
      (reach_setConv _ _ (.inl ho))
  split
  · exact h.trans (reach_requestRun _)
  · exact h

theorem reach_awaitedOutcome (s : State) (c : ChanIx) (e : RunEnd) (ho : s.part = .operating) :
    Reach s (s.awaitedOutcome c e) := by
  have h : Reach s (s.modCnv fun r => { r with awaited := .none }) := reach_cnv s _ rfl
  unfold State.awaitedOutcome
  dsimp only
  split
  · split
    · exact reach_enterStandby s ho
    · exact h.trans (reach_setConv _ _ (.inl ho))
    · exact h.trans (reach_setConv _ _ (.inl ho))
    · exact h.trans (reach_cnv _ _ rfl)
    · exact Reach.refl s
  · exact h.trans (reach_tripCnv _ _ _)
  · split
    · exact h.trans (reach_tripCnv _ _ _)
    · exact h
    · exact h.trans (reach_tripCnv _ _ _)
    · exact h
    · exact Reach.refl s

theorem reach_otherOutcome (s : State) (c : ChanIx) (e : RunEnd) : Reach s (s.otherOutcome c e) := by
  unfold State.otherOutcome
  split
  · split
    · exact reach_cnv s _ rfl
    · exact Reach.refl s
  · exact reach_tripCnv s _ _
  · exact Reach.refl s

theorem reach_cnvOutcome (s : State) (c : ChanIx) (e : RunEnd) : Reach s (s.cnvOutcome c e) := by
  unfold State.cnvOutcome
  split
  · rename_i ho
    split
    · exact reach_awaitedOutcome s c e (by simpa [State.operating] using ho)
    · exact reach_otherOutcome s c e
  · exact Reach.refl s

theorem reach_cnvShed (s : State) (t : TagIx) : Reach s (s.cnvShed t) := by
  unfold State.cnvShed
  split
  · exact reach_tripCnv s _ _
  · exact Reach.refl s

/-! ### What other blocks tell CNV -/

theorem reach_heartbeat (s : State) (q : Quality) : Reach s (s.heartbeat q) := by
  unfold State.heartbeat
  split
  · split
    · exact Reach.refl s
    · exact Reach.trans (reach_cnv s _ rfl) (Reach.raise _ _)
  · split
    · exact Reach.trans (reach_cnv s _ rfl) (Reach.raise _ _)
    · exact Reach.refl s

theorem reach_tellConverterHold (s : State) (on : Bool) : Reach s (s.tellConverterHold on) :=
  reach_cnv s _ rfl

theorem reach_cnvEnter (s : State) : Reach s s.cnvEnter := by
  unfold State.cnvEnter
  refine Reach.trans (t := s.modCnv fun c => { c with autostartPending := s.settings.conv.autostart })
    (reach_cnv s _ rfl) ?_
  exact reach_alw _ _ rfl rfl rfl rfl

end Sys2Proof.Machine
end

