-- ==== Sys2Proof/Laws/Shedding.lean ====
section
/-! SUPPORT. Laws/Shedding.lean: what a shed pass leaves (R72, R73), and that a change of supply mode or
capacity keeps the law of R69. -/

namespace Sys2Proof.Machine

/-! ### What the owners' actions do to the grants -/

/-- The settings stay, and no grant grows but within the budget. -/
def Within (s t : State) : Prop := t.settings = s.settings ∧ Shrinks s.settings s.ala t.ala

namespace Within

variable {s t u : State}

theorem refl (s : State) : Within s s := ⟨rfl, Shrinks.refl⟩

theorem trans (a : Within s t) (b : Within t u) : Within s u := by
  refine ⟨b.1.trans a.1, ?_⟩
  have := b.2
  rw [a.1] at this
  exact a.2.trans this

theorem of_calm (h : Calm s t) : Within s t := ⟨h.settings, h.shrinks⟩

theorem of_eq (h1 : t.settings = s.settings) (h2 : t.ala = s.ala) : Within s t :=
  ⟨h1, by rw [h2]; exact Shrinks.refl⟩

theorem ite (p : Prop) [Decidable p] {a b : State} (ha : p → Within s a) (hb : ¬p → Within s b) :
    Within s (if p then a else b) := by
  split
  · exact ha ‹_›
  · exact hb ‹_›

theorem clc (s : State) (f : ClcRt → ClcRt) : Within s (s.modClc f) := of_eq rfl rfl
theorem cnv (s : State) (f : CnvRt → CnvRt) : Within s (s.modCnv f) := of_eq rfl rfl
theorem yaw (s : State) (f : YawRt → YawRt) : Within s (s.modYaw f) := of_eq rfl rfl
theorem block (s : State) : Within s s.placeBlock := of_eq rfl rfl

theorem raise (s : State) (c : Code) (d : List Int) : Within s (s.raise c d) := of_calm (Calm.raise c d)
theorem request (s : State) (c : ChanIx) (w : Requester) : Within s (s.request c w) :=
  of_calm (calm_request s c w)
theorem claim (s : State) (t : TagIx) (n : Nat) (w : Claimant) : Within s (s.claimTag t n w).1 :=
  of_calm (calm_claimTag s t n w)
theorem withdraw (s : State) (w : Claimant) (t : TagIx) : Within s (s.withdraw w t) :=
  of_calm (calm_withdraw s w t)

theorem formCf (s : State) : Within s s.formCf := by
  unfold State.formCf
  exact (clc s _).trans (of_calm (calm_publish _ _ _))

theorem stageCommand (s : State) : Within s s.stageCommand := by
  unfold State.stageCommand
  exact ite _ (fun _ => ite _ (fun h => of_calm (Calm.pushClass1 _ h)) fun _ => clc s _) fun _ => refl s

theorem heaterCommand (s : State) (on : Bool) : Within s (s.heaterCommand on) := by
  unfold State.heaterCommand
  exact ite _ (fun _ => ite _ (fun h => of_calm (Calm.pushClass1 _ h)) fun _ => clc s _) fun _ => refl s

theorem changeStage (s : State) (k : StageIx) : Within s (s.changeStage k) := by
  unfold State.changeStage
  exact ((clc s _).trans (formCf _)).trans (stageCommand _)

theorem reportHeld (s : State) (k : StageIx) : Within s (s.reportHeld k) := by
  unfold State.reportHeld
  exact ite _ (fun _ => refl s) fun _ => (clc s _).trans (raise _ _ _)

theorem dropStageClaim (s : State) : Within s s.dropStageClaim := by
  unfold State.dropStageClaim
  split
  · exact (clc s _).trans (withdraw _ _ _)
  · exact refl s

theorem stageUp (s : State) (k : StageIx) : Within s (s.stageUp k) := by
  unfold State.stageUp
  split
  · exact changeStage s k
  · next t _ =>
    dsimp only
    have h := claim s t (s.stage k).amount .clc
    generalize s.claimTag t (s.stage k).amount .clc = p at h ⊢
    refine h.trans ?_
    split
    · exact changeStage _ k
    · exact (clc _ _).trans (reportHeld _ _)
    · exact reportHeld _ _

theorem stageDown (s : State) (k : StageIx) : Within s (s.stageDown k) := by
  unfold State.stageDown
  dsimp only
  refine (dropStageClaim s).trans ?_
  split
  · exact changeStage _ k
  · next t _ =>
    have h := claim s.dropStageClaim t (s.dropStageClaim.stage k).amount .clc
    generalize s.dropStageClaim.claimTag t (s.dropStageClaim.stage k).amount .clc = p at h ⊢
    refine h.trans ?_
    split
    · exact changeStage _ k
    · exact (withdraw _ _ _).trans (changeStage _ _)
    · exact changeStage _ _

theorem stageTest (s : State) : Within s s.stageTest := by
  unfold State.stageTest State.stageTestAt
  dsimp only
  split
  · refine (ite (s.clc.target ≤ s.clc.actual) (fun _ => dropStageClaim s) fun _ => refl s).trans ?_
    generalize (if s.clc.target ≤ s.clc.actual then s.dropStageClaim else s) = u
    exact ite _ (fun _ => stageDown _ _) fun _ => ite _ (fun _ => stageUp _ _) fun _ => refl _
  · exact refl s

theorem setDuty (s : State) (d : Duty) (f : ChangeFrom) : Within s (s.setDuty d f) := by
  unfold State.setDuty State.dropPumpClaim
  refine Within.trans ?_ (formCf _)
  refine Within.trans ?_ (clc _ _)
  split
  · exact (clc s _).trans (withdraw _ _ _)
  · exact refl s

theorem requestChangeover (s : State) (ch : Option ChanIx) (f : ChangeFrom) :
    Within s (s.requestChangeover ch f) := by
  unfold State.requestChangeover
  dsimp only
  refine (clc s fun c => { c with low := 0 }).trans ?_
  split
  · exact (setDuty _ _ _).trans (raise _ _ _)
  · exact ite _ (fun _ => ((request _ _ _).trans (setDuty _ _ _)).trans (raise _ _ _)) fun _ =>
      ((request _ _ _).trans (setDuty _ _ _)).trans (raise _ _ _)

theorem changeoverDue (s : State) : Within s s.changeoverDue := by
  unfold State.changeoverDue
  split
  · exact requestChangeover _ _ _
  · exact requestChangeover _ _ _
  · refine (clc s fun c => { c with low := 0 }).trans ?_
    dsimp only
    split
    · exact refl _
    · exact request _ _ _
  · refine (clc s fun c => { c with low := 0 }).trans ?_
    dsimp only
    split
    · exact refl _
    · exact request _ _ _
  · exact refl s

theorem clcShed (s : State) (t : TagIx) : Within s (s.clcShed t) := by
  unfold State.clcShed
  refine ite _ (fun _ => ?_) fun _ => ite _ (fun _ => ?_) fun _ => ite _ (fun _ => ?_) fun _ => refl s
  · exact ((dropStageClaim s).trans (changeStage _ _)).trans (stageTest _)
  · unfold State.heaterShed State.dropHeaterClaim
    dsimp only
    refine Within.trans ?_ (heaterCommand _ _)
    refine Within.trans ?_ (clc _ _)
    exact ite _ (fun _ => (clc s _).trans (withdraw _ _ _)) fun _ => refl s
  · exact (clc s _).trans (changeoverDue _)

theorem furtherCause (s : State) (c : TripCause) (d : Nat) : Within s (s.furtherCause c d) := by
  unfold State.furtherCause
  exact ((block s).trans (cnv _ _)).trans (raise _ _ _)

theorem tripCnv (s : State) (c : TripCause) (d : Nat) : Within s (s.tripCnv c d) := by
  unfold State.tripCnv
  refine ite _ (fun _ => ite _ (fun _ => furtherCause s c d) fun _ => ?_) fun _ => refl s
  dsimp only
  have ha : ∀ (u : State) (aw : ConvAwait), Within u (u.abortAwaited aw) := by
    intro u aw
    unfold State.abortAwaited
    split
    · exact of_calm (calm_abortChan _ _ _)
    · exact of_calm (calm_abortChan _ _ _)
    · exact of_calm (calm_abortChan _ _ _)
    all_goals exact refl u
  have hr : ∀ u : State, Within u u.requestTrip := by
    intro u
    unfold State.requestTrip
    exact ite _ (fun _ => (request _ _ _).trans (furtherCause _ _ _)) fun _ =>
      (cnv u _).trans (request _ _ _)
  refine Within.trans ?_ (hr _)
  refine Within.trans ?_ (raise _ _ _)
  refine Within.trans ?_ (block _)
  refine Within.trans ?_ (ha _ _)
  exact (cnv s _).trans (of_calm (Calm.hand _))

theorem takeShed (s : State) (o : Owner) (t : TagIx) : Within s (s.takeShed o t) := by
  cases o with
  | none => exact refl s
  | yaw =>
    show Within s (s.yawShed t)
    unfold State.yawShed
    refine (yaw s fun y => { y with inhibit := y.inhibit.put .shed true }).trans ?_
    dsimp only
    refine ite _ (fun _ => ?_) fun _ => refl _
    unfold State.stopYaw
    exact (yaw _ _).trans (request _ _ _)
  | conversion =>
    show Within s (s.cnvShed t)
    unfold State.cnvShed
    exact ite _ (fun _ => tripCnv s _ _) fun _ => refl s
  | cooling => exact clcShed s t
  | allocator => exact refl s

end Within

theorem reach_takeShed (s : State) (o : Owner) (t : TagIx) : Reach s (s.takeShed o t) := by
  cases o with
  | none => exact Reach.refl s
  | yaw => exact reach_yawShed s t
  | conversion => exact reach_cnvShed s t
  | cooling => exact reach_clcShed s t
  | allocator => exact Reach.refl s

/-! ### One tag is shed -/

/-- The tags a shed pass can take: granted and not of class 0. -/
def State.sheddable (s : State) (t : TagIx) : Bool :=
  (s.tag t).grant != 0 && decide (s.settings.tags[t].cls ≠ 0)

def State.shedCount (s : State) : Nat := ((indices 16).filter s.sheddable).length

theorem foldl_some {α β : Type} (f : Option α → β → Option α) (h : ∀ a b, (f (some a) b).isSome)
    (l : List β) (a : α) : (l.foldl f (some a)).isSome := by
  induction l generalizing a with
  | nil => rfl
  | cons b l ih =>
    simp only [List.foldl_cons]
    obtain ⟨x, hx⟩ := Option.isSome_iff_exists.mp (h a b)
    rw [hx]; exact ih x

/-- The tag taken next is granted and of class 1 to 4. -/
theorem nextShed_sheddable {s : State} {t : TagIx} (h : s.nextShed = some t) : s.sheddable t = true := by
  have key : ∀ (l : List TagIx) (b : Option TagIx), (∀ x ∈ l, (s.tag x).grant ≠ 0) →
      (∀ x, b = some x → s.sheddable x = true) →
      ∀ x, l.foldl (fun best t =>
        let c := s.settings.tags[t].cls
        if c = 0 then best
        else
          match best with
          | none => some t
          | some b =>
            let d := s.settings.tags[b].cls
            if d < c ∨ (d = c ∧ (s.tag b).rank.getD 0 < (s.tag t).rank.getD 0) then some t else best)
        b = some x → s.sheddable x = true := by
    intro l
    induction l with
    | nil => intro b _ hb x hx; exact hb x hx
    | cons a l ih =>
      intro b hl hb
      refine ih _ (fun x hx => hl x (List.mem_cons_of_mem _ hx)) ?_
      intro x hx
      have ha : s.settings.tags[a].cls ≠ 0 → s.sheddable a = true := fun hc => by
        simp only [State.sheddable, Bool.and_eq_true, bne_iff_ne, decide_eq_true_eq]
        exact ⟨hl a (List.mem_cons_self ..), hc⟩
      dsimp only at hx
      split at hx
      · exact hb x hx
      · next hc =>
        split at hx
        · cases hx; exact ha hc
        · split at hx
          · cases hx; exact ha hc
          · exact hb x hx
  refine key _ none ?_ (by simp) t h
  intro x hx
  simpa [State.tag] using (mem_selectIx _ _ _).mp hx

/-- When no tag is taken next, every granted tag is of class 0. -/
theorem nextShed_none {s : State} (h : s.nextShed = none) (t : TagIx) (hg : s.ala.tags[t].grant ≠ 0) :
    s.settings.tags[t].cls = 0 := by
  have key : ∀ (l : List TagIx) (b : Option TagIx), l.foldl (fun best t =>
        let c := s.settings.tags[t].cls
        if c = 0 then best
        else
          match best with
          | none => some t
          | some b =>
            let d := s.settings.tags[b].cls
            if d < c ∨ (d = c ∧ (s.tag b).rank.getD 0 < (s.tag t).rank.getD 0) then some t else best)
        b = none → b = none ∧ ∀ x ∈ l, s.settings.tags[x].cls = 0 := by
    intro l
    induction l with
    | nil => intro b hb; exact ⟨hb, by simp⟩
    | cons a l ih =>
      intro b hb
      obtain ⟨h1, h2⟩ := ih _ hb
      dsimp only at h1
      split at h1
      · next hc =>
        refine ⟨h1, fun x hx => ?_⟩
        rcases List.mem_cons.mp hx with rfl | hx
        · exact hc
        · exact h2 x hx
      · split at h1
        · cases h1
        · split at h1 <;> cases h1
  exact (key _ none h).2 t ((mem_selectIx _ _ _).mpr (by simpa using hg))

theorem calm_requestShed (s : State) (t : TagIx) (c : ChanIx) : Calm s (s.requestShed t c) := by
  unfold State.requestShed
  dsimp only
  refine (calm_request s c .allocator).trans ?_
  split
  · refine Calm.alaTo _ ?_ ?_ ?_
    · rintro ⟨h1, h2⟩
      refine ⟨h1, fun q hq => ?_⟩
      have := h2 q hq
      dsimp only
      rw [updAt_get]
      split
      · next e => rw [e]; exact this
      · exact this
    · refine ⟨rfl, .inr fun k => ?_⟩
      dsimp only
      rw [updAt_get]
      split
      · next e => subst e; exact Nat.le_refl _
      · exact Nat.le_refl _
    · intro _ k _ hk
      dsimp only
      rw [updAt_get]
      split
      · next e => subst e; exact hk
      · exact hk
  · exact Calm.refl _

/-- What a shed does before the tag's owner is told: the grant is gone, event 10 is raised and the shed channel is
requested. -/
def State.shedFrom (s : State) (t : TagIx) : State :=
  let u := (s.modAla fun a => a.clearGrant t).raise 10
    [(t : Int), s.settings.tags[t].name, (s.settings.tags[t].cls : Int), (s.tag t).grant,
      (s.ala.clearGrant t).mode.code]
  match s.settings.tags[t].shed with
  | none => u
  | some c => u.requestShed t c

theorem shedTag_eq (s : State) (t : TagIx) :
    s.shedTag t = (s.shedFrom t).takeShed s.settings.tags[t].owner t := rfl

theorem requestShed_grant (s : State) (t k : TagIx) (c : ChanIx) :
    (s.requestShed t c).ala.tags[k].grant = s.ala.tags[k].grant := by
  have h : (s.request c .allocator).ala = s.ala := by
    unfold State.request
    split
    case h_2 => exact (evt_raise _ _ _).ala
    all_goals rfl
  unfold State.requestShed
  dsimp only
  split
  · simp only [State.modTag_ala, h, updAt_get]
    split
    · next e => rw [e]
    · rfl
  · simp only [h]

theorem shedFrom_grant (s : State) (t k : TagIx) :
    (s.shedFrom t).ala.tags[k].grant = if t = k then 0 else s.ala.tags[k].grant := by
  unfold State.shedFrom
  dsimp only
  rw [← AlaRt.clearGrant_grant]
  split
  · exact congrArg (fun a : AlaRt => a.tags[k].grant) (evt_raise _ _ _).ala
  · rw [requestShed_grant]
    exact congrArg (fun a : AlaRt => a.tags[k].grant) (evt_raise _ _ _).ala

theorem base_shedFrom (s : State) (t : TagIx) : CalmBase s (s.shedFrom t) := by
  have h : CalmBase s (s.modAla fun a => a.clearGrant t) :=
    ⟨rfl, EvuStep.refl, id, List.prefix_rfl, id, AlaRt.clearGrant_claims t,
      AlaRt.clearGrant_shrinks _ _ t, fun _ => id⟩
  refine h.trans (Calm.toCalmBase ?_)
  unfold State.shedFrom
  dsimp only
  split
  · exact Calm.raise _ _
  · exact (Calm.raise _ _).trans (calm_requestShed _ _ _)

/-- A change of the allocator followed by what a reaction does, the law of R125 apart. -/
theorem reach_of_base {s u t : State} (h : CalmBase s u) (r : Reach u t)
    (hy : s.ala.claimsOk → YawGrantLaw s → YawGrantLaw t) : Reach s t where
  eq := by
    have e := r.eq
    generalize t.evu = x1, t.rif.class0 = x2, t.rif.class1 = x3, t.rif.class2 = x4, t.signals = x5,
      t.seq = x6, t.ala = x7, t.work = x8, t.limits = x9, t.holds = x10, t.cnv = x11, t.alw = x12,
      t.yaw = x13, t.clc = x14, t.schedule = x15 at e
    subst e
    have e := h.eq
    generalize u.evu = x1, u.rif.class1 = x2, u.rif.class2 = x3, u.signals = x4, u.seq = x5,
      u.ala = x6, u.work = x7, u.clc = x8 at e
    subst e
    rfl
  evu := by
    have e := r.evu
    rw [h.settings, h.portOut] at e
    exact h.evu.trans e
  class0 := by have := r.class0; rw [h.class0] at this; exact this
  block := by have := r.block; unfold BlockQueued at this ⊢; rw [h.class0] at this; exact this
  class1 g := r.class1 (h.class1 g)
  seq g := r.seq (h.seq g)
  claims g := r.claims (h.claims g)
  budget g := by
    have := r.budget
    rw [h.settings] at this
    exact this (h.budget g)
  range := by have := r.range; rw [h.yaw] at this; exact this
  yawGrant := hy
  cf hf hc := by
    have := r.cf
    rw [h.settings] at this
    exact this hf (h.cf hf hc)
  hard := by have := r.hard; rw [h.settings, h.yaw] at this; exact this
  rest := by
    have := r.rest
    unfold RestLaw at this ⊢
    rw [h.part, h.cnv, h.yaw] at this
    exact this
  alw hf hc := by
    have := r.alw
    rw [h.settings, h.alw] at this
    exact this hf (h.cf hf hc)

/-- The owner's action on a shed keeps R125: YAW leaves DRIVING when its tag is shed. -/
theorem reach_shedTag (s : State) (t : TagIx) : Reach s (s.shedTag t) := by
  rw [shedTag_eq]
  have hb := base_shedFrom s t
  have hr := reach_takeShed (s.shedFrom t) s.settings.tags[t].owner t
  refine reach_of_base hb hr fun hc hy => ?_
  by_cases e : t = s.settings.yaw.tag ∧ s.settings.tags[t].owner = .yaw
  · obtain ⟨rfl, ho⟩ := e
    rw [ho]
    have := yawShed_stops (s.shedFrom s.settings.yaw.tag)
    rw [hb.settings] at this
    exact fun hd => absurd hd this
  · refine hr.yawGrant (hb.claims hc) ?_
    rw [yawGrantLaw_iff] at hy ⊢
    rw [hb.yaw, hb.settings]
    intro hd
    obtain ⟨l, hl⟩ := hb.work
    rcases hy hd with ⟨ho, hg⟩ | hn
    · refine .inl ⟨ho, ?_⟩
      rw [shedFrom_grant, if_neg fun h => e ⟨h, h ▸ ho⟩]
      exact hg
    · exact .inr (by rw [← hl]; exact List.mem_append_left _ hn)

theorem within_shedTag (s : State) (t : TagIx) : Within (s.shedFrom t) (s.shedTag t) := by
  rw [shedTag_eq]
  exact Within.takeShed _ _ _

/-- A shed leaves fewer tags to shed, or the sum within the budget. -/
theorem shedTag_count {s : State} {t : TagIx} (h : s.sheddable t = true) :
    (s.shedTag t).ala.sum ≤ (s.shedTag t).budget ∨ (s.shedTag t).shedCount < s.shedCount := by
  have hw := within_shedTag s t
  have hs : (s.shedTag t).settings = s.settings := hw.1.trans (base_shedFrom s t).settings
  rcases hw.2.2 with hf | hf
  · left
    unfold State.budget
    rw [hw.1]
    exact hf
  · right
    have hp : ∀ k, (s.shedTag t).sheddable k = true → s.sheddable k = true ∧ t ≠ k := by
      intro k hk
      simp only [State.sheddable, State.tag, hs, Bool.and_eq_true, bne_iff_ne, decide_eq_true_eq] at hk ⊢
      have := hf k
      rw [shedFrom_grant] at this
      split at this
      · exact absurd (Nat.le_zero.mp this) hk.1
      · next e => exact ⟨⟨fun h0 => hk.1 (Nat.le_zero.mp (h0 ▸ this)), hk.2⟩, e⟩
    unfold State.shedCount
    refine Nat.lt_of_le_of_lt
      (m := (((indices 16).filter s.sheddable).filter fun k => decide (t ≠ k)).length) ?_ ?_
    · rw [List.filter_filter]
      rw [← List.countP_eq_length_filter, ← List.countP_eq_length_filter]
      refine List.countP_mono_left fun k _ hk => ?_
      simpa [and_comm] using hp k hk
    · refine List.length_filter_lt_length_iff_exists.mpr ⟨t, ?_, by simp⟩
      exact List.mem_filter.mpr ⟨mem_indices t, h⟩

/-! ### The pass -/

/-- Nothing is left to shed for. -/
def State.shedEnds (s : State) : Prop := s.ala.sum ≤ s.budget ∨ s.nextShed = none

theorem shedUpTo_ends {s : State} (h : s.shedEnds) (n : Nat) : shedUpTo n s = s := by
  cases n with
  | zero => rfl
  | succ n =>
    unfold shedUpTo
    rcases h with h | h
    · rw [if_neg (by omega)]
    · rw [h]
      simp

/-- The bound of 16 is no bound: a pass with enough turns ends as a longer one does. -/
theorem shedUpTo_enough (n m : Nat) (s : State) (h : s.shedCount ≤ n) (hm : n ≤ m) :
    shedUpTo m s = shedUpTo n s ∧ (shedUpTo n s).shedEnds := by
  induction n generalizing m s with
  | zero =>
    have : s.shedEnds := by
      right
      cases hn : s.nextShed with
      | none => rfl
      | some t =>
        have hs := nextShed_sheddable hn
        have : t ∈ (indices 16).filter s.sheddable := List.mem_filter.mpr ⟨mem_indices t, hs⟩
        have h0 : (indices 16).filter s.sheddable = [] := List.eq_nil_of_length_eq_zero (Nat.le_zero.mp h)
        rw [h0] at this
        cases this
    exact ⟨shedUpTo_ends this m, this⟩
  | succ n ih =>
    obtain ⟨m, rfl⟩ : ∃ k, m = k + 1 := ⟨m - 1, by omega⟩
    unfold shedUpTo
    split
    · split
      · next hn => exact ⟨rfl, .inr hn⟩
      · next t ht =>
        rcases shedTag_count (nextShed_sheddable ht) with hb | hb
        · rw [shedUpTo_ends (.inl hb), shedUpTo_ends (.inl hb)]
          exact ⟨rfl, .inl hb⟩
        · exact ih m _ (by omega) (by omega)
    · next hb => exact ⟨rfl, .inl (Nat.le_of_not_lt hb)⟩

theorem shedCount_le (s : State) : s.shedCount ≤ 16 := by
  refine Nat.le_trans (List.length_filter_le _ _) ?_
  simp [indices_eq]

/-- A pass with something to shed sheds the next tag and goes on (R72). -/
theorem shedPass_next {s : State} {t : TagIx} (hb : s.budget < s.ala.sum) (hn : s.nextShed = some t) :
    s.shedPass = (s.shedTag t).shedPass := by
  unfold State.shedPass
  congr 1
  rw [show shedUpTo 16 s = shedUpTo 15 (s.shedTag t) by
    rw [shedUpTo, if_pos hb, hn]]
  have h16 := shedCount_le s
  rcases shedTag_count (nextShed_sheddable hn) with h | h
  · rw [shedUpTo_ends (.inl h), shedUpTo_ends (.inl h)]
  · exact (shedUpTo_enough 15 16 _ (by omega) (by omega)).1.symm

/-- A pass with nothing to shed ends (R72, R73). -/
theorem shedPass_end {s : State} (h : s.shedEnds) : s.shedPass = s.endPass := by
  unfold State.shedPass
  rw [shedUpTo_ends h]

theorem reach_shedUpTo (n : Nat) (s : State) : Reach s (shedUpTo n s) := by
  induction n generalizing s with
  | zero => exact Reach.refl s
  | succ n ih =>
    unfold shedUpTo
    split
    · split
      · exact Reach.refl s
      · exact (reach_shedTag s _).trans (ih _)
    · exact Reach.refl s

theorem calm_endPass (s : State) : Calm s s.endPass := by
  unfold State.endPass
  exact (Calm.ite _ (fun _ => Calm.raise _ _) fun _ => Calm.refl s).trans (calm_headTest _ _)

theorem reach_shedPass (s : State) : Reach s s.shedPass :=
  (reach_shedUpTo 16 s).trans (Reach.of_calm (calm_endPass _))

/-- A shed pass leaves the law of R69 (R72, R73). -/
theorem shedPass_budget (s : State) : s.shedPass.ala.budgetOk s.settings := by
  have hs := (reach_shedUpTo 16 s).settings
  have he := (shedUpTo_enough 16 16 s (shedCount_le s) (Nat.le_refl _)).2
  have := (calm_endPass (shedUpTo 16 s)).budget
  rw [hs] at this
  refine this ?_
  rcases he with h | h
  · left
    unfold State.budget at h
    rw [hs] at h
    exact h
  · right
    intro t ht
    have := nextShed_none h t ht
    rw [hs] at this
    exact this

/-- A change of the allocator that is followed by a reaction. -/
theorem reach_after {s t : State} (a : AlaRt) (h : Reach { s with ala := a } t)
    (hc : s.ala.claimsOk → a.claimsOk)
    (hg : ∀ k : TagIx, s.ala.tags[k].grant ≠ 0 → a.tags[k].grant ≠ 0)
    (hb : s.ala.budgetOk s.settings → t.ala.budgetOk s.settings) : Reach s t where
  eq := h.eq
  evu := h.evu
  class0 := h.class0
  block := h.block
  class1 := h.class1
  seq := h.seq
  claims hs := h.claims (hc hs)
  budget := hb
  range := h.range
  yawGrant hs hy := h.yawGrant (hc hs) fun hd =>
    (hy hd).imp_left fun ⟨ho, hk⟩ => ⟨ho, hg _ hk⟩
  cf := h.cf
  hard := h.hard
  rest := h.rest
  alw := h.alw

theorem headTest_budget (s : State) (h : s.ala.budgetOk s.settings) : s.headTest.ala.budgetOk s.settings :=
  (calm_headTest s none).budget h

/-- A mode request keeps the law (R71). -/
theorem reach_setMode (s : State) (m : SupplyMode) : Reach s (s.setMode m) := by
  unfold State.setMode
  split
  · exact Reach.refl s
  · unfold State.budgetChanged
    split
    · exact reach_after _ (reach_shedPass _) id (fun _ => id) fun _ => shedPass_budget _
    · next hb =>
      have hb' : AlaRt.budgetOk { s.ala with mode := m } s.settings := .inl (Nat.le_of_not_lt hb)
      split
      · exact reach_after _ (Reach.of_calm (calm_headTest _ _)) id (fun _ => id) fun _ =>
          headTest_budget _ hb'
      · exact reach_after _ (Reach.refl _) id (fun _ => id) fun _ => hb'

/-- The end of a shed channel (R74). -/
theorem calm_shedChannelEnd (s : State) (c : ChanIx) : Calm s (s.shedChannelEnd c) := by
  let f : TagIx → TagRt := fun t =>
    if s.settings.tags[t].shed = some c then { s.ala.tags[t] with shedding := false }
    else s.ala.tags[t]
  have hgr : ∀ k : TagIx, (tabulate 16 f)[k].grant = s.ala.tags[k].grant := by
    intro k
    rw [tabulate_get]
    dsimp only [f]
    split <;> rfl
  refine Calm.trans (Calm.alaTo (s := s) { s.ala with tags := tabulate 16 f } ?_ ?_ ?_) (calm_headTest _ _)
  · rintro ⟨h1, h2⟩
    exact ⟨h1, fun q hq => by rw [hgr]; exact h2 q hq⟩
  · exact ⟨rfl, .inr fun k => Nat.le_of_eq (hgr k)⟩
  · exact fun _ k _ hk => by rw [hgr]; exact hk

end Sys2Proof.Machine
end

