-- ==== Sys2Proof/Laws/Computation.lean ====
section
/-! SUPPORT. Laws/Computation.lean: what a computation of CNV and ALW can do to the part, through
`Reach`. -/

namespace Sys2Proof.Machine

/-! ### The computation -/

theorem reach_blindTest (s : State) (x : Readings) : Reach s (s.blindTest x) := by
  unfold State.blindTest
  dsimp only
  have h1 : Reach s (s.modCnv fun c => { c with blind := satSucc 65535 c.blind }) := reach_cnv s _ rfl
  generalize (s.modCnv fun c => { c with blind := satSucc 65535 c.blind }) = t at h1 ⊢
  have h2 : Reach s (if t.cnv.blind = 1 then t.raise 15 (x.notGood.map fun (i : SigIx) => (i : Int)) else t) :=
    h1.trans (Reach.ite _ (fun _ => Reach.raise _ _) fun _ => Reach.refl t)
  generalize (if t.cnv.blind = 1 then t.raise 15 (x.notGood.map fun (i : SigIx) => (i : Int)) else t) = u
    at h2 ⊢
  have h3 : Reach s (if u.cnv.state.isRunning = true ∧ u.settings.conv.blindLimit < u.cnv.blind then
      u.tripCnv .blind 0 else u) :=
    h2.trans (Reach.ite _ (fun _ => reach_tripCnv _ _ _) fun _ => Reach.refl u)
  generalize (if u.cnv.state.isRunning = true ∧ u.settings.conv.blindLimit < u.cnv.blind then
      u.tripCnv .blind 0 else u) = v at h3 ⊢
  exact h3.trans (Reach.ite _ (fun _ => reach_cnv _ _ rfl) fun _ => Reach.refl v)

theorem reach_enterDip (s : State) (mf : Nat) (h : s.cnv.state ≠ .off) : Reach s (s.enterDip mf) := by
  unfold State.enterDip
  refine Reach.trans ?_ (Reach.raise _ _)
  refine Reach.trans (t := s.modCnv fun c => { c with dip := 0 }) (reach_cnv s _ rfl) ?_
  exact reach_setConv _ _ (.inr (.inl h))

theorem reach_advanceDip (s : State) (mf : Nat) : Reach s (s.advanceDip mf) := by
  unfold State.advanceDip
  dsimp only
  refine Reach.trans (reach_cnv s (fun c => { c with dip := satSucc 65535 c.dip }) rfl) ?_
  split
  · exact Reach.refl _
  · exact reach_tripCnv _ _ _

theorem reach_classify (s : State) (mf : Nat) : Reach s (s.classify mf) := by
  unfold State.classify
  dsimp only
  split
  · split
    · exact reach_enterDip s mf (by simp [*])
    · exact Reach.refl s
  · split
    · exact reach_setConv s _ (.inr (.inl (by simp [*])))
    · exact reach_advanceDip s mf
  · split
    · exact reach_enterDip s mf (by simp [*])
    · exact Reach.refl s
  all_goals exact Reach.refl s

theorem reach_countAbsent (s : State) (mf : Nat) : Reach s (s.countAbsent mf) := reach_cnv s _ rfl

theorem reach_formMagnitude (s : State) (x : Readings) : Reach s (s.formMagnitude x) := by
  unfold State.formMagnitude
  dsimp only
  refine Reach.trans ?_ (reach_publish _ _ _)
  exact reach_alw s _ rfl rfl rfl rfl

theorem reach_classified (s : State) (x : Readings) : Reach s (s.classified x) := by
  unfold State.classified
  dsimp only
  refine Reach.trans ?_ (reach_countAbsent _ _)
  refine Reach.trans ?_ (reach_classify _ _)
  refine Reach.trans ?_ (reach_formMagnitude _ _)
  exact reach_cnv s _ rfl

/-- The values of stages 4 to 8 that the law of R110 speaks of. -/
structure AlwRt.Formed (a : AlwRt) : Prop where
  iq : a.iq ≤ a.ith
  ith : a.ith ≤ a.a
  cap : a.ipCap = activeCap a.ith a.iq
  req : a.ipReq ≤ a.ipCap

theorem cooled_le (a cf : Nat) (h : cf ≤ 16384) : cooled a cf ≤ a := by
  unfold cooled
  have := Nat.mul_le_mul_left a h
  omega

theorem clampRequest_le (cap : Nat) (r : Int) : clampRequest cap r ≤ cap := by
  unfold clampRequest limitTo
  omega

theorem reactive_le (c : AlwCfg) (st : ConvState) (mf ith : Nat) : c.reactive st mf ith ≤ ith := by
  unfold AlwCfg.reactive
  dsimp only
  omega

theorem formAllowance_alw (s : State) (x : Readings) :
    (s.formAllowance x).alw = { s.alw with
      tmax := hottest x.temps
      a := s.settings.alw.allowance (hottest x.temps)
      cfUsed := x.cf
      ith := cooled (s.settings.alw.allowance (hottest x.temps)) x.cf } :=
  (calm_publish _ _ _).alw

theorem base_formAllowance (s : State) (x : Readings) : ReachBase s (s.formAllowance x) := by
  unfold State.formAllowance
  dsimp only
  exact ReachBase.trans (base_modAlw s _) (ReachBase.of_calm (calm_publish _ _ _))

theorem base_formCurrents (s : State) (x : Readings) : ReachBase s (s.formCurrents x) := by
  unfold State.formCurrents
  exact base_modAlw s _

/-- Stages 4 to 8 in OPERATING leave what the law of R110 needs. -/
theorem formCurrents_formed (s : State) (x : Readings) (hc : x.cf ≤ 16384) :
    ((s.formAllowance x).formCurrents x).alw.Formed := by
  have h := formAllowance_alw s x
  constructor
  · exact reactive_le _ _ _ _
  · show (s.formAllowance x).alw.ith ≤ (s.formAllowance x).alw.a
    rw [h]
    exact cooled_le _ _ hc
  · rfl
  · exact clampRequest_le _ _

/-- Stage 8 sets the active limit to at most the request and keeps what was formed. -/
structure Limited (s t : State) : Prop extends ReachBase s t where
  yaw : t.yaw = s.yaw
  formed : s.alw.Formed → t.alw.Formed ∧ t.alw.ipLimit ≤ t.alw.ipReq

theorem limited_set (s : State) (f : AlwRt → AlwRt)
    (h : s.alw.Formed → (f s.alw).Formed ∧ (f s.alw).ipLimit ≤ (f s.alw).ipReq) :
    Limited s (s.modAlw f) := ⟨base_modAlw s f, rfl, h⟩

theorem base_setConv (s : State) (k : ConvState) : ReachBase s (s.setConv k) := by
  unfold State.setConv
  exact ReachBase.trans (base_modCnv s _) (ReachBase.of_calm (Calm.hand _))

theorem limited_formLimit (s : State) (e : Bool) : Limited s (s.formLimit e) := by
  have zero : Limited s (s.modAlw fun r => { r with ipLimit := 0 }) :=
    limited_set s _ fun h => ⟨⟨h.iq, h.ith, h.cap, h.req⟩, Nat.zero_le _⟩
  unfold State.formLimit
  split
  · exact limited_set s _ fun h => ⟨⟨h.iq, h.ith, h.cap, h.req⟩, Nat.le_refl _⟩
  · exact limited_set s _ fun h => ⟨⟨h.iq, h.ith, h.cap, h.req⟩, Nat.le_refl _⟩
  · unfold State.postDipLimit
    dsimp only
    have h1 : Limited s (s.modAlw fun r =>
        { r with ramp := s.settings.alw.rampStep e s.alw.ramp s.alw.rideLimit,
                 ipLimit := min r.ipReq (s.settings.alw.rampStep e s.alw.ramp s.alw.rideLimit) }) :=
      limited_set s _ fun h => ⟨⟨h.iq, h.ith, h.cap, h.req⟩, Nat.min_le_left _ _⟩
    split
    · refine ⟨(h1.toReachBase.trans (base_setConv _ _)).trans (ReachBase.of_calm (Calm.raise _ _)),
        ?_, ?_⟩
      · rw [raise_yaw]; exact h1.yaw
      · rw [(Calm.raise (s := State.setConv _ _) _ _).alw]; exact h1.formed
    · exact h1
  all_goals exact zero

theorem reach_sendReference (s : State) : Reach s s.sendReference := by
  unfold State.sendReference
  split
  · exact reach_placeRef _ _ _
  · exact Reach.refl s

/-- Stages 4 to 9 but for the Reference Frame. -/
theorem base_limits (s : State) (x : Readings) (e : Bool) :
    ReachBase s (((s.formAllowance x).formCurrents x).formLimit e).keepReference :=
  (((base_formAllowance s x).trans (base_formCurrents _ x)).trans
    (limited_formLimit _ e).toReachBase).trans (base_modAlw _ _)

theorem limits_yaw (s : State) (x : Readings) (e : Bool) :
    (((s.formAllowance x).formCurrents x).formLimit e).keepReference.yaw = s.yaw := by
  show (((s.formAllowance x).formCurrents x).formLimit e).yaw = s.yaw
  rw [(limited_formLimit _ e).yaw]
  exact (calm_publish _ _ _).yaw

/-- Stages 4 to 9, for readings that the law of R110 can rest on when it holds. -/
theorem reach_limited {s r : State} (x : Readings) (k : ConvState) (h : Reach r s) (ho : s.part = .operating)
    (hx : x.cf = r.clc.cf) : Reach r (s.limited x k) := by
  unfold State.limited
  dsimp only
  refine Reach.trans ?_ (reach_sendReference _)
  generalize (k == .rideThrough && s.cnv.state == .postDip) = e
  refine Reach.of_operating (h.toReachBase.trans (base_limits s x e)) ?_ ?_ (h.part.symm.trans ho)
  · rw [limits_yaw]
    exact h.hard
  · intro _ hc _
    obtain ⟨hf, hl⟩ := (limited_formLimit _ e).formed (formCurrents_formed s x (hx ▸ hc))
    refine ⟨hf.iq, hf.ith, ?_⟩
    show (((s.formAllowance x).formCurrents x).formLimit e).alw.ipLimit ≤ activeCap _ _
    exact hl.trans (hf.req.trans (Nat.le_of_eq hf.cap))

theorem reach_blindComputation (s : State) (x : Readings) : Reach s (s.blindComputation x) := by
  unfold State.blindComputation
  dsimp only
  refine Reach.trans ?_ (reach_sendReference _)
  refine (reach_blindTest s x).trans ?_
  generalize s.blindTest x = t
  have h : Reach t (t.modAlw fun r => { r with history := [], lastBlind := true }) :=
    reach_alw t _ rfl rfl rfl rfl
  refine h.trans (Reach.ite _ (fun _ => ?_) fun _ => Reach.refl _)
  exact reach_alw _ _ rfl rfl rfl rfl

theorem reach_autostartTest (s : State) (ho : s.part = .operating) : Reach s s.autostartTest := by
  unfold State.autostartTest
  split
  · refine Reach.trans (t := s.modCnv fun c => { c with autostartPending := false })
      (reach_cnv s _ rfl) ?_
    exact reach_beginCharging _ ho
  · exact Reach.refl s

theorem reach_computation (s : State) (x : Readings) (ho : s.part = .operating) (hx : x.cf = s.clc.cf) :
    Reach s (s.computation x) := by
  unfold State.computation
  split
  · dsimp only
    have hp : (s.classified x).part = .operating := (reach_classified s x).part.trans ho
    have h := reach_limited x s.cnv.state (reach_classified s x) hp hx
    exact (h.trans (reach_autostartTest _ (h.part.trans ho))).trans (reach_setMode _ _)
  · have h := reach_blindComputation s x
    exact h.trans (reach_autostartTest _ (h.part.trans ho))

/-! ### Updates -/

theorem reach_gridLost (s : State) : Reach s s.gridLost := by
  unfold State.gridLost
  exact (Reach.ite _ (fun _ => reach_tripCnv _ _ _) fun _ => Reach.refl s).trans (reach_setMode _ _)

theorem reach_gridUpdate (s : State) (i : SigIx) (v : Int) (q : Quality) :
    Reach s (s.gridUpdate i v q) := by
  unfold State.gridUpdate
  split
  · rename_i ho
    split
    · exact reach_gridLost s
    · split
      · exact reach_computation s _ (by simpa [State.operating] using ho.1) rfl
      · exact Reach.refl s
  · exact Reach.refl s

theorem reach_cnvUpdate (s : State) (i : SigIx) (v : Int) (q : Quality) :
    Reach s (s.cnvUpdate i v q) := by
  unfold State.cnvUpdate
  dsimp only
  exact (Reach.ite _ (fun _ => reach_heartbeat s q) fun _ => Reach.refl s).trans (reach_gridUpdate _ _ _ _)

end Sys2Proof.Machine
end

