-- ==== Sys2Proof/Laws/Cascade.lean ====
section
/-! SUPPORT. Laws/Cascade.lean: what LIM's operations and the hand-overs can do to the part, through
`Reach`. -/

namespace Sys2Proof.Machine

/-! ### Limits -/

theorem reach_modLimit (s : State) (i : LimIx) (f : LimitRt → LimitRt) : Reach s (s.modLimit i f) :=
  reach_limits s _

theorem reach_updateHolds (s : State) : Reach s s.updateHolds := by
  unfold State.updateHolds
  dsimp only
  generalize s.converterHoldDue = a, s.limitInhibitDue = b, s.fullCoolingDue = c
  generalize s.holds = old
  have h := reach_holds s { converter := a, yaw := b, cooling := c }
  generalize ({ s with holds := { converter := a, yaw := b, cooling := c } } : State) = t at h ⊢
  have h1 : Reach s (if a = old.converter then t else t.tellConverterHold a) :=
    h.trans (Reach.ite _ (fun _ => Reach.refl t) fun _ => reach_tellConverterHold _ _)
  generalize (if a = old.converter then t else t.tellConverterHold a) = u at h1 ⊢
  have h2 : Reach s (if b = old.yaw then u else u.tellLimit b) :=
    h1.trans (Reach.ite _ (fun _ => Reach.refl u) fun _ => reach_tellLimit _ _)
  generalize (if b = old.yaw then u else u.tellLimit b) = v at h2 ⊢
  exact h2.trans (Reach.ite _ (fun _ => Reach.refl v) fun _ => reach_tellFullHold _ _)

theorem reach_limitAction (s : State) (i : LimIx) : Reach s (s.limitAction i) := by
  unfold State.limitAction
  dsimp only
  split
  · exact reach_tripCnv _ _ _
  · exact reach_request _ _ _
  · exact Reach.refl s

theorem reach_tripLimit (s : State) (i : LimIx) : Reach s (s.tripLimit i) := by
  unfold State.tripLimit
  dsimp only
  refine Reach.trans ?_ (reach_updateHolds _)
  refine Reach.trans ?_ (reach_limitAction _ _)
  exact (reach_modLimit s i _).trans (Reach.raise _ _)

theorem reach_releaseLimit (s : State) (i : LimIx) : Reach s (s.releaseLimit i) := by
  unfold State.releaseLimit
  exact (reach_modLimit s i _).trans (reach_updateHolds _)

theorem reach_testLimit (s : State) (i : LimIx) (v : Int) : Reach s (s.testLimit i v) := by
  unfold State.testLimit
  dsimp only
  refine (reach_modLimit s i fun r =>
    { r with counter := if s.settings.limits[i].trips v then satSucc 255 r.counter else 0 }).trans ?_
  generalize (s.modLimit i fun r =>
    { r with counter := if s.settings.limits[i].trips v then satSucc 255 r.counter else 0 }) = t
  split
  · split
    · exact reach_releaseLimit _ _
    · exact Reach.refl _
  · split
    · exact reach_tripLimit _ _
    · exact Reach.refl _

theorem reach_loseLimit (s : State) (i : LimIx) : Reach s (s.loseLimit i) := by
  unfold State.loseLimit
  dsimp only
  refine (reach_modLimit s i fun r => { r with counter := 0 }).trans ?_
  split
  · exact Reach.refl _
  · split
    · exact Reach.refl _
    · exact reach_tripLimit _ _
  · split
    · exact reach_releaseLimit _ _
    · exact Reach.refl _

theorem reach_limitEntry (s : State) (sig : SigIx) (v : Int) (q : Quality) (i : LimIx) :
    Reach s (s.limitEntry sig v q i) := by
  unfold State.limitEntry
  dsimp only
  split
  · split
    · exact reach_testLimit _ _ _
    · exact reach_testLimit _ _ _
    · exact reach_loseLimit _ _
    · exact reach_modLimit _ _ _
  · exact Reach.refl s

theorem reach_limUpdate (s : State) (sig : SigIx) (v : Int) (q : Quality) :
    Reach s (s.limUpdate sig v q) :=
  reach_foldl _ (fun s i => reach_limitEntry s sig v q i) _ s

theorem reach_unlatch (s : State) (i : LimIx) : Reach s (s.unlatch i) := by
  unfold State.unlatch
  dsimp only
  refine (reach_modLimit s i fun r => { r with latch := false }).trans ?_
  split
  · exact reach_releaseLimit _ _
  · exact Reach.refl _

theorem reach_ackLimits (s : State) (c : Code) : Reach s (s.ackLimits c).1 :=
  reach_foldl _ reach_unlatch _ s

/-! ### Hand-overs -/

theorem sorted_selectIx {α : Type} {n : Nat} (p : α → Bool) (v : Vector α n) :
    (selectIx p v).Pairwise (· < ·) := by
  have h : ((indices n).zip v.toList).Pairwise fun a b => a.1 < b.1 := by
    have : (((indices n).zip v.toList).map Prod.fst).Pairwise (· < ·) := by
      rw [List.map_fst_zip (by simp [indices_eq]), indices_eq]
      exact List.pairwise_lt_finRange n
    exact List.pairwise_map.1 this
  refine List.Pairwise.filterMap _ (fun a b hab x hx y hy => ?_) h
  revert hx hy
  split <;> split <;> simp
  rintro rfl rfl
  exact hab

theorem nodup_eraseDups (l : List Reader) : l.eraseDups.Nodup := by
  generalize hn : l.length = n
  induction n using Nat.strong_induction_on generalizing l with
  | _ n ih =>
    cases l with
    | nil => simp
    | cons a l =>
      rw [List.eraseDups_cons, List.nodup_cons, List.mem_eraseDups]
      have := List.length_filter_le (fun b => !b == a) l
      simp only [List.length_cons] at hn
      exact ⟨by simp, ih _ (by omega) _ rfl⟩

/-- Every reader takes an update (R20). -/
theorem mem_readerOrder (l : List Reader) (r : Reader) : r ∈ readerOrder l := by
  have h : r ∈ defaultReaders := by cases r <;> decide
  by_cases hr : r ∈ l <;> simp [readerOrder, hr, h]

/-- No reader takes an update twice. -/
theorem nodup_readerOrder (l : List Reader) : (readerOrder l).Nodup := by
  rw [readerOrder, List.nodup_append]
  refine ⟨nodup_eraseDups l, List.Nodup.filter _ (by decide), fun a ha b hb e => ?_⟩
  subst e
  simp only [List.mem_eraseDups, List.mem_filter] at ha hb
  simp [ha] at hb

theorem reach_readUpdate (s : State) (r : Reader) (i : SigIx) (v : Int) (q : Quality) (c : Cause) :
    Reach s (s.readUpdate r i v q c) := by
  cases r with
  | lim => exact reach_limUpdate s i v q
  | seq => exact Reach.of_calm (calm_seqUpdate s i v q)
  | cnv => exact reach_cnvUpdate s i v q
  | yaw => exact reach_yawUpdate s i v q c
  | clc => exact reach_clcUpdate s i v q

theorem reach_takeUpdate (s : State) (i : SigIx) (v : Int) (q : Quality) (c : Cause) :
    Reach s (s.takeUpdate i v q c) :=
  Reach.trans (reach_schedule s _) (reach_foldl _ (fun s r => reach_readUpdate s r i v q c) _ _)

theorem reach_takeOutcome (s : State) (o : Owner) (c : ChanIx) (e : RunEnd) :
    Reach s (s.takeOutcome o c e) := by
  cases o with
  | none => exact Reach.refl s
  | yaw => exact reach_yawOutcome s c e
  | conversion => exact reach_cnvOutcome s c e
  | cooling => exact reach_clcOutcome s c e
  | allocator => exact Reach.of_calm (calm_shedChannelEnd s c)

theorem reach_takeRelease (s : State) (o : Owner) (t : TagIx) : Reach s (s.takeRelease o t) := by
  cases o with
  | yaw => exact reach_yawReleased s t
  | none => exact Reach.refl s
  | conversion => exact Reach.refl s
  | cooling => exact Reach.refl s
  | allocator => exact Reach.refl s

theorem reach_take (s : State) (w : Work) : Reach s (s.take w) := by
  unfold State.take
  split
  · exact reach_takeUpdate _ _ _ _ _
  · exact reach_takeOutcome _ _ _ _
  · exact reach_takeRelease _ _ _
  · exact reach_heaterTest _
  · exact reach_stageTest _

/-- Taking the oldest hand-over off the list; R125 is kept, since a notice for the yaw tag ends
DRIVING. -/
theorem reach_head (s : State) (w : Work) (rest : List Work) (h : s.work = w :: rest) :
    Reach s (State.take { s with work := rest } w) := by
  have hr := reach_take { s with work := rest } w
  refine ⟨⟨hr.eq, hr.evu, hr.class0, hr.block, hr.class1, hr.seq, hr.claims, hr.budget, hr.range,
    fun hc hy => ?_, hr.cf⟩, hr.hard, hr.rest, hr.alw⟩
  by_cases hw : w = .released .yaw s.settings.yaw.tag
  · subst hw
    exact fun hd => absurd hd (yawReleased_stops { s with work := rest })
  · refine hr.yawGrant hc fun hd => ?_
    have hg := hy hd
    rw [h] at hg
    simp only [List.mem_cons] at hg
    rcases hg with hg | hg | hg
    · exact .inl hg
    · exact absurd hg.symm hw
    · exact .inr hg

theorem reach_settleUpTo (n : Nat) (s : State) : Reach s (settleUpTo n s) := by
  induction n generalizing s with
  | zero => exact Reach.refl s
  | succ n ih =>
    unfold settleUpTo
    split
    · exact Reach.refl s
    · exact (reach_head s _ _ (by assumption)).trans (ih _)

theorem reach_settle (s : State) : Reach s s.settle := reach_settleUpTo 256 s

theorem reach_takeStale (s : State) : Reach s s.takeStale := by
  unfold State.takeStale
  generalize s.staleList = l
  induction l generalizing s with
  | nil => exact Reach.refl s
  | cons x l ih =>
    exact (Reach.of_calm (calm_staleContributor s x.1 x.2)).trans ((reach_settle _).trans (ih _))

end Sys2Proof.Machine
end

