-- ==== Sys2Proof/Laws/Parse.lean ====
section
/-! SUPPORT. Laws/Parse.lean: each field read back from the word that shows it, and what is read from any
words keeps the ranges of Machine/Ranges.lean. -/

namespace Sys2Proof.Machine

/-! ### Fields read back -/

theorem wordNat_toNat {n : Nat} (h : n < 65536) : (wordNat n).toNat = n := by
  simp only [wordNat, BitVec.toNat_ofNat]
  omega

theorem wordInt_toInt {x : Int} (h : int16 x) : (wordInt x).toInt = x := by
  obtain ⟨h1, h2⟩ := h
  simp only [wordInt, BitVec.toInt_ofInt]
  exact Int.bmod_eq_of_le (by omega) (by omega)

theorem wordNat_toInt {n : Nat} (h : n ≤ 32767) : (wordNat n).toInt = n := by
  rw [BitVec.toInt_eq_toNat_of_lt, wordNat_toNat] <;> [omega; (rw [wordNat_toNat] <;> omega)]

theorem toInt_int16 (w : Word) : int16 w.toInt := by
  have h1 := BitVec.toInt_lt (x := w)
  have h2 := BitVec.le_toInt (x := w)
  exact ⟨by simpa using h2, by omega⟩

theorem ixOf_word {n : Nat} (hn : n ≤ 65536) (i : Fin n) : ixOf n (wordNat i) = some i := by
  have h : (wordNat i).toNat = i := wordNat_toNat (by omega)
  simp only [ixOf, h, i.isLt, dite_true]

theorem optIxOf_word {n : Nat} (hn : n ≤ 65535) (o : Option (Fin n)) :
    optIxOf n (wordOpt (ixNat o)) = some o := by
  cases o with
  | none => rfl
  | some i =>
    have h : (wordNat i).toNat = i := wordNat_toNat (by omega)
    have hne : wordNat i ≠ 65535 := by
      intro he
      have : (wordNat i).toNat = 65535 := by rw [he]; rfl
      omega
    show optIxOf n (wordNat i) = _
    rw [optIxOf, if_neg hne, ixOf_word (by omega)]
    rfl

theorem boolOf_word (b : Bool) : boolOf (wordBool b) = some b := by cases b <;> rfl

theorem nodeOf_word {lo hi : Nat} (n : Node) (h1 : lo ≤ n.toNat) (h2 : n.toNat ≤ hi) :
    nodeOf lo hi (wordNat n.toNat) = some n := by
  have h : (wordNat n.toNat).toNat = n.toNat := wordNat_toNat (by have := n.isLt; omega)
  rw [nodeOf, h, if_pos ⟨h1, h2⟩]
  simp

theorem clampU_in {lo hi n : Nat} (h1 : lo ≤ n) (h2 : n ≤ hi) : clampU lo hi n = n := by
  unfold clampU; omega

theorem movedU_in {lo hi n : Nat} (h1 : lo ≤ n) (h2 : n ≤ hi) : movedU lo hi n = false := by
  rw [movedU, clampU_in h1 h2, bne_self_eq_false]

theorem clampS_word {lo hi n : Nat} (h1 : lo ≤ n) (h2 : n ≤ hi) (h : hi ≤ 32767) :
    clampS lo hi (wordNat n) = n := by
  rw [clampS, wordNat_toInt (by omega)]
  unfold limitTo
  omega

theorem movedS_word {lo hi n : Nat} (h1 : lo ≤ n) (h2 : n ≤ hi) (h : hi ≤ 32767) :
    movedS lo hi (wordNat n) = false := by
  rw [movedS, clampS_word h1 h2 h, wordNat_toInt (by omega)]
  simp

theorem feedOf_code (x : Feed) : feedOf x.code = some x := by cases x <;> rfl
theorem mergeOf_code (x : MergeMode) : mergeOf x.code = some x := by cases x <;> rfl
theorem limitKindOf_code (x : LimitKind) : limitKindOf x.code = some x := by cases x <;> rfl
theorem onLossOf_code (x : OnLoss) : onLossOf x.code = some x := by cases x <;> rfl
theorem limitActionOf_code (x : LimitAction) : limitActionOf x.code = some x := by cases x <;> rfl
theorem runModeOf_code (x : RunMode) : runModeOf x.code = some x := by cases x <;> rfl
theorem senseOf_code (x : Sense) : senseOf x.code = some x := by cases x <;> rfl
theorem ownerOf_code (x : Owner) : ownerOf x.code = some x := by cases x <;> rfl

/-- Two words read as the number they show. -/
theorem join32_words (n : BitVec 32) (ws : List Word) (k : Nat)
    (h1 : wordAt ws k = n.extractLsb' 16 16) (h2 : wordAt ws (k + 1) = n.extractLsb' 0 16) :
    join32 ws k = n := by
  rw [join32, h1, h2]
  ext i hi
  simp only [BitVec.getElem_append, BitVec.getElem_extractLsb']
  split
  · rw [Nat.zero_add, BitVec.getLsbD_eq_getElem hi]
  · rw [show 16 + (i - 16) = i by omega, BitVec.getLsbD_eq_getElem hi]

/-! ### What is read keeps its range -/

theorem clampU_range {lo hi n : Nat} (h : lo ≤ hi) : lo ≤ clampU lo hi n ∧ clampU lo hi n ≤ hi := by
  unfold clampU; omega

theorem clampS_range {lo hi : Nat} {w : Word} (h : lo ≤ hi) :
    lo ≤ clampS lo hi w ∧ clampS lo hi w ≤ hi := by
  unfold clampS limitTo; omega

theorem nodeOf_range {lo hi : Nat} {w : Word} {n : Node} (hh : hi ≤ 63) (h : nodeOf lo hi w = some n) :
    lo ≤ n.toNat ∧ n.toNat ≤ hi := by
  unfold nodeOf at h
  split at h
  · cases h
    simp only [BitVec.toNat_ofNat]
    omega
  · cases h

theorem signalListOf_length {n : Nat} {ws : List Word} {k : Nat} {l : List SigIx}
    (h : signalListOf n ws k = some l) : l.length ≤ n := by
  unfold signalListOf at h
  dsimp only at h
  split at h
  · have : ∀ (a : List (Option SigIx)) (b : List SigIx), a.mapM id = some b → b.length = a.length := by
      intro a
      induction a with
      | nil => intro b hb; simp at hb; simp [hb]
      | cons x a ih =>
        intro b hb
        rw [List.mapM_cons] at hb
        simp only [Option.bind_eq_bind, Option.bind_eq_some_iff, Option.pure_def,
          Option.some.injEq] at hb
        obtain ⟨y, _, r, hr, rfl⟩ := hb
        simp [ih r hr]
    rw [this _ _ h]
    simpa
  · cases h

theorem signalOf_legal {ws : List Word} {c : SignalCfg} {m : Bool} (h : signalOf ws = some (c, m)) :
    c.legal := by
  unfold signalOf at h
  iterate 3 obtain ⟨_, -, h⟩ := Option.bind_eq_some_iff.mp h
  dsimp only at h
  split at h
  · cases h
    have := clampU_range (lo := 1) (hi := 65535) (n := (wordAt ws 2).toNat) (by omega)
    exact ⟨this.1, this.2, by assumption⟩
  · cases h

/-- A Limit Table entry, but for the checks of R34. -/
theorem limitOf_range {ws : List Word} {c : LimitCfg} {m : Bool} (h : limitOf ws = some (c, m)) :
    int16 c.trip ∧ int16 c.release ∧ int16 c.lowTrip ∧ int16 c.lowRelease ∧ 1 ≤ c.persistence ∧
      c.persistence ≤ 255 ∧ c.code < 65536 := by
  unfold limitOf at h
  iterate 7 obtain ⟨_, -, h⟩ := Option.bind_eq_some_iff.mp h
  cases h
  have := clampU_range (lo := 1) (hi := 255) (n := (wordAt ws 7).toNat) (by omega)
  exact ⟨toInt_int16 _, toInt_int16 _, toInt_int16 _, toInt_int16 _, this.1, this.2,
    (wordAt ws 12).isLt⟩

theorem chanOf_legal {ws : List Word} {c : ChanCfg} (h : chanOf ws = some c) : c.legal := by
  unfold chanOf at h
  iterate 8 obtain ⟨_, -, h⟩ := Option.bind_eq_some_iff.mp h
  split at h
  · rename_i hc
    cases h
    exact ⟨hc.1, hc.2.1, hc.2.2, toInt_int16 _⟩
  · cases h

theorem tagOf_legal {ws : List Word} {c : TagCfg} (h : tagOf ws = some c) : c.legal := by
  unfold tagOf at h
  obtain ⟨_, -, h⟩ := Option.bind_eq_some_iff.mp h
  obtain ⟨n, -, h⟩ := Option.bind_eq_some_iff.mp h
  iterate 3 obtain ⟨_, -, h⟩ := Option.bind_eq_some_iff.mp h
  split at h
  · cases h
  · cases h
    exact ⟨by show (n : Nat) ≤ 255; omega, by assumption⟩

theorem stepOf_legal {ws : List Word} {c : Step} {m : Bool} (h : stepOf ws = some (c, m)) :
    c.legal := by
  have k : ∀ n, 1 ≤ clampU 1 65535 n ∧ clampU 1 65535 n ≤ 65535 := fun n => clampU_range (by omega)
  unfold stepOf at h
  dsimp only at h
  split at h
  · obtain ⟨n, hn, h⟩ := Option.bind_eq_some_iff.mp h
    obtain ⟨_, -, h⟩ := Option.bind_eq_some_iff.mp h
    cases h
    exact ⟨(nodeOf_range (by omega) hn).1, toInt_int16 _⟩
  · obtain ⟨_, -, h⟩ := Option.bind_eq_some_iff.mp h
    cases h
    exact ⟨toInt_int16 _, k _⟩
  · cases h
    exact k _
  · obtain ⟨_, -, h⟩ := Option.bind_eq_some_iff.mp h
    cases h
    exact ⟨(k _).1, (k _).2, k _⟩
  · obtain ⟨_, -, h⟩ := Option.bind_eq_some_iff.mp h
    cases h
    trivial
  · obtain ⟨_, -, h⟩ := Option.bind_eq_some_iff.mp h
    cases h
    trivial
  · cases h

/-- A Sample Map entry, but for the entry checks of R2. -/
theorem sampleEntryOf_range {ws : List Word} {e : SampleEntry} {m : Bool}
    (h : sampleEntryOf ws = some (e, m)) :
    (e.decimation = 1 ∨ e.decimation = 2 ∨ e.decimation = 4 ∨ e.decimation = 8) ∧
      int16 e.gain ∧ int16 e.offset ∧ int16 e.low ∧ int16 e.high ∧ e.rate ≤ 32767 := by
  unfold sampleEntryOf at h
  iterate 2 obtain ⟨_, -, h⟩ := Option.bind_eq_some_iff.mp h
  dsimp only at h
  split at h
  · cases h
    exact ⟨by assumption, toInt_int16 _, toInt_int16 _, toInt_int16 _, toInt_int16 _,
      (clampU_range (by omega)).2⟩
  · cases h

theorem stageOf_legal (ws : List Word) : (stageOf ws).1.legal :=
  ⟨toInt_int16 _, toInt_int16 _, toInt_int16 _, toInt_int16 _,
    Nat.le_of_lt_succ (wordAt ws 4).isLt, (clampS_range (by omega)).2, (clampU_range (by omega)).2⟩

theorem eventOf_legal {ws : List Word} {c : EventCfg} (h : eventOf ws = some c) : c.legal := by
  unfold eventOf at h
  iterate 6 obtain ⟨_, -, h⟩ := Option.bind_eq_some_iff.mp h
  obtain ⟨l, hl, h⟩ := Option.bind_eq_some_iff.mp h
  cases h
  exact signalListOf_length hl

theorem convOf_legal {ws : List Word} {c : ConvCfg} {m : Bool} (h : convOf ws = some (c, m)) :
    c.legal := by
  have q : ∀ k, clampS 0 32767 (wordAt ws k) ≤ 32767 := fun k => (clampS_range (by omega)).2
  have p : ∀ n, 1 ≤ clampU 1 255 n ∧ clampU 1 255 n ≤ 255 := fun n => clampU_range (by omega)
  unfold convOf at h
  iterate 3 obtain ⟨_, -, h⟩ := Option.bind_eq_some_iff.mp h
  obtain ⟨_, ht, h⟩ := Option.bind_eq_some_iff.mp h
  iterate 2 obtain ⟨_, -, h⟩ := Option.bind_eq_some_iff.mp h
  obtain ⟨_, hg, h⟩ := Option.bind_eq_some_iff.mp h
  iterate 6 obtain ⟨_, -, h⟩ := Option.bind_eq_some_iff.mp h
  dsimp only at h
  split at h
  · rename_i hc
    cases h
    simp only [Bool.and_eq_true, decide_eq_true_eq] at hc
    obtain ⟨⟨⟨d1, d2⟩, l1, l2⟩, ⟨c1, c2⟩, c3⟩ := hc
    have hn := nodeOf_range (by omega) hg
    refine ⟨d1, d2, signalListOf_length ht, hn.1, hn.2, l1, l2, q _, (p _).1, (p _).2, c1, c2, c3, q _,
      ?_, (p _).1, (p _).2, q _⟩
    intro k
    have w : ∀ j, (wordAt ws j).toNat ≤ 65535 := fun j => Nat.le_of_lt_succ (wordAt ws j).isLt
    match k with
    | 0 => exact w 25
    | 1 => exact w 26
    | 2 => exact w 27
    | 3 => exact w 28
  · cases h

theorem alwOf_legal {ws : List Word} {c : AlwCfg} {m : Bool} (h : alwOf ws = some (c, m)) :
    c.legal := by
  unfold alwOf at h
  dsimp only at h
  split at h
  · rename_i hc
    cases h
    have q : ∀ k, clampS 0 20480 (wordAt ws k) ≤ 20480 := fun k => (clampS_range (by omega)).2
    have hr := List.all_eq_true.mp hc.2
    have r : ∀ k, k < 7 → (wordAt ws (1 + k)).toInt < (wordAt ws (1 + (k + 1))).toInt := fun k hk => by
      simpa using hr k (List.mem_range.mpr hk)
    refine ⟨hc.1, ?_, ?_, ?_, q _, (clampS_range (by omega)).2, (clampS_range (by omega)).2,
      (clampS_range (by omega)).2, clampS_range (by omega)⟩
    · intro k
      match k with
      | 0 | 1 | 2 | 3 | 4 | 5 | 6 | 7 => exact toInt_int16 _
    · intro k
      match k with
      | 0 => exact r 0 (by omega)
      | 1 => exact r 1 (by omega)
      | 2 => exact r 2 (by omega)
      | 3 => exact r 3 (by omega)
      | 4 => exact r 4 (by omega)
      | 5 => exact r 5 (by omega)
      | 6 => exact r 6 (by omega)
    · intro k
      match k with
      | 0 | 1 | 2 | 3 | 4 | 5 | 6 | 7 => exact q _
  · cases h

theorem yawOf_legal {ws : List Word} {c : YawCfg} {m : Bool} (h : yawOf ws = some (c, m)) :
    c.legal := by
  unfold yawOf at h
  iterate 8 obtain ⟨_, -, h⟩ := Option.bind_eq_some_iff.mp h
  dsimp only at h
  split at h
  · rename_i hc
    cases h
    obtain ⟨d, e, t, l⟩ := hc
    simp only [List.all_cons, List.all_nil, Bool.and_true, Bool.and_eq_true, decide_eq_true_eq] at e
    obtain ⟨e1, e2, e3, e4⟩ := e
    have k : ∀ {lo hi n : Nat}, lo ≤ hi → lo ≤ clampU lo hi n ∧ clampU lo hi n ≤ hi :=
      fun h => clampU_range h
    exact ⟨d, Nat.le_of_lt_succ (wordAt ws 8).isLt, (k (by omega)).1, (k (by omega)).2,
      (k (by omega)).1, (k (by omega)).2, (k (by omega)).1, (k (by omega)).2, (k (by omega)).1,
      (k (by omega)).2, e1, e2, e3, e4, (k (by omega)).2, (k (by omega)).2, (k (by omega)).2, t, l,
      (k (by omega)).2, (k (by omega)).1, (k (by omega)).2, (k (by omega)).1, (k (by omega)).2,
      (k (by omega)).2, (k (by omega)).2⟩
  · cases h

theorem clcOf_legal {ws : List Word} {c : ClcCfg} {m : Bool} (h : clcOf ws = some (c, m)) :
    c.legal := by
  unfold clcOf at h
  iterate 7 obtain ⟨_, -, h⟩ := Option.bind_eq_some_iff.mp h
  obtain ⟨_, hn, h⟩ := Option.bind_eq_some_iff.mp h
  iterate 3 obtain ⟨_, -, h⟩ := Option.bind_eq_some_iff.mp h
  obtain ⟨_, hm, h⟩ := Option.bind_eq_some_iff.mp h
  iterate 3 obtain ⟨_, -, h⟩ := Option.bind_eq_some_iff.mp h
  dsimp only at h
  split at h
  · rename_i hc
    cases h
    obtain ⟨d, e, t⟩ := hc
    have k : ∀ {lo hi n : Nat}, lo ≤ hi → lo ≤ clampU lo hi n ∧ clampU lo hi n ≤ hi :=
      fun h => clampU_range h
    exact ⟨d, e, (k (by omega)).1, (k (by omega)).2, (k (by omega)).1, (k (by omega)).2,
      (nodeOf_range (by omega) hn).1, (nodeOf_range (by omega) hm).1, (k (by omega)).1,
      (k (by omega)).2, (k (by omega)).2, (k (by omega)).1, (k (by omega)).2,
      (clampS_range (by omega)).2, t, (k (by omega)).2⟩
  · cases h

end Sys2Proof.Machine
end

