-- ==== Sys2Proof/Laws/Served.lean ====
section
/-! SUPPORT. Laws/Served.lean: what a management request comes to between two commands: the handler's state
with the answer at the tail of class 3, and the hand-overs taken when the handler leaves any. -/

namespace Sys2Proof.Machine

theorem settleUpTo_nil (n : Nat) {s : State} (h : s.work = []) : settleUpTo n s = s := by
  cases n with
  | zero => rfl
  | succ n => simp [settleUpTo, h]

/-- Nothing is taken when nothing waits. -/
theorem settle_nil {s : State} (h : s.work = []) : s.settle = s := settleUpTo_nil 256 h

/-- The oldest hand-over is taken, then the rest. -/
theorem settleUpTo_cons (n : Nat) {s : State} {w : Work} {rest : List Work} (h : s.work = w :: rest) :
    settleUpTo (n + 1) s = settleUpTo n (State.take { s with work := rest } w) := by
  rw [settleUpTo, h]

theorem settleUpTo_add (m n : Nat) (s : State) : settleUpTo (m + n) s = settleUpTo n (settleUpTo m s) := by
  induction m generalizing s with
  | zero => simp [settleUpTo]
  | succ m ih =>
    rw [Nat.succ_add]
    simp only [settleUpTo]
    split
    · exact (settleUpTo_nil n (by assumption)).symm
    · exact ih _

@[simp] theorem raiseKind_work (s : State) (c : Code) (k : EventKind) (d : List Int) :
    (s.raiseKind c k d).work = s.work := by
  have := congrArg State.work (evt_raiseKind s c k d).eq; exact this

@[simp] theorem raise_work (s : State) (c : Code) (d : List Int) : (s.raise c d).work = s.work :=
  raiseKind_work s c .occurred d

@[simp] theorem dispatchTest_work (s : State) : s.dispatchTest.work = s.work := by
  have := congrArg State.work (evt_dispatchTest s).eq; exact this

@[simp] theorem request_work (s : State) (c : ChanIx) (who : Requester) :
    (s.request c who).work = s.work := by
  unfold State.request
  split <;> first | rfl | exact raise_work ..

theorem Ready.awake {s : State} (h : Ready s) : s.awake = true := by
  simp [State.awake, h.1]

/-- A request between two commands. -/
theorem served_ready {s : State} (h : Ready s) (src : Node) (k : Octet) (a : Word)
    (f : State → State × Status × List Word) :
    s.served src k a f =
      ((f s).1.answered { answerOf src k a (f s).2.1 with data := (f s).2.2 }).settle := by
  unfold State.served
  rw [if_pos h.2.1, if_pos h.awake]
  rfl

/-- A request between two commands whose handler leaves no hand-over. -/
theorem served_quiet {s : State} (h : Ready s) (src : Node) (k : Octet) (a : Word)
    (f : State → State × Status × List Word) (hw : (f s).1.work = []) :
    s.served src k a f = (f s).1.answered { answerOf src k a (f s).2.1 with data := (f s).2.2 } := by
  rw [served_ready h]
  exact settle_nil hw

/-- A plain request between two commands that leaves no hand-over. -/
theorem served_plain {s : State} (h : Ready s) (src : Node) (k : Octet) (a : Word)
    (f : State → State × Status) (hw : (f s).1.work = []) :
    s.served src k a (plain f) = (f s).1.answered (answerOf src k a (f s).2) := by
  rw [served_quiet h src k a (plain f) hw]
  rfl

end Sys2Proof.Machine
end

