-- ==== Sys2Proof/Laws/Withdraw.lean ====
section
/-! SUPPORT. Withdraw.lean: what the head test and the withdrawal of every claim of CLC leave of CLC, of class 1, of
the Claim Queue and of the grants (R69, R70, R148). -/

namespace Sys2Proof.Machine

/-- CLC's record, class 1, the allocator and the settings stay. -/
def OffClc (s t : State) : Prop :=
  t.clc = s.clc ∧ t.rif.class1 = s.rif.class1 ∧ t.ala = s.ala ∧ t.settings = s.settings

theorem OffClc.trans {a b c : State} (h : OffClc a b) (g : OffClc b c) : OffClc a c :=
  ⟨g.1.trans h.1, g.2.1.trans h.2.1, g.2.2.1.trans h.2.2.1, g.2.2.2.trans h.2.2.2⟩
theorem OffClc.refl (a : State) : OffClc a a := ⟨rfl, rfl, rfl, rfl⟩

theorem offClc_raise (s : State) (c) (d) : OffClc s (s.raise c d) := by
  have h := (evt_raise s c d).eq
  exact ⟨(congrArg State.clc h : _), (congrArg (fun s => s.rif.class1) h : _), (congrArg State.ala h : _),
    (congrArg State.settings h : _)⟩

theorem offClc_request (s : State) (c) (w) : OffClc s (s.request c w) := by
  unfold State.request
  split
  all_goals first | exact offClc_raise _ _ _ | exact ⟨rfl, rfl, rfl, rfl⟩

theorem offClc_chanGranted (s : State) (c) : OffClc s (s.chanGranted c) := by
  unfold State.chanGranted
  split
  · unfold State.completeWait
    dsimp only
    split
    · unfold State.finishRun
      generalize hv : s.modChan c ChanRt.completeStep = v
      refine OffClc.trans (b := (v.modChan c fun r => r.endRun (v.desc c)).releaseEngine c)
        (by subst hv; exact ⟨rfl, rfl, rfl, rfl⟩) ?_
      generalize (v.modChan c fun r => r.endRun (v.desc c)).releaseEngine c = x
      generalize v.stepAt c = st
      have h1 : OffClc x (x.requestStepLink c st) := by
        cases st <;> first | exact OffClc.refl _ | exact offClc_request _ _ _
      have h2 : ∀ y : State, OffClc y (y.requestLink c) := by
        intro y; unfold State.requestLink; split
        · exact OffClc.refl _
        · exact offClc_request _ _ _
      have h3 : ∀ (y : State) e, OffClc y (y.notifyOwner c e) := by
        intro y e; unfold State.notifyOwner; dsimp only; split <;> exact ⟨rfl, rfl, rfl, rfl⟩
      exact (h1.trans (h2 _)).trans (h3 _ _)
    · exact ⟨rfl, rfl, rfl, rfl⟩
  · exact OffClc.refl _

/-- Heads that CLC does not claim: CLC's record and class 1 stay, the queue shrinks, and no grant is lost. -/
theorem headTestUpTo_offClc (n : Nat) (s : State) (h : ∀ q ∈ s.ala.queue, q.who ≠ .clc) :
    let u := headTestUpTo none n s
    u.clc = s.clc ∧ u.rif.class1 = s.rif.class1 ∧ (∀ q ∈ u.ala.queue, q ∈ s.ala.queue) ∧
    ((∀ q ∈ s.ala.queue, q.amount ≠ 0) → ∀ t : TagIx, (s.tag t).grant ≠ 0 → (u.tag t).grant ≠ 0) := by
  induction n generalizing s with
  | zero => exact ⟨rfl, rfl, fun _ h => h, fun _ _ h => h⟩
  | succ n ih =>
    unfold headTestUpTo
    split
    · exact ⟨rfl, rfl, fun _ h => h, fun _ _ h => h⟩
    · next q qs hq =>
      split
      · have e : OffClc (s.modAla fun a =>
            { a.giveGrant q.tag q.amount s.rif.ringTime with queue := a.queue.tail }) (s.grantHead q none) := by
          unfold State.grantHead
          dsimp only
          rw [if_neg (by simp)]
          unfold State.takeGrant
          split
          · exact offClc_chanGranted _ _
          · next hw => exact absurd hw (h q (by simp [hq]))
        obtain ⟨e1, e2, e3, e4⟩ := e
        have hqq : (s.grantHead q none).ala.queue = qs := by rw [e3]; simp [hq]
        obtain ⟨a1, a2, a3, a4⟩ := ih (s.grantHead q none) (by rw [hqq]; exact fun x hx => h x (by simp [hq, hx]))
        refine ⟨a1.trans e1, a2.trans e2, fun x hx => ?_, fun ha t ht => ?_⟩
        · have := a3 x hx; rw [hqq] at this; simp [hq, this]
        · refine a4 (fun x hx => ?_) t ?_
          · rw [hqq] at hx; exact ha x (by simp [hq, hx])
          · show ((s.grantHead q none).ala.tags[t]).grant ≠ 0
            rw [e3]
            show (s.ala.giveGrant q.tag q.amount s.rif.ringTime).tags[t].grant ≠ 0
            rw [AlaRt.giveGrant_grant]
            split
            · exact ha q (by simp [hq])
            · exact ht
      · exact ⟨rfl, rfl, fun _ h => h, fun _ _ h => h⟩

/-- WITHDRAW of every claim of CLC, with the one head test behind it [59], leaves none of its claims and tells it of no
grant. -/
theorem withdrawAll_clc (s : State) :
    let u := s.withdrawAll .clc
    u.clc = s.clc ∧ u.rif.class1 = s.rif.class1 ∧ (∀ q ∈ u.ala.queue, q ∈ s.ala.queue ∧ q.who ≠ .clc) ∧
    ((∀ q ∈ s.ala.queue, q.amount ≠ 0) → ∀ t : TagIx, (s.tag t).grant ≠ 0 → (u.tag t).grant ≠ 0) ∧
    ((∀ q ∈ s.ala.queue, q.who ≠ .clc) → u.seq = s.seq ∧ u.ala = s.ala) := by
  unfold State.withdrawAll
  dsimp only
  split
  · next hc =>
    set v := s.modAla fun a => { a with queue := a.queue.filter fun q => !(q.who == .clc) } with hv
    have hq : ∀ q, q ∈ v.ala.queue ↔ q ∈ s.ala.queue ∧ q.who ≠ .clc := by intro q; simp [hv]
    obtain ⟨a1, a2, a3, a4⟩ := headTestUpTo_offClc v.ala.queue.length v fun q h => ((hq q).mp h).2
    refine ⟨a1, a2, fun q h => (hq q).mp (a3 q h), fun ha => a4 fun q h => ha q ((hq q).mp h).1, fun hn => ?_⟩
    simp at hc
    obtain ⟨x, hx, e⟩ := hc
    exact absurd e (hn x hx)
  · next hc =>
    refine ⟨rfl, rfl, fun q hq => ⟨hq, fun e => hc ?_⟩, fun _ _ h => h, fun _ => ⟨rfl, rfl⟩⟩
    simp only [List.any_eq_true]
    exact ⟨q, hq, by simp [e]⟩

end Sys2Proof.Machine
end

