-- ==== Sys2Proof/WellFormed.lean ====
section
/-! DEFINITION. WellFormed.lean: which commands can arise. A frame holds at most 96 octets, a payload at
most 90 (12.1), and a write row names an offset inside its own region (12.3). The meanings are total:
they answer ill-formed commands as well. -/

namespace Sys2Proof

/-- The data words of a request fit its payload: 6 + 2w is at most 90 (12.1). -/
def dataFits (data : List Word) : Bool := decide (data.length ≤ 42)

/-- A region write: its offset lies in the region's `size` words (12.3). -/
def writeFits (size : Nat) (off : Word) (data : List Word) : Bool :=
  decide (off.toNat < size) && dataFits data

/-- Well-formed commands. -/
def Instr.wellFormed : Instr → Bool
  | .linkLoss _ _ transit => decide (transit.length ≤ 96)
  | .sampleFrame _ _ _ items => decide (items.length ≤ 29)
  | .portStatusRead _ _ off _ => decide (off.toNat < 8)
  | .logRead _ _ off _ => decide (off.toNat < 32)
  | .sampleMapWrite _ off _ data => writeFits 896 off data
  | .signalRecordWrite _ off _ data => writeFits 3072 off data
  | .limitTableWrite _ off _ data => writeFits 768 off data
  | .channelDescriptorWrite _ off _ data => writeFits 256 off data
  | .prioritySchemeWrite _ off _ data => writeFits 1 off data
  | .stepListWrite _ off _ data => writeFits 1024 off data
  | .capacityWrite _ off _ data => writeFits 8 off data
  | .loadTagWrite _ off _ data => writeFits 256 off data
  | .conversionParameterWrite _ off _ data => writeFits 64 off data
  | .allowanceParameterWrite _ off _ data => writeFits 32 off data
  | .yawParameterWrite _ off _ data => writeFits 32 off data
  | .twistPreset _ off _ data => writeFits 2 off data
  | .coolingWrite _ off _ data => writeFits 80 off data
  | .eventDescriptorWrite _ off _ data => writeFits 2048 off data
  | .eventControlWrite _ off _ data => writeFits 1 off data
  | .ringControlWrite _ off _ data => writeFits 1 off data
  | .managementControlWrite _ off _ data => writeFits 1 off data
  | .write _ _ _ data => dataFits data
  | .powerOnReset => true
  | .pinReset => true
  | .bootEnd => true
  | .lineActivity _ => true
  | .alignmentBurstTimer _ => true
  | .burstReceived _ _ _ _ => true
  | .acknowledgeBurstsSent _ => true
  | .lineNoActivity _ => true
  | .dataLock _ => true
  | .verifyTimeout _ => true
  | .stuckTimeout _ => true
  | .silentEnd _ _ => true
  | .frameReceived _ => true
  | .cycleMark _ => true
  | .cycleMarksLost => true
  | .localCycleEvent => true
  | .frameInsertion => true
  | .contributorStale _ _ => true
  | .stepEngineGrant => true
  | .emit => true
  | .await => true
  | .awaitTimeout _ => true
  | .dwell => true
  | .dwellComplete _ => true
  | .claim => true
  | .claimTimeout _ => true
  | .free => true
  | .link => true
  | .stallWindow => true
  | .restElapsed => true
  | .stageDwellElapsed => true
  | .flowWindow => true
  | .read _ _ _ _ => true
  | .start _ _ => true
  | .abort _ _ => true
  | .mask _ _ => true
  | .unmask _ _ => true
  | .ack _ _ => true
  | .clearTrip _ => true
  | .clearYaw _ => true
  | .clearFirstOut _ => true
  | .clearEventCounts _ => true
  | .clearPending _ _ => true
  | .conversionStart _ => true
  | .conversionRun _ => true
  | .conversionStop _ => true
  | .yawEnable _ => true
  | .yawDisable _ => true
  | .save _ => true
  | .saveCompletion => true
  | .saveFailure _ => true
  | .commission _ => true
  | .decommission _ => true
  | .reset _ => true

end Sys2Proof
end

