-- ==== Sys2Proof/Tests/Slice0.lean ====
section
/-! SUPPORT. Tests/Slice0.lean: tests of single steps, with the expected values of the spec's rules and worked
examples, ill-formed commands that WellFormed refuses, and for each statement of the certificate with hypotheses a
concrete state and operands that meet them. -/

namespace Sys2Proof.Tests
set_option Elab.async false
open Sys2Proof Sys2Proof.Machine

/-! ### Small states -/

/-- The state after a command. -/
def after (c : Instr) (s : State) : State :=
  match exec c s with
  | .next t => t
  | .fault _ => s
  | .refused _ => s

/-- The answers of a state, as kinds, statuses and data. -/
def answers (s : State) : List (Octet × Status × List Word) := s.rif.class3.map fun a => (a.kind, a.status, a.data)

def upPort : PortRt := { resetPort with state := .up, rate := some .fast }

/-- CONFIGURATION with both ports UP. -/
def conf : State :=
  { State.reset with
    part := .configuration, bypass := false, rif := { resetRif with portIn := upPort, portOut := upPort } }

/-- Each channel valid, one step from step 8c on; the tags of the jobs valid; node 10 feeds the grid signals, node 12
signal 40 at entry 17 as in 1.11. -/
def testSettings : Settings :=
  let entry (c : Fin 16) (i : SigIx) : SampleEntry :=
    { defaultSampleEntry with valid := true, source := 10, channel := c, target := i }
  { defaultSettings with
    sampleMap := (((defaultSettings.sampleMap.set 0 (entry 0 0)).set 1 (entry 1 1)).set 2 (entry 2 2)).set 17
      { defaultSampleEntry with
        valid := true, source := 12, channel := 3, target := 40, low := 0, high := 8000, rate := 500 }
    chans := tabulate 8 fun c => { defaultChan with
      valid := true, base := Fin.ofNat 256 (8 * c),
      owner := if c < 4 then .conversion else if c < 7 then .yaw else .cooling }
    tags := ((defaultSettings.tags.set 1 ⟨true, 1, 1, .yaw, none⟩).set 5 ⟨true, 5, 2, .cooling, none⟩).set 8
      ⟨true, 8, 3, .cooling, none⟩ }

/-- OPERATING with IDLE channels and nothing inhibited. -/
def oper : State :=
  { conf with
    part := .operating, settings := testSettings, signals := resetSignals testSettings
    seq := { resetSeq testSettings with
      chans := testSettings.chans.map fun c => { resetChan c with state := .idle } }
    yaw := { resetYaw with inhibit := noInhibit } }

/-- A signal with a value and a quality, all its slots ABSENT. -/
def shows (i : SigIx) (q : Quality) (v : Int) (s : State) : State :=
  s.modSignal i fun r => { r with quality := q, value := v }

/-- A GOOD contributor of a value. -/
def goodSlot (v : Int) : Contributor := { resetContributor with quality := .good, value := v, reference := v }

/-- Channel `c` holds the engine and stands on a step, `n` steps to go. -/
def turnOn (c : ChanIx) (st : Step) (n : Nat) (s : State) : State :=
  let t : State := { s with
    settings := { s.settings with steps := s.settings.steps.set (s.chan c).current st }
    seq := { s.seq with holder := some c } }
  t.modChan c fun r => { r with state := .running, remaining := n }

/-- A channel in a state. -/
def chanIn (c : ChanIx) (k : ChanState) (s : State) : State := s.modChan c fun r => { r with state := k }

def someFrame : CmdFrame := { dest := 20, items := [⟨0, 1⟩] }
def someAnswer : MgtAnswer := answerOf 3 0 0 .ok
def someNotice : Notice :=
  { dest := 63, code := 5, kind := .occurred, count := 1, time := 0, detail := [0], snapshot := [] }
def someRecord (n : Nat) : FaultRecord :=
  { sequence := BitVec.ofNat 16 n, time := 0, code := 5, kind := .occurred, count := 1, conv := .off, yaw := .held,
    detail := [0], snapshot := [] }

/-- Class 1 with `n` frames. -/
def queued1 (n : Nat) (s : State) : State := s.modRif fun r => { r with class1 := List.replicate n someFrame }

/-- Records 1150 to 1213 in the log (9.11). -/
def fullLog (s : State) : State :=
  s.modEvu fun e => { e with log := (List.range 64).map fun k => someRecord (1150 + k), nextSeq := 1214 }

/-! ### Ill-formed commands -/

theorem test_wf_linkLoss : (Instr.linkLoss .inn .lock (List.replicate 97 0)).wellFormed = false := by decide +kernel
theorem test_wf_sampleFrame :
    (Instr.sampleFrame 10 0 30 (List.replicate 30 ⟨0, .good, 0⟩)).wellFormed = false := by decide +kernel
theorem test_wf_portStatusRead : (Instr.portStatusRead 3 .inn 8 1).wellFormed = false := by decide +kernel
theorem test_wf_logRead : (Instr.logRead 3 0 32 1).wellFormed = false := by decide +kernel
theorem test_wf_data : (Instr.write 3 0 43 (List.replicate 43 0)).wellFormed = false := by decide +kernel
theorem test_wf_offsets :
    ([.sampleMapWrite 3 896 1 [0], .signalRecordWrite 3 3072 1 [0], .limitTableWrite 3 768 1 [0],
      .channelDescriptorWrite 3 256 1 [0], .prioritySchemeWrite 3 1 1 [0], .stepListWrite 3 1024 1 [0],
      .capacityWrite 3 8 1 [0], .loadTagWrite 3 256 1 [0], .conversionParameterWrite 3 64 1 [0],
      .allowanceParameterWrite 3 32 1 [0], .yawParameterWrite 3 32 1 [0], .twistPreset 3 2 1 [0],
      .coolingWrite 3 80 1 [0], .eventDescriptorWrite 3 2048 1 [0], .eventControlWrite 3 1 1 [0],
      .ringControlWrite 3 1 1 [0], .managementControlWrite 3 1 1 [0]] : List Instr).all
        (fun i => !i.wellFormed) = true := by decide +kernel
theorem test_wf_good :
    ([.sampleMapWrite 3 895 1 [0], .twistPreset 3 1 1 [0], .linkLoss .out .brk (List.replicate 96 0),
      .logRead 3 0 31 1, .write 3 0xFFFF 42 (List.replicate 42 0)] : List Instr).all Instr.wellFormed = true := by
  decide +kernel
theorem test_no_word_spells_a_command : decodeTableWord 16 0xFFFF = none := rfl

/-! ### Resets and start-up -/

theorem test_powerOnReset :
    (after .powerOnReset (fullLog oper)).part = .boot ∧ (after .powerOnReset (fullLog oper)).evu.log = [] := by
  decide +kernel
theorem test_pinReset :
    (after .pinReset (fullLog oper)).part = .boot ∧ (after .pinReset (fullLog oper)).evu.nextSeq = 1214 := by
  decide +kernel
/-- R183: the straps give the own address, 0 and above 55 give 55; event 0 with POWER and CONFIGURATION. -/
theorem test_bootEnd :
    let t := after .bootEnd { State.reset with addrStraps := 56 }
    t.part = .configuration ∧ t.ownAddress = 55 ∧ t.rif.portIn.state = .listen ∧ t.bypass = false ∧
      t.evu.log.map (fun r => (r.code, r.detail)) = [(0, [0, 1])] := by decide +kernel

/-! ### Link alignment -/

def inPort (r : PortRt) (s : State) : State := s.modPort .inn fun _ => r
def word : CapWord := ⟨.both, .inline⟩

theorem test_lineActivity :
    (after (.lineActivity .inn) (inPort resetPort conf)).rif.portIn.state = .listen := by decide +kernel
theorem test_alignmentBurstTimer :
    (after (.alignmentBurstTimer .inn) (inPort resetPort conf)).rif.line = [.probe .inn] ∧
    (after (.alignmentBurstTimer .inn) (inPort { resetPort with state := .listen } conf)).rif.line =
      [.burst .inn word false] := by decide +kernel
theorem test_burstReceived :
    (after (.burstReceived .inn true word false)
      (inPort { resetPort with state := .listen, bursts := 3, before := some word } conf)).rif.portIn =
        { resetPort with
          state := .acknowledge, partnerRates := some .both, partnerRole := some .inline, inverted := true,
          before := some word } := by decide +kernel
theorem test_acknowledgeBurstsSent :
    (after (.acknowledgeBurstsSent .inn) (inPort { resetPort with
      state := .acknowledge, bursts := 4, further := 6, partnerRates := some .both } conf)).rif.portIn.rate =
        some .fast := by decide +kernel
theorem test_acknowledgeBurstsSent_no_rate :
    let t := after (.acknowledgeBurstsSent .inn) (inPort { resetPort with
      state := .acknowledge, bursts := 4, further := 6, partnerRates := some .base }
        { conf with settings := { conf.settings with offer := .fastOnly } })
    t.rif.portIn.state = .silent ∧ t.evu.log.map (fun r => (r.code, r.detail)) = [(3, [0, 1, 2])] := by
  decide +kernel
theorem test_lineNoActivity :
    (after (.lineNoActivity .inn) (inPort { resetPort with state := .verify } conf)).rif.portIn.state = .down := by
  decide +kernel
theorem test_dataLock :
    (after (.dataLock .inn) (inPort { resetPort with state := .verify } conf)).rif.portIn.state = .up := by
  decide +kernel
theorem test_verifyTimeout :
    (after (.verifyTimeout .inn) (inPort { resetPort with state := .verify } conf)).rif.portIn.state = .silent := by
  decide +kernel
theorem test_stuckTimeout :
    (after (.stuckTimeout .inn)
      (inPort { resetPort with state := .listen, stuckTimer := true } conf)).rif.portIn.stuck = true := by
  decide +kernel
theorem test_linkLoss :
    let t := after (.linkLoss .out .brk []) conf
    t.rif.portOut.state = .silent ∧ t.rif.portOut.linkLost = true ∧
      t.evu.log.map (fun r => (r.code, r.detail)) = [(2, [1])] := by decide +kernel
/-- R171 with R173 and R174: the octets of a cut frame that had been forwarded end with an abort mark; there are none
of a header cut short, of a frame of the part's own (address 1), and of a Management Request to it. -/
theorem test_linkLoss_transit :
    let line (os : List Octet) := (after (.linkLoss .inn .lock os) conf).rif.line
    line [63, 3, 1, 4] = [.forwarded [63, 3, 1, 4] true] ∧ line [63, 3, 1] = [] ∧ line [63, 1, 1, 4] = [] ∧
      line [1, 3, 3, 6, 0] = [] ∧ line [2, 3, 3, 6] = [.forwarded [2, 3, 3, 6] true] := by decide +kernel
theorem test_silentEnd :
    (after (.silentEnd .inn true) (inPort { resetPort with state := .silent } conf)).rif.portIn.state = .listen ∧
    (after (.silentEnd .inn false) (inPort { resetPort with state := .silent } conf)).rif.portIn.state = .down := by
  decide +kernel

/-! ### Frames and ring time -/

/-- The check value of the octets 31 to 39 for this polynomial and start, high bit first. -/
theorem test_ringCheck : ringCheck [0x31, 0x32, 0x33, 0x34, 0x35, 0x36, 0x37, 0x38, 0x39] = 0x29B1 := by
  decide +kernel
/-- A CLEAR request with subject 2 from node 3 (12.1): kind, qualifier, subject, length. -/
theorem test_frameReceived_request :
    answers (after (.frameReceived ⟨frameOctets 1 3 3 [7, 0, 0, 0, 2, 0], false⟩) conf) = [(7, .ok, [])] := by
  decide +kernel
/-- Seven octets with a wrong check, not addressed to the part: passed on, and event 27. -/
theorem test_frameReceived_bad :
    let t := after (.frameReceived ⟨[2, 3, 5, 0, 0, 0, 0], false⟩) conf
    t.rif.line = [.forwarded [2, 3, 5, 0, 0, 0, 0] false] ∧ t.evu.events[(27 : Code)].detail = [3, 5] := by
  decide +kernel
theorem test_cycleMark :
    let t := after (.cycleMark 77) (conf.modRif fun r => { r with ringTime := 5, cycle := .freeRun .loss })
    t.rif.ringTime = 77 ∧ t.rif.cycle = .synchronised ∧
      t.evu.log.map (fun r => (r.code, r.detail)) = [(6, [5, 77])] := by decide +kernel
theorem test_cycleMarksLost :
    let t := after .cycleMarksLost (conf.modRif fun r => { r with ringTime := 5, cycle := .synchronised })
    t.rif.ringTime = 6 ∧ t.rif.cycle = .freeRun .loss ∧
      t.evu.log.map (fun r => (r.code, r.detail)) = [(5, [5])] := by decide +kernel
theorem test_localCycleEvent_wraps :
    (after .localCycleEvent (conf.modRif fun r => { r with ringTime := 0xFFFFFFFF })).rif.ringTime = 0 := by
  decide +kernel
/-- A Block Command is output 15 with value 1 in a Command Frame to the actuator group. -/
theorem test_frameInsertion :
    (after .frameInsertion (conf.modRif fun r => { r with class0 := [.block 60] })).rif.line =
      [.inserted (frameOctets 60 1 2 [1, 15, 0, 1])] := by decide +kernel

/-- 1.11 at its start: entry 17 feeds slot 0 of signal 40, value 1210; node 12's memory holds 80. -/
def wind : State :=
  ({ oper with sequences := oper.sequences.set 11 (some 80) } : State).modSignal 40 fun r =>
    { r with value := 1210, quality := .good, lastSlot := some 0, slots := r.slots.set 0 (goodSlot 1210) }
/-- 1.11, sequence 81, raw 1950: rejected for JUMP, the value kept. -/
theorem test_sampleFrame_jump :
    (after (.sampleFrame 12 81 1 [⟨3, .good, 1950⟩]) wind).signals[(40 : SigIx)].slots[(0 : SlotIx)] =
      { goodSlot 1210 with quality := .suspect, reason := .jump, jumps := 1 } := by decide +kernel
/-- R15: the cycle event that takes the age beyond the stale limit makes the contributor STALE and its signal LOST;
at the limit it is GOOD still. -/
theorem test_localCycleEvent_stale :
    (let t := after .localCycleEvent (wind.modSlot 40 0 fun c => { c with age := 5000 })
     t.signals[(40 : SigIx)].slots[(0 : SlotIx)].quality = .stale ∧ t.signals[(40 : SigIx)].quality = .lost) ∧
    (let t := after .localCycleEvent (wind.modSlot 40 0 fun c => { c with age := 4999 })
     t.signals[(40 : SigIx)].slots[(0 : SlotIx)].quality = .good) := by decide +kernel
theorem test_sampleFrame_repeat :
    after (.sampleFrame 12 80 1 [⟨3, .good, 1950⟩]) wind = wind := by decide +kernel
/-- The note of R7: raw −1000 with gain 6144 gives −1500, raw −3 with gain 2731 gives −3. -/
theorem test_engineering :
    engineering { defaultSampleEntry with gain := 6144 } (BitVec.ofInt 16 (-1000)) = -1500 ∧
    engineering { defaultSampleEntry with gain := 2731 } (BitVec.ofInt 16 (-3)) = -3 ∧
    engineering { defaultSampleEntry with offset := 5000 } 30000 = 32767 := by decide +kernel
theorem test_contributorStale :
    let t := after (.contributorStale 40 0) (wind.modSlot 40 0 fun c => { c with age := 5001 })
    t.signals[(40 : SigIx)].quality = .lost ∧ t.signals[(40 : SigIx)].value = 1210 := by decide +kernel
theorem test_contributorStale_not_due :
    after (.contributorStale 40 0) (wind.modSlot 40 0 fun c => { c with age := 5000 }) =
      wind.modSlot 40 0 fun c => { c with age := 5000 } := by decide +kernel

/-! ### The Step Engine -/

def emitStep1 : Step := .emit 20 0 5
/-- The timer of a channel that waits. -/
def waiting (c : ChanIx) (k : WaitKind) (st : Step) (t n : Nat) (s : State) : State :=
  ({ s with settings := { s.settings with steps := s.settings.steps.set (s.chan c).current st } } : State).modChan c
    fun r => { r with state := .waiting k, timer := t, remaining := n }

theorem test_stepEngineGrant :
    let t := after .stepEngineGrant (chanIn 5 .requested (chanIn 2 .requested oper))
    t.seq.holder = some 2 ∧ t.seq.lastGranted = 2 ∧ (t.chan 2).state = .running ∧ (t.chan 5).state = .requested := by
  decide +kernel
/-- ROTATING: the first REQUESTED channel behind the last granted one. -/
theorem test_stepEngineGrant_rotating :
    (after .stepEngineGrant { chanIn 5 .requested (chanIn 2 .requested oper) with
      settings := { testSettings with rotating := true }
      seq := { (chanIn 5 .requested (chanIn 2 .requested oper)).seq with lastGranted := 2 } }).seq.holder = some 5 := by
  decide +kernel
theorem test_emit :
    let t := after .emit (turnOn 2 emitStep1 2 oper)
    t.seq.opened = some { dest := 20, items := [⟨0, 5⟩], chan := 2 } ∧ (t.chan 2).remaining = 1 := by decide +kernel
/-- The last step of the range: the frame is closed, the channel is IDLE again with its counts (R56). -/
theorem test_emit_last :
    let t := after .emit (turnOn 2 emitStep1 1 oper)
    t.rif.class1 = [{ dest := 20, items := [⟨0, 5⟩] }] ∧ (t.chan 2).terminal = true ∧ (t.chan 2).state = .idle ∧
      t.seq.holder = none := by decide +kernel
theorem test_await_holds :
    (after .await (turnOn 2 (.await 40 .below 300 10) 2 (shows 40 .good 299 oper))).seq.holder = some 2 := by
  decide +kernel
theorem test_await_waits :
    let t := after .await (turnOn 2 (.await 40 .below 300 10) 2 (shows 40 .good 300 oper))
    (t.chan 2).state = .waiting .await ∧ t.seq.holder = none := by decide +kernel
theorem test_awaitTimeout :
    let t := after (.awaitTimeout 2) (waiting 2 .await (.await 40 .below 300 10) 10 2
      { oper with part := .configuration })
    (t.chan 2).state = .masked ∧ (t.chan 2).fault = true ∧
      t.evu.log.map (fun r => (r.code, r.detail)) = [(8, [2, 16, 0])] := by decide +kernel
theorem test_dwell : ((after .dwell (turnOn 2 (.dwell 7) 1 oper)).chan 2).state = .waiting .dwell := by decide +kernel
theorem test_dwellComplete :
    ((after (.dwellComplete 2) (waiting 2 .dwell (.dwell 7) 7 2 oper)).chan 2).state = .requested ∧
    ((after (.dwellComplete 2) (waiting 2 .dwell (.dwell 7) 6 2 oper)).chan 2).state = .waiting .dwell := by
  decide +kernel
/-- Tag 1 with 450 fits the budget of 3000. -/
theorem test_claim :
    let t := after .claim (turnOn 2 (.claim 1 450 10) 2 oper)
    (t.tag 1).grant = 450 ∧ (t.chan 2).state = .running := by decide +kernel
theorem test_claim_queued :
    let t := after .claim (turnOn 2 (.claim 1 3001 10) 2 oper)
    t.ala.queue = [{ tag := 1, amount := 3001, who := .chan 2, increase := false }] ∧
      (t.chan 2).state = .waiting .claim := by decide +kernel
theorem test_claimTimeout :
    let t := after (.claimTimeout 2) ((waiting 2 .claim (.claim 1 3001 10) 10 2 oper).modAla fun a =>
      { a with queue := [{ tag := 1, amount := 3001, who := .chan 2, increase := false }] })
    t.ala.queue = [] ∧ (t.chan 2).fault = true := by decide +kernel
/-- A grant of a tag. -/
def holds (i : TagIx) (n : Nat) (s : State) : State := s.modTag i fun r => { r with grant := n, rank := some 1 }
theorem test_free : ((after .free (turnOn 2 (.free 1) 2 (holds 1 450 oper))).tag 1).grant = 0 := by decide +kernel
theorem test_link :
    let t := after .link (turnOn 2 (.link 5) 3 oper)
    (t.chan 5).state = .requested ∧ (t.chan 2).state = .idle ∧ (t.chan 2).terminal = true := by decide +kernel

/-! ### The jobs -/

/-- DRIVING clockwise at 90010 with the grant of the yaw tag (7.14). -/
def driving : State :=
  (holds 1 450 oper).modYaw fun y =>
    { y with state := .driving, direction := .cw, purpose := .track, twist := 89240, stallBase := 89200 }
theorem test_stallWindow :
    (after .stallWindow (driving.modYaw fun y => { y with stallTimer := 5000 })).yaw.stallBase = 89240 := by
  decide +kernel
/-- Movement below 20 over the window is a stall: event 16, the stop channel requested. -/
theorem test_stallWindow_stall :
    let t := after .stallWindow (driving.modYaw fun y => { y with stallTimer := 5000, stallBase := 89221 })
    t.yaw.state = .stopping ∧ t.yaw.stopCause = .stall ∧ (t.chan 6).state = .requested ∧
      t.evu.log.map (fun r => (r.code, r.detail)) = [(16, [1, 19, 89240])] := by decide +kernel
theorem test_restElapsed :
    (after .restElapsed (oper.modYaw fun y =>
      { y with inhibit := { noInhibit with rest := true }, restTimer := 10240 })).yaw.inhibit = noInhibit := by
  decide +kernel
/-- 8.13: stage 3 is due from stage 2 and the queue holds another claim: queued, event 22, held reported. -/
theorem test_stageDwellElapsed :
    let t := after .stageDwellElapsed ((holds 8 300 (shows 30 .good 412 oper)).modAla (fun a =>
        { a with queue := [{ tag := 1, amount := 2900, who := .chan 2, increase := false }] }) |>.modClc fun c =>
      { c with actual := 2, target := 3, dwell := 5120, dwellDue := true })
    t.clc.actual = 2 ∧ t.clc.stageClaim = some 3 ∧ t.clc.heldReported = true ∧
      t.ala.queue.map Claim.tag = [1, 8] ∧ t.evu.log.map FaultRecord.code = [22] := by decide +kernel
/-- 8.13: with the queue empty the claim of 450 fits, and the capacity factor of stage 3 is 14336. -/
theorem test_stageDwellElapsed_granted :
    let t := after .stageDwellElapsed ((holds 8 300 (shows 30 .good 412 oper)).modClc fun c =>
      { c with actual := 2, target := 3, dwell := 5120, dwellDue := true })
    t.clc.actual = 3 ∧ t.clc.cf = 14336 ∧ (t.tag 8).grant = 450 ∧ t.clc.dwell = 0 := by decide +kernel
/-- The count runs modulo 65536: from 32760 to −32760 it has moved by 16. -/
theorem test_flowWindow :
    let t := after .flowWindow ((shows 31 .good (-32760) oper).modClc fun c =>
      { c with flowTimer := 5000, prevCount := some 32760 })
    t.clc.flow = some 16 ∧ t.clc.flowTimer = 0 := by decide +kernel
/-- 6.17: A is 14899 at 715 in the default table. -/
theorem test_derate : defaultAlw.derate 715 = 14899 := by decide +kernel
/-- 6.17: the magnitude of (13107, −6554, −6553) is 13107, of the balanced grid 16384. -/
theorem test_magnitude :
    magnitude 13107 (-6554) (-6553) = 13107 ∧ magnitude 16384 (-8192) (-8192) = 16384 := by decide +kernel
theorem test_isqrt : isqrt 186039500 = 13639 ∧ isqrt 196784780 = 14027 := by decide +kernel
/-- 7.14: from 35990 to 30 the heading moves by 40. -/
theorem test_headingStep : headingStep 35990 30 = 40 ∧ headingStep 30 700 = 670 := by decide +kernel
/-- 5.13: at 7000 after an entry, the dip timer 3501 exceeds point 1. -/
def riding (dip : Nat) : State := oper.modCnv fun c => { c with state := .rideThrough, dip := dip, breaker := true }
theorem test_curve :
    ((riding 3499).classify 7000).cnv.state = .rideThrough ∧
    ((riding 3500).classify 7000).cnv.cause = .curve ∧ ((riding 3500).classify 7000).cnv.detail = 1 ∧
    ((riding 3500).classify 7000).rif.class0 = [.block 60] := by decide +kernel
/-- Entry 5 of 2.9. -/
def entry5 : LimitCfg :=
  { defaultLimit with
    valid := true, signal := 12, trip := 1150, release := 1050, persistence := 3, latching := true,
    action := .converterBlock, code := 40 }
def tempLimit : State :=
  { oper with settings := { testSettings with limits := testSettings.limits.set 5 entry5 } }
/-- 2.9: the third update above 1150 in a row trips entry 5. -/
theorem test_limit :
    ((tempLimit.modLimit 5 fun r => { r with counter := 1 }).limUpdate 12 1165 .good).limits[(5 : LimIx)] =
      { tripped := false, counter := 2, latch := false } ∧
    ((tempLimit.modLimit 5 fun r => { r with counter := 2 }).limUpdate 12 1165 .good).limits[(5 : LimIx)] =
      { tripped := true, counter := 3, latch := true } := by decide +kernel
/-- 10.6: the shapes of class 0. -/
theorem test_class0 :
    placeRefIn (.ref 60 2 2) [.ref 60 1 1] = [.ref 60 2 2] ∧
    placeBlockIn 60 [.ref 60 2 2, .block 60, .ref 60 4 4] = [.ref 60 4 4, .block 60] := by decide +kernel

/-! ### Management -/

theorem test_read : answers (after (.read 3 0x2400 3 0) conf) = [(0, .ok, [3000, 1200, 600])] := by decide +kernel
theorem test_read_no_object : answers (after (.read 3 0xFFFF 1 0) conf) = [(0, .noObject, [])] := by decide +kernel
/-- UP, FAST, no partner, and link lost, which the read clears. -/
theorem test_portStatusRead :
    let t := after (.portStatusRead 3 .inn 0 2) (inPort { upPort with linkLost := true } conf)
    answers t = [(0, .ok, [4, 2])] ∧ t.rif.portIn.linkLost = false := by decide +kernel
theorem test_logRead :
    answers (after (.logRead 3 1213 0 32) (fullLog conf)) = [(0, .ok, (someRecord 1213).words)] := by decide +kernel
theorem test_logRead_gone :
    answers (after (.logRead 3 1149 0 16) (fullLog conf)) = [(0, .gone, [1150, 1213])] := by decide +kernel
/-- Entry 0 of 12.4: valid, channel 3, source 12; decimation 1, slot 0, target 40; gain, offset, range, rate. -/
theorem test_sampleMapWrite :
    (after (.sampleMapWrite 3 0 7 [0x830C, 0x1028, 4096, 0, 0, 8000, 500]) conf).settings.sampleMap[(0 : MapIx)] =
      { defaultSampleEntry with
        valid := true, source := 12, channel := 3, target := 40, low := 0, high := 8000, rate := 500 } := by
  decide +kernel
theorem test_sampleMapWrite_duplicate :
    answers (after (.sampleMapWrite 3 7 7 [0x830C, 0x1028, 4096, 0, 0, 8000, 500]) oper) =
      [(1, .duplicate, [])] := by decide +kernel
theorem test_signalRecordWrite :
    (after (.signalRecordWrite 3 1280 4 [0, 4, 25, 0]) oper).settings.signals[(40 : SigIx)] =
      { defaultSignal with merge := .primary, staleLimit := 25 } := by decide +kernel
theorem test_limitTableWrite :
    (after (.limitTableWrite 3 80 13 [1, 12, 0, 1150, 1050, 0, 0, 3, 1, 0, 0, 0, 40]) conf).settings.limits[(5 : LimIx)] =
      { defaultLimit with
        valid := true, signal := 12, trip := 1150, release := 1050, lowTrip := 0, lowRelease := 0, persistence := 3,
        latching := true, code := 40 } := by decide +kernel
/-- A release level above the trip level of kind ABOVE is refused. -/
theorem test_limitTableWrite_order :
    answers (after (.limitTableWrite 3 80 13 [1, 12, 0, 1150, 1151, 0, 0, 3, 1, 0, 0, 0, 40]) conf) =
      [(1, .range, [])] := by decide +kernel
theorem test_channelDescriptorWrite :
    let t := after (.channelDescriptorWrite 3 64 10 [1, 40, 5, 1, 0, 0, 0, 1, 65535, 1]) conf
    t.settings.chans[(2 : ChanIx)] = { defaultChan with valid := true, base := 40, count := 5, owner := .yaw } ∧
      (t.chan 2).remaining = 5 := by decide +kernel
theorem test_prioritySchemeWrite : (after (.prioritySchemeWrite 3 0 1 [1]) conf).settings.rotating = true := by
  decide +kernel
/-- Step 40 of 3.12: CLAIM of tag 3, amount 450, timeout 5000. -/
theorem test_stepListWrite :
    (after (.stepListWrite 3 160 4 (Step.claim 3 450 5000).words) conf).settings.steps[(40 : StepIx)] =
      .claim 3 450 5000 := by decide +kernel
theorem test_capacityWrite :
    let t := after (.capacityWrite 3 0 3 [3000, 1200, 65535]) conf
    t.settings.backupCap = 65535 ∧ answers t = [(1, .ok, [])] := by decide +kernel
theorem test_loadTagWrite :
    (after (.loadTagWrite 3 48 5 [1, 9, 1, 1, 6]) conf).settings.tags[(3 : TagIx)] = ⟨true, 9, 1, .yaw, some 6⟩ := by
  decide +kernel
theorem test_conversionParameterWrite_state :
    answers (after (.conversionParameterWrite 3 0 1 [0]) (oper.modCnv fun c => { c with state := .running })) =
      [(1, .state, [])] := by decide +kernel
theorem test_conversionParameterWrite : (after (.conversionParameterWrite 3 12 1 [61]) conf).settings.conv.group = 61 := by
  decide +kernel
/-- L written as 8 empties the history. -/
theorem test_allowanceParameterWrite :
    let t := after (.allowanceParameterWrite 3 0 1 [8]) (conf.modAlw fun a => { a with history := [1] })
    t.settings.alw.length = 8 ∧ t.alw.history = [] := by decide +kernel
theorem test_yawParameterWrite : (after (.yawParameterWrite 3 0 1 [44]) conf).settings.yaw.windDir = 44 := by
  decide +kernel
/-- 1000001 is clamped to 1000000. -/
theorem test_twistPreset :
    let t := after (.twistPreset 3 0 2 [0x000F, 0x4241]) conf
    t.yaw.twist = 1000000 ∧ answers t = [(1, .okClamped, [])] := by decide +kernel
theorem test_coolingWrite : (after (.coolingWrite 3 0 1 [44]) conf).settings.clc.coolant = 44 := by decide +kernel
theorem test_coolingWrite_operating :
    answers (after (.coolingWrite 3 0 1 [44]) oper) = [(1, .state, [])] := by decide +kernel
theorem test_eventDescriptorWrite :
    let t := after (.eventDescriptorWrite 3 640 3 [1, 3, 0]) conf
    t.settings.events[(40 : Code)].group = 3 ∧ t.settings.events[(40 : Code)].notify = false := by decide +kernel
theorem test_eventControlWrite : (after (.eventControlWrite 3 0 1 [20]) conf).settings.noticeDest = 20 := by
  decide +kernel
theorem test_ringControlWrite : (after (.ringControlWrite 3 0 1 [2]) conf).settings.offer = .fastOnly := by
  decide +kernel
theorem test_managementControlWrite :
    (after (.managementControlWrite 3 0 1 [1]) conf).settings.bootAutostart = true := by decide +kernel
theorem test_write : answers (after (.write 3 0x0000 1 [1]) conf) = [(1, .readOnly, [])] := by decide +kernel

theorem test_start : ((after (.start 3 2) oper).chan 2).state = .requested := by decide +kernel
theorem test_start_range : answers (after (.start 3 8) oper) = [(2, .range, [])] := by decide +kernel
theorem test_abort :
    let t := after (.abort 3 2) (turnOn 2 emitStep1 2 oper)
    (t.chan 2).state = .masked ∧ (t.chan 2).aborted = true ∧ t.seq.holder = none := by decide +kernel
theorem test_mask : ((after (.mask 3 2) oper).chan 2).state = .masked := by decide +kernel
theorem test_unmask : ((after (.unmask 3 2) (chanIn 2 .masked oper)).chan 2).state = .idle := by decide +kernel
/-- 9.11 step 5: an acknowledged code that recurred is pending again, and a second Notice is built at once. -/
theorem test_ack :
    let t := after (.ack 3 12) (oper.modEvent 12 fun e => { e with inService := true, recurred := true, count := 2 })
    t.rif.class2.map (fun n => (n.code, n.kind, n.count)) = [(12, .recurred, 2)] ∧
      t.evu.events[(12 : Code)].inService = true := by decide +kernel
/-- 9.11 step 7: entry 5 is unlatched and stays TRIPPED at 1080. -/
theorem test_ack_still_active :
    let t := after (.ack 3 40) (((shows 12 .good 1080 tempLimit).modLimit 5 fun _ =>
      { tripped := true, counter := 0, latch := true }).modEvent 40 fun e => { e with inService := true })
    answers t = [(6, .stillActive, [])] ∧
      t.limits[(5 : LimIx)] = { tripped := true, counter := 0, latch := false } := by decide +kernel
theorem test_clearTrip :
    (after (.clearTrip 3) (oper.modCnv fun c => { c with state := .tripped, breaker := true })).cnv.state = .off := by
  decide +kernel
theorem test_clearYaw :
    (after (.clearYaw 3) (oper.modYaw fun y => { y with state := .fault, stopConfirmed := true })).yaw.state = .held := by
  decide +kernel
theorem test_clearFirstOut :
    (after (.clearFirstOut 3) (conf.modEvu fun e => { e with firstOut := [⟨16, 0, .occurred, [], []⟩] })).evu.firstOut =
      [] := by decide +kernel
theorem test_clearEventCounts :
    (after (.clearEventCounts 3) (conf.modEvent 9 fun e => { e with count := 255 })).evu.events[(9 : Code)].count = 0 := by
  decide +kernel
theorem test_clearPending :
    (after (.clearPending 3 9) (conf.modEvent 9 fun e => { e with pending := true })).evu.events[(9 : Code)].pending =
      false := by decide +kernel
theorem test_conversionStart :
    let t := after (.conversionStart 3) oper
    t.cnv.state = .charging ∧ (t.chan 0).state = .requested := by decide +kernel
theorem test_conversionRun :
    let t := after (.conversionRun 3) ((shows 3 .good 15000 oper).modCnv fun c => { c with state := .standby })
    t.cnv.awaited = .run ∧ (t.chan 1).state = .requested := by decide +kernel
theorem test_conversionStop :
    let t := after (.conversionStop 3) (oper.modCnv fun c => { c with state := .running })
    t.cnv.state = .stopping ∧ (t.chan 2).state = .requested := by decide +kernel
theorem test_yawEnable :
    (after (.yawEnable 3) (oper.modYaw fun y => { y with inhibit := { noInhibit with management := true } })).yaw.inhibit =
      noInhibit := by decide +kernel
theorem test_yawDisable :
    let t := after (.yawDisable 3) driving
    t.yaw.state = .stopping ∧ t.yaw.stopCause = .inhibit ∧ t.yaw.inhibit.management = true := by decide +kernel
theorem test_save :
    let t := after (.save 3) { conf with imageValid := true }
    t.imageValid = false ∧ t.capture = some conf.settings := by decide +kernel
theorem test_saveCompletion :
    let t := after .saveCompletion { conf with capture := some testSettings }
    t.imageValid = true ∧ t.image = some testSettings ∧ t.evu.log.map FaultRecord.code = [25] := by decide +kernel
theorem test_saveFailure :
    let t := after (.saveFailure 9) { conf with capture := some testSettings }
    t.imageValid = false ∧ t.evu.log.map (fun r => (r.code, r.detail)) = [(26, [0, 9])] := by decide +kernel
/-- With the defaults the first designated signal, grid phase A at 3000, is UNUSED. -/
theorem test_commission_fails : answers (after (.commission 3) conf) = [(11, .state, [0x3000])] := by decide +kernel
/-- Every signal SAMPLED and fed, every channel valid: the part enters OPERATING. -/
def ready : State :=
  { conf with
    settings := { testSettings with
      conv := { defaultConv with setpoint := 3 }
      chans := testSettings.chans }
    signals := Vector.replicate 96
      { value := 0, quality := .good, lastSlot := none, lossRaised := false, limit := 5,
        slots := Vector.replicate 3 (goodSlot 0) } }
theorem test_commission :
    let t := after (.commission 3) ready
    t.part = .operating ∧ (t.chan 2).state = .idle ∧ t.yaw.inhibit = noInhibit := by decide +kernel
theorem test_decommission :
    let t := after (.decommission 3) oper
    t.part = .configuration ∧ t.yaw.inhibit.config = true ∧ answers t = [(12, .ok, [])] := by decide +kernel
theorem test_reset :
    let t := after (.reset 3) oper
    (t.chan 2).state = .masked ∧ t.yaw.inhibit = { noInhibit with management := true } ∧ t.lastReset = .soft ∧
      answers t = [(13, .ok, [])] := by decide +kernel


/-! ### Witnesses of the statements' hypotheses -/

/-- Records at the ends of their ranges. -/
def xEntry : SampleEntry :=
  { valid := true, source := 55, channel := 15, target := 95, slot := 2, decimation := 8, gain := -32768,
    offset := 32767, low := -32768, high := -32768, rate := 32767 }
def xSignal : SignalCfg := { feed := .yawErrorLong, merge := .primary, staleLimit := 65535, lossCode := 32 }
def xLimit : LimitCfg :=
  { valid := true, signal := 95, kind := .outside, trip := 32767, release := 32767, lowTrip := -32768,
    lowRelease := -32768, persistence := 255, latching := true, onLoss := .release, action := .startChannel,
    channel := 7, code := 127 }
def xChan : ChanCfg :=
  { valid := true, base := 192, count := 64, mode := .demand, demandSignal := 95, demandSense := .below,
    demandLevel := -32768, reload := false, link := some 7, owner := .allocator }
def xStep : Step := .claim 15 65535 65535
def xTag : TagCfg := { valid := true, name := 255, cls := 4, owner := .cooling, shed := some 7 }
def xConv : ConvCfg :=
  { defaultConv with
    temps := [0, 1, 2, 3, 4, 95], group := 62, absent := 32767, dipEntry := 32767, dipExit := 32767,
    absentPersistence := 255, levels := #v[0, 1, 2, 32767], times := #v[65535, 0, 0, 65535], blindLimit := 255,
    autonomousCap := 32767, autostart := true }
def xAlw : AlwCfg :=
  { length := 8, temps := #v[-32768, -1, 0, 1, 2, 3, 4, 32767], levels := #v[20480, 0, 0, 0, 0, 0, 0, 20480],
    blind := 20480, deadBand := 32767, gain := 2560, iqMax := 32767, ramp := 1024 }
def xYaw : YawCfg :=
  { defaultYaw with
    windDir := 95, amount := 65535, eLong := 18000, eStop := 499, hardLimit := 1000000, unwindLevel := 1000000,
    unwindTarget := 999999, stallWindow := 65535, minMove := 18000, rollLimit := 32767, restTime := 1023 }
def xClc : ClcCfg :=
  { defaultClc with
    fanTag := none, heaterTag := none, pumpAmount := 65535, window := 65535, flowMin := 32767, lowWindows := 255,
    aToB := none, bToA := some 7, noFlowFactor := 16384, humOn := 1000, humOff := 999 }
def xStage : Stage := ⟨-32768, -32768, -32768, 32767, 65535, 16384, 1023⟩
def xEvent : EventCfg :=
  { enabled := false, group := 7, notify := true, acknowledged := true, log := true, firstOut := true,
    snapshot := [0, 1, 2, 95] }

theorem witness_xEntry : xEntry.legal := by unfold SampleEntry.legal int16; decide +kernel
theorem witness_xSignal : xSignal.legal := by unfold SignalCfg.legal; decide +kernel
theorem witness_xLimit : xLimit.legal := by unfold LimitCfg.legal int16; decide +kernel
theorem witness_xChan : xChan.legal := by unfold ChanCfg.legal int16; decide +kernel
theorem witness_xStep : xStep.legal := by simp [xStep, Step.legal]
theorem witness_xTag : xTag.legal := by unfold TagCfg.legal; decide +kernel
theorem witness_xConv : xConv.legal := by unfold ConvCfg.legal; decide +kernel
theorem witness_xAlw : xAlw.legal := by unfold AlwCfg.legal int16; decide +kernel
theorem witness_xYaw : xYaw.legal := by unfold YawCfg.legal; decide +kernel
theorem witness_xClc : xClc.legal := by unfold ClcCfg.legal; decide +kernel
theorem witness_xStage : xStage.legal := by unfold Stage.legal int16; decide +kernel
theorem witness_xEvent : xEvent.legal := by unfold EventCfg.legal; decide +kernel

theorem witness_RecordsReadBack :
    xEntry.legal ∧ xSignal.legal ∧ xLimit.legal ∧ xChan.legal ∧ xStep.legal ∧ xTag.legal ∧ xConv.legal ∧
    xAlw.legal ∧ xYaw.legal ∧ xClc.legal ∧ xStage.legal ∧ xEvent.legal :=
  ⟨witness_xEntry, witness_xSignal, witness_xLimit, witness_xChan, witness_xStep, witness_xTag, witness_xConv,
    witness_xAlw, witness_xYaw, witness_xClc, witness_xStage, witness_xEvent⟩

/-- A frame waits to be forwarded. -/
def buffered : State := conf.modRif fun r => { r with buffer := some ⟨[1], false⟩ }
theorem witness_StepTakesTheFront :
    ({ conf with pending := [.save 3] } : State).pending = .save 3 :: [] ∧
    (conf.pending = [] ∧ conf.rif.buffer = none) ∧
    (buffered.pending = [] ∧ buffered.rif.buffer = some ⟨[1], false⟩ ∧ buffered.rif.portOut.state = .up) ∧
    ((after (.linkLoss .out .brk []) conf).pending = [] ∧
      (after (.linkLoss .out .brk []) conf).rif.portOut.state ≠ .up) := by decide +kernel
/-- The changeover from A has ended, and CLC owes itself the stage tests. -/
def handedOver : State :=
  { oper.modClc (fun c => { c with duty := .changeover, changeFrom := .a }) with
    work := [.outcome .cooling 7 .terminal, .stageTest] }
theorem witness_StepTakesTheFront_settle :
    conf.work = [] ∧ handedOver.work = .outcome .cooling 7 .terminal :: [.stageTest] ∧
    (settleUpTo 255 (State.take { handedOver with work := [.stageTest] } (.outcome .cooling 7 .terminal))).work = [] ∧
    Owner.allocator ≠ .yaw := by decide +kernel
/-- R144: the outcome reaches CLC, whose duty becomes B; nothing waits then. -/
theorem test_settle : handedOver.settle.clc.duty = .b ∧ handedOver.settle.work = [] := by decide +kernel

/-- Every class full, and the head of class 0 about to be inserted. -/
def fullQueue : State :=
  { conf with
    pending := [.frameInsertion]
    rif := { conf.rif with
      class0 := [.ref 60 1 1, .block 60, .ref 60 2 2], class1 := List.replicate 6 someFrame,
      class2 := List.replicate 4 someNotice, class3 := [someAnswer, someAnswer] } }
theorem witness_QueueLawKept :
    (QueueLaw fullQueue ∧ ∃ t, step fullQueue = .next t) ∧
    (Instr.save 3 ≠ .frameInsertion ∧ Instr.save 3 ≠ .powerOnReset ∧ Instr.save 3 ≠ .pinReset ∧
      BlockQueued fullQueue ∧ ∃ t, exec (.save 3) fullQueue = .next t) :=
  ⟨⟨by unfold QueueLaw; decide +kernel, _, rfl⟩, by decide, by decide, by decide,
    ⟨60, by decide⟩, _, rfl⟩

/-- Code 5 in service, code 12 pending. -/
def inService : State :=
  { (conf.modEvent 5 fun e => { e with inService := true }).modEvent 12 (fun e => { e with pending := true }) with
    pending := [.ack 3 5] }
theorem witness_EventLawKept : EventLaw inService ∧ ∃ t, step inService = .next t := by
  refine ⟨⟨by decide +kernel, ?_⟩, _, rfl⟩
  have h : ∀ c : Code, inService.evu.events[c].inService = true → c = 5 := by decide +kernel
  intro c d hc hd _
  rw [h c hc, h d hd]

def fourOut (s : State) : State :=
  s.modEvu fun e => { e with firstOut := List.replicate 4 ⟨16, 0, .occurred, [], []⟩ }
theorem witness_LogAndFirstOutKept :
    (LogLaw (fullLog conf) ∧ ∃ t, step (fullLog conf) = .next t) ∧
    ((fourOut conf).evu.firstOut.length ≤ 4 ∧ (fourOut conf).work = [] ∧
      ∃ t, exec (.save 3) (fourOut conf) = .next t) :=
  ⟨⟨by unfold LogLaw; decide +kernel, _, rfl⟩, by decide +kernel, by decide +kernel, _, rfl⟩

def savingState : State := { conf with capture := some defaultSettings, pending := [.saveCompletion] }
theorem witness_PartLawsKept :
    CaptureLaw savingState ∧ BootLaw savingState ∧ RestLaw savingState ∧ BootLaw State.reset ∧
      ∃ t, step savingState = .next t := by
  refine ⟨?_, by unfold BootLaw; decide +kernel, by unfold RestLaw; decide +kernel,
    by unfold BootLaw; decide +kernel, _, rfl⟩
  intro c h
  cases h
  rfl

/-- Channel 2 holds the engine with an open frame of seven items, the eighth to come. -/
def building : State :=
  (turnOn 2 emitStep1 2 { oper with pending := [.emit] }).modSeq fun q =>
    { q with opened := some { dest := 20, items := List.replicate 7 ⟨1, 0⟩, chan := 2 } }
theorem witness_EngineLawKept : EngineLaw building ∧ ∃ t, step building = .next t := by
  refine ⟨⟨by decide +kernel, ?_⟩, _, rfl⟩
  intro o h
  cases h
  decide +kernel

/-- Tag 1 holds 450 and waits for 3001, tag 5 waits for 2550: the budget of 3000 is not passed. -/
def claiming : State :=
  { (holds 8 2550 (holds 1 450 oper)).modAla (fun a =>
      { a with queue := [⟨1, 3001, .chan 4, true⟩, ⟨5, 1, .clc, false⟩] }) with pending := [.claim] }
theorem witness_AllocatorLawsKept :
    ClaimLaw claiming ∧ BudgetLaw claiming ∧ ∃ t, step claiming = .next t :=
  ⟨by unfold ClaimLaw; decide +kernel, by unfold BudgetLaw; decide +kernel, _, rfl⟩

/-- DRIVING one hundredth of a degree below the hard limit. -/
def nearLimit : State :=
  { driving.modYaw (fun y => { y with twist := 89999, window := List.replicate 64 900 }) with
    pending := [.stallWindow] }
theorem witness_YawLawsKept :
    HardLimitLaw nearLimit ∧ YawRangeLaw nearLimit ∧ ClaimLaw nearLimit ∧ YawGrantLaw nearLimit ∧
      YawRangeLaw (nearLimit.modYaw fun y => { y with twist := -1000000 }) ∧ ∃ t, step nearLimit = .next t :=
  ⟨by unfold HardLimitLaw; decide +kernel, by unfold YawRangeLaw; decide +kernel,
    by unfold ClaimLaw; decide +kernel, by unfold YawGrantLaw; decide +kernel,
    by unfold YawRangeLaw; decide +kernel, _, rfl⟩

/-- 6.17, computation 3: the references (3278, 13639) at Ith 14028. -/
def allowed : State :=
  { (oper.modAlw fun a => { a with a := 14028, ith := 14028, lastIq := 3278, lastIp := 13639 }).modClc (fun c =>
      { c with cf := 16384 }) with image := some defaultSettings, pending := [.localCycleEvent] }
theorem witness_AllowanceLawKept : AllowanceLaw allowed ∧ ∃ t, step allowed = .next t := by
  refine ⟨⟨by unfold Settings.factorsBounded; decide +kernel, ?_, ?_, by decide +kernel⟩, _, rfl⟩
  · intro st h; cases h; unfold Settings.factorsBounded; decide +kernel
  · intro st h; cases h

theorem witness_RunningRangesKept :
    (oper.chan 7).state ≠ .masked ∧ ∃ t, exec (.stepListWrite 3 224 4 (Step.dwell 2).words) oper = .next t :=
  ⟨by decide +kernel, _, rfl⟩

theorem default_settings_legal : defaultSettings.legal := by
  refine ⟨⟨?_, ?_, ?_, ?_, ?_, by decide, by decide, by decide, ?_, ?_, ?_, ?_, ?_, ?_, by decide +kernel, ?_,
    by decide⟩, ?_, ?_, ?_⟩
  · intro i; unfold SampleEntry.legal int16; revert i; decide +kernel
  · intro i; unfold SignalCfg.legal; revert i; decide +kernel
  · intro i; unfold LimitCfg.legal int16; revert i; decide +kernel
  · intro i; unfold ChanCfg.legal int16; revert i; decide +kernel
  · intro i
    have h : defaultSettings.steps[i] = .dwell 1 := by revert i; decide +kernel
    rw [h]; exact ⟨by decide, by decide⟩
  · intro i; unfold TagCfg.legal; revert i; decide +kernel
  · unfold ConvCfg.legal; decide +kernel
  · unfold AlwCfg.legal int16; decide +kernel
  · unfold YawCfg.legal; decide +kernel
  · unfold ClcCfg.legal; decide +kernel
  · intro i; unfold Stage.legal int16; revert i; decide +kernel
  · intro i; unfold EventCfg.legal; revert i; decide +kernel
  · intro i j h
    have k : ∀ i : MapIx, defaultSettings.sampleMap[i].valid = false := by decide +kernel
    rw [k i] at h; cases h
  · decide +kernel
  · intro i j h
    have k : ∀ i : SigIx, defaultSettings.signals[i].feed = .sampled := by decide +kernel
    exact absurd (k i) h

theorem witness_SettingsStayLegal :
    let s := { savingState with image := some defaultSettings }
    (s.settings.legal ∧ (∀ st, s.image = some st → st.legal) ∧ (∀ st, s.capture = some st → st.legal)) ∧
      ∃ t, step s = .next t := by
  refine ⟨⟨default_settings_legal, ?_, ?_⟩, _, rfl⟩
  · intro st h; cases h; exact default_settings_legal
  · intro st h; cases h; exact default_settings_legal

theorem witness_BootEnd :
    State.reset.part = .boot ∧
    ({ State.reset with image := some { testSettings with bootAutostart := true } } : State).part = .boot := by
  decide +kernel
theorem witness_SoftReset :
    (Ready conf ∧ conf.convAtRest = true ∧ conf.yawAtRest = true ∧ conf.part = .configuration) ∧
    (Ready savingState ∧ savingState.convAtRest = true ∧ savingState.yawAtRest = true) ∧
    (Ready oper ∧ oper.convAtRest = true ∧ oper.yawAtRest = true ∧ oper.part = .operating) ∧
    (Ready driving ∧ ¬(driving.convAtRest = true ∧ driving.yawAtRest = true)) ∧
    (Ready (riding 0) ∧ ¬((riding 0).convAtRest = true ∧ (riding 0).yawAtRest = true)) := by
  unfold Ready; decide +kernel
theorem witness_Commission :
    (Ready oper ∧ oper.part = .operating) ∧
    (Ready conf ∧ conf.part = .configuration ∧ conf.commissionFailure = some 0x3000) ∧
    (Ready ready ∧ ready.part = .configuration ∧ ready.commissionFailure = none) := by
  unfold Ready; decide +kernel
theorem witness_Commission_entry :
    Ready ready ∧ ready.part = .configuration ∧ ready.commissionFailure = none ∧ ready.yaw.state = .held ∧
    (∀ c : ChanIx, (ready.chan c).state ≠ .waiting .claim) ∧
    (ready.chan 2).state = .masked ∧ (ready.desc 2).valid = true := by unfold Ready; decide +kernel
/-- R148 and R45: the start action claims the duty pump and sends the stage and the heater command; a channel is loaded. -/
theorem test_commission_start :
    let t := after (.commission 3) ready
    (t.tag 5).grant ≠ 0 ∧ t.rif.class1.length = 2 ∧ (t.chan 2).state = .idle ∧
      (t.chan 2).current = (ready.desc 2).base ∧ (t.chan 2).remaining = (ready.desc 2).count := by decide +kernel
/-- Stage 3 claims the fan tag, and behind it the heaters claim theirs, for which there would be room. -/
def fanWaits : State :=
  ((holds 1 2500 (holds 8 300 { oper with settings := { testSettings with
    tags := testSettings.tags.set 12 ⟨true, 12, 4, .cooling, none⟩ } })).modClc fun c =>
      { c with stageClaim := some 3, actual := 2, target := 3, heater := .claiming }).modAla fun a =>
        { a with queue := [⟨8, 801, .clc, true⟩, ⟨12, 200, .clc, false⟩] }
/-- R148: the heater claim behind the stage claim is withdrawn with it, so that CLAIMING becomes OFF; that it is not
granted in between is the model's choice [59]. The grant of the fan tag is kept. -/
theorem test_decommission_claims :
    let t := after (.decommission 3) fanWaits
    t.clc.heater = .off ∧ (t.tag 12).grant = 0 ∧ (t.tag 8).grant = 300 ∧ t.clc.stageClaim = none ∧
      t.ala.queue = [] := by decide +kernel
/-- R74: while an ALLOCATOR shed channel runs, the fan tag is not granted again: stage 0 stays. -/
theorem test_shed_channel :
    let s := { (shows 30 .good 460 (holds 8 600 oper)) with settings := { testSettings with
      sagCap := 500
      tags := testSettings.tags.set 8 ⟨true, 8, 3, .cooling, some 3⟩
      chans := testSettings.chans.set 3 { testSettings.chans[(3 : ChanIx)] with owner := .allocator } } }
    let t := ((s.modClc fun c => { c with actual := 4, target := 4 }).setMode .sag).settle
    t.clc.actual = 0 ∧ (t.tag 8).grant = 0 ∧ (t.tag 8).shedding = true ∧ (t.chan 3).state = .requested ∧
      t.clc.stageClaim = some 1 := by decide +kernel
theorem witness_Decommission :
    (Ready oper ∧ oper.part = .operating ∧ oper.cnv.state = .off ∧ oper.yaw.state = .held ∧ oper.ala.queue = [] ∧
      (chanIn 2 .suspended oper).part = .operating ∧ ((chanIn 2 .suspended oper).chan 2).state ≠ .idle) ∧
    (Ready fanWaits ∧ fanWaits.part = .operating ∧ fanWaits.cnv.state = .off ∧ fanWaits.yaw.state = .held ∧
      fanWaits.settings.clc.fanTag = some 8 ∧ fanWaits.clc.stageClaim ≠ none ∧ fanWaits.clc.heater = .claiming ∧
      fanWaits.settings.clc.heaterTag ≠ none) ∧
    (Ready conf ∧ conf.part ≠ .operating) ∧ (Ready driving ∧ driving.yaw.state ≠ .held) := by
  unfold Ready; decide +kernel
theorem witness_SavesOfTheImage :
    (Ready conf ∧ conf.capture = none) ∧ (Ready savingState ∧ savingState.capture = some defaultSettings) := by
  unfold Ready; decide +kernel
theorem witness_ReadAnswersTheWords :
    Ready conf ∧ (33 : Octet).toNat = 33 ∧ (0 : Octet).toNat = 0 ∧ (32 : Octet).toNat = 32 ∧
    (∀ r : Region, r ∈ allRegions → (0xFFFF : Word).toNat < r.base ∨ r.base + r.size ≤ (0xFFFF : Word).toNat) ∧
    ((0x08FF : Word).toNat = Region.base .sampleMap + 255 ∧ 255 + 32 ≤ Region.size .sampleMap) ∧
    ((0x0007 : Word).toNat = Region.base .identity + 7 ∧ 7 < Region.size .identity ∧
      Region.size .identity < 7 + (2 : Octet).toNat) := by
  unfold Ready; decide +kernel
theorem witness_PortAndLogReads :
    (Ready conf ∧ 1 ≤ (1 : Octet).toNat ∧ (7 : Word).toNat + (1 : Octet).toNat ≤ 8) ∧
    (Ready (fullLog conf) ∧ LogLaw (fullLog conf) ∧ (0 : Word).toNat + (32 : Octet).toNat ≤ 32 ∧
      (1150 : Word) = (fullLog conf).evu.nextSeq - BitVec.ofNat 16 (64 - 0) ∧
      (1213 : Word) = (fullLog conf).evu.nextSeq - BitVec.ofNat 16 (64 - 63) ∧
      ∀ k, k < 64 → (1214 : Word) ≠ (fullLog conf).evu.nextSeq - BitVec.ofNat 16 (64 - k)) ∧
    (LogLaw conf ∧ conf.evu.log.length = 0) ∧
    ((1 : Word) ≠ 0 ∧ (1 : Word).toNat + (31 : Octet).toNat ≤ 32 ∧ (15 : Octet).toNat < 16) := by
  unfold Ready LogLaw; decide +kernel
theorem witness_WriteDecode :
    Ready conf ∧ ([0] : List Word).length ≠ (2 : Octet).toNat ∧ ([] : List Word).length = (0 : Octet).toNat ∧
    (List.replicate 33 (0 : Word)).length = (33 : Octet).toNat ∧
    (∀ r : Region, r ∈ allRegions → (0x0009 : Word).toNat < r.base ∨ r.base + r.size ≤ (0x0009 : Word).toNat) ∧
    ((0x0007 : Word).toNat = Region.base .identity + 7 ∧ 7 + (1 : Octet).toNat ≤ Region.size .identity ∧
      Region.size .identity < 7 + (2 : Octet).toNat) := by
  unfold Ready; decide +kernel
theorem witness_ScalarWrites :
    (Ready conf ∧ conf.capture = none) ∧ (Ready savingState ∧ savingState.capture ≠ none) ∧
    (1 : Word) = wordNat (yesNo true) ∧ ((2 : Word) ≠ 0 ∧ (2 : Word) ≠ 1) ∧
    (2 : Word) = wordNat (Offer.code .fastOnly) ∧ 3 ≤ (3 : Word).toNat ∧
    (1 ≤ (63 : Node).toNat ∧ (63 : Word) = wordNat (63 : Node).toNat) ∧ 64 ≤ (64 : Word).toNat := by
  unfold Ready; decide +kernel
theorem witness_TableWrites :
    Ready oper ∧ Ready savingState ∧ xStep.legal ∧ xChan.legal ∧ xTag.legal ∧ xEvent.legal ∧
    (conf.capture = none ∧ ∀ c : ChanIx, (conf.chan c).state = .masked) ∧ (oper.chan 7).state ≠ .masked ∧
    ((holds 1 450 oper).tag 1).grant ≠ 0 ∧
    (inService.evu.events[(5 : Code)].inService = true ∧
      xEvent.group ≠ inService.settings.events[(5 : Code)].group) := by
  refine ⟨by unfold Ready; decide +kernel, by unfold Ready; decide +kernel, witness_xStep, witness_xChan,
    witness_xTag, witness_xEvent, by decide +kernel⟩
theorem witness_ParameterWrites :
    Ready conf ∧ Ready savingState ∧ Ready driving ∧ Ready (riding 0) ∧ xConv.legal ∧ conf.settings.conv.legal ∧
    xConv.shedTrips = conf.settings.conv.shedTrips ∧ xAlw.legal ∧ xYaw.legal :=
  ⟨by unfold Ready; decide +kernel, by unfold Ready; decide +kernel, by unfold Ready; decide +kernel,
    by unfold Ready; decide +kernel, witness_xConv, by unfold ConvCfg.legal; decide +kernel, rfl, witness_xAlw,
    witness_xYaw⟩
theorem witness_TwistPreset :
    (Ready driving ∧ driving.yaw.state ≠ .held ∧ driving.yaw.state ≠ .fault) ∧
    (Ready savingState ∧ savingState.yaw.state = .held ∧ savingState.capture ≠ none) ∧
    (Ready conf ∧ conf.yaw.state = .held ∧ conf.capture = none) := by
  unfold Ready; decide +kernel
theorem witness_StoredWritesMoveBlocks :
    (Ready oper ∧ oper.capture = none) ∧ (Ready conf ∧ conf.capture = none ∧ conf.part = .configuration) ∧
    (xEntry.legal ∧ oper.settings.signals[xEntry.target].feed = .sampled ∧
      ∀ j : MapIx, j ≠ 127 → oper.settings.sampleMap[j].valid = true →
        (oper.settings.sampleMap[j].source, oper.settings.sampleMap[j].channel) ≠ (xEntry.source, xEntry.channel) ∧
        (oper.settings.sampleMap[j].target, oper.settings.sampleMap[j].slot) ≠ (xEntry.target, xEntry.slot)) ∧
    (xSignal.legal ∧ (∀ k : MapIx, oper.settings.sampleMap[k].valid = true →
        oper.settings.sampleMap[k].target ≠ 95) ∧
      ∀ j : SigIx, j ≠ 95 → oper.settings.signals[j].feed ≠ xSignal.feed) ∧
    (xLimit.legal ∧ oper.convAtRest = true) ∧ xClc.legal ∧
    ((defaultStages[(5 : StageIx)]).legal ∧
      stagesOrdered (conf.settings.stages.set 5 defaultStages[(5 : StageIx)]) = true) ∧
    -- a Sample Map entry that fed a contributor, and grants and claims of CLC in CONFIGURATION
    (wind.settings.sampleMap[(17 : MapIx)].valid = true ∧ wind.settings.sampleMap[(17 : MapIx)].target = 40 ∧
      wind.settings.signals[(40 : SigIx)].feed = .sampled ∧ wind.signals[(40 : SigIx)].quality = .good) ∧
    (let s := { fanWaits with part := .configuration }
     Ready s ∧ ClaimLaw s ∧ s.settings.clc.fanTag = some 8 ∧ s.clc.stageClaim ≠ none ∧
       (∀ q ∈ s.ala.queue, q.tag = 8 → q.who = .clc ∧ s.clc.stageClaim ≠ none) ∧ (s.tag 8).grant ≠ 0 ∧
       s.settings.tags[(8 : TagIx)].owner ≠ .none ∧ s.clc.heater = .claiming ∧ s.settings.clc.heaterTag = some 12 ∧
       s.settings.clc.fanTag ≠ some 1 ∧ (s.tag 1).grant ≠ 0) ∧
    (let s := (holds 12 200 conf).modClc fun c => { c with heater := .on }
     Ready s ∧ s.clc.heater = .on ∧ ∀ q ∈ s.ala.queue, q.tag ≠ 12) :=
  ⟨by unfold Ready; decide +kernel, by unfold Ready; decide +kernel, ⟨witness_xEntry, by decide +kernel⟩,
    ⟨witness_xSignal, by decide +kernel⟩, ⟨witness_xLimit, by decide +kernel⟩, witness_xClc,
    by unfold Stage.legal int16; decide +kernel, by decide +kernel, by unfold Ready ClaimLaw; decide +kernel,
    by unfold Ready; decide +kernel⟩

/-- R12: a record made DERIVED is LOST afresh and its readers are told; the same feed and merge mode tell nobody. -/
theorem witness_StoredWritesMoveBlocks_signals :
    (xSignal.feed ≠ oper.settings.signals[(95 : SigIx)].feed ∧ oper.signals[(95 : SigIx)].quality = .unused) ∧
    (oper.storeSignals [(95, xSignal)]).work = [.update 95 0 .lost .change] ∧
    (oper.storeSignals [(95, { xSignal with
      feed := oper.settings.signals[(95 : SigIx)].feed
      merge := oper.settings.signals[(95 : SigIx)].merge })]).work = [] := by decide +kernel
theorem witness_ChannelRequests :
    Ready conf ∧ Ready oper ∧ (State.reset.part = .boot ∧ State.reset.rif.class3.length < 2) ∧
    ((conf.chan 7).state = .masked ∧ (conf.desc 7).valid = false) ∧
    (((chanIn 2 .masked oper).chan 2).state = .masked ∧ (oper.desc 2).valid = true) ∧
    ((oper.chan 7).state = .idle) ∧ ((building.chan 2).state = .running) ∧ 7 < (8 : Word).toNat := by
  unfold Ready; decide +kernel
theorem witness_Requests :
    (oper.chan 7).state = .idle ∧ (conf.chan 7).state = .masked ∧
    ((building.chan 2).state ≠ .idle ∧ (building.chan 2).state ≠ .masked) := by decide +kernel
/-- Channel 2 waits for its claim of tag 1. -/
def waitingClaim : State :=
  (waiting 2 .claim (.claim 1 3001 10) 10 2 (holds 8 300 oper)).modAla fun a =>
    { a with queue := [⟨1, 3001, .chan 2, false⟩] }
theorem witness_Abort :
    (conf.chan 0).state = .masked ∧ (building.chan 2).state ≠ .masked ∧
    ((waitingClaim.chan 2).state = .waiting .claim ∧ waitingClaim.stepAt 2 = .claim 1 3001 10 ∧
      (waitingClaim.desc 2).owner ≠ .none ∧ ClaimLaw waitingClaim ∧ (waitingClaim.tag 8).grant ≠ 0 ∧
      (∀ q ∈ waitingClaim.ala.queue, q.who = .chan 2 → q.tag = 1) ∧
      (waitingClaim.ala.queue.filter fun q => decide (¬(q.tag = 1 ∧ q.who = .chan 2))) ≠ waitingClaim.ala.queue) ∧
    ((chanIn 7 .suspended oper).chan 7).state ≠ .idle ∧ ((chanIn 7 .suspended oper).chan 7).state ≠ .waiting .claim := by
  unfold ClaimLaw; decide +kernel
/-- Entry 5 TRIPPED and latched, code 40 in service. -/
def latched : State :=
  ((shows 12 .good 1080 tempLimit).modLimit 5 fun _ => { tripped := true, counter := 0, latch := true }).modEvent 40
    fun e => { e with inService := true }
theorem witness_Acknowledge :
    (Ready latched ∧ 128 ≤ (128 : Word).toNat ∧ latched.evu.events[(127 : Code)].inService = false) ∧
    (latched.evu.events[(40 : Code)].inService = true ∧ entry5.valid = true ∧ entry5.latching = true ∧
      latched.settings.limits[(5 : LimIx)] = entry5 ∧ entry5.code = 40 ∧ latched.limits[(5 : LimIx)].tripped = true ∧
      latched.limits[(5 : LimIx)].latch = true ∧ latched.settings.signals[entry5.signal].feed = .sampled) := by
  unfold Ready; decide +kernel
theorem witness_ClearRequests : Ready inService ∧ 128 ≤ (128 : Word).toNat ∧ (128 : Word) ≠ 65535 ∧
    (128 ≤ (65534 : Word).toNat ∧ (65534 : Word) ≠ 65535) := by unfold Ready; decide +kernel
/-- A conversion state in OPERATING. -/
def convIn (k : ConvState) : State := oper.modCnv fun c => { c with state := k, breaker := true }
theorem witness_ConversionRequests :
    (Ready (convIn .off) ∧ (convIn .off).cnv.state = .off) ∧
    (Ready (convIn .stopping) ∧ (convIn .stopping).cnv.state = .stopping) ∧
    (Ready (convIn .tripped) ∧ (convIn .tripped).cnv.state = .tripped) ∧
    (Ready (convIn .running) ∧ (convIn .running).cnv.state ≠ .off ∧ (convIn .running).cnv.state ≠ .stopping ∧
      (convIn .running).cnv.state ≠ .tripped) := by unfold Ready; decide +kernel
def releasing : State :=
  (holds 1 450 oper).modYaw fun y => { y with state := .releasing, direction := .cw, awaited := .releaseCw }
def disabled : State := releasing.modYaw fun y => { y with inhibit := { noInhibit with management := true } }
theorem witness_YawRequests :
    (Ready conf ∧ Ready driving) ∧ (State.reset.part = .boot ∧ State.reset.rif.class3.length < 2) ∧
    (disabled.yaw.state = .releasing ∧ disabled.yaw.inhibit.management = true ∧ disabled.yawGranted = true) := by
  unfold Ready; decide +kernel

def acking (theirs : Rates) : State :=
  inPort { resetPort with state := .acknowledge, bursts := 4, further := 6, partnerRates := some theirs,
                          partnerRole := some .inline } conf
theorem witness_BurstsSent :
    ((acking .both).port .inn).state = .acknowledge ∧ ((acking .both).port .inn).bursts = 4 ∧
    ((acking .both).port .inn).further = 6 ∧ ((acking .both).port .inn).partnerRates = some .both ∧
    ((acking .base).port .inn).partnerRates = some .base := by decide +kernel
def listening (b : Option CapWord) : State := inPort { resetPort with state := .listen, before := b } conf
theorem witness_Bursts :
    (((listening none).port .inn).state = .listen ∧ ((listening none).port .inn).before = none) ∧
    (((listening (some word)).port .inn).state = .listen ∧
      ((listening (some word)).port .inn).before ≠ some ⟨.both, .leaf⟩) ∧
    (((acking .both).port .inn).partnerRates = some word.rates ∧
      ((acking .both).port .inn).partnerRole = some word.role) ∧
    ¬((acking .base).port .inn).partnerRates = some word.rates ∧
    ((conf.port .inn).state ≠ .listen ∧ (conf.port .inn).state ≠ .acknowledge) := by decide +kernel
theorem witness_FrameInsertion :
    ((inPort upPort conf).rif.portOut.state = .up ∧ conf.rif.buffer = none) ∧
    (after (.linkLoss .out .brk []) conf).rif.portOut.state ≠ .up ∧
    fullQueue.rif.class0 = .ref 60 1 1 :: [.block 60, .ref 60 2 2] ∧
    ((queued1 6 conf).rif.class0 = [] ∧ (queued1 6 conf).rif.class1 = someFrame :: List.replicate 5 someFrame) ∧
    (let s := conf.modRif fun r => { r with class2 := [someNotice] }
     s.rif.class0 = [] ∧ s.rif.class1 = [] ∧ s.rif.class2 = someNotice :: []) ∧
    (let s := conf.modRif fun r => { r with class3 := [someAnswer] }
     s.rif.class0 = [] ∧ s.rif.class1 = [] ∧ s.rif.class2 = [] ∧ s.rif.class3 = someAnswer :: []) := by
  decide +kernel
theorem witness_ClassZeroPlacements :
    class0Shape [] = true ∧ class0Shape [.block 60] = true ∧ class0Shape [.ref 60 1 1] = true ∧
    class0Shape [.ref 60 1 1, .block 60, .ref 60 2 2] = true := by decide +kernel

theorem nothing_due {s : State} (h : s.work = [] ∧
    (∀ c : ChanIx, (s.chan c).state = .masked ∨ (s.chan c).state = .idle ∨
      (∃ n, (s.chan c).state = .waiting .dwell ∧ s.stepAt c = .dwell n ∧ (s.chan c).timer < n)) ∧
    (s.yaw.state = .driving → s.yaw.stallTimer < s.settings.yaw.stallWindow) ∧
    (s.yaw.inhibit.rest = true → s.yaw.restTimer < s.settings.yaw.restTime * 1024) ∧
    s.clc.dwellDue = false ∧ s.clc.flowTimer < s.settings.clc.window) : NothingDue s := by
  obtain ⟨a, c, d⟩ := h
  refine ⟨a, fun k => ?_, d⟩
  rcases c k with h | h | ⟨n, h, e, l⟩ <;> simp only [State.waitDue, h, not_false_eq_true]
  simp [e, l]
/-- DRIVING, one cycle event before the end of the stall window and of the flow window. -/
def lastCycle (k : CycleState) : State :=
  (driving.modYaw fun y => { y with stallTimer := 4999 }).modClc (fun c => { c with flowTimer := 4999 }) |>.modRif
    fun r => { r with cycle := k, ringTime := 0xFFFFFFFF }
theorem witness_CycleEvents :
    (∀ k : CycleState, NothingDue (lastCycle k) ∧ (lastCycle k).part ≠ .boot ∧
      (lastCycle k).rif.portIn.state = .up ∧ (lastCycle k).rif.cycle = k) ∧
    (NothingDue (inPort resetPort conf) ∧ (inPort resetPort conf).part ≠ .boot ∧
      (inPort resetPort conf).rif.portIn.state ≠ .up) := by
  refine ⟨fun k => ⟨?_, (by decide : oper.part ≠ .boot), rfl, rfl⟩, nothing_due ?_, by decide, by decide⟩
  · refine nothing_due ?_
    have h : ∀ c : ChanIx, (driving.chan c).state = .idle := by decide +kernel
    exact ⟨rfl, fun c => .inr (.inl (h c)), fun _ => (by decide : 4999 < 5000),
      fun x => absurd x (by decide : ¬noInhibit.rest = true), rfl, (by decide : 4999 < 5000)⟩
  · have h : ∀ c : ChanIx, ((inPort resetPort conf).chan c).state = .masked := by decide +kernel
    exact ⟨rfl, fun c => .inl (h c), by decide, by decide, rfl, by decide⟩

/-- Frames for the rows of R173; the part's own address is 1. -/
def fRequest : RxFrame := ⟨frameOctets 1 3 3 [10, 0, 0, 0, 0, 0], false⟩
def fMark : RxFrame := ⟨frameOctets 63 2 0 [0, 0, 0, 77], false⟩
def fSample : RxFrame := ⟨frameOctets 63 55 1 [1, 1, 0, 0, 5], false⟩
def fOther : RxFrame := ⟨frameOctets 63 2 5 [], false⟩
theorem witness_FrameFilter :
    (conf.part ≠ .boot ∧ conf.rif.portIn.state = .up) ∧
    State.reset.part = .boot ∧ (inPort resetPort conf).rif.portIn.state ≠ .up ∧
    96 < (List.replicate 97 (0 : Octet)).length ∧
    (let f : RxFrame := ⟨List.replicate 96 0, true⟩
     f.octets.length ≤ 96 ∧ f.aborted = true) ∧
    (let f : RxFrame := ⟨[0, 0, 0], false⟩
     f.aborted = false ∧ f.octets.length < 4) ∧
    (4 ≤ fOther.octets.length ∧ fOther.octets.length ≤ 96) ∧
    frameSource (frameOctets 3 1 3 []) = conf.ownAddress ∧
    (frameClass fRequest.octets = 3 ∧ frameDest fRequest.octets = conf.ownAddress ∧
      frameSource fRequest.octets ≠ conf.ownAddress ∧ checkPasses fRequest.octets = true ∧
      fRequest.octets.length = (octetAt fRequest.octets 3).toNat + 6 ∧
      requestOf 3 (framePayload fRequest.octets) =
        some { src := 3, kind := 10, qual := 0, addr := 0, len := 0, data := [] } ∧
      ({ src := 3, kind := 10, qual := 0, addr := 0, len := 0, data := [] } : Request).command = some (.save 3)) ∧
    (frameClass fMark.octets = 0 ∧ checkPasses fMark.octets = true ∧ framePayload fMark.octets = [0, 0, 0, 77] ∧
      frameSource fMark.octets ≠ conf.ownAddress) ∧
    (frameClass fSample.octets = 1 ∧ checkPasses fSample.octets = true ∧
      framePayload fSample.octets = 1 :: 1 :: [0, 0, 5] ∧ ([0, 0, 5] : List Octet).length % 3 = 0) ∧
    (frameClass fOther.octets ≠ 0 ∧ frameClass fOther.octets ≠ 1 ∧ checkPasses fOther.octets = true ∧
      fOther.octets.length = (octetAt fOther.octets 3).toNat + 6) ∧
    (let bad : List Octet := [1, 3, 3, 0, 0, 0]
     frameClass bad = 3 ∧ frameDest bad = conf.ownAddress ∧ checkPasses bad = false) ∧
    (let bad : List Octet := [2, 3, 5, 0, 0, 0]
     frameSource bad ≠ conf.ownAddress ∧ frameClass bad ≠ 3 ∧ checkPasses bad = false) := by decide +kernel

/-- Requests of a kind or subject outside its list (12.1), and one cut short. -/
theorem witness_FrameFilter_unlisted :
    (∀ p ∈ ([[14, 0, 0, 0, 0, 0], [255, 0, 0, 0, 0, 0], [7, 0, 0, 0, 5, 0], [8, 0, 0, 0, 3, 0], [9, 0, 0, 0, 2, 0]] :
        List (List Octet)),
      let f := frameOctets 1 3 3 p
      frameSource f ≠ conf.ownAddress ∧ frameClass f = 3 ∧ frameDest f = conf.ownAddress ∧ checkPasses f = true ∧
        f.length = (octetAt f 3).toNat + 6 ∧ ∃ r, requestOf 3 (framePayload f) = some r ∧
          (13 < r.kind.toNat ∨ (r.kind = 7 ∧ 4 < r.addr.toNat) ∨ (r.kind = 8 ∧ 2 < r.addr.toNat) ∨
            (r.kind = 9 ∧ 1 < r.addr.toNat))) ∧
    conf.rif.class3.length < 2 ∧ conf.work = [] ∧ 2 ≤ fullQueue.rif.class3.length ∧
    (let f := frameOctets 1 3 3 [7, 0, 0, 0, 2]
     frameDest f = conf.ownAddress ∧ checkPasses f = true ∧ f.length = (octetAt f 3).toNat + 6 ∧
       requestOf 3 (framePayload f) = none) := by
  refine ⟨fun p h => ?_, by decide +kernel⟩
  simp only [List.mem_cons, List.not_mem_nil, or_false] at h
  rcases h with rfl | rfl | rfl | rfl | rfl <;>
    exact ⟨by decide +kernel, by decide +kernel, by decide +kernel, by decide +kernel, by decide +kernel, _, rfl,
      by decide +kernel⟩
/-- R180: a request of an unlisted kind is answered RANGE, with its kind echoed. -/
theorem test_frameReceived_unlisted :
    answers (after (.frameReceived ⟨frameOctets 1 3 3 [14, 0, 0, 0, 2, 0], false⟩) conf) = [(14, .range, [])] := by
  decide +kernel

theorem witness_SampleFrames :
    (State.reset.part = .boot ∧ (0 : Node).toNat = 0 ∧ 56 ≤ (56 : Node).toNat ∧ (0 : Octet).toNat = 0 ∧
      8 < (9 : Octet).toNat ∧ (2 : Octet).toNat ≠ ([⟨3, .good, 0⟩] : List SampleItem).length) ∧
    ((12 : Node).toNat = (11 : Fin 55) + 1 ∧ (55 : Node).toNat = (54 : Fin 55) + 1 ∧
      wind.sequences[(11 : Fin 55)] = some 80) ∧
    (wind.part ≠ .boot ∧ wind.sequences[(11 : Fin 55)] ≠ some 81 ∧ wind.work = []) ∧
    (wind.settings.sampleMap[(17 : MapIx)].valid = true ∧ wind.settings.sampleMap[(17 : MapIx)].source = 12 ∧
      wind.settings.sampleMap[(17 : MapIx)].channel = 3 ∧ wind.phases[(17 : MapIx)] = 0 ∧
      ∀ d : MapIx, d < 17 → ¬(wind.settings.sampleMap[d].valid = true ∧
        wind.settings.sampleMap[d].source = 12 ∧ wind.settings.sampleMap[d].channel = 3)) ∧
    (({ wind with phases := wind.phases.set 17 7 } : State).phases[(17 : MapIx)] ≠ 0) ∧
    (∀ e : MapIx, ¬(wind.settings.sampleMap[e].valid = true ∧ wind.settings.sampleMap[e].source = 12 ∧
      wind.settings.sampleMap[e].channel = 4)) ∧
    -- several items
    (2 : Octet).toNat = ([⟨3, .good, 1950⟩, ⟨4, .good, 0⟩] : List SampleItem).length := by decide +kernel
/-- The verdicts of R6 and R8 to R10 on entry 17 of 1.11. -/
theorem witness_SampleFrames_verdicts :
    let e := wind.settings.sampleMap[(17 : MapIx)]
    let k := wind.signals[e.target].slots[e.slot]
    (engineering e 8000 = 8000 ∧ e.low ≤ 8000 ∧ 8000 ≤ e.high) ∧ e.high < engineering e 8001 ∧
    (e.rate ≠ 0 ∧ k.quality = .good ∧ k.jumps ≠ 3 ∧ e.rate < (1711 - k.reference).natAbs) ∧
    ¬e.rate < (1710 - k.reference).natAbs := by decide +kernel
theorem witness_EngineeringValue :
    (-32768 ≤ xEntry.gain ∧ xEntry.gain ≤ 32767 ∧ -32768 ≤ xEntry.offset ∧ xEntry.offset ≤ 32767) ∧
    (let e : SampleEntry := { defaultSampleEntry with gain := 32767, offset := -32768 }
     4096 * (-262136) ≤ (-32768 : Int) * e.gain ∧ (-32768 : Int) * e.gain < 4096 * (-262136 + 1) ∧
     -262136 + e.offset < -32768 ∧ e.low ≤ engineering e 0x8000 ∧ engineering e 0x8000 ≤ e.high ∧ e.rate = 0) ∧
    (let e : SampleEntry := { defaultSampleEntry with low := 1, high := 1 }
     engineering e 0 < e.low ∧ e.high < engineering e 2) := by decide +kernel
theorem witness_SignalQuality :
    (wind.signals[(40 : SigIx)].slots[(0 : SlotIx)].quality = .good ∧ wind.signals[(40 : SigIx)].lastSlot = some 0) ∧
    (∀ k : SlotIx, oper.signals[(40 : SigIx)].slots[k].quality ≠ .good) ∧
    (wind.settings.signals[(40 : SigIx)].feed = .sampled ∧ wind.newQuality 40 ≠ .unused ∧
      wind.signals[(40 : SigIx)].merged wind.settings.signals[(40 : SigIx)].merge = some 1210 ∧
      wind.newQuality 39 = .unused) ∧
    (let s := wind.modSlot 40 0 fun c => { c with age := 5001 }
     s.signals[(40 : SigIx)].slots[(0 : SlotIx)].quality = .good ∧
      s.settings.signals[(40 : SigIx)].staleLimit < s.signals[(40 : SigIx)].slots[(0 : SlotIx)].age) ∧
    (¬wind.settings.signals[(40 : SigIx)].staleLimit < wind.signals[(40 : SigIx)].slots[(0 : SlotIx)].age ∧
      wind.work = []) ∧
    ({ wind with settings := { wind.settings with signals := wind.settings.signals.set 40 xSignal } } :
      State).settings.signals[(40 : SigIx)].feed ≠ .sampled := by decide +kernel

/-- R20 with log entry 3: repeats leave an order of readers, and those it does not name follow. -/
theorem test_readerOrder :
    readerOrder [.yaw, .clc, .yaw] = [.yaw, .clc, .lim, .seq, .cnv] ∧ State.reset.schedule.headD [] = [] := by
  decide +kernel

/-- Channel 7 REQUESTED with a held frame. -/
def requested : State :=
  (chanIn 7 .requested oper).modChan 7 fun r => { r with held := some someFrame }
theorem witness_EngineGrant :
    (oper.work = [] ∧ ∀ c : ChanIx, (oper.chan c).state ≠ .requested) ∧ building.seq.holder ≠ none ∧
    (requested.seq.holder = none ∧ requested.seq.opened = none ∧ (requested.chan 7).state = .requested ∧
      requested.settings.rotating = false ∧ (∀ d : ChanIx, d < 7 → (requested.chan d).state ≠ .requested) ∧
      (requested.chan 7).held = some someFrame ∧ (queued1 5 requested).rif.class1.length < 6 ∧
      6 ≤ (queued1 6 requested).rif.class1.length) ∧
    ((chanIn 7 .requested oper).chan 7).held = none ∧
    (let s : State := { requested with settings := { testSettings with rotating := true } }
     s.settings.rotating = true ∧ ∀ d : ChanIx, (s.chan d).state = .requested →
       (7 : ChanIx) - (s.seq.lastGranted + 1) ≤ d - (s.seq.lastGranted + 1)) := by decide +kernel

theorem turn_of {s : State} {c : ChanIx} (h : s.seq.holder = some c ∧ (s.chan c).state = .running ∧
    0 < (s.chan c).remaining ∧ s.demandHolds c = true ∧ s.work = []) : Turn s c :=
  ⟨h.1, h.2.1, h.2.2.1, h.2.2.2.1, h.2.2.2.2⟩
/-- The turn of channel 2 with an open frame of `k` items to node 20. -/
def builtUp (k n : Nat) : State :=
  (turnOn 2 emitStep1 n oper).modSeq fun q =>
    { q with opened := some { dest := 20, items := List.replicate k ⟨1, 0⟩, chan := 2 } }
/-- Channel 2 in another mode. -/
def inMode (m : RunMode) (s : State) : State :=
  { s with settings := { s.settings with
      chans := updAt s.settings.chans 2 fun d => { d with mode := m, demandLevel := 10 } } }
theorem witness_EmitStep :
    (Turn (turnOn 2 emitStep1 2 oper) 2 ∧ (turnOn 2 emitStep1 2 oper).stepAt 2 = .emit 20 0 5 ∧
      (turnOn 2 emitStep1 2 oper).seq.opened = none ∧ (turnOn 2 emitStep1 2 oper).goesOn 2) ∧
    (Turn (turnOn 2 emitStep1 1 oper) 2 ∧ ((turnOn 2 emitStep1 1 oper).chan 2).remaining = 1) ∧
    (Turn (inMode .single (turnOn 2 emitStep1 2 oper)) 2 ∧
      ((inMode .single (turnOn 2 emitStep1 2 oper)).desc 2).mode = .single) ∧
    (Turn (builtUp 6 2) 2 ∧ (builtUp 6 2).goesOn 2) ∧ (Turn (queued1 5 (builtUp 7 2)) 2 ∧
      (queued1 5 (builtUp 7 2)).rif.class1.length < 6) ∧
    (Turn (queued1 6 (builtUp 7 2)) 2 ∧ ¬(queued1 6 (builtUp 7 2)).rif.class1.length < 6) ∧
    (let s := turnOn 2 (.emit 21 0 5) 2 (builtUp 7 2)
     Turn s 2 ∧ s.stepAt 2 = .emit 21 0 5 ∧ s.seq.opened.map OpenFrame.dest = some 20) ∧
    (let s := inMode .demand (builtUp 7 2)
     s.seq.holder = some 2 ∧ (s.chan 2).state = .running ∧ 0 < (s.chan 2).remaining ∧ s.demandHolds 2 = false ∧
       s.work = []) ∧
    (oper.work = [] ∧ oper.seq.holder = none) ∧
    ((turnOn 2 emitStep1 2 oper).stepAt 2).command ≠ .dwell :=
  ⟨⟨turn_of (by decide +kernel), by decide +kernel, by decide +kernel, by unfold State.goesOn; decide +kernel⟩,
    ⟨turn_of (by decide +kernel), by decide +kernel⟩, ⟨turn_of (by decide +kernel), by decide +kernel⟩,
    ⟨turn_of (by decide +kernel), by unfold State.goesOn; decide +kernel⟩,
    ⟨turn_of (by decide +kernel), by decide +kernel⟩, ⟨turn_of (by decide +kernel), by decide +kernel⟩,
    ⟨turn_of (by decide +kernel), by decide +kernel⟩, by decide +kernel, by decide +kernel, by decide +kernel⟩

/-- The boundaries of an EMIT: the last step and SINGLE mode with a frame open, class 1 full or not. -/
theorem witness_EmitStep_ends :
    (∀ n ∈ [1, 2], ∀ k ∈ [6, 7], ∀ m ∈ [5, 6],
      let s := queued1 m (inMode .single (builtUp k n))
      Turn s 2 ∧ s.stepAt 2 = .emit 20 0 5 ∧ (s.chan 2).remaining = n ∧ (s.desc 2).mode = .single ∧
        s.rif.class1.length = m ∧ s.seq.opened = some ⟨20, List.replicate k ⟨1, 0⟩, 2⟩) ∧
    (∀ n ∈ [1, 2], ∀ m ∈ [5, 6],
      let s := queued1 m (turnOn 2 (.emit 21 0 5) n (inMode .single (builtUp 7 n)))
      Turn s 2 ∧ s.stepAt 2 = .emit 21 0 5 ∧ s.seq.opened = some ⟨20, List.replicate 7 ⟨1, 0⟩, 2⟩) ∧
    (let s := queued1 6 (inMode .single (turnOn 2 emitStep1 2 oper))
     Turn s 2 ∧ s.seq.opened = none ∧ ¬s.rif.class1.length < 6) := by
  refine ⟨fun n hn k hk m hm => ⟨turn_of ?_, ?_⟩, fun n hn m hm => ⟨turn_of ?_, ?_⟩, turn_of (by decide +kernel),
    by decide +kernel⟩
  · revert n k m; decide +kernel
  · revert n k m; decide +kernel
  · revert n m; decide +kernel
  · revert n m; decide +kernel
/-- R48, R61: in SINGLE mode with class 1 full the channel keeps the frame it has just closed, and waits. With one
place left the frame of another node takes it, and the new one is kept. -/
theorem test_emit_single_full :
    (let t := after .emit (queued1 6 (inMode .single (turnOn 2 emitStep1 2 oper)))
     (t.chan 2).state = .waiting .queue ∧ (t.chan 2).held = some ⟨20, [⟨0, 5⟩]⟩ ∧ (t.chan 2).remaining = 1) ∧
    (let t := after .emit (queued1 5 (turnOn 2 (.emit 21 0 5) 2 (inMode .single (builtUp 1 2))))
     t.rif.class1.getLast? = some ⟨20, [⟨1, 0⟩]⟩ ∧ (t.chan 2).held = some ⟨21, [⟨0, 5⟩]⟩) := by decide +kernel

def awaiting (v : Int) : State := turnOn 2 (.await 40 .below 300 10) 2 (shows 40 .good v oper)
theorem witness_WaitSteps :
    (Turn (awaiting 299) 2 ∧ Turn (awaiting 300) 2 ∧ (awaiting 300).stepAt 2 = .await 40 .below 300 10 ∧
      (awaiting 300).seq.opened = none) ∧
    (Turn (turnOn 2 (.dwell 65535) 1 oper) 2 ∧ (turnOn 2 (.dwell 65535) 1 oper).stepAt 2 = .dwell 65535) ∧
    (Turn (turnOn 2 (.claim 1 3000 1) 2 oper) 2 ∧
      ((turnOn 2 (.claim 1 3000 1) 2 oper).claimTag 1 3000 (.chan 2)).2 = .granted) ∧
    (Turn (turnOn 2 (.claim 1 3001 1) 2 oper) 2 ∧
      ((turnOn 2 (.claim 1 3001 1) 2 oper).claimTag 1 3001 (.chan 2)).2 = .queued) ∧
    (Turn (turnOn 2 (.claim 15 1 1) 2 oper) 2 ∧
      ((turnOn 2 (.claim 15 1 1) 2 oper).claimTag 15 1 (.chan 2)).2 = .refused) ∧
    (let s := queued1 6 (turnOn 2 (.dwell 1) 2 (builtUp 1 2))
     Turn s 2 ∧ s.seq.opened ≠ none ∧ 6 ≤ s.rif.class1.length ∧ (s.stepAt 2).command = .dwell) ∧
    (awaiting 299).goesOn 2 ∧ ((turnOn 2 (.dwell 1) 1 oper).chan 2).remaining ≤ 1 :=
  ⟨⟨turn_of (by decide +kernel), turn_of (by decide +kernel), by decide +kernel⟩,
    ⟨turn_of (by decide +kernel), by decide +kernel⟩, ⟨turn_of (by decide +kernel), by decide +kernel⟩,
    ⟨turn_of (by decide +kernel), by decide +kernel⟩, ⟨turn_of (by decide +kernel), by decide +kernel⟩,
    ⟨turn_of (by decide +kernel), by decide +kernel⟩, by unfold State.goesOn; decide +kernel, by decide +kernel⟩
/-- Channel 2 waits in AWAIT for signal 40 below 300, channel 7 is SUSPENDED until signal 40 is above 10. -/
def watching : State :=
  let s := chanIn 7 .suspended (waiting 2 .await (.await 40 .below 300 10) 0 2 oper)
  { s with settings := { s.settings with
      chans := updAt s.settings.chans 7 fun d =>
        { d with mode := .demand, demandSignal := 40, demandSense := .above, demandLevel := 10 } } }
theorem witness_WaitSteps_updates :
    ((watching.chan 2).state = .waiting .await ∧ watching.stepAt 2 = .await 40 .below 300 10) ∧
    ((watching.chan 7).state = .suspended ∧ (watching.desc 7).mode = .demand ∧ (watching.desc 7).demandSignal = 40 ∧
      (watching.desc 7).demandSense = .above ∧ (watching.desc 7).demandLevel = 10) ∧
    ((watching.chan 0).state ≠ .waiting .await ∧ (watching.chan 0).state ≠ .suspended) := by decide +kernel
/-- R20, R49, R51: what an update of the signal does to each, at its level, beyond it, and LOST. -/
theorem test_seqUpdate :
    let u (v : Int) (q : Quality) := let t := watching.seqUpdate 40 v q
      ((t.chan 2).state, (t.chan 7).state)
    u 299 .good = (.requested, .requested) ∧ u 300 .good = (.waiting .await, .requested) ∧
      u 10 .degraded = (.requested, .suspended) ∧ u 299 .lost = (.waiting .await, .suspended) := by decide +kernel

theorem witness_FreeAndLink :
    (let s := turnOn 2 (.free 1) 2 (holds 1 450 oper)
     Turn s 2 ∧ s.stepAt 2 = .free 1 ∧ (s.tag 1).grant ≠ 0 ∧ (∀ q ∈ s.ala.queue, q.tag ≠ 1) ∧
       s.settings.tags[(1 : TagIx)].owner ≠ .none) ∧
    (let s := turnOn 2 (.free 1) 2 oper
     Turn s 2 ∧ (s.tag 1).grant = 0) ∧
    (let s := turnOn 2 (.link 5) 3 oper
     Turn s 2 ∧ s.stepAt 2 = .link 5) ∧
    (builtUp 1 1).seq.opened ≠ none ∧ 6 ≤ (queued1 6 (builtUp 1 1)).rif.class1.length :=
  ⟨⟨turn_of (by decide +kernel), by decide +kernel⟩, ⟨turn_of (by decide +kernel), by decide +kernel⟩,
    ⟨turn_of (by decide +kernel), by decide +kernel⟩, by decide +kernel, by decide +kernel⟩
theorem witness_WaitExpiries :
    (let s := waiting 2 .await (.await 40 .below 300 10) 10 2 oper
     s.stepAt 2 = .await 40 .below 300 10 ∧ (s.chan 2).state = .waiting .await ∧ 10 ≤ (s.chan 2).timer) ∧
    (let s := waiting 2 .dwell (.dwell 7) 7 2 oper
     s.stepAt 2 = .dwell 7 ∧ (s.chan 2).state = .waiting .dwell ∧ 7 ≤ (s.chan 2).timer) ∧
    (waitingClaim.stepAt 2 = .claim 1 3001 10 ∧ (waitingClaim.chan 2).state = .waiting .claim ∧
      10 ≤ (waitingClaim.chan 2).timer) ∧
    (¬(waiting 2 .dwell (.dwell 7) 6 2 oper).waitDue 2 ∧ (waiting 2 .dwell (.dwell 7) 6 2 oper).work = []) ∧
    (1 < (waitingClaim.chan 2).remaining ∧ ((waiting 2 .dwell (.dwell 7) 7 1 oper).chan 2).remaining ≤ 1 ∧
      waitingClaim.seq.opened = none) := by
  refine ⟨by decide +kernel, by decide +kernel, by decide +kernel, ⟨?_, by decide +kernel⟩, by decide +kernel⟩
  have h : ((waiting 2 .dwell (.dwell 7) 6 2 oper).chan 2).state = .waiting .dwell := by decide +kernel
  have g : (waiting 2 .dwell (.dwell 7) 6 2 oper).stepAt 2 = .dwell 7 := by decide +kernel
  have k : ((waiting 2 .dwell (.dwell 7) 6 2 oper).chan 2).timer = 6 := by decide +kernel
  simp only [State.waitDue, h, g, k]
  decide

theorem witness_JobExpiries :
    (let s := driving.modYaw fun y => { y with stallTimer := 5000 }
     s.yaw.state = .driving ∧ s.settings.yaw.stallWindow ≤ s.yaw.stallTimer ∧
       s.settings.yaw.minMove ≤ s.yaw.twist - s.yaw.stallBase) ∧
    (let s := driving.modYaw fun y => { y with stallTimer := 5000, stallBase := 89221 }
     s.settings.yaw.stallWindow ≤ s.yaw.stallTimer ∧ s.yaw.twist - s.yaw.stallBase < s.settings.yaw.minMove) ∧
    (let s := oper.modYaw fun y => { y with inhibit := { noInhibit with rest := true }, restTimer := 10240 }
     s.yaw.inhibit.rest = true ∧ s.settings.yaw.restTime * 1024 ≤ s.yaw.restTimer) ∧
    (oper.modClc fun c => { c with dwellDue := true }).clc.dwellDue = true ∧
    (let s := oper.modClc fun c => { c with flowTimer := 5000 }
     s.settings.clc.window ≤ s.clc.flowTimer ∧ s.signals[s.settings.clc.flowCount].quality ≠ .good ∧
       s.signals[s.settings.clc.flowCount].quality ≠ .degraded) ∧
    (let s := (shows 31 .good 32767 oper).modClc fun c => { c with flowTimer := 5000, prevCount := some (-32768) }
     s.signals[s.settings.clc.flowCount].quality = .good ∧ s.clc.prevCount = some (-32768)) ∧
    (shows 31 .good 0 oper).clc.prevCount = none ∧
    (oper.work = [] ∧ oper.clc.dwellDue = false ∧ oper.clc.flowTimer < oper.settings.clc.window) := by decide +kernel

/-- A cooling stage and a target, the coolant at a temperature, the dwell elapsed. -/
def cooling (a t : StageIx) (temp : Int) (s : State) : State :=
  (shows 30 .good temp s).modClc fun c => { c with actual := a, target := t, dwell := 5120 }
theorem witness_CoolingStages :
    conf.part ≠ .operating ∧ oper.part = .operating ∧
    (let s := cooling 2 3 412 (holds 8 300 oper)
     s.clc.actual < s.clc.target ∧ (s.stage 2).dwell * 1024 ≤ s.clc.dwell ∧ s.clc.stageClaim = none ∧
       s.settings.clc.fanTag = some 8 ∧ (s.claimTag 8 450 .clc).2 = .granted ∧ ¬(412 < (s.stage 2).exit)) ∧
    (let s := (cooling 2 3 412 (holds 8 300 oper)).modAla fun a => { a with queue := [⟨1, 2900, .chan 2, false⟩] }
     (s.claimTag 8 450 .clc).2 = .queued) ∧
    (let s := cooling 2 3 412 { oper with settings := { testSettings with tags := defaultSettings.tags } }
     (s.claimTag 8 450 .clc).2 = .refused) ∧
    (let s := cooling 2 2 309 (holds 8 300 oper)
     0 < s.clc.actual ∧ 309 < (s.stage 2).exit ∧ s.clc.fullHold = false ∧
       (s.claimTag 8 150 .clc).2 = .granted ∧ (s.stage 0).amount = 0 ∧ (s.stage 1).amount ≠ 0) ∧
    (let s := cooling 2 2 309 { holds 8 300 oper with
       settings := { testSettings with clc := { defaultClc with fanTag := none } } }
     s.settings.clc.fanTag = none) ∧
    (let s := (holds 5 400 oper).modClc fun c => { c with low := 2 }
     s.clc.duty = .a ∧ s.clc.low ≤ 255 ∧ (s.tag s.settings.clc.pumpATag).grant ≠ 0 ∧
       0 < (s.stage s.clc.actual).pump ∧ (99 : Nat) < s.settings.clc.flowMin ∧
       s.settings.clc.lowWindows ≤ min 255 (s.clc.low + 1) ∧ s.settings.clc.aToB = some 7 ∧
       (s.chan 7).state ≠ .masked) ∧
    ((oper.clc.low = 0 ∧ min 255 (oper.clc.low + 1) < oper.settings.clc.lowWindows) ∧
      ¬(100 : Nat) < oper.settings.clc.flowMin) ∧
    ((oper.modClc fun c => { c with duty := .b }).clc.duty = .b ∧ oper.settings.clc.bToA = none) ∧
    (fanWaits.clc.stageClaim = some 3 ∧ fanWaits.settings.clc.fanTag = some 8 ∧ fanWaits.clc.heater = .claiming ∧
      fanWaits.settings.clc.heaterTag = some 12 ∧ fanWaits.rif.class1.length < 6 ∧
      (oper.modClc fun c => { c with pumpClaim := true }).clc.pumpClaim = true ∧ oper.clc.duty = .a ∧
      oper.settings.clc.pumpATag = 5) := by decide +kernel

theorem witness_LimitEntries :
    (xLimit.kind = .outside ∧ xLimit.ordered = true ∧ xLimit.release = xLimit.trip ∧
      xLimit.lowRelease = xLimit.lowTrip) ∧
    (entry5.kind = .above ∧ entry5.ordered = true ∧ ({ entry5 with kind := .below } : LimitCfg).ordered = false) ∧
    (Ready conf ∧ ({ entry5 with release := 1151 } : LimitCfg).valid = true ∧
      ({ entry5 with release := 1151 } : LimitCfg).ordered = false ∧ entry5.persistence ≤ 255 ∧
      32 ≤ entry5.code ∧ entry5.code ≤ 127) ∧
    (tempLimit.settings.limits[(5 : LimIx)].valid = true ∧ tempLimit.limits[(5 : LimIx)].counter ≤ 255 ∧
      tempLimit.limits[(5 : LimIx)].tripped = false ∧ latched.limits[(5 : LimIx)].tripped = true ∧
      entry5.trips 1151 = true ∧ entry5.trips 1150 = false ∧ entry5.releases 1050 = true) ∧
    tempLimit.settings.limits[(5 : LimIx)].code = (40 : Code) ∧
    tempLimit.updateHolds.holds.converter = tempLimit.holds.converter ∧
    latched.updateHolds.holds.converter ≠ latched.holds.converter := by unfold Ready; decide +kernel
/-- Entries 5 and 9 name signal 12. -/
theorem witness_LimitEntries_all :
    let s : State := { tempLimit with settings := { tempLimit.settings with
      limits := tempLimit.settings.limits.set 9 { entry5 with trip := 1160 } } }
    ([5, 9] : List LimIx).Pairwise (· < ·) ∧ ∀ i : LimIx, i ∈ ([5, 9] : List LimIx) ↔
      s.settings.limits[i].valid = true ∧ s.settings.limits[i].signal = 12 := by decide +kernel
/-- A tripped entry of an action of R32. -/
def holding (a : LimitAction) (s : State) : State :=
  { s with
    settings := { s.settings with limits := s.settings.limits.set 5 { entry5 with action := a } }
    limits := s.limits.set 5 { tripped := true, counter := 3, latch := true } }
theorem witness_LimitEntries_holds :
    (let s := holding .coolingFull (shows 30 .good 0 oper)
     s.updateHolds.holds.cooling ≠ s.holds.cooling ∧ s.updateHolds.holds.yaw = s.holds.yaw) ∧
    (let s := holding .yawStop driving
     s.updateHolds.holds.yaw ≠ s.holds.yaw ∧ s.updateHolds.holds.converter = s.holds.converter) := by decide +kernel
/-- R138: the hold that switches on calls for stage 5, and one that switches off for that of the temperature. -/
theorem test_fullHold :
    (holding .coolingFull (shows 30 .good 0 oper)).updateHolds.clc.target = 5 ∧
    (let s := ((shows 30 .good 0 oper).modClc fun c => { c with fullHold := true, target := 5 })
     ({ s with holds := { s.holds with cooling := true } } : State).updateHolds.clc.target = 0) := by decide +kernel
theorem witness_LimitEntries_levels :
    int16 entry5.trip ∧ int16 1151 ∧ int16 entry5.lowTrip ∧ int16 entry5.lowRelease := by unfold int16; decide
theorem witness_AllowanceArithmetic :
    ((riding 0).modAlw fun a => { a with ith := 20480, mf := 14745 }).alw.ith ≤ 20480 ∧
    (let s := (riding 0).modAlw fun a => { a with ith := 20480, mf := 14745 }
     s.cnv.state = .rideThrough ∧ s.alw.mf < s.settings.alw.deadBand) ∧
    (oper.cnv.state ≠ .rideThrough) ∧ (int16 (-32768) ∧ int16 32767) ∧ xAlw.legal ∧
    (-32768 ≤ xAlw.temps[0] ∧ xAlw.temps[7] ≤ 32767) ∧
    (xAlw.temps[(0 : Fin 8)] ≤ -32768 ∧ (-32768 : Int) < xAlw.temps[(1 : Fin 8)]) ∧ 16384 ≤ (16384 : Nat) :=
  ⟨by decide +kernel, by decide +kernel, by decide +kernel, by unfold int16; decide, witness_xAlw, by decide,
    by decide, by decide⟩
theorem witness_RideThrough :
    ((convIn .running).cnv.state = .running ∧ 13925 < (convIn .running).settings.conv.dipEntry ∧
      (convIn .running).settings.conv.dipEntry ≤ 13926) ∧
    ((riding 3500).cnv.state = .rideThrough ∧ (riding 3500).settings.conv.dipExit ≤ 14746 ∧
      7000 < (riding 3500).settings.conv.dipExit ∧
      (7000 < (riding 3500).settings.conv.levels[(1 : Fin 4)] ∧
        (riding 3500).settings.conv.times[(1 : Fin 4)] < 3501) ∧
      (∀ i : Fin 4, i < 1 → ¬(7000 < (riding 3500).settings.conv.levels[i] ∧
        (riding 3500).settings.conv.times[i] < 3501)) ∧
      ∀ j : Fin 4, ¬(7000 < (riding 3499).settings.conv.levels[j] ∧
        (riding 3499).settings.conv.times[j] < 3500)) ∧
    ((convIn .off).cnv.state ≠ .running ∧ (convIn .off).cnv.state ≠ .postDip ∧
      (convIn .off).cnv.state ≠ .rideThrough) ∧
    (oper.part = .operating ∧ [oper.settings.conv.precharge, oper.settings.conv.run, oper.settings.conv.stop,
      oper.settings.conv.trip].Nodup ∧ oper.cnv.state ≠ .tripped ∧ (convIn .tripped).cnv.state = .tripped ∧
      class0Shape fullQueue.rif.class0 = true ∧ (oper.chan oper.settings.conv.trip).state = .idle ∧
      (oper.modCnv fun c => { c with awaited := .stop }).cnv.awaited = .stop) ∧
    (convIn .postDip).cnv.state = .postDip ∧
    (let s := shows 2 .good 0 (shows 1 .good 0 (shows 0 .good 0 (convIn .running)))
     s.part = .operating ∧ s.cnv.state = .running ∧ s.signals[s.settings.conv.gridA].quality = .good ∧
       s.signals[s.settings.conv.gridB].quality = .good ∧ s.signals[s.settings.conv.gridC].quality = .good) ∧
    ((convIn .running).signals[(convIn .running).settings.conv.gridA].quality ≠ .good ∧
      ((convIn .running).modCnv fun c => { c with blind := 65535 }).settings.conv.blindLimit < 65535) := by
  decide +kernel

theorem witness_ClaimsAndSheds :
    (¬(oper.settings.tags[(15 : TagIx)].valid = true)) ∧ (waitingClaim.ala.queue.any fun q => q.tag == 1) = true ∧
    (oper.settings.tags[(1 : TagIx)].valid = true ∧ oper.ala.queue = [] ∧ (oper.tag 1).grant = 0 ∧
      (oper.tag 1).shedding = false ∧ oper.ala.sum + 3000 ≤ oper.budget ∧ oper.budget < oper.ala.sum + 3001) ∧
    (((holds 1 450 oper).tag 1).grant ≠ 0 ∧ 450 ≤ ((holds 1 450 oper).tag 1).grant ∧
      ((holds 1 450 oper).tag 1).grant < 3000 ∧
      (holds 1 450 oper).ala.sum - ((holds 1 450 oper).tag 1).grant + 3000 ≤ (holds 1 450 oper).budget ∧
      ¬(holds 1 450 oper).ala.sum - ((holds 1 450 oper).tag 1).grant + 3001 ≤ (holds 1 450 oper).budget) ∧
    ClaimLaw claiming ∧ ¬(3000 - 450 + 3001 ≤ claiming.budget) ∧
    (let s := waitingClaim.modAla fun a => { a with queue := [⟨1, 2700, .chan 2, false⟩, ⟨12, 1, .clc, false⟩] }
     ClaimLaw s ∧ (s.tag 1).shedding = false ∧ s.ala.sum + 2700 ≤ s.budget ∧
       (s.chan 2).state = .waiting .claim) := by unfold ClaimLaw; decide +kernel
/-- R74: at the end of its shed channel the tag is granted again. -/
theorem test_shedChannelEnd :
    let s := ({ oper with settings := { testSettings with
      tags := testSettings.tags.set 8 ⟨true, 8, 3, .cooling, some 3⟩ } } : State).modTag 8 fun r =>
        { r with shedding := true }
    let t := (s.modAla fun a => { a with queue := [⟨8, 150, .clc, false⟩] }).shedChannelEnd 3
    (t.tag 8).shedding = false ∧ (t.tag 8).grant = 150 ∧ t.ala.queue = [] := by decide +kernel
/-- The grants of 4.9 with their ranks, in BACKUP. -/
def dipping : State :=
  (holds 8 1500 (holds 5 400 oper)).modAla (fun a => { a with mode := .backup }) |>.modTag 8 fun r =>
    { r with rank := some 3 }
/-- The start of 4.9 with tag 5 increased: it takes the highest rank, and the tags above it move down (log entry 57). -/
theorem test_increaseRanks :
    let s := (((holds 0 600 (holds 5 400 (holds 8 1500 (holds 11 300 oper)))).modTag 5 fun r =>
      { r with rank := some 2 }).modTag 8 fun r => { r with rank := some 3 }).modTag 11 fun r => { r with rank := some 4 }
    let t := s.ala.giveGrant 5 500 7000
    ([0, 5, 8, 11] : List TagIx).map (fun i => t.tags[i].rank) = [some 1, some 4, some 2, some 3] := by decide +kernel
theorem witness_ClaimsAndSheds_shed :
    dipping.nextShed = some 8 ∧ dipping.budget < dipping.ala.sum ∧
    (let u := dipping.shedPass
     (u.tag 8).grant = 0 ∧ (u.tag 5).grant = 400 ∧ u.ala.sum ≤ u.budget) ∧
    (oper.ala.sum ≤ oper.budget ∧ oper.nextShed = none) ∧
    driving.settings.yaw.tag = 1 ∧ driving.yaw.state = .driving := by
  decide +kernel

/-- Tags 0, 5 and 8 hold 600, 400 and 600 in stage 4, as before the second dip of 8.13. -/
def stage4 : State :=
  (holds 8 600 (holds 5 400 (shows 30 .good 460
    { oper with settings := { testSettings with tags := testSettings.tags.set 0 ⟨true, 0, 0, .none, none⟩ } })))
  |>.modTag 0 (fun r => { r with grant := 600, rank := some 2 })
  |>.modClc fun c => { c with actual := 4, target := 4 }
/-- 8.13, the second dip: the fan shed drops the stage to 0 while pump A still holds its grant, so its command carries
fan 0 and pump speed 400; then pump A is shed, the changeover is requested, and cf is 5120. -/
theorem test_secondDip :
    let t := stage4.setMode .backup
    t.rif.class1 = [⟨24, [⟨0, 0⟩, ⟨1, 400⟩]⟩] ∧ t.clc.duty = .changeover ∧ t.clc.cf = 5120 ∧ t.clc.actual = 0 ∧
      (t.tag 5).grant = 0 ∧ (t.chan 7).state = .requested := by decide +kernel

def outDown (s : State) : State := after (.linkLoss .out .brk []) s
theorem witness_EventsRaised :
    (let s := { conf with settings := { testSettings with events := testSettings.events.set 5 xEvent } }
     s.settings.events[(5 : Code)].enabled = false) ∧
    (let s := outDown conf
     s.settings.events[(12 : Code)].enabled = true ∧ s.rif.portOut.state ≠ .up ∧ LogLaw s ∧
       s.evu.firstOut.length < 4 ∧ s.settings.events[(5 : Code)].firstOut = false ∧
       s.settings.events[(27 : Code)].log = false ∧ s.settings.events[(12 : Code)].log = true) ∧
    (LogLaw conf ∧ conf.rif.portOut.state = .up ∧ LogLaw (fourOut conf) ∧
      (fourOut conf).rif.portOut.state = .up) ∧
    ((fourOut conf).settings.events[(12 : Code)].firstOut = true ∧ (12 : Code) ≠ 31 ∧
      4 ≤ (fourOut conf).evu.firstOut.length ∧ (fourOut conf).settings.events[(31 : Code)].enabled = true) := by
  unfold LogLaw; decide +kernel
theorem witness_EventsRaised_dispatch :
    inService.chooseCode = some 12 ∧ inService.rif.class2.length < 4 ∧ inService.rif.portOut.state = .up ∧
    4 ≤ fullQueue.rif.class2.length ∧ conf.chooseCode = none ∧ conf.dispatchTest.rif.class2.length < 4 := by
  decide +kernel
theorem witness_YawStops :
    (conf.chan conf.settings.yaw.stop).state = .masked ∧ (driving.chan driving.settings.yaw.stop).state = .idle ∧
    ((chanIn 6 .running driving).chan 6).state ≠ .idle := by decide +kernel
theorem witness_YawStops_released :
    (driving.yaw.state = .driving ∧ (1 : TagIx) = driving.settings.yaw.tag) ∧ releasing.yaw.state ≠ .driving ∧
    (2 : TagIx) ≠ driving.settings.yaw.tag := by decide +kernel
/-- R125: a FREE of the yaw tag by another channel while YAW drives stops the move, to end in FAULT. -/
theorem test_yawReleased :
    let y := (after .free (turnOn 2 (.free 1) 2 driving)).yaw
    (y.state, y.stopCause, y.faultPending) = (.stopping, .noGrant, true) := by decide +kernel
/-- R20: an update goes to the heading, or to the window, as the parameters designate its signal. -/
theorem test_yawUpdate :
    let t := (oper.yawUpdate oper.settings.yaw.heading 100 .good .sample).yawUpdate oper.settings.yaw.windDir 7 .good
      .sample
    t.yaw.lastHeading = some 100 ∧ t.yaw.window = [7] := by decide +kernel
theorem witness_YawMoves :
    (resetYaw.lastHeading = none ∧ ({ resetYaw with lastHeading := some 35990 } : YawRt).lastHeading = some 35990) ∧
    (Direction.cw ≠ .none ∧ (conf.chan conf.settings.yaw.releaseCw).state = .masked ∧
      (oper.chan oper.settings.yaw.releaseCw).state = .idle ∧
      ((chanIn 4 .running oper).chan 4).state ≠ .idle ∧ Purpose.track ≠ .unwind) ∧
    (releasing.yaw.state = .releasing ∧ (releasing.tag releasing.settings.yaw.tag).grant ≠ 0 ∧
      releasing.settings.tags[releasing.settings.yaw.tag].owner = .yaw ∧
      { releasing.yaw.inhibit with roll := false } = noInhibit ∧ releasing.yaw.twist.natAbs = 0) ∧
    (¬({ disabled.yaw.inhibit with roll := false } = noInhibit)) ∧
    ((holds 1 0 releasing).tag 1).grant = 0 ∧
    (let s := releasing.modYaw fun y => { y with twist := 90000 }
     s.yaw.direction = .cw ∧ 0 < s.yaw.twist ∧ s.settings.yaw.hardLimit ≤ s.yaw.twist.natAbs) ∧
    (RunEnd.aborted ≠ .terminal ∧ (5 : ChanIx) ≠ (releasing.releaseOf releasing.yaw.direction).1) := by decide +kernel
/-- R123: an abort of the awaited release channel stops the move for RELEASE_FAILED, with an end in FAULT. -/
theorem test_releaseAborted :
    let y := (releasing.yawOutcome 4 .aborted).yaw
    (y.state, y.stopCause, y.faultPending) = (.stopping, .releaseFailed, true) := by decide +kernel
/-- R121: a start to unwind raises event 18, and one to track none. -/
theorem test_unwindStart :
    ((oper.startYaw .unwind .ccw).evu.log.map FaultRecord.code, (oper.startYaw .track .ccw).evu.log) =
      ([18], []) := by decide +kernel

/-! ### Witnesses of the clauses over several blocks -/

/-- Every signal is fed by an entry of the Sample Map, and boot autostart is yes. -/
def autoSettings : Settings :=
  { testSettings with
    bootAutostart := true
    sampleMap := tabulate 128 fun k => { defaultSampleEntry with
      valid := decide (k < 96), source := BitVec.ofNat 6 (10 + k / 16), channel := Fin.ofNat 16 (k % 16)
      target := Fin.ofNat 96 k } }
theorem witness_BootEnd_autostart :
    (let s : State := { State.reset with image := some autoSettings }
     s.part = .boot ∧ s.loaded.settings.bootAutostart = true ∧ s.loaded.commissionFailure = none ∧
       s.loaded.settings.tags[s.loaded.settings.clc.pumpATag].valid = true ∧
       s.loaded.settings.clc.pumpAmount ≤ s.loaded.settings.gridCap) ∧
    (let s : State := { State.reset with image := some { defaultSettings with bootAutostart := true } }
     s.part = .boot ∧ s.loaded.settings.bootAutostart = true ∧ s.loaded.commissionFailure = some 0x3000) := by
  decide +kernel

/-- The claim of the duty pump waits in OPERATING, LIMIT inhibits YAW and holds full cooling. -/
def pumpWaits (d : Duty) (t : TagIx) : State :=
  { (oper.modClc fun c => { c with duty := d, pumpClaim := true, fullHold := true }).modAla (fun a =>
      { a with queue := [⟨t, 3001, .clc, false⟩] }) |>.modYaw (fun y => { y with
        inhibit := { noInhibit with limit := true } }) with
    holds := { converter := false, yaw := true, cooling := true } }
theorem witness_Decommission_claims :
    (∀ x ∈ [(Duty.a, (5 : TagIx)), (.b, 6)], let s := pumpWaits x.1 x.2
      Ready s ∧ s.part = .operating ∧ s.cnv.state = .off ∧ s.yaw.state = .held ∧ s.clc.pumpClaim = true ∧
        ClaimLaw s ∧ s.yaw.inhibit.limit = s.holds.yaw ∧ s.clc.fullHold = s.holds.cooling ∧ s.clc.duty = x.1 ∧
        (s.settings.clc.pumpATag, s.settings.clc.pumpBTag) = (5, 6)) ∧
    (ClaimLaw fanWaits ∧ fanWaits.settings.clc.heaterTag = some 12 ∧ fanWaits.clc.heater = .claiming ∧
      (fanWaits.tag 8).grant ≠ 0) ∧
    (let s := oper.modAla fun a => { a with queue := [⟨1, 3001, .chan 2, false⟩] }
     Ready s ∧ s.part = .operating ∧ s.cnv.state = .off ∧ s.yaw.state = .held ∧
       ∀ q ∈ s.ala.queue, q.who ≠ .clc) := by
  unfold Ready ClaimLaw; decide +kernel
theorem witness_ReadAnswersTheWords_lists :
    (latched.modAla fun a => { a with queue := [⟨1, 3001, .chan 2, false⟩] }).ala.queue[0]? =
      some ⟨1, 3001, .chan 2, false⟩ ∧
    ((∀ x ∈ (fourOut conf).evu.firstOut, x.detail.length ≤ 6 ∧ x.snapshot.length ≤ 4) ∧
      (fourOut conf).evu.firstOut[3]? = some ⟨16, 0, .occurred, [], []⟩) := by decide +kernel

def awaits (w : ConvAwait) : State := oper.modCnv fun c => { c with awaited := w }
theorem witness_ConversionRequests_outcomes :
    (oper.part = .operating ∧ conf.part ≠ .operating) ∧
    ((awaits .precharge).cnv.awaited = .precharge ∧ (awaits .precharge).settings.conv.precharge = 0 ∧
      (awaits .run).settings.conv.run = 1 ∧ (awaits .stop).settings.conv.stop = 2 ∧
      (awaits .trip).settings.conv.trip = 3) ∧
    (RunEnd.fault 8 .awaitTimeout ≠ .terminal ∧ RunEnd.fault 8 .awaitTimeout ≠ .aborted) ∧
    ((awaits .none).cnv.awaited ≠ .precharge ∧ (awaits .none).cnv.awaited ≠ .run ∧
      (awaits .none).cnv.awaited ≠ .stop ∧ (awaits .none).cnv.awaited ≠ .trip) ∧
    (oper.cnv.autonomous = false ∧ (oper.modCnv fun c => { c with autonomous := true }).cnv.autonomous = true) ∧
    ((4 : SigIx) ≠ oper.settings.conv.gridA ∧ (4 : SigIx) ≠ oper.settings.conv.gridB ∧
      (4 : SigIx) ≠ oper.settings.conv.gridC ∧ oper.settings.conv.heartbeat = 4) ∧
    (let s := oper.modCnv fun c => { c with autostartPending := true }
     s.cnv.autostartPending = true ∧ s.cnv.state = .off ∧ s.ala.mode = .grid ∧
       (s.chan s.settings.conv.precharge).state = .idle) ∧
    ¬oper.cnv.autostartPending = true := by decide +kernel
theorem witness_FrameInsertion_buffer :
    buffered.rif.portOut.state = .up ∧ buffered.rif.buffer = some ⟨[1], false⟩ ∧
    ((chanIn 2 (.waiting .queue) oper).chan 2).state = .waiting .queue := by decide +kernel
/-- Two contributors beyond their limit. -/
def stalePair : State :=
  ((wind.modSlot 40 0 fun c => { c with age := 5001 }).modSlot 41 2 (fun _ => { goodSlot 7 with
    quality := .suspect, age := 5001 }))
theorem witness_CycleEvents_stale :
    (∀ (i : SigIx) (k : SlotIx), (i, k) ∈ [((40 : SigIx), (0 : SlotIx)), (41, 2)] ↔
      (stalePair.signals[i].slots[k].quality = .good ∨ stalePair.signals[i].slots[k].quality = .suspect) ∧
        stalePair.signals[i].limit < stalePair.signals[i].slots[k].age) ∧
    [((40 : SigIx), (0 : SlotIx)), (41, 2)].Pairwise (fun a b => a.1 < b.1 ∨ (a.1 = b.1 ∧ a.2 < b.2)) ∧
    ∀ (i : SigIx) (k : SlotIx), ¬((wind.signals[i].slots[k].quality = .good ∨
      wind.signals[i].slots[k].quality = .suspect) ∧ wind.signals[i].limit < wind.signals[i].slots[k].age) := by
  decide +kernel
theorem witness_SignalQuality_events :
    (let s := wind.modSlot 40 0 fun c => { c with quality := .stale }
     s.signals[(40 : SigIx)].quality = .good ∧ s.newQuality 40 = .lost) ∧
    (let s := wind.modSignal 40 fun r => { r with quality := .lost, lossRaised := true }
     s.signals[(40 : SigIx)].quality = .lost ∧ s.newQuality 40 = .good ∧
       s.signals[(40 : SigIx)].lossRaised = true ∧ s.settings.signals[(40 : SigIx)].lossCode = 0) ∧
    (wind.signals[(40 : SigIx)].quality ≠ .lost ∧ wind.newQuality 40 = .good) ∧
    (∀ i : SigIx, wind.settings.signals[i].feed ≠ .twist) ∧
    (let s := ({ oper with settings := { testSettings with signals := testSettings.signals.set 95 xSignal } } :
       State).modSignal 95 fun r => { r with quality := .lost, lossRaised := true }
     s.settings.signals[(95 : SigIx)].feed = .yawErrorLong ∧ s.settings.signals[(95 : SigIx)].lossCode ≠ 0 ∧
       (∀ j : SigIx, j < 95 → s.settings.signals[j].feed ≠ .yawErrorLong) ∧
       s.signals[(95 : SigIx)].quality = .lost ∧ s.signals[(95 : SigIx)].lossRaised = true) := by decide +kernel

/-- A duty in OPERATING, with channel 7 of the changeover from A, and channel 6 of the one from B. -/
def onDuty (d f : Duty) : State :=
  ({ oper with settings := { testSettings with clc := { defaultClc with bToA := some 6 } } } : State).modClc fun c =>
    { c with duty := d, changeFrom := if f = .a then .a else if f = .b then .b else .none }
/-- R143: the running channel is named, active or IDLE, or NONE. -/
theorem witness_CoolingStages_again :
    (let s := chanIn 7 .running (onDuty .changeover .a)
     s.clc.duty = .changeover ∧ s.clc.changeFrom = .a ∧ s.settings.clc.aToB = some 7 ∧ (s.chan 7).state ≠ .idle ∧
       (s.chan 7).state ≠ .masked) ∧
    ((onDuty .changeover .b).clc.changeFrom = .b ∧ (onDuty .changeover .b).settings.clc.bToA = some 6) ∧
    (let s := oper.modClc fun c => { c with duty := .changeover, changeFrom := .b }
     s.clc.changeFrom = .b ∧ s.settings.clc.bToA = none) := by decide +kernel
/-- R143: at N in CHANGEOVER the counter becomes 0, the duty state is kept and no event is raised. -/
theorem test_changeoverAgain :
    let t := ((chanIn 7 .running (onDuty .changeover .a)).modClc fun c => { c with low := 3 }).changeoverDue
    (t.clc.low, t.clc.duty, (t.chan 7).state, t.evu.log) = (0, .changeover, .running, []) := by decide +kernel
/-- R143: the changeover channel IDLE, MASKED, and NONE, in A_DUTY and B_DUTY, with and without a waiting pump claim. -/
theorem witness_CoolingStages_changeover :
    ((onDuty .a .noFlow).clc.duty = .a ∧ (onDuty .a .noFlow).settings.clc.aToB = some 7 ∧
      ((onDuty .a .noFlow).chan 7).state ≠ .masked ∧ (onDuty .a .noFlow).clc.pumpClaim = false) ∧
    ((onDuty .b .noFlow).clc.duty = .b ∧ (onDuty .b .noFlow).settings.clc.bToA = some 6 ∧
      ((chanIn 6 .masked (onDuty .b .noFlow)).chan 6).state = .masked) ∧
    ((pumpWaits .b 6).clc.duty = .b ∧ (pumpWaits .b 6).settings.clc.bToA = none ∧
      (pumpWaits .b 6).clc.pumpClaim = true) := by decide +kernel
/-- R143: events 7 and 21 of a refused changeover, 21 alone without a channel, and 20 of an accepted one, which names
pump A and the flow. -/
theorem test_changeoverEvents :
    let log (s : State) := s.changeoverDue.evu.log.map FaultRecord.code
    log (chanIn 6 .masked (onDuty .b .noFlow)) = [7, 21] ∧ log (pumpWaits .b 6) = [21] ∧
      (((onDuty .a .noFlow).modClc fun c => { c with flow := some 99 }).changeoverDue.evu.log.map fun r =>
        (r.code, r.detail)) = [(20, [1, 99])] := by decide +kernel
/-- A humidity and the state of the heaters, their tag valid. -/
def humid (h : Int) (k : Heater) : State :=
  (shows 32 .good h { oper with settings := { testSettings with
    tags := testSettings.tags.set 12 ⟨true, 12, 4, .cooling, none⟩ } }).modClc fun c => { c with heater := k }
theorem witness_CoolingStages_outcomes :
    ((onDuty .changeover .a).settings.clc.aToB = some 7 ∧ (onDuty .changeover .a).settings.clc.bToA = some 6 ∧
      (onDuty .changeover .a).clc.duty = .changeover ∧ (onDuty .changeover .a).clc.changeFrom = .a ∧
      (onDuty .changeover .b).clc.changeFrom = .b ∧ (onDuty .a .noFlow).clc.duty = .a ∧
      (onDuty .a .noFlow).clc.duty ≠ .changeover ∧ (onDuty .changeover .a).clc.pumpClaim = false) ∧
    (oper.settings.clc.fanTag = some 8 ∧ oper.settings.clc.heaterTag = some 12 ∧
      (oper.stage 0).amount = 0 ∧ ∀ j : StageIx, 0 < j → j ≤ 5 → (oper.stage j).amount ≠ 0) ∧
    (let s : State := { oper with settings := { testSettings with
        stages := testSettings.stages.set 0 { testSettings.stages[(0 : StageIx)] with amount := 1 } } }
     ∀ j : StageIx, j ≤ 5 → (s.stage j).amount ≠ 0) ∧
    ((humid 751 .claiming).clc.heater = .claiming ∧ (humid 751 .off).clc.heater ≠ .claiming) ∧
    ((oper.settings.clc.fanTag ≠ some 5 ∧ oper.settings.clc.heaterTag ≠ some 5 ∧ oper.clc.duty = .a ∧
      oper.settings.clc.pumpATag = 5 ∧ oper.part = .operating) ∧
      (oper.settings.clc.fanTag ≠ some 6 ∧ oper.settings.clc.heaterTag ≠ some 6 ∧
        (6 : TagIx) ≠ oper.settings.clc.pumpATag ∧ oper.clc.duty ≠ .b)) ∧
    -- the heater tests
    (conf.part ≠ .operating ∧
      (let s := humid 751 .off
       s.part = .operating ∧ s.settings.clc.heaterTag = some 12 ∧ s.clc.heater = .off ∧
         s.signals[s.settings.clc.humidity].quality = .good ∧
         (s.settings.clc.humOn : Int) < s.signals[s.settings.clc.humidity].value ∧ s.cnv.state = .off ∧
         (s.claimTag 12 200 .clc).2 = .granted) ∧
      (let s := (humid 751 .off).modAla fun a => { a with queue := [⟨1, 2900, .chan 2, false⟩] }
       (s.claimTag 12 200 .clc).2 = .queued) ∧
      (shows 32 .good 751 oper).clc.heater = .off ∧ ((shows 32 .good 751 oper).claimTag 12 200 .clc).2 = .refused ∧
      ¬((humid 750 .off).settings.clc.humOn : Int) < (humid 750 .off).signals[(32 : SigIx)].value ∧
      ((humid 649 .on).clc.heater = .on ∧
        (humid 649 .on).signals[(32 : SigIx)].value < (humid 649 .on).settings.clc.humOff) ∧
      ¬(humid 650 .on).signals[(32 : SigIx)].value < (humid 650 .on).settings.clc.humOff) := by decide +kernel

/-- The entries of 8.2: a coolant temperature at the entry of stage 3, below that of stage 1, and LOST. -/
theorem witness_CoolingStages_target :
    (oper.clc.fullHold = false ∧ (oper.stage 3).entry ≤ (oper.stage 3).entry ∧
      ∀ j : StageIx, 3 < j → (oper.stage 3).entry < (oper.stage j).entry) ∧
    (let s : State := { oper with settings := { testSettings with
        stages := testSettings.stages.set 0 { testSettings.stages[(0 : StageIx)] with entry := 1 } } }
     ∀ j : StageIx, 0 < (s.stage j).entry) ∧
    (oper.modClc fun c => { c with fullHold := true }).clc.fullHold = true ∧
    ¬(oper.clc.fullHold = true ∨ Quality.good = .lost ∨ Quality.good = .unused) := by decide +kernel
/-- R19: the stage test takes the temperature of the update, 309, where the record holds another by then. -/
theorem test_update_carries :
    (((cooling 2 2 412 (holds 8 300 oper)).clcUpdate 30 309 .good).clc.actual,
      ((cooling 2 2 309 (holds 8 300 oper)).clcUpdate 30 412 .good).clc.actual) = (1, 3) := by decide +kernel
/-- R104 and R106: mf and Ith go to the signals that carry their pairs. -/
theorem test_published :
    let feeds (f : Feed) : State := { oper with settings := { testSettings with
      signals := testSettings.signals.set 95 { defaultSignal with feed := f } } }
    let x : Readings := ⟨[], 12000, 12000, 12000, [], 16384, 0⟩
    let s := (feeds .gridMagnitude).formMagnitude x
    let t := (feeds .allowance).formAllowance x
    s.signals[(95 : SigIx)].value = s.alw.mf ∧ 0 < s.alw.mf ∧ s.work.length = 1 ∧
      t.signals[(95 : SigIx)].value = t.alw.ith ∧ 0 < t.alw.ith ∧ t.work.length = 1 := by decide +kernel
theorem witness_RideThrough_readings :
    (let x : Readings := ⟨[], 0, 0, 0, [250, 300, 300], 16384, 0⟩
     x.notGood = [] ∧ (300 : Int) ∈ x.temps ∧ ∀ w ∈ x.temps, w ≤ 300) ∧
    (let x : Readings := ⟨[2], 0, 0, 0, [], 16384, 0⟩
     x.notGood ≠ [] ∧ x.temps = []) := by decide +kernel
/-- POST_DIP with a request one beyond, or at, the next value of the ramp. -/
def ramping (beyond : Nat) : State :=
  (convIn .postDip).modAlw fun r => { r with ramp := 1000, ipReq := 1000 + testSettings.alw.ramp + beyond }
theorem witness_RideThrough_postDip :
    (let s := ramping 1
     s.cnv.state = .postDip ∧ min (s.alw.ramp + s.settings.alw.ramp) 32767 < s.alw.ipReq) ∧
    (let s := ramping 0
     s.cnv.state = .postDip ∧ s.alw.ipReq ≤ min (s.alw.ramp + s.settings.alw.ramp) 32767) := by decide +kernel
/-- R109: POST_DIP ends with event 14 when the ramp reaches the request. -/
theorem test_postDipEnds :
    (((ramping 0).formLimit false).cnv.state, ((ramping 0).formLimit false).evu.log.map FaultRecord.code,
      ((ramping 1).formLimit false).cnv.state) = (.running, [14], .postDip) := by decide +kernel
theorem witness_RideThrough_modes :
    (((oper.modCnv fun c => { c with absent := 50 }).settings.conv.absentPersistence ≤
        (oper.modCnv fun c => { c with absent := 50 }).cnv.absent) ∧
      ¬(riding 0).settings.conv.absentPersistence ≤ (riding 0).cnv.absent ∧ (riding 0).cnv.state = .rideThrough ∧
      ¬oper.settings.conv.absentPersistence ≤ oper.cnv.absent ∧ oper.cnv.state ≠ .rideThrough ∧
      oper.settings.conv.dipExit ≤ 14746 ∧ 14745 < oper.settings.conv.dipExit) ∧
    (oper.ala.mode = .grid ∧ SupplyMode.sag ≠ oper.ala.mode) ∧
    (oper.part = .operating ∧ conf.part ≠ .operating ∧ (0 : SigIx) = oper.settings.conv.gridA ∧
      (2 : SigIx) = oper.settings.conv.gridC ∧ (convIn .running).cnv.state = .running) ∧
    (let u (s : State) := ((s.modCnv fun c => { c with
        state := .tripped, awaited := .none, breaker := false, cause := .curve, detail := 1,
        time := s.rif.ringTime, further := 0, autostartPending := false }).hand .convChanged).abortAwaited s.cnv.awaited
     ((u (convIn .running)).chan 3).state ≠ .masked ∧
       ((u (chanIn 3 .masked (convIn .running))).chan 3).state = .masked) := by decide +kernel

/-- DRIVING at a twist and a purpose, the last heading 0. -/
def drivingAt (twist : Int) (p : Purpose) : State :=
  driving.modYaw fun y => { y with twist := twist, purpose := p, lastHeading := some 0 }
/-- STOPPING for a cause. -/
def stopping (c : StopCause) (f : Bool) : State :=
  oper.modYaw fun y => { y with state := .stopping, stopCause := c, faultPending := f, awaited := .stop }
theorem witness_YawStops_updates :
    (let y := (drivingAt 89990 .track).yaw.turn 10
     y.state = .driving ∧ y.direction = .cw ∧ 0 < y.twist ∧
       (drivingAt 89990 .track).settings.yaw.hardLimit ≤ y.twist.natAbs) ∧
    (let y := (drivingAt 89989 .track).yaw.turn 10
     y.state = .driving ∧ y.direction = .cw ∧ y.purpose = .track ∧
       ¬(drivingAt 89989 .track).settings.yaw.hardLimit ≤ y.twist.natAbs) ∧
    (let y := (drivingAt 17990 .unwind).yaw.turn 10
     y.state = .driving ∧ ¬(drivingAt 17990 .unwind).settings.yaw.hardLimit ≤ y.twist.natAbs ∧
       y.purpose = .unwind ∧ y.twist.natAbs ≤ (drivingAt 17990 .unwind).settings.yaw.unwindTarget) ∧
    (oper.part = .operating ∧ oper.yaw.state = .held ∧ driving.part = .operating ∧
      releasing.part = .operating ∧ releasing.yaw.state = .releasing ∧ conf.part ≠ .operating) ∧
    (driving.yaw.state = .driving ∧ driving.yaw.purpose = .track ∧
      ((driving.modYaw fun y => y.append 200).yaw.shortMean = some 200 ∧ driving.settings.yaw.eStop = 200)) ∧
    ((driving.modYaw fun y => y.append 201).yaw.shortMean = some 201 ∧ driving.yaw.inhibit.limit = false) ∧
    ((stopping .stall true).yaw.state = .stopping ∧ (stopping .stall true).settings.yaw.stop = 6 ∧
      (stopping .stall true).yaw.faultPending = true ∧ (stopping .trackDone false).yaw.faultPending = false) ∧
    (let s := oper.modYaw fun y => { y with state := .fault, faultCause := .stopFailed }
     s.yaw.state = .fault ∧ s.settings.yaw.stop = 6) ∧
    ((4 : ChanIx) ≠ oper.settings.yaw.stop ∧ oper.yaw.state ≠ .releasing) := by decide +kernel
/-- HELD with a full window of one value, a twist, and a wind speed. -/
def held (v twist wind : Int) : State :=
  (shows 22 .good wind oper).modYaw fun y => { y with window := List.replicate 64 v, twist := twist }
theorem witness_YawMoves_decision :
    ((held 900 0 0).yaw.window.length ≤ 64 ∧ (held 900 0 0).yaw.state = .held ∧
      driving.yaw.state ≠ .held ∧ releasing.yaw.state ≠ .held ∧ releasing.yaw.state ≠ .driving) ∧
    (oper.modYaw fun y => { y with inhibit := { noInhibit with shed := true } }).yaw.inhibit ≠ noInhibit ∧
    (oper.ala.sum + oper.settings.yaw.amount ≤ oper.budget) ∧
    ((held 900 0 300).yaw.inhibit = noInhibit ∧ 8 ≤ (held 900 0 300).yaw.window.length ∧
      (oper.modYaw fun y => { y with window := List.replicate 7 900 }).yaw.window.length < 8) ∧
    (let s := held 900 (-72000) 1199
     s.settings.yaw.unwindLevel ≤ s.yaw.twist.natAbs ∧ s.signals[s.settings.yaw.windSpeed].quality = .good ∧
       s.signals[s.settings.yaw.windSpeed].value < s.settings.yaw.vUnwind ∧
       ¬(s.settings.yaw.vStorm : Int) ≤ s.signals[s.settings.yaw.windSpeed].value) ∧
    (let s := held 900 71999 300
     ¬s.settings.yaw.unwindLevel ≤ s.yaw.twist.natAbs ∧ s.yaw.shortMean = some 900 ∧ s.yaw.longMean = some 900 ∧
       ¬s.settings.yaw.eShort ≤ 900 ∧ s.settings.yaw.eLong ≤ 900 ∧
       (s.settings.yaw.vMin : Int) ≤ s.signals[s.settings.yaw.windSpeed].value) ∧
    (let s := held (-2500) 0 299
     s.yaw.shortMean = some (-2500) ∧ s.settings.yaw.eShort ≤ 2500 ∧
       ¬(s.settings.yaw.vMin : Int) ≤ s.signals[s.settings.yaw.windSpeed].value) ∧
    (let s := held 799 0 300
     s.yaw.longMean = some 799 ∧ ¬s.settings.yaw.eLong ≤ 799) ∧
    (let s := held 900 90000 1200
     0 < s.yaw.twist ∧ s.settings.yaw.hardLimit ≤ s.yaw.twist.natAbs ∧
       ¬s.signals[s.settings.yaw.windSpeed].value < s.settings.yaw.vUnwind) := by decide +kernel

end Sys2Proof.Tests
end

section
/-! The engineering value of R7 as arithmetic, and the contributor that a used item
leaves. An evaluation (R13 to R16) changes no contributor, so the contributor shows what the checks of R8 and R9 saw. -/

namespace Sys2Proof.Machine

/-! ### The value -/

/-- Both factors are signed 16-bit, so the product has at most 31 bits and a sign. -/
theorem toInt_mul_abs_le (raw : Word) {g : Int} (hl : -32768 ≤ g) (hh : g ≤ 32767) :
    |raw.toInt * g| ≤ 2 ^ 30 := by
  have hr : |raw.toInt| ≤ 32768 :=
    abs_le.mpr ⟨raw.le_toInt, by have := raw.toInt_lt; omega⟩
  have hg : |g| ≤ 32768 := abs_le.mpr ⟨hl, by omega⟩
  calc |raw.toInt * g| = |raw.toInt| * |g| := abs_mul _ _
    _ ≤ 32768 * 32768 := mul_le_mul hr hg (abs_nonneg g) (by omega)
    _ = 2 ^ 30 := by norm_num

/-- The quotient `q` of the floor division is the one whose multiple of 4096 is the last not above the product. -/
theorem engineering_eq_sat16 {e : SampleEntry} {raw : Word} {q : Int} (hl : 4096 * q ≤ raw.toInt * e.gain)
    (hh : raw.toInt * e.gain < 4096 * (q + 1)) : engineering e raw = sat16 (q + e.offset) := by
  have hq : raw.toInt * e.gain / 4096 = q := by omega
  rw [engineering, hq]

theorem sat16_of_lt {x : Int} (h : x < -32768) : sat16 x = -32768 := by
  unfold sat16; omega

theorem sat16_of_gt {x : Int} (h : 32767 < x) : sat16 x = 32767 := by
  unfold sat16; omega

theorem sat16_of_mem {x : Int} (hl : -32768 ≤ x) (hh : x ≤ 32767) : sat16 x = x := by
  unfold sat16; omega

/-! ### What an evaluation leaves of the contributors -/

@[simp] theorem raiseKind_signals (s : State) (c : Code) (k : EventKind) (d : List Int) :
    (s.raiseKind c k d).signals = s.signals := by
  have := congrArg State.signals (evt_raiseKind s c k d).eq; exact this

@[simp] theorem raise_signals (s : State) (c : Code) (d : List Int) : (s.raise c d).signals = s.signals :=
  raiseKind_signals s c .occurred d

@[simp] theorem raiseLoss_signals (s : State) (i : SigIx) : (s.raiseLoss i).signals = s.signals :=
  raise_signals ..

@[simp] theorem raiseRecovery_signals (s : State) (i : SigIx) : (s.raiseRecovery i).signals = s.signals := by
  unfold State.raiseRecovery
  dsimp only
  split
  · exact raise_signals ..
  · exact raiseKind_signals ..

theorem modSignal_slots (s : State) (i j : SigIx) {f : SignalRt → SignalRt} (hf : ∀ r, (f r).slots = r.slots) :
    (s.modSignal i f).signals[j].slots = s.signals[j].slots := by
  rw [State.modSignal_signals, updAt_get]
  split
  · next h => rw [hf, h]
  · rfl

theorem slots_of_signals_eq {s t : State} (h : t.signals = s.signals) (j : SigIx) :
    t.signals[j].slots = s.signals[j].slots := by
  rw [h]

/-- R10: only a GOOD item moves the last-accepted slot; the contributors do not depend on it. -/
theorem ite_lastSlot_slots (s : State) (p : Prop) [Decidable p] (i j : SigIx) (l : Option SlotIx) :
    (if p then s.modSignal i fun r => { r with lastSlot := l } else s).signals[j].slots = s.signals[j].slots := by
  split
  · exact modSignal_slots s i j fun _ => rfl
  · rfl

theorem setMerged_slots (s : State) (i j : SigIx) : (s.setMerged i).signals[j].slots = s.signals[j].slots :=
  modSignal_slots s i j fun _ => rfl

theorem lossEvents_slots (s : State) (i j : SigIx) (old new : Quality) :
    (s.lossEvents i old new).signals[j].slots = s.signals[j].slots := by
  unfold State.lossEvents
  split
  · exact (slots_of_signals_eq (raiseLoss_signals _ i) j).trans (modSignal_slots s i j fun _ => rfl)
  · split
    · exact (slots_of_signals_eq (raiseRecovery_signals _ i) j).trans (modSignal_slots s i j fun _ => rfl)
    · rfl

theorem evaluate_slots (s : State) (i j : SigIx) (c : Cause) :
    (s.evaluate i c).signals[j].slots = s.signals[j].slots := by
  unfold State.evaluate
  dsimp only
  rw [lossEvents_slots]
  split <;> exact setMerged_slots s i j

/-! ### The contributor of a used item -/

theorem modSlot_slot (s : State) (i : SigIx) (k : SlotIx) (f : Contributor → Contributor) :
    (s.modSlot i k f).signals[i].slots[k] = f s.signals[i].slots[k] := by
  rw [State.modSlot, State.modSignal_signals, updAt_same, updAt_same]

/-- R8: the contributor of an item out of range is marked with reason RANGE. -/
theorem useItem_slot_of_outOfRange (s : State) (e : SampleEntry) {it : SampleItem} (hq : it.quality ≠ .failed)
    (hv : engineering e it.raw < e.low ∨ e.high < engineering e it.raw) :
    (s.useItem e it).signals[e.target].slots[e.slot] = s.signals[e.target].slots[e.slot].mark .range := by
  rw [State.useItem, if_neg hq, if_pos hv, evaluate_slots, modSlot_slot]

/-- R10: the contributor of an item that passes both checks accepts the engineering value. -/
theorem useItem_slot_of_passes (s : State) (e : SampleEntry) {it : SampleItem} (hq : it.quality ≠ .failed)
    (hv : ¬(engineering e it.raw < e.low ∨ e.high < engineering e it.raw))
    (hj : jumpRejects e s.signals[e.target].slots[e.slot] (engineering e it.raw) = false) :
    (s.useItem e it).signals[e.target].slots[e.slot] =
      s.signals[e.target].slots[e.slot].accept (engineering e it.raw) it.quality := by
  rw [State.useItem, if_neg hq, if_neg hv, if_neg (Bool.eq_false_iff.mp hj), evaluate_slots,
    ite_lastSlot_slots, modSlot_slot]

/-- R9: rate limit 0 switches the rate check off. -/
theorem jumpRejects_of_rate_zero {e : SampleEntry} (h : e.rate = 0) (k : Contributor) (v : Int) :
    jumpRejects e k v = false := by
  simp [jumpRejects, h]

/-- Settles O45: the three cases of the saturation by `engineering_eq_sat16`, and the two verdicts of the range check
by the contributor each leaves. -/
theorem engineeringValue : Obligations.EngineeringValue := by
  unfold Obligations.EngineeringValue
  intro e raw hgl hgh _ _ p v
  obtain ⟨hpl, hph⟩ := abs_le.mp (toInt_mul_abs_le raw hgl hgh)
  refine ⟨by omega, by omega, fun q hl hh => ?_, fun s c => ?_⟩
  · have hv : v = sat16 (q + e.offset) := engineering_eq_sat16 hl hh
    rw [hv]
    exact ⟨sat16_of_lt, sat16_of_gt, sat16_of_mem⟩
  · intro w
    have hgood : NodeQuality.good ≠ .failed := nofun
    constructor
    · intro hlo hhi hrate
      have hw : w = s.signals[e.target].slots[e.slot].accept v .good :=
        useItem_slot_of_passes s e hgood (not_or.mpr ⟨not_lt.mpr hlo, not_lt.mpr hhi⟩)
          (jumpRejects_of_rate_zero hrate ..)
      rw [hw]
      exact ⟨rfl, rfl⟩
    · intro hout
      have hw : w = s.signals[e.target].slots[e.slot].mark .range := useItem_slot_of_outOfRange s e hgood hout
      rw [hw]
      exact ⟨rfl, rfl⟩

end Sys2Proof.Machine
end

section
/-! The steps FREE and LINK and the terminal count (R54 to R56): a turn of the engine, the close of the open frame, the
end of a run, and what a head test leaves of a tag without a grant for which no claim waits. -/

namespace Sys2Proof.Machine

/-! ### A turn of the engine -/

/-- In its turn a channel takes the step it stands on (R47, R49). -/
theorem Turn.engineStep {s t : State} {c : ChanIx} (h : Turn s c) {f : State → ChanIx → Step → Option State}
    (hf : f s c (s.stepAt c) = some t) : s.engineStep f = t := by
  unfold State.engineStep
  simp [h.holder, hf, h.running, h.remaining, h.demand]

theorem exec_free_of_turn {s : State} {c : ChanIx} {t : TagIx} (h : Turn s c) (hs : s.stepAt c = .free t) :
    exec .free s = .next ((s.freeTag t).completeNow c).settle :=
  congrArg (fun x : State => Host.Outcome.next x.settle) (h.engineStep (by rw [hs]; rfl))

theorem exec_link_of_turn {s : State} {c d : ChanIx} (h : Turn s c) (hs : s.stepAt c = .link d) :
    exec .link s = .next ((s.modChan c fun r => { r with remaining := 0 }).terminalCount c).settle :=
  congrArg (fun x : State => Host.Outcome.next x.settle) (h.engineStep (by rw [hs]; rfl))

/-! ### The close of the open frame -/

theorem frameClosed_of_noFrame {s : State} (h : s.seq.opened = none) : s.frameClosed = s := by
  have hseq : { s.seq with opened := none } = s.seq := by rw [← h]
  simp [State.frameClosed, h, hseq]

/-- The open frame finds room, or there is none: the channel goes on (R60). -/
theorem closeFrame_of_room {s : State} {c : ChanIx} (h : s.seq.opened = none ∨ s.rif.class1.length < 6) :
    s.closeFrame c = (s.frameClosed, true) := by
  unfold State.closeFrame
  split
  · next ho => rw [frameClosed_of_noFrame ho]
  · next o ho =>
    have hroom : s.rif.class1.length < 6 := h.resolve_left (by rw [ho]; nofun)
    simp [State.class1Room, hroom, State.frameClosed, ho, State.pushClass1, State.modRif, State.modSeq]

/-- The open frame finds no room: the channel waits in QUEUE with it (R61). -/
theorem closeFrame_of_full {s : State} {c : ChanIx} {o : OpenFrame} (ho : s.seq.opened = some o)
    (h : 6 ≤ s.rif.class1.length) : s.closeFrame c = (s.frameHeld c o, false) := by
  unfold State.closeFrame
  rw [ho]
  dsimp only
  have hroom : ¬s.rif.class1.length < 6 := not_lt.mpr h
  rw [if_neg (by simp [State.class1Room, hroom])]
  rfl

/-! ### The terminal count -/

theorem terminalCount_of_room {s : State} {c : ChanIx} (h : s.seq.opened = none ∨ s.rif.class1.length < 6) :
    s.terminalCount c = s.frameClosed.finishRun c := by
  simp [State.terminalCount, closeFrame_of_room h]

theorem terminalCount_of_full {s : State} {c : ChanIx} {o : OpenFrame} (ho : s.seq.opened = some o)
    (h : 6 ≤ s.rif.class1.length) : s.terminalCount c = s.frameHeld c o := by
  simp [State.terminalCount, closeFrame_of_full ho h]

theorem requestStepLink_settings (s : State) (c : ChanIx) (st : Step) :
    (s.requestStepLink c st).settings = s.settings :=
  (calm_requestStepLink s c st).settings

theorem requestLink_settings (s : State) (c : ChanIx) : (s.requestLink c).settings = s.settings :=
  (calm_requestLink s c).settings

theorem desc_of_settings_eq {s t : State} (h : t.settings = s.settings) (c : ChanIx) : t.desc c = s.desc c := by
  rw [State.desc, h, State.desc]

/-- A notice for an owner, if there is one (R59, R70). -/
theorem ite_hand (s : State) (p : Prop) [Decidable p] (w : Work) :
    (if p then s else s.hand w) = { s with work := s.work ++ (if p then [] else [w]) } := by
  by_cases h : p <;> simp [h, State.hand]

theorem notifyOwner_eq (s : State) (c : ChanIx) (e : RunEnd) :
    s.notifyOwner c e =
      { s with work := s.work ++ (if (s.desc c).owner = .none then [] else [.outcome (s.desc c).owner c e]) } :=
  ite_hand s _ _

theorem requestStepLink_eq (s : State) (c : ChanIx) (st : Step) :
    s.requestStepLink c st = match st with
      | .link e => s.request e (.link c)
      | _ => s := by
  cases st <;> rfl

theorem requestLink_eq {s : State} {c : ChanIx} {d : ChanCfg} (h : s.desc c = d) :
    s.requestLink c = match d.link with
      | none => s
      | some e => s.request e (.link c) := by
  subst h
  rfl

/-- R56: the requests of a run's end change no descriptor, so link channel and owner are those the run began with. -/
theorem finishRun_eq (s : State) (c : ChanIx) :
    let d := s.desc c
    let w := ((s.modChan c fun r => r.endRun d).engineFree c).requestStepLink c (s.stepAt c)
    let x := match d.link with
      | none => w
      | some e => w.request e (.link c)
    s.finishRun c =
      { x with work := x.work ++ (if d.owner = .none then [] else [.outcome d.owner c .terminal]) } := by
  intro d w x
  have hw : w.settings = s.settings := requestStepLink_settings _ c _
  have hwd : w.desc c = d := desc_of_settings_eq hw c
  have hx : w.requestLink c = x := requestLink_eq hwd
  have hxd : x.desc c = d := desc_of_settings_eq (hx ▸ (requestLink_settings w c).trans hw) c
  calc s.finishRun c = (w.requestLink c).notifyOwner c .terminal := rfl
    _ = x.notifyOwner c .terminal := by rw [hx]
    _ = _ := by rw [notifyOwner_eq, hxd]

/-! ### A grant told leaves ALA's record -/

theorem raise_ala (s : State) (c : Code) (d : List Int) : (s.raise c d).ala = s.ala := (evt_raise s c d).ala

theorem raiseRecovery_ala (s : State) (i : SigIx) : (s.raiseRecovery i).ala = s.ala := by
  unfold State.raiseRecovery
  dsimp only
  split
  · exact raise_ala ..
  · exact (evt_raiseKind ..).ala

theorem lossEvents_ala (s : State) (i : SigIx) (a b : Quality) : (s.lossEvents i a b).ala = s.ala := by
  unfold State.lossEvents
  split
  · exact raise_ala ..
  · split
    · exact raiseRecovery_ala ..
    · rfl

theorem publish_ala (s : State) (f : Feed) (v : Int) : (s.publish f v).ala = s.ala := by
  unfold State.publish
  split
  · rfl
  · exact lossEvents_ala ..

theorem stageCommand_ala (s : State) : s.stageCommand.ala = s.ala := by
  unfold State.stageCommand
  split
  · split <;> rfl
  · rfl

theorem heaterCommand_ala (s : State) (on : Bool) : (s.heaterCommand on).ala = s.ala := by
  unfold State.heaterCommand
  split
  · split <;> rfl
  · rfl

theorem changeStage_ala (s : State) (k : StageIx) : (s.changeStage k).ala = s.ala := by
  unfold State.changeStage
  rw [stageCommand_ala]
  exact publish_ala ..

theorem otherGranted_ala (s : State) (t : TagIx) : (s.otherGranted t).ala = s.ala := by
  unfold State.otherGranted
  split
  · exact heaterCommand_ala ..
  · split
    · exact stageCommand_ala _
    · rfl

theorem clcGranted_ala (s : State) (t : TagIx) : (s.clcGranted t).ala = s.ala := by
  unfold State.clcGranted
  split
  · split
    · exact changeStage_ala ..
    · exact otherGranted_ala ..
  · exact otherGranted_ala ..

theorem chanGranted_ala (s : State) (c : ChanIx) : (s.chanGranted c).ala = s.ala := by
  obtain ⟨_, _, hala, _⟩ := offClc_chanGranted s c
  exact hala

theorem takeGrant_ala (s : State) (who : Claimant) (t : TagIx) : (s.takeGrant who t).ala = s.ala := by
  cases who with
  | chan c => exact chanGranted_ala s c
  | clc => exact clcGranted_ala s t

theorem grantHead_ala (s : State) (q : Claim) (own : Option TagIx) :
    (s.grantHead q own).ala =
      { s.ala.giveGrant q.tag q.amount s.rif.ringTime with queue := s.ala.queue.tail } := by
  unfold State.grantHead
  dsimp only
  split
  · simp
  · simp [takeGrant_ala]

/-! ### A tag that ALA has let go of -/

/-- The tag has neither grant nor rank, and no claim of it waits. -/
structure AlaRt.LetGo (a : AlaRt) (t : TagIx) : Prop where
  grant : a.tags[t].grant = 0
  rank : a.tags[t].rank = none
  queue : ∀ q ∈ a.queue, q.tag ≠ t

theorem AlaRt.clearGrant_rank_same (a : AlaRt) (t : TagIx) : (a.clearGrant t).tags[t].rank = none := by
  simp only [AlaRt.clearGrant, updAt_same]
  rw [a.dropRank_rank, if_pos rfl]

theorem AlaRt.mem_clearGrant_queue {a : AlaRt} {t : TagIx} {q : Claim} (h : q ∈ (a.clearGrant t).queue) :
    ∃ p ∈ a.queue, p.tag = q.tag := by
  simp only [AlaRt.clearGrant, AlaRt.dropRank_queue, List.mem_map] at h
  obtain ⟨p, hp, rfl⟩ := h
  exact ⟨p, hp, by split <;> rfl⟩

theorem AlaRt.clearGrant_letGo {a : AlaRt} {t : TagIx} (h : ∀ q ∈ a.queue, q.tag ≠ t) :
    (a.clearGrant t).LetGo t where
  grant := by rw [a.clearGrant_grant, if_pos rfl]
  rank := a.clearGrant_rank_same t
  queue q hq := by
    obtain ⟨p, hp, e⟩ := AlaRt.mem_clearGrant_queue hq
    exact e ▸ h p hp

/-- A grant to another tag gives this one neither amount nor rank. -/
theorem AlaRt.LetGo.giveGrant {a : AlaRt} {t i : TagIx} (h : a.LetGo t) (hi : i ≠ t) (n : Nat) (now : RingTime) :
    (a.giveGrant i n now).LetGo t where
  grant := by rw [a.giveGrant_grant, if_neg hi]; exact h.grant
  rank := by
    obtain ⟨_, hother⟩ := a.giveGrant_rank i n now
    rw [hother t hi.symm, a.dropRank_rank, if_neg hi, h.rank]
    rfl
  queue := by rw [a.giveGrant_queue]; exact h.queue

theorem grantHead_letGo {s : State} {t : TagIx} (h : s.ala.LetGo t) {q : Claim} (hq : q ∈ s.ala.queue)
    (own : Option TagIx) : (s.grantHead q own).ala.LetGo t := by
  rw [grantHead_ala]
  have hg := h.giveGrant (h.queue q hq) q.amount s.rif.ringTime
  exact ⟨hg.grant, hg.rank, fun p hp => h.queue p (List.mem_of_mem_tail hp)⟩

theorem headTestUpTo_letGo (own : Option TagIx) (t : TagIx) (n : Nat) (s : State) (h : s.ala.LetGo t) :
    (headTestUpTo own n s).ala.LetGo t := by
  induction n generalizing s with
  | zero => exact h
  | succ n ih =>
    unfold headTestUpTo
    split
    · exact h
    · next q rest hq =>
      split
      · exact ih _ (grantHead_letGo h (by simp [hq]) own)
      · exact h

theorem headTest_letGo {s : State} {t : TagIx} (h : s.ala.LetGo t) (own : Option TagIx) :
    (s.headTest own).ala.LetGo t :=
  headTestUpTo_letGo own t _ s h

/-! ### The release of a tag -/

/-- A released grant before the head test: ALA has cleared it, and a notice for the tag's owner waits (R70). -/
def State.released (s : State) (t : TagIx) : State :=
  { s with
    ala := s.ala.clearGrant t
    work := s.work ++ (if s.settings.tags[t].owner = .none then []
      else [.released s.settings.tags[t].owner t]) }

theorem freeTag_of_noGrant {s : State} {t : TagIx} (h : (s.tag t).grant = 0) : s.freeTag t = s := by
  rw [State.freeTag, if_pos h]

theorem freeTag_of_granted {s : State} {t : TagIx} (h : (s.tag t).grant ≠ 0) :
    s.freeTag t = (s.released t).headTest := by
  rw [State.freeTag, if_neg h]
  exact congrArg State.headTest (ite_hand (s.modAla fun a => a.clearGrant t) _ _)

/-- What the head test after a release leaves of the tag: the released grant is not given out again while no claim of
the tag waits, and the notice stays. -/
theorem freeTag_letGo {s : State} {t : TagIx} (h : (s.tag t).grant ≠ 0) (hq : ∀ q ∈ s.ala.queue, q.tag ≠ t) :
    (s.freeTag t).ala.LetGo t ∧
    (s.settings.tags[t].owner ≠ .none → Work.released s.settings.tags[t].owner t ∈ (s.freeTag t).work) := by
  rw [freeTag_of_granted h]
  refine ⟨headTest_letGo (AlaRt.clearGrant_letGo hq) none, fun ho => ?_⟩
  have hnotice : Work.released s.settings.tags[t].owner t ∈ (s.released t).work := by
    rw [State.released, if_neg ho]
    exact List.mem_append_right _ (List.mem_singleton_self _)
  exact (calm_headTest (s.released t) none).work.subset hnotice

/-- A release tells grants to channels that wait in CLAIM, and not to one that runs. -/
theorem freeTag_chan_of_running {s : State} {c : ChanIx} (h : (s.chan c).state = .running) (t : TagIx) :
    (s.freeTag t).chan c = s.chan c := by
  rcases (told_freeTag s t).chan c with same | ⟨moved, _⟩
  · exact same
  · simp [h] at moved

/-- Settles O50: FREE by the release of the tag and what the head test behind it leaves, LINK as a turn of the engine,
and the terminal count by the close of the open frame and the end of the run. -/
theorem freeAndLink : Obligations.FreeAndLink := by
  unfold Obligations.FreeAndLink
  refine ⟨fun s c t hturn hstep => ?free, fun s c d hturn hstep => exec_link_of_turn hturn hstep,
    fun s c => ⟨fun hroom => ?ends, fun o ho hfull => terminalCount_of_full ho hfull⟩⟩
  case free =>
    refine ⟨exec_free_of_turn hturn hstep, (told_freeTag s t).opened, freeTag_chan_of_running hturn.running t,
      freeTag_of_noGrant, freeTag_of_granted, fun hg hq => ?_⟩
    obtain ⟨letGo, notice⟩ := freeTag_letGo hg hq
    exact ⟨letGo.grant, letGo.rank, notice⟩
  case ends =>
    rw [terminalCount_of_room hroom, finishRun_eq, requestStepLink_eq]
    rfl

end Sys2Proof.Machine
end

section
/-! The arithmetic of the allowance (R103, R105 to R108): isqrt as `Nat.sqrt`, the derating table read as a list of
breakpoints, and the currents that stages 6 and 7 form. -/

namespace Sys2Proof.Machine

/-! ### The roots of R103 and R108 -/

theorem isqrt_eq_sqrt {x : Nat} (h : x < 2 ^ 34) : isqrt x = x.sqrt :=
  Nat.eq_sqrt.mpr (isqrt_spec x h)

/-- For a thermal allowance in its range the root of R108 is exact to the floor. -/
theorem activeCap_eq_sqrt {ith : Nat} (iq : Nat) (h : ith ≤ 20480) :
    activeCap ith iq = (ith * ith - iq * iq).sqrt := by
  have := Nat.mul_le_mul h h
  exact isqrt_eq_sqrt (by omega)

theorem activeCap_le {ith : Nat} (iq : Nat) (h : ith ≤ 20480) : activeCap ith iq ≤ ith :=
  calc activeCap ith iq = (ith * ith - iq * iq).sqrt := activeCap_eq_sqrt iq h
    _ ≤ (ith * ith).sqrt := Nat.sqrt_le_sqrt (Nat.sub_le _ _)
    _ = ith := Nat.sqrt_eq ith

theorem activeCap_zero {ith : Nat} (h : ith ≤ 20480) : activeCap ith 0 = ith := by
  rw [activeCap_eq_sqrt 0 h, Nat.mul_zero, Nat.sub_zero, Nat.sqrt_eq]

theorem activeCap_self {ith : Nat} (h : ith ≤ 20480) : activeCap ith ith = 0 := by
  rw [activeCap_eq_sqrt ith h, Nat.sub_self, Nat.sqrt_zero]

theorem reactive_of_dip {c : AlwCfg} {mf : Nat} (ith : Nat) :
    c.reactive .rideThrough mf ith = min (c.gain * (c.deadBand - mf) / 256) (min c.iqMax ith) := rfl

/-- Outside RIDE_THROUGH, and at or above the dead band, R107 asks for no reactive current. -/
theorem reactive_eq_zero {c : AlwCfg} {st : ConvState} {mf : Nat} (ith : Nat)
    (h : st ≠ .rideThrough ∨ c.deadBand ≤ mf) : c.reactive st mf ith = 0 := by
  unfold AlwCfg.reactive
  split
  · next dip =>
    have hmf : c.deadBand ≤ mf := h.resolve_left (not_not_intro dip)
    simp [Nat.sub_eq_zero_of_le hmf]
  · exact Nat.zero_min _

theorem int16.sq_le {v : Int} (h : int16 v) : v * v ≤ 1073741824 := by
  obtain ⟨low, high⟩ := h
  nlinarith

/-- The magnitude saturates the root of two thirds of the sum of squares `sum` at 32767. -/
theorem magnitude_eq_min_sqrt {va vb vc : Int} {sum : Nat} (hsum : va * va + vb * vb + vc * vc = sum)
    (h : sum ≤ 3221225472) : magnitude va vb vc = min 32767 (2 * sum / 3).sqrt := by
  rw [magnitude, hsum, Int.toNat_natCast, isqrt_eq_sqrt (by omega)]

/-! ### A segment of the derating table -/

/-- The floored rise over a part `u` of a segment of width `w` lies between none and the whole rise `d`. -/
theorem rise_mem {d u w : Int} (hu : 0 ≤ u) (hw : u < w) : min 0 d ≤ d * u / w ∧ d * u / w ≤ max 0 d := by
  have pos : 0 < w := hu.trans_lt hw
  constructor
  · rw [Int.le_ediv_iff_mul_le pos]
    rcases le_total 0 d with hd | hd
    · rw [min_eq_left hd, zero_mul]
      exact mul_nonneg hd hu
    · rw [min_eq_right hd]
      exact mul_le_mul_of_nonpos_left hw.le hd
  · refine Int.ediv_le_of_le_mul pos ?_
    rcases le_total 0 d with hd | hd
    · rw [max_eq_right hd]
      exact mul_le_mul_of_nonneg_left hw.le hd
    · rw [max_eq_left hd, zero_mul]
      exact mul_nonpos_of_nonpos_of_nonneg hd hu

/-- Within its segment the level is the line of R105, the line never leaves the levels at its two ends, and so is
never negative. -/
theorem deratedOn_spec {t0 t1 t : Int} (a0 a1 : Nat) (h0 : t0 ≤ t) (h1 : t < t1) :
    (deratedOn t0 a0 t1 a1 t : Int) = (a0 : Int) + ((a1 : Int) - a0) * (t - t0) / (t1 - t0) ∧
    min (a0 : Int) a1 ≤ deratedOn t0 a0 t1 a1 t ∧ (deratedOn t0 a0 t1 a1 t : Int) ≤ max (a0 : Int) a1 := by
  have mem := rise_mem (d := (a1 : Int) - a0) (sub_nonneg.mpr h0) (sub_lt_sub_right h1 t0)
  unfold deratedOn
  omega

theorem deratedOn_start (t0 t1 : Int) (a0 a1 : Nat) : deratedOn t0 a0 t1 a1 t0 = a0 := by
  simp [deratedOn]

/-! ### The derating table as a list of breakpoints -/

theorem deratedFrom_cons_of_lt {t0 t1 t : Int} {a0 a1 : Nat} (rest : List (Int × Nat)) (h : t < t1) :
    deratedFrom t0 a0 ((t1, a1) :: rest) t = deratedOn t0 a0 t1 a1 t :=
  if_pos h

theorem deratedFrom_cons_of_le {t0 t1 t : Int} {a0 a1 : Nat} (rest : List (Int × Nat)) (h : t1 ≤ t) :
    deratedFrom t0 a0 ((t1, a1) :: rest) t = deratedFrom t1 a1 rest t :=
  if_neg (not_lt.mpr h)

/-- Breakpoints at or below `t` are passed over: the table can be read from any of them on. -/
theorem deratedFrom_skip (p : List (Int × Nat)) (t : Int) (k : Nat) (hk : k < p.length)
    (below : ∀ (j : Nat) (hj : j ≤ k), p[j].1 ≤ t) :
    deratedFrom p[0].1 p[0].2 p.tail t = deratedFrom p[k].1 p[k].2 (p.drop (k + 1)) t := by
  induction k with
  | zero => rw [List.drop_one]
  | succ k ih =>
    rw [ih (Nat.lt_of_succ_lt hk) fun j hj => below j (Nat.le_succ_of_le hj), List.drop_eq_getElem_cons hk]
    exact deratedFrom_cons_of_le _ (below (k + 1) le_rfl)

/-- The breakpoints of R105, each with its level, as `AlwCfg.derate` reads them. -/
def AlwCfg.points (c : AlwCfg) : List (Int × Nat) := c.temps.toList.zip c.levels.toList

@[simp] theorem AlwCfg.points_length (c : AlwCfg) : c.points.length = 8 := by
  simp [AlwCfg.points]

@[simp] theorem AlwCfg.points_getElem (c : AlwCfg) (k : Nat) (h : k < c.points.length) :
    c.points[k] = (c.temps[k]'(by simpa using h), c.levels[k]'(by simpa using h)) := by
  simp [AlwCfg.points]

theorem AlwCfg.derate_of_le {c : AlwCfg} {t : Int} (h : t ≤ c.temps[0]) : c.derate t = c.levels[0] :=
  if_pos h

theorem AlwCfg.derate_of_lt {c : AlwCfg} {t : Int} (h : c.temps[0] < t) :
    c.derate t = deratedFrom c.temps[0] c.levels[0] c.points.tail t :=
  if_neg (not_le.mpr h)

/-- R99: the temperatures of a legal table rise. -/
theorem AlwCfg.legal.strictMono {c : AlwCfg} (h : c.legal) : StrictMono fun k : Fin 8 => c.temps[k] := by
  obtain ⟨_, _, rising, _⟩ := h
  exact Fin.strictMono_iff_lt_succ.mpr rising

/-- Above the lowest breakpoint a legal table can be read from any breakpoint at or below `t` on. -/
theorem AlwCfg.legal.derate_from {c : AlwCfg} (h : c.legal) {t : Int} (k : Fin 8) (above : c.temps[0] < t)
    (hk : c.temps[k] ≤ t) : c.derate t = deratedFrom c.temps[k] c.levels[k] (c.points.drop (k + 1)) t := by
  have skip := deratedFrom_skip c.points t k (by simp) fun j hj => by
    have mono : c.temps[j] ≤ c.temps[k] := h.strictMono.monotone (a := ⟨j, by omega⟩) hj
    simpa using mono.trans hk
  rw [AlwCfg.derate_of_lt above]
  simpa using skip

/-- At or above the highest breakpoint no segment is left. -/
theorem AlwCfg.legal.derate_last {c : AlwCfg} (h : c.legal) {t : Int} (ht : c.temps[7] ≤ t) :
    c.derate t = c.levels[7] := by
  have first : c.temps[0] < c.temps[7] := h.strictMono (a := 0) (b := 7) (by decide)
  have nil : c.points.drop 8 = [] := List.drop_eq_nil_of_le c.points_length.le
  have from7 := h.derate_from 7 (first.trans_le ht) ht
  rw [show ((7 : Fin 8) : Nat) + 1 = 8 from rfl, nil] at from7
  exact from7

/-- Between two neighbouring breakpoints the table is their segment; at the lowest breakpoint, where `AlwCfg.derate`
answers without one, the segment begins with the same level. -/
theorem AlwCfg.legal.derate_segment {c : AlwCfg} (h : c.legal) (k : Fin 7) {t : Int}
    (h0 : c.temps[k.castSucc] ≤ t) (h1 : t < c.temps[k.succ]) :
    c.derate t = deratedOn c.temps[k.castSucc] c.levels[k.castSucc] c.temps[k.succ] c.levels[k.succ] t := by
  rcases lt_or_ge c.temps[0] t with above | atFirst
  · have next : c.points.drop (k.castSucc + 1) =
        (c.temps[k.succ], c.levels[k.succ]) :: c.points.drop (k.succ + 1) := by
      rw [List.drop_eq_getElem_cons (by simp; omega)]
      simp
    rw [h.derate_from k.castSucc above h0, next, deratedFrom_cons_of_lt _ h1]
  · obtain rfl : k = 0 :=
      Fin.castSucc_eq_zero_iff.mp (Fin.le_zero_iff.mp (h.strictMono.le_iff_le.mp (h0.trans atFirst)))
    have start : t = c.temps[0] := le_antisymm atFirst h0
    rw [AlwCfg.derate_of_le atFirst, start]
    exact (deratedOn_start ..).symm

/-! ### The allowance -/

/-- R108 with R107: what stages 6 and 7 leave in ALW's record. -/
theorem formCurrents_capacity (s : State) (x : Readings) (h : s.alw.ith ≤ 20480) :
    let u := (s.formCurrents x).alw
    u.ith = s.alw.ith ∧ u.iq = s.settings.alw.reactive s.cnv.state s.alw.mf s.alw.ith ∧ u.iq ≤ u.ith ∧
    u.ipCap = activeCap u.ith u.iq ∧ u.ipCap = (u.ith * u.ith - u.iq * u.iq).sqrt :=
  ⟨rfl, rfl, reactive_le .., rfl, activeCap_eq_sqrt _ h⟩

/-- R103: the magnitude of three signed 16-bit samples. -/
theorem magnitude_spec {va vb vc : Int} (ha : int16 va) (hb : int16 vb) (hc : int16 vc) :
    let sum := va * va + vb * vb + vc * vc
    let q := 2 * sum / 3
    let m : Int := magnitude va vb vc
    sum ≤ 3221225472 ∧ 0 ≤ m ∧ m ≤ 32767 ∧ m * m ≤ q ∧ (q < (m + 1) * (m + 1) ∨ m = 32767) := by
  intro sum q m
  have bound : sum ≤ 3221225472 := by
    have := ha.sq_le
    have := hb.sq_le
    have := hc.sq_le
    omega
  obtain ⟨n, hn⟩ : ∃ n : Nat, sum = n :=
    Int.eq_ofNat_of_zero_le (add_nonneg (add_nonneg (mul_self_nonneg va) (mul_self_nonneg vb)) (mul_self_nonneg vc))
  have hm : m = (min 32767 (2 * n / 3).sqrt : Nat) :=
    congrArg Nat.cast (magnitude_eq_min_sqrt hn (by omega))
  have hq : q = (2 * n / 3 : Nat) := by
    simp only [q, hn]
    omega
  refine ⟨bound, by omega, by omega, ?_, ?_⟩
  · rw [hm, hq]
    exact_mod_cast Nat.le_sqrt.mp (min_le_right 32767 (2 * n / 3).sqrt)
  · rw [hm, hq]
    rcases le_total (2 * n / 3).sqrt 32767 with below | beyond
    · rw [min_eq_right below]
      exact .inl (by exact_mod_cast Nat.lt_succ_sqrt (2 * n / 3))
    · rw [min_eq_left beyond]
      exact .inr rfl

/-- Settles O55: the capacity by `Nat.sqrt`, the table by its segments, the magnitude and the cooled allowance by the
floors they take. -/
theorem allowanceArithmetic : Obligations.AllowanceArithmetic := by
  unfold Obligations.AllowanceArithmetic
  refine ⟨fun s x h => ?capacity, fun va vb vc ha hb hc => magnitude_spec ha hb hc, fun c hc => ?table,
    fun a cf => ?cooling⟩
  case capacity =>
    intro u cap
    obtain ⟨hith, hiq, le, hcap, root⟩ := formCurrents_capacity s x h
    have range : u.ith ≤ 20480 := h
    have square : u.ith * u.ith ≤ 20480 * 20480 := Nat.mul_le_mul range range
    have squares : u.iq * u.iq ≤ u.ith * u.ith := Nat.mul_le_mul le le
    have floor : cap * cap ≤ u.ith * u.ith - u.iq * u.iq := Nat.le_sqrt.mp root.le
    have next : u.ith * u.ith - u.iq * u.iq < (cap + 1) * (cap + 1) := Nat.sqrt_lt.mp (root ▸ Nat.lt_succ_self _)
    refine ⟨hith, square, le, floor, next, by omega, hcap.trans_le (activeCap_le _ range),
      fun none => ?_, fun all => ?_, fun dip _ => ?_, fun noDip => hiq.trans (reactive_eq_zero _ noDip)⟩
    · exact hcap.trans ((congrArg _ none).trans (activeCap_zero range))
    · exact hcap.trans ((congrArg _ all).trans (activeCap_self range))
    · exact hiq.trans (dip ▸ reactive_of_dip _)
  case table =>
    refine ⟨fun t => AlwCfg.derate_of_le, fun t => hc.derate_last, fun k t h0 h1 => ?_⟩
    obtain ⟨line, lower, upper⟩ := deratedOn_spec c.levels[k.castSucc] c.levels[k.succ] h0 h1
    rw [hc.derate_segment k h0 h1]
    exact ⟨line, lower, upper, fun start => by rw [start, deratedOn_start]⟩
  case cooling =>
    refine ⟨?_, ?_, cooled_le a cf⟩
    · exact Nat.mul_div_le _ _
    · exact Nat.lt_mul_div_succ _ (by decide)

end Sys2Proof.Machine
end

section
/-! The twist preset (R118): a write request between two commands as the rule of its region answers it, the order of
the checks of R182, and the two twist words read as one signed number. -/

namespace Sys2Proof.Machine

/-! ### A write between two commands -/

/-- A plain request between two commands, the hand-overs of its handler taken behind the answer. -/
theorem served_plain_settle {s : State} (h : Ready s) (src : Node) (k : Octet) (a : Word)
    (f : State → State × Status) :
    s.served src k a (plain f) = ((f s).1.answered (answerOf src k a (f s).2)).settle :=
  served_ready h src k a (plain f)

/-- A write whose length is that of its data and whose span lies in a region is answered by the region's rule. -/
theorem writeAt_region {s : State} (h : Ready s) (src : Node) {addr : Word} {len : Octet} {data : List Word}
    {r : Region} {off : Nat} (hlen : data.length = len.toNat) (hspan : decodeSpan addr len = .ok (r, off)) :
    s.writeAt src addr len data =
      ((s.writeRegion r off data).1.answered (answerOf src 1 addr (s.writeRegion r off data).2)).settle := by
  have served : s.serveWrite addr len data = s.writeRegion r off data := by
    simp [State.serveWrite, hlen, hspan]
  rw [State.writeAt, served_plain_settle h, served]

/-! ### The checks of a write -/

theorem judge_cons_fails (s t : State) (st : Status) (checks : List (Bool × Status)) (clamped : Bool) :
    s.judge ((true, st) :: checks) clamped t = (s, st) := rfl

theorem judge_cons_passes (s t : State) (st : Status) (checks : List (Bool × Status)) (clamped : Bool) :
    s.judge ((false, st) :: checks) clamped t = s.judge checks clamped t := rfl

theorem judge_nil (s t : State) (clamped : Bool) :
    s.judge [] clamped t = (t, if clamped then .okClamped else .ok) := rfl

theorem yawAtRest_iff (s : State) : s.yawAtRest = true ↔ s.yaw.state = .held ∨ s.yaw.state = .fault := by
  simp [State.yawAtRest]

theorem saving_iff (s : State) : s.saving = true ↔ s.capture ≠ none :=
  Option.isSome_iff_ne_none

/-! ### The twist words -/

/-- A written word reads back as the datum that lands on it. -/
theorem wordAt_overlay {ws data : List Word} {start off k j : Nat} (hk : k < ws.length) (hj : j < data.length)
    (lands : start + k = off + j) : wordAt (overlay ws start off data) k = data[j] := by
  have index : start + k - off = j := by omega
  simp [wordAt, overlay, hk, hj, index, show off ≤ start + k by omega]

theorem YawRt.length_words (y : YawRt) : y.words.length = 19 := by
  cases h : y.lastHeading <;> simp [YawRt.words, words32, wordsPresent, h]

/-- A write of both twist words, high word first. -/
theorem join32_overlay_twist (y : YawRt) (hi lo : Word) :
    join32 (overlay y.words 0 10 [hi, lo]) 10 = hi ++ lo := by
  have length := y.length_words
  have high : wordAt (overlay y.words 0 10 [hi, lo]) 10 = hi :=
    wordAt_overlay (j := 0) (by omega) (by simp) rfl
  have low : wordAt (overlay y.words 0 10 [hi, lo]) 11 = lo :=
    wordAt_overlay (j := 1) (by omega) (by simp) rfl
  rw [join32, high, low]

/-- The rule of the twist words for a write of both: STATE, then BUSY, else the clamped preset. -/
theorem writeTwist_pair (s : State) (hi lo : Word) :
    let v := (hi ++ lo : BitVec 32).toInt
    let c := limitTo (-1000000) 1000000 v
    s.writeTwist 10 [hi, lo] = s.judge [(!s.yawAtRest, .state), (s.saving, .busy)] (c != v) (s.presetTwist c) := by
  rw [State.writeTwist, if_neg (by simp), join32_overlay_twist]

/-- A twist preset of both words between two commands is answered by the rule of the twist words. -/
theorem exec_twistPreset_pair {s : State} (h : Ready s) (src : Node) (hi lo : Word) {t : State} {st : Status}
    (hw : s.writeTwist 10 [hi, lo] = (t, st)) :
    exec (.twistPreset src 0 2 [hi, lo]) s = .next (t.answered (writeAnswer src .yawRecord 10 st)).settle := by
  have span : decodeSpan 0x324A 2 = .ok (.yawRecord, 10) := by decide
  have region : s.writeRegion .yawRecord 10 [hi, lo] = (t, st) := hw
  have written := writeAt_region h src (data := [hi, lo]) rfl span
  rw [region] at written
  exact congrArg Host.Outcome.next written

/-- A refused preset leaves the answer alone: no hand-over waits between two commands. -/
theorem exec_twistPreset_refused {s : State} (h : Ready s) (src : Node) (hi lo : Word) {st : Status}
    (hw : s.writeTwist 10 [hi, lo] = (s, st)) :
    exec (.twistPreset src 0 2 [hi, lo]) s = .next (s.answered (writeAnswer src .yawRecord 10 st)) := by
  rw [exec_twistPreset_pair h src hi lo hw, settle_nil]
  exact h.2.2

/-- Settles O27: the checks of R118 in their order, a case for each that fails and one for the stored preset. -/
theorem twistPreset : Obligations.TwistPreset := by
  unfold Obligations.TwistPreset
  intro s src hi lo ready v c
  have rule : s.writeTwist 10 [hi, lo] =
      s.judge [(!s.yawAtRest, .state), (s.saving, .busy)] (c != v) (s.presetTwist c) := writeTwist_pair s hi lo
  refine ⟨fun notHeld notFault => ?moving, fun rest saving => ?saving, fun rest idle => ?taken⟩
  case moving =>
    have notAtRest : s.yawAtRest = false :=
      Bool.eq_false_iff.mpr fun h => ((yawAtRest_iff s).mp h).elim notHeld notFault
    rw [notAtRest, Bool.not_false, judge_cons_fails] at rule
    exact exec_twistPreset_refused ready src hi lo rule
  case saving =>
    rw [(yawAtRest_iff s).mpr rest, (saving_iff s).mpr saving, Bool.not_true, judge_cons_passes,
      judge_cons_fails] at rule
    exact exec_twistPreset_refused ready src hi lo rule
  case taken =>
    have notSaving : s.saving = false := Bool.eq_false_iff.mpr fun h => (saving_iff s).mp h idle
    have status : (if (c != v) = true then Status.okClamped else .ok) = if v = c then .ok else .okClamped := by
      simp only [bne_iff_ne, ne_eq, ite_not, eq_comm (a := c)]
    rw [(yawAtRest_iff s).mpr rest, notSaving, Bool.not_true, judge_cons_passes, judge_cons_passes, judge_nil,
      status] at rule
    exact exec_twistPreset_pair ready src hi lo rule

end Sys2Proof.Machine
end

section
/-! The CLEAR requests of EVU (R160, R164): each changes the event states alone and ends with the dispatch test, so it
leaves no hand-over behind its answer. -/

namespace Sys2Proof.Machine

/-! ### What the requests do -/

theorem exec_clearFirstOut (src : Node) (s : State) :
    exec (.clearFirstOut src) s = .next (s.served src 7 2 (plain State.clearFirstOut)) := rfl

theorem exec_clearEventCounts (src : Node) (s : State) :
    exec (.clearEventCounts src) s = .next (s.served src 7 3 (plain State.clearCounts)) := rfl

theorem exec_clearPending (src : Node) (qual : Word) (s : State) :
    exec (.clearPending src qual) s = .next (s.served src 7 4 (plain (State.clearPendingRequest · qual))) := rfl

theorem clearFirstOut_eq (s : State) :
    s.clearFirstOut = ((s.modEvu fun e => { e with firstOut := [] }).dispatchTest, .ok) := rfl

theorem clearCounts_eq (s : State) :
    s.clearCounts =
      ((s.modEvu fun e => { e with events := e.events.map fun r => { r with count := 0 } }).dispatchTest, .ok) := rfl

/-! ### The qualifier of CLEAR PENDING -/

theorem ixOf_eq_none {n : Nat} {w : Word} (h : n ≤ w.toNat) : ixOf n w = none :=
  dif_neg (Nat.not_lt.mpr h)

/-- No event code is the word that names all codes. -/
theorem wordNat_code_ne_all (c : Code) : wordNat c ≠ 65535 := by
  intro all
  have value : (wordNat c).toNat = c := wordNat_toNat (by omega)
  rw [all] at value
  have : (65535 : Word).toNat = 65535 := rfl
  omega

theorem clearPendingRequest_all (s : State) :
    s.clearPendingRequest 65535 =
      ((s.modEvu fun e =>
        { e with events := e.events.map fun r => { r with pending := false } }).dispatchTest, .ok) :=
  if_pos rfl

theorem clearPendingRequest_code (s : State) (c : Code) :
    s.clearPendingRequest (wordNat c) =
      ((s.modEvent c fun r => { r with pending := false }).dispatchTest, .ok) := by
  rw [State.clearPendingRequest, if_neg (wordNat_code_ne_all c), ixOf_word (by omega)]

theorem clearPendingRequest_range (s : State) {w : Word} (beyond : 128 ≤ w.toNat) (notAll : w ≠ 65535) :
    s.clearPendingRequest w = (s, .range) := by
  rw [State.clearPendingRequest, if_neg notAll, ixOf_eq_none beyond]

/-! ### The answers -/

theorem Ready.noWork {s : State} (h : Ready s) : s.work = [] := h.2.2

/-- A request between two commands whose handler is known and leaves no hand-over. -/
theorem served_plain_eq {s t : State} (ready : Ready s) (src : Node) (k : Octet) (a : Word) {st : Status}
    {f : State → State × Status} (handled : f s = (t, st)) (quiet : t.work = []) :
    s.served src k a (plain f) = t.answered (answerOf src k a st) := by
  have served := served_plain ready src k a f (by rw [handled]; exact quiet)
  rwa [handled] at served

/-- A request whose handler ends with the dispatch test (R157), which makes no hand-over. -/
theorem served_dispatchTest {s t : State} (ready : Ready s) (src : Node) (k : Octet) (a : Word) {st : Status}
    {f : State → State × Status} (handled : f s = (t.dispatchTest, st)) (quiet : t.work = []) :
    s.served src k a (plain f) = t.dispatchTest.answered (answerOf src k a st) :=
  served_plain_eq ready src k a handled ((dispatchTest_work t).trans quiet)

/-- Settles O33: what each request does to the event states, by its handler, and its answer by
`served_dispatchTest`; the RANGE case changes nothing. -/
theorem clearRequests : Obligations.ClearRequests := by
  unfold Obligations.ClearRequests
  intro s src ready
  refine ⟨?firstOut, ?counts, ?allPending, fun c => ?onePending, fun w beyond notAll => ?range⟩
  case firstOut =>
    rw [exec_clearFirstOut, served_dispatchTest ready src 7 2 (clearFirstOut_eq s) ready.noWork]
    rfl
  case counts =>
    rw [exec_clearEventCounts, served_dispatchTest ready src 7 3 (clearCounts_eq s) ready.noWork]
    rfl
  case allPending =>
    rw [exec_clearPending, served_dispatchTest (f := (State.clearPendingRequest · 65535)) ready src 7 4
      (clearPendingRequest_all s) ready.noWork]
    rfl
  case onePending =>
    rw [exec_clearPending, served_dispatchTest (f := (State.clearPendingRequest · (wordNat c))) ready src 7 4
      (clearPendingRequest_code s c) ready.noWork]
  case range =>
    rw [exec_clearPending, served_plain_eq (f := (State.clearPendingRequest · w)) ready src 7 4
      (clearPendingRequest_range s beyond notAll) ready.noWork]

end Sys2Proof.Machine
end

section
/-! What the laws of Safety.lean ask of a whole command. `KeepsLaws` says that a change keeps every law, `Orderly` that
it also takes no Block Command from class 0 and no entry from the First-Out Store, and `Still` that the settings stay.
Each is reflexive and transitive, so that a command is taken apart into its changes. -/

namespace Sys2Proof.Machine

/-- The ranges of what is stored: in the tables, in the image and in a capture (R182). -/
def State.storedLegal (s : State) : Prop :=
  s.settings.legal ∧ (∀ st, s.image = some st → st.legal) ∧ (∀ st, s.capture = some st → st.legal)

/-- A change that keeps every law. -/
structure KeepsLaws (s t : State) : Prop where
  straps : t.addrStraps = s.addrStraps
  pending : t.pending = s.pending
  queue : QueueLaw s → QueueLaw t
  event : EventLaw s → EventLaw t
  log : LogLaw s → LogLaw t
  grows : s.evu.log.length ≤ 64 → LogGrows s.evu t.evu
  four : s.evu.firstOut.length ≤ 4 → t.evu.firstOut.length ≤ 4
  capture : CaptureLaw s → CaptureLaw t
  boot : BootLaw s → BootLaw t
  rest : RestLaw s → RestLaw t
  engine : EngineLaw s → EngineLaw t
  claims : ClaimLaw s → ClaimLaw t
  budget : BudgetLaw s → BudgetLaw t
  hard : HardLimitLaw s → HardLimitLaw t
  range : YawRangeLaw s → YawRangeLaw t
  yawGrant : ClaimLaw s → YawGrantLaw s → YawGrantLaw t
  allowance : AllowanceLaw s → AllowanceLaw t
  legal : s.storedLegal → t.storedLegal

/-- A change that keeps every law, the Block Command queued and the entries of the First-Out Store. -/
structure Orderly (s t : State) : Prop extends KeepsLaws s t where
  block : BlockQueued s → BlockQueued t
  firstOut : s.evu.firstOut <+: t.evu.firstOut

/-- An orderly change that leaves the settings as they are. -/
structure Still (s t : State) : Prop extends Orderly s t where
  settings : t.settings = s.settings

variable {s t u : State}

/-- What is not there has any property. -/
theorem absent {α : Type} {P : α → Prop} {o : Option α} (h : o = none) : ∀ x, o = some x → P x :=
  fun x e => absurd (e.symm.trans h) (Option.some_ne_none x)

/-! ### Chains of changes -/

theorem KeepsLaws.refl (s : State) : KeepsLaws s s where
  straps := rfl
  pending := rfl
  queue := id
  event := id
  log := id
  grows h := LogGrows.same h rfl rfl
  four := id
  capture := id
  boot := id
  rest := id
  engine := id
  claims := id
  budget := id
  hard := id
  range := id
  yawGrant _ := id
  allowance := id
  legal := id

theorem KeepsLaws.trans (a : KeepsLaws s t) (b : KeepsLaws t u) : KeepsLaws s u where
  straps := b.straps.trans a.straps
  pending := b.pending.trans a.pending
  queue h := b.queue (a.queue h)
  event h := b.event (a.event h)
  log h := b.log (a.log h)
  grows h := (a.grows h).trans (b.grows (a.grows h).length)
  four h := b.four (a.four h)
  capture h := b.capture (a.capture h)
  boot h := b.boot (a.boot h)
  rest h := b.rest (a.rest h)
  engine h := b.engine (a.engine h)
  claims h := b.claims (a.claims h)
  budget h := b.budget (a.budget h)
  hard h := b.hard (a.hard h)
  range h := b.range (a.range h)
  yawGrant hc h := b.yawGrant (a.claims hc) (a.yawGrant hc h)
  allowance h := b.allowance (a.allowance h)
  legal h := b.legal (a.legal h)

theorem Orderly.refl (s : State) : Orderly s s := ⟨KeepsLaws.refl s, id, List.prefix_rfl⟩

theorem Orderly.trans (a : Orderly s t) (b : Orderly t u) : Orderly s u where
  toKeepsLaws := a.toKeepsLaws.trans b.toKeepsLaws
  block h := b.block (a.block h)
  firstOut := a.firstOut.trans b.firstOut

theorem Still.refl (s : State) : Still s s := ⟨Orderly.refl s, rfl⟩

theorem Still.trans (a : Still s t) (b : Still t u) : Still s u where
  toOrderly := a.toOrderly.trans b.toOrderly
  settings := b.settings.trans a.settings

theorem Still.ite (p : Prop) [Decidable p] {a b : State} (ha : p → Still s a) (hb : ¬p → Still s b) :
    Still s (if p then a else b) := by
  split
  · exact ha ‹_›
  · exact hb ‹_›

theorem still_foldl {β : Type} (f : State → β → State) (h : ∀ s b, Still s (f s b)) (l : List β) (s : State) :
    Still s (l.foldl f s) :=
  foldl_rel Still Still.refl (fun _ _ _ => Still.trans) f h l s

/-! ### Reactions of the blocks -/

theorem still_of_reach (h : Reach s t) : Still s t where
  straps := h.addrStraps
  pending := h.pending
  queue := fun ⟨h0, _, h1, h2, h3⟩ =>
    ⟨h.class0 h0, (class0Shape_length (h.class0 h0)).trans (by decide), h.class1 h1, h.evu.quota h2,
      h.class3 ▸ h3⟩
  event := fun ⟨hb, ho⟩ => by
    refine ⟨h.evu.noBoth hb, ?_⟩
    rw [h.settings]
    exact h.evu.oneService ho
  log := h.evu.logOk
  grows := h.evu.grows
  four := h.evu.four
  capture := by unfold CaptureLaw; rw [h.capture, h.settings]; exact id
  boot := by unfold BootLaw; rw [h.bypass, h.part, h.portIn, h.portOut]; exact id
  rest := h.rest
  engine := h.seq
  claims := h.claims
  budget hb := by
    unfold BudgetLaw
    rw [h.settings]
    exact h.budget hb
  hard hh := by
    unfold HardLimitLaw
    rw [h.settings]
    exact h.hard hh
  range := h.range
  yawGrant := h.yawGrant
  allowance := fun ⟨hs, hi, hc, hf, ha⟩ => by
    unfold AllowanceLaw
    rw [h.settings, h.image, h.capture]
    exact ⟨hs, hi, hc, h.cf hs hf, h.alw hs hf ha⟩
  legal := by unfold State.storedLegal; rw [h.settings, h.image, h.capture]; exact id
  block := h.block
  firstOut := h.evu.kept
  settings := h.settings

theorem still_settle (s : State) : Still s s.settle := still_of_reach (reach_settle s)

theorem still_raise (s : State) (c : Code) (d : List Int) : Still s (s.raise c d) := still_of_reach (Reach.raise c d)

theorem still_dispatchTest (s : State) : Still s s.dispatchTest :=
  still_of_reach (Reach.of_calm (Calm.of_evt (evt_dispatchTest s)))

/-! ### Changes of the ring interface -/

/-- A change of ports, buffer, ring time, cycle state or line that leaves the Insertion Queue, but for answers that
class 3 has room for; in BOOT the ports stay DOWN. -/
theorem still_rif (s : State) (r : RifRt) (h0 : r.class0 = s.rif.class0) (h1 : r.class1 = s.rif.class1)
    (h2 : r.class2 = s.rif.class2) (h3 : s.rif.class3.length ≤ 2 → r.class3.length ≤ 2)
    (hb : s.part = .boot → s.rif.portIn.state = .down → s.rif.portOut.state = .down →
      r.portIn.state = .down ∧ r.portOut.state = .down) : Still s { s with rif := r } where
  toOrderly := {
    toKeepsLaws := { KeepsLaws.refl s with
      queue := fun ⟨l0, n0, l1, l2, l3⟩ => ⟨h0 ▸ l0, h0 ▸ n0, h1 ▸ l1, h2 ▸ l2, h3 l3⟩
      boot := fun ⟨hy, hp⟩ => ⟨hy, fun h => hb h (hp h).1 (hp h).2⟩ }
    block := fun ⟨d, hd⟩ => ⟨d, h0 ▸ hd⟩
    firstOut := List.prefix_rfl }
  settings := rfl

theorem still_emitLine (s : State) (o : LineOut) : Still s (s.emitLine o) :=
  still_rif s _ rfl rfl rfl id fun _ hi ho => ⟨hi, ho⟩

theorem still_pushAnswer (s : State) (a : MgtAnswer) (h : s.rif.class3.length < 2) : Still s (s.pushAnswer a) :=
  still_rif s _ rfl rfl rfl (fun _ => by simp; omega) fun _ hi ho => ⟨hi, ho⟩

/-- A port's record changes: in BOOT a port that is DOWN stays so. -/
theorem still_modPort (s : State) (p : Port) (f : PortRt → PortRt)
    (h : s.part = .boot → (s.port p).state = .down → (f (s.port p)).state = .down) : Still s (s.modPort p f) := by
  cases p with
  | inn => exact still_rif s _ rfl rfl rfl id fun hb hi ho => ⟨h hb hi, ho⟩
  | out => exact still_rif s _ rfl rfl rfl id fun hb hi ho => ⟨hi, h hb ho⟩

/-! ### Changes of records that no law names -/

theorem still_phases (s : State) (v : Vector Nat 128) : Still s { s with phases := v } :=
  ⟨⟨{ KeepsLaws.refl s with }, id, List.prefix_rfl⟩, rfl⟩

theorem still_sequences (s : State) (v : Vector (Option Octet) 55) : Still s { s with sequences := v } :=
  ⟨⟨{ KeepsLaws.refl s with }, id, List.prefix_rfl⟩, rfl⟩

/-- The event states change: no code is newly pending or in service. -/
theorem still_events (s : State) (v : Vector EventRt 128)
    (hp : ∀ c : Code, v[c].pending = true → v[c].inService = true → s.evu.events[c].pending = true)
    (hs : ∀ c : Code, v[c].inService = true → s.evu.events[c].inService = true) :
    Still s { s with evu := { s.evu with events := v } } where
  toOrderly := {
    toKeepsLaws := { KeepsLaws.refl s with
      event := fun ⟨hb, ho⟩ =>
        ⟨fun c ⟨h1, h2⟩ => hb c ⟨hp c h1 h2, hs c h2⟩, fun c d hc hd => ho c d (hs c hc) (hs d hd)⟩
      grows := fun h => LogGrows.same h rfl rfl }
    block := id
    firstOut := List.prefix_rfl }
  settings := rfl

end Sys2Proof.Machine
end

section
/-! Every command but a write, the insertion, the clearing of the First-Out Store and the resets is a still change: the
reactions of the blocks, the ports, received frames, time, and the handlers of management requests. -/

namespace Sys2Proof.Machine

/-! ### Ports -/

theorem burst_down {r : PortRt} (h : r.state = .down) (inverted : Bool) (w : CapWord) (flag : Bool) :
    (r.burst inverted w flag).state = .down := by
  simp [PortRt.burst, h]

theorem awake_iff (s : State) : s.awake = true ↔ s.part ≠ .boot := by
  simp [State.awake]

theorem still_lineActivity {p : Port} {s t : State} (h : exec (.lineActivity p) s = .next t) : Still s t := by
  cases h
  refine Still.ite _ (fun hc => still_modPort s p _ fun hb => ?_) fun _ => Still.refl s
  exact absurd hb ((awake_iff s).mp (Bool.and_eq_true_iff.mp hc).1)

theorem still_alignmentBurstTimer {p : Port} {s t : State} (h : exec (.alignmentBurstTimer p) s = .next t) :
    Still s t := by
  cases h
  refine Still.ite _ (fun _ => ?_) fun _ => Still.refl s
  cases hp : (s.port p).state with
  | down => exact still_emitLine s _
  | listen => exact still_emitLine s _
  | acknowledge =>
    refine (still_emitLine s _).trans (still_modPort _ p _ fun _ hd => ?_)
    split
    · exact hd
    · exact hd
  | verify => exact Still.refl s
  | up => exact Still.refl s
  | silent => exact Still.refl s

theorem still_burstReceived {p : Port} {i : Bool} {w : CapWord} {g : Bool} {s t : State}
    (h : exec (.burstReceived p i w g) s = .next t) : Still s t := by
  cases h
  exact still_modPort s p _ fun _ hd => burst_down hd i w g

theorem still_acknowledgeBurstsSent {p : Port} {s t : State} (h : exec (.acknowledgeBurstsSent p) s = .next t) :
    Still s t := by
  cases h
  refine Still.ite _ (fun ⟨ha, _⟩ => ?_) fun _ => Still.refl s
  have awake (f : PortRt → PortRt) : Still s (s.modPort p f) :=
    still_modPort s p f fun _ hd => absurd (hd.symm.trans ha) (by decide)
  split
  · exact Still.refl s
  · split
    · exact awake _
    · exact (awake _).trans (still_raise _ _ _)

theorem still_lineNoActivity {p : Port} {s t : State} (h : exec (.lineNoActivity p) s = .next t) : Still s t := by
  cases h
  cases hp : (s.port p).state with
  | listen => exact still_modPort s p _ fun _ _ => rfl
  | acknowledge => exact still_modPort s p _ fun _ _ => rfl
  | verify => exact still_modPort s p _ fun _ _ => rfl
  | down => exact Still.refl s
  | up => exact Still.refl s
  | silent => exact Still.refl s

theorem still_dataLock {p : Port} {s t : State} (h : exec (.dataLock p) s = .next t) : Still s t := by
  cases h
  refine Still.ite _ (fun hv => ?_) fun _ => Still.refl s
  have locked : Still s (s.modPort p fun r => { r with state := .up }) :=
    still_modPort s p _ fun _ hd => absurd (hd.symm.trans hv) (by decide)
  cases p with
  | inn => exact locked
  | out => exact locked.trans (still_dispatchTest _)

theorem still_verifyTimeout {p : Port} {s t : State} (h : exec (.verifyTimeout p) s = .next t) : Still s t := by
  cases h
  exact Still.ite _ (fun hv => still_modPort s p _ fun _ hd => absurd (hd.symm.trans hv) (by decide))
    fun _ => Still.refl s

theorem still_stuckTimeout {p : Port} {s t : State} (h : exec (.stuckTimeout p) s = .next t) : Still s t := by
  cases h
  exact Still.ite _ (fun _ => still_modPort s p _ fun _ hd => hd) fun _ => Still.refl s

theorem still_cutTransit (s : State) (p : Port) (os : List Octet) : Still s (s.cutTransit p os) := by
  cases p with
  | inn => exact Still.ite _ (fun _ => still_emitLine s _) fun _ => Still.refl s
  | out =>
    have emptied : Still s (s.modRif fun r => { r with buffer := none }) :=
      still_rif s _ rfl rfl rfl id fun _ hi ho => ⟨hi, ho⟩
    exact Still.ite _ (fun _ => emptied) fun _ => emptied.trans (still_emitLine _ _)

/-- What becomes of a frame in transit leaves the records of the ports. -/
theorem cutTransit_port (s : State) (p q : Port) (os : List Octet) : (s.cutTransit p os).port q = s.port q := by
  cases p <;> cases q <;> simp only [State.cutTransit] <;> split <;> rfl

theorem still_linkLoss {p : Port} {k : LossCause} {os : List Octet} {s t : State}
    (h : exec (.linkLoss p k os) s = .next t) : Still s t := by
  cases h
  refine Still.ite _ (fun hu => ?_) fun _ => Still.refl s
  refine ((still_cutTransit s p os).trans (still_modPort _ p _ fun _ hd => ?_)).trans (still_raise _ _ _)
  rw [cutTransit_port] at hd
  exact absurd (hd.symm.trans hu) (by decide)

theorem still_silentEnd {p : Port} {a : Bool} {s t : State} (h : exec (.silentEnd p a) s = .next t) :
    Still s t := by
  cases h
  exact Still.ite _ (fun hs => still_modPort s p _ fun _ hd => absurd (hd.symm.trans hs) (by decide))
    fun _ => Still.refl s

theorem still_drainBuffer (s : State) : Still s s.drainBuffer := by
  unfold State.drainBuffer
  split
  · exact Still.refl s
  · refine Still.ite _ (fun _ => Still.trans ?_ (still_emitLine _ _)) fun _ => Still.refl s
    exact still_rif s _ rfl rfl rfl id fun _ hi ho => ⟨hi, ho⟩

/-! ### Time -/

theorem still_ringTime (s : State) (n : RifRt → RingTime) (c : RifRt → CycleState) :
    Still s (s.modRif fun r => { r with ringTime := n r, cycle := c r }) :=
  still_rif s _ rfl rfl rfl id fun _ hi ho => ⟨hi, ho⟩

theorem still_waitExpiry (s : State) (c : ChanIx) : Still s (s.waitExpiry c) :=
  still_of_reach (Reach.of_calm
    (((calm_awaitExpiry s c).trans (calm_dwellExpiry _ c)).trans (calm_claimExpiry _ c)))

theorem still_catchUp (s : State) : Still s s.catchUp := by
  have waits : Still s s.takeWaits :=
    still_foldl _ (fun s c => (still_waitExpiry s c).trans (still_settle _)) _ s
  exact ((((waits.trans (still_of_reach (reach_stallCheck _))).trans (still_settle _)).trans
    (still_of_reach (reach_restCheck _))).trans
    ((still_of_reach (reach_dwellTest _)).trans (still_settle _))).trans
    ((still_of_reach (reach_windowTest _)).trans (still_settle _))

theorem still_tick (s : State) : Still s s.tick := by
  have count : Still s s.count :=
    ((still_of_reach (Reach.of_calm ((calm_ageSignals s).trans (calm_seqTick _)))).trans
      (still_of_reach (reach_yawTick _))).trans (still_of_reach (reach_clcTick _))
  exact count.trans (still_of_reach (reach_takeStale _))

theorem still_localCycle (s : State) : Still s s.localCycle := by
  have caughtUp : Still s (if s.awake then s.catchUp else s) :=
    Still.ite _ (fun _ => still_catchUp s) fun _ => Still.refl s
  refine (caughtUp.trans (still_ringTime _ (fun r => r.ringTime + 1) RifRt.cycle)).trans ?_
  exact Still.ite _ (fun _ => still_tick _) fun _ => Still.refl _

theorem still_useMark (s : State) (n : RingTime) : Still s (s.useMark n) := by
  have marked := (still_catchUp s).trans (still_ringTime _ (fun _ => n) fun _ => .synchronised)
  refine marked.trans (Still.trans ?_ (still_tick _))
  exact Still.ite _ (fun _ => still_raise _ _ _) fun _ => Still.refl _

theorem still_cycleMarksLost {s t : State} (h : exec .cycleMarksLost s = .next t) : Still s t := by
  cases h
  split
  · exact ((still_ringTime s RifRt.ringTime fun _ => .freeRun .loss).trans (still_raise _ _ _)).trans (still_localCycle _)
  · exact Still.refl s

theorem still_localCycleEvent {s t : State} (h : exec .localCycleEvent s = .next t) : Still s t := by
  cases h
  split
  · exact Still.refl s
  · exact still_localCycle s

/-! ### Sample Frames -/

theorem still_takeItem (s : State) (src : Node) (it : SampleItem) : Still s (s.takeItem src it) := by
  unfold State.takeItem
  split
  · exact Still.refl s
  · exact Still.ite _
      (fun _ => (still_phases s _).trans (still_of_reach (Reach.of_calm (calm_useItem _ _ _))))
      fun _ => still_phases s _

theorem still_takeSampleFrame (s : State) (src : Node) (sq n : Octet) (items : List SampleItem) :
    Still s (s.takeSampleFrame src sq n items) := by
  refine Still.ite _ (fun _ => ?_) fun _ => Still.refl s
  cases h : s.acceptFrame src sq n items.length with
  | none => exact Still.refl s
  | some u =>
    have taken : Still s u := by
      unfold State.acceptFrame at h
      split at h
      · cases h
      · split at h
        · cases h
        · cases h
          exact still_sequences s _
    exact taken.trans (still_foldl _ (fun s it => (still_takeItem s src it).trans (still_settle _)) _ u)

/-! ### Handlers of management requests -/

/-- What a request's handler leaves: a still change with class 3 as it was. -/
structure Handled (s t : State) : Prop extends Still s t where
  class3 : t.rif.class3 = s.rif.class3

theorem Handled.refl (s : State) : Handled s s := ⟨Still.refl s, rfl⟩

theorem Handled.trans {s t u : State} (a : Handled s t) (b : Handled t u) : Handled s u :=
  ⟨a.toStill.trans b.toStill, b.class3.trans a.class3⟩

theorem handled_of_reach {s t : State} (h : Reach s t) : Handled s t := ⟨still_of_reach h, h.class3⟩

theorem handled_of_calm {s t : State} (h : Calm s t) : Handled s t := handled_of_reach (Reach.of_calm h)

theorem handled_dispatchTest (s : State) : Handled s s.dispatchTest := handled_of_calm (Calm.of_evt (evt_dispatchTest s))

/-- An answer placed behind a handler, with the hand-overs that follow. -/
theorem still_answer {s : State} (a : MgtAnswer) (h : s.rif.class3.length < 2) : Still s (s.pushAnswer a).settle :=
  (still_pushAnswer s a h).trans (still_settle _)

theorem still_refuseState {s : State} (src : Node) (k : Octet) (a : Word) (h : s.rif.class3.length < 2) :
    Still s (s.refuseState src k a) := still_pushAnswer s _ h

/-- A request is discarded, refused in BOOT, or handled and answered. -/
theorem served_cases (s : State) (src : Node) (k : Octet) (a : Word) (f : State → State × Status × List Word) :
    Still s (s.served src k a f) ∨
    s.part ≠ .boot ∧ s.rif.class3.length < 2 ∧
      s.served src k a f = ((f s).1.pushAnswer
        { dest := src, kind := k, status := (f s).2.1, addr := a, data := (f s).2.2 }).settle := by
  unfold State.served
  split
  · next room =>
    split
    · next awake => exact .inr ⟨(awake_iff s).mp awake, room, rfl⟩
    · exact .inl (still_refuseState src k a room)
  · exact .inl (Still.refl s)

/-- A request whose handler is a handled change. -/
theorem still_served {s : State} (src : Node) (k : Octet) (a : Word) {f : State → State × Status × List Word}
    (h : s.part ≠ .boot → Handled s (f s).1) : Still s (s.served src k a f) := by
  rcases served_cases s src k a f with still | ⟨awake, room, eq⟩
  · exact still
  · rw [eq]
    exact (h awake).toStill.trans (still_answer _ ((h awake).class3 ▸ room))

theorem handled_chanRequest (q : Word) {f : State → ChanIx → State × Status}
    (h : ∀ s c, Calm s (f s c).1) (s : State) : Handled s (chanRequest q f s).1 := by
  unfold chanRequest
  split
  · exact Handled.refl s
  · exact handled_of_calm (h s _)

/-- ACK leaves a code pending only where it is in service no more. -/
theorem acknowledged_pending {e : EventRt} (h : e.acknowledged.inService = true) : False := by
  unfold EventRt.acknowledged at h
  split at h <;> cases h

theorem handled_ackRequest (s : State) (q : Word) : Handled s (s.ackRequest q).1 := by
  unfold State.ackRequest
  split
  · exact Handled.refl s
  · next c _ =>
    split
    · have acknowledged : Handled s (s.modEvent c EventRt.acknowledged) := by
        refine ⟨still_events s _ (fun d hp hi => ?_) fun d hi => ?_, rfl⟩
        all_goals
          rw [updAt_get] at hi
          split at hi
          · exact (acknowledged_pending hi).elim
        · rwa [updAt_other _ _ ‹_›] at hp
        · exact hi
      exact (acknowledged.trans (handled_of_reach (reach_ackLimits _ c))).trans (handled_dispatchTest _)
    · exact Handled.refl s

theorem handled_clearCounts (s : State) : Handled s s.clearCounts.1 := by
  have cleared : Handled s (s.modEvu fun e => { e with events := e.events.map fun r => { r with count := 0 } }) := by
    refine ⟨still_events s _ (fun c hp _ => ?_) fun c hi => ?_, rfl⟩
    · simpa using hp
    · simpa using hi
  exact cleared.trans (handled_dispatchTest _)

theorem handled_clearPending (s : State) (q : Word) : Handled s (s.clearPendingRequest q).1 := by
  unfold State.clearPendingRequest
  split
  · have cleared : Handled s
        (s.modEvu fun e => { e with events := e.events.map fun r => { r with pending := false } }) := by
      refine ⟨still_events s _ (fun c hp _ => ?_) fun c hi => ?_, rfl⟩
      · simp at hp
      · simpa using hi
    exact cleared.trans (handled_dispatchTest _)
  · split
    · exact Handled.refl s
    · next c _ =>
      have cleared : Handled s (s.modEvent c fun r => { r with pending := false }) :=
        handled_of_calm (Calm.of_evt (Evt.modEvent c _ rfl fun h => absurd h Bool.false_ne_true))
      exact cleared.trans (handled_dispatchTest _)

/-- A save in flight captures legal settings, and the image is gone (R186). -/
theorem handled_saveRequest (s : State) : Handled s s.saveRequest.1 := by
  unfold State.saveRequest
  split
  · exact Handled.refl s
  · exact {
      Handled.refl s with
      capture := fun _ c hc => (Option.some.inj hc).symm
      allowance := fun ⟨hs, _, _, rest⟩ => ⟨hs, by simp, fun st h => Option.some.inj h ▸ hs, rest⟩
      legal := fun ⟨hs, _, _⟩ => ⟨hs, by simp, fun st h => Option.some.inj h ▸ hs⟩ }

/-- The part state changes between CONFIGURATION and OPERATING; the jobs are at rest where it leaves OPERATING. -/
theorem handled_part (s : State) {p : PartState} (hs : s.part ≠ .boot) (hp : p ≠ .boot)
    (h : p ≠ .operating → s.cnv.state = .off ∧ s.yaw.state = .held ∧ s.yaw.inhibit.config = true) :
    Handled s { s with part := p } :=
  { Handled.refl s with
    boot := fun ⟨hy, _⟩ => ⟨by simp [hy, hs, hp], fun hb => absurd hb hp⟩
    rest := fun _ => h }

/-- CONFIG leaves the inhibit set in OPERATING. -/
theorem reach_dropConfig (s : State) (h : s.part = .operating) : Reach s (s.putInhibit .config false) := by
  refine reach_modYaw s _ rfl rfl rfl id fun hp => absurd h hp

theorem reach_enterBlocks (s : State) (h : s.part = .operating) :
    Reach s (((s.unmaskAll.updateHolds).cnvEnter.putInhibit .config false).clcStart) := by
  have holds := (Reach.of_calm (calm_unmaskAll s)).trans (reach_updateHolds _)
  have entered := holds.trans (reach_cnvEnter _)
  exact (entered.trans (reach_dropConfig _ (entered.part.trans h))).trans (reach_clcStart _)

theorem handled_enterOperating (s : State) (hs : s.part ≠ .boot) : Handled s s.enterOperating :=
  (handled_part s hs (by decide) (fun h => absurd rfl h)).trans (handled_of_reach (reach_enterBlocks _ rfl))

theorem handled_commissionRequest (s : State) (hs : s.part ≠ .boot) : Handled s s.commissionRequest.1 := by
  unfold State.commissionRequest
  split
  · exact Handled.refl s
  · split
    · exact Handled.refl s
    · dsimp only
      exact handled_enterOperating s hs

theorem handled_decommissionRequest (s : State) (hs : s.part ≠ .boot) : Handled s s.decommissionRequest.1 := by
  unfold State.decommissionRequest
  split
  · next h =>
    obtain ⟨_, off, held⟩ := h
    have inhibited : Handled s (s.putInhibit .config true) :=
      handled_of_reach (reach_putInhibit s .config true (.inr rfl))
    have left : Handled s (({ s with part := .configuration } : State).putInhibit .config true) :=
      inhibited.trans (handled_part (s.putInhibit .config true) hs nofun fun _ => ⟨off, held, rfl⟩)
    have unstarted := left.trans (handled_of_reach (reach_cnv _ (fun c => { c with autostartPending := false }) rfl))
    exact unstarted.trans (handled_of_reach ((reach_updateHolds _).trans (reach_clcStop _)))
  · exact Handled.refl s

/-- A read changes at most the mark link lost of a port. -/
theorem handled_serveRead (s : State) (a : Word) (n : Octet) (q : Word) : Handled s (s.serveRead a n q).1 := by
  have port (p : Port) : Handled s (s.clearLinkLost p) := by
    refine ⟨still_modPort s p _ fun _ hd => ?_, State.modPort_rif_class3 s p _⟩
    split <;> exact hd
  unfold State.serveRead
  split
  · exact Handled.refl s
  · split
    · exact Handled.refl s
    · exact port .inn
    · exact port .out
    · exact Handled.refl s

end Sys2Proof.Machine
end

section
/-! A management write keeps every law: what a write stores is legal, and the checks of its rule see to the laws that
speak of the settings (R182). -/

namespace Sys2Proof.Machine

/-! ### Written entries -/

theorem mem_of_mapM_some {α β : Type} {f : α → Option β} {l : List α} {m : List β} (h : l.mapM f = some m)
    {y : β} (hy : y ∈ m) : ∃ x ∈ l, f x = some y := by
  induction l generalizing m with
  | nil =>
    cases h
    cases hy
  | cons a l ih =>
    simp only [List.mapM_cons, Option.bind_eq_bind, Option.bind_eq_some_iff, Option.pure_def,
      Option.some.injEq] at h
    obtain ⟨b, hb, m', hm, rfl⟩ := h
    rcases List.mem_cons.mp hy with rfl | hy
    · exact ⟨a, List.mem_cons_self .., hb⟩
    · obtain ⟨x, hx, hf⟩ := ih hm hy
      exact ⟨x, List.mem_cons_of_mem _ hx, hf⟩

/-- A written entry is read from words. -/
theorem writtenEntries_parsed {α : Type} {n stride off : Nat} {words : Fin n → List Word}
    {parse : List Word → Option α} {data : List Word} {es : List (Fin n × α)}
    (h : writtenEntries n stride words parse off data = some es) {e : Fin n × α} (he : e ∈ es) :
    ∃ ws, parse ws = some e.2 := by
  obtain ⟨i, _, hi⟩ := mem_of_mapM_some h he
  obtain ⟨x, hx, rfl⟩ := Option.map_eq_some_iff.mp hi
  exact ⟨_, hx⟩

theorem mem_unmark {α ι : Type} {es : List (ι × α × Bool)} {e : ι × α} (h : e ∈ unmark es) :
    ∃ m, (e.1, e.2, m) ∈ es := by
  obtain ⟨x, hx, rfl⟩ := List.mem_map.mp h
  exact ⟨x.2.2, hx⟩

/-- A written entry of a table that marks what it clamps is read from words. -/
theorem unmark_parsed {α : Type} {n stride off : Nat} {words : Fin n → List Word}
    {parse : List Word → Option (α × Bool)} {data : List Word} {es : List (Fin n × α × Bool)}
    (h : writtenEntries n stride words parse off data = some es) {e : Fin n × α} (he : e ∈ unmark es) :
    ∃ ws m, parse ws = some (e.2, m) := by
  obtain ⟨m, hm⟩ := mem_unmark he
  obtain ⟨ws, hw⟩ := writtenEntries_parsed h hm
  exact ⟨ws, m, hw⟩

/-- An entry after a write is the one before, or one that is written at its index. -/
theorem storeEntries_cases {α : Type} {n : Nat} (v : Vector α n) (es : List (Fin n × α)) (i : Fin n) :
    (storeEntries v es)[i] = v[i] ∨ ∃ e ∈ es, e.1 = i ∧ (storeEntries v es)[i] = e.2 := by
  induction es generalizing v with
  | nil => exact .inl rfl
  | cons e es ih =>
    show (storeEntries (v.set e.1 e.2) es)[i] = v[i] ∨ ∃ x ∈ e :: es, x.1 = i ∧ (storeEntries (v.set e.1 e.2) es)[i] = x.2
    rcases ih (v.set e.1 e.2) with h | ⟨x, hx, hi, hv⟩
    · by_cases hi : e.1 = i
      · refine .inr ⟨e, List.mem_cons_self .., hi, ?_⟩
        subst hi
        exact h.trans (by simp)
      · refine .inl (h.trans ?_)
        simp [Fin.val_ne_of_ne hi]
    · exact .inr ⟨x, List.mem_cons_of_mem _ hx, hi, hv⟩

theorem storeEntries_all {α : Type} {n : Nat} {P : α → Prop} {v : Vector α n} {es : List (Fin n × α)}
    (hv : ∀ i : Fin n, P v[i]) (he : ∀ e ∈ es, P e.2) (i : Fin n) : P (storeEntries v es)[i] := by
  rcases storeEntries_cases v es i with h | ⟨e, hm, _, h⟩
  · exact h ▸ hv i
  · exact h ▸ he e hm

/-- An entry that no written one names stays. -/
theorem storeEntries_other {α : Type} {n : Nat} {v : Vector α n} {es : List (Fin n × α)} {i : Fin n}
    (h : ∀ e ∈ es, e.1 ≠ i) : (storeEntries v es)[i] = v[i] := by
  rcases storeEntries_cases v es i with hs | ⟨e, he, hi, _⟩
  · exact hs
  · exact absurd hi (h e he)

/-! ### The checks of a write -/

/-- A write is refused, or its checks have passed and it is stored. -/
theorem judge_cases (s : State) (checks : List (Bool × Status)) (clamped : Bool) (t : State) :
    (s.judge checks clamped t).1 = s ∨
      ((s.judge checks clamped t).1 = t ∧ ∀ c ∈ checks, c.1 = false) := by
  unfold State.judge
  split
  · exact .inl rfl
  · next h =>
    rw [List.find?_eq_none] at h
    exact .inr ⟨rfl, fun c hc => Bool.eq_false_iff.mpr (h c hc)⟩

/-! ### The ranges of the settings, by name -/

/-- The ranges that `Settings.inRange` joins. -/
structure Settings.Ranges (st : Settings) : Prop where
  sampleMap : ∀ i : MapIx, st.sampleMap[i].legal
  signals : ∀ i : SigIx, st.signals[i].legal
  limits : ∀ i : LimIx, st.limits[i].legal
  chans : ∀ i : ChanIx, st.chans[i].legal
  steps : ∀ i : StepIx, st.steps[i].legal
  gridCap : st.gridCap ≤ 65535
  sagCap : st.sagCap ≤ 65535
  backupCap : st.backupCap ≤ 65535
  tags : ∀ i : TagIx, st.tags[i].legal
  conv : st.conv.legal
  alw : st.alw.legal
  yaw : st.yaw.legal
  clc : st.clc.legal
  stages : ∀ i : StageIx, st.stages[i].legal
  ordered : stagesOrdered st.stages = true
  events : ∀ i : Code, st.events[i].legal
  noticeDest : 1 ≤ st.noticeDest.toNat

theorem Settings.inRange_iff (st : Settings) : st.inRange ↔ st.Ranges :=
  ⟨fun ⟨h1, h2, h3, h4, h5, h6, h7, h8, h9, h10, h11, h12, h13, h14, h15, h16, h17⟩ =>
      ⟨h1, h2, h3, h4, h5, h6, h7, h8, h9, h10, h11, h12, h13, h14, h15, h16, h17⟩,
    fun ⟨h1, h2, h3, h4, h5, h6, h7, h8, h9, h10, h11, h12, h13, h14, h15, h16, h17⟩ =>
      ⟨h1, h2, h3, h4, h5, h6, h7, h8, h9, h10, h11, h12, h13, h14, h15, h16, h17⟩⟩

theorem Settings.legal_iff (st : Settings) : st.legal ↔ st.Ranges ∧ st.keysDistinct :=
  and_congr_left fun _ => st.inRange_iff

/-- New settings whose tables of signals and map entries are the old ones are legal when their ranges are. -/
theorem Settings.legal.with {st su : Settings} (h : st.legal) (hm : su.sampleMap = st.sampleMap)
    (hs : su.signals = st.signals) (hr : st.Ranges → su.Ranges) : su.legal := by
  obtain ⟨ranges, keys⟩ := st.legal_iff.mp h
  refine su.legal_iff.mpr ⟨hr ranges, ?_⟩
  cases st
  cases su
  cases hm
  cases hs
  exact keys

/-! ### What is stored -/

/-- New settings that a write may store: no save is in flight, and what the laws say of the settings goes on. -/
structure Storable (s : State) (st : Settings) : Prop where
  notSaving : s.capture = none
  groups : ∀ c : Code, s.evu.events[c].inService = true → st.events[c].group = s.settings.events[c].group
  yaw : s.yaw.state = .driving → st.yaw = s.settings.yaw
  owners : ∀ t : TagIx, s.ala.tags[t].grant ≠ 0 → st.tags[t] = s.settings.tags[t]
  factors : s.settings.factorsBounded → st.factorsBounded
  legal : s.settings.legal → st.legal

/-- A stored write: orderly, class 3 as it was, and the range of a channel that is not MASKED as it was. -/
structure Stored (s t : State) : Prop extends Orderly s t where
  class3 : t.rif.class3 = s.rif.class3
  ranges : ∀ c : ChanIx, (s.chan c).state ≠ .masked → sameRange s t c

theorem sameRange_of_tables {s t : State} (hc : t.settings.chans = s.settings.chans)
    (hs : t.settings.steps = s.settings.steps) (c : ChanIx) : sameRange s t c := by
  unfold sameRange
  rw [hc, hs]
  exact ⟨rfl, fun _ _ _ => rfl⟩

theorem stored_of_handled {s t : State} (h : Handled s t) : Stored s t :=
  ⟨h.toOrderly, h.class3, fun c _ => sameRange_of_tables (by rw [h.settings]) (by rw [h.settings]) c⟩

theorem Stored.refl (s : State) : Stored s s := stored_of_handled (Handled.refl s)

theorem storable_same {s : State} (h : s.capture = none) : Storable s s.settings where
  notSaving := h
  groups _ _ := rfl
  yaw _ := rfl
  owners _ _ := rfl
  factors := id
  legal := id

/-- A stored write: the settings change, and what follows is handled under the new ones. -/
theorem Storable.stored {s t : State} {st : Settings} (h : Storable s st)
    (after : Handled { s with settings := st } t) (budget : BudgetLaw s → BudgetLaw t)
    (range : ∀ c : ChanIx, (s.chan c).state ≠ .masked → sameRange s { s with settings := st } c) : Stored s t where
  toOrderly := {
    toKeepsLaws := {
      straps := after.straps
      pending := after.pending
      queue := after.queue
      event := fun ⟨hb, ho⟩ => after.event ⟨hb, fun c d hc hd hg =>
        ho c d hc hd (by rw [← h.groups c hc, ← h.groups d hd]; exact hg)⟩
      log := after.log
      grows := after.grows
      four := after.four
      capture := fun _ => after.capture (absent h.notSaving)
      boot := after.boot
      rest := after.rest
      engine := after.engine
      claims := after.claims
      budget := budget
      hard := fun hh => after.hard fun hd => by
        have e : st.yaw = s.settings.yaw := h.yaw hd
        have := hh hd
        rwa [← e] at this
      range := after.range
      yawGrant := fun hc hy => after.yawGrant hc fun hd => by
        have held (k : TagIx) (hk : k = s.settings.yaw.tag) :
            (st.tags[k].owner = .yaw ∧ s.ala.tags[k].grant ≠ 0) ∨ Work.released .yaw k ∈ s.work := by
          subst hk
          exact (hy hd).imp_left fun ⟨ho, hg⟩ => ⟨(congrArg TagCfg.owner (h.owners _ hg)).trans ho, hg⟩
        exact held _ (congrArg YawCfg.tag (h.yaw hd))
      allowance := fun ⟨hs, rest⟩ => after.allowance ⟨h.factors hs, rest⟩
      legal := fun ⟨hs, rest⟩ => after.legal ⟨h.legal hs, rest⟩ }
    block := after.block
    firstOut := after.firstOut }
  class3 := after.class3
  ranges := fun c hc => by
    have : t.settings = st := after.settings
    unfold sameRange
    rw [this]
    exact range c hc

/-- The law of R69 speaks of the capacities and of the classes of granted tags. -/
theorem budget_of_same {s t : State} {st : Settings} (after : Handled { s with settings := st } t)
    (hc : ∀ m, st.capacity m = s.settings.capacity m)
    (ht : ∀ k : TagIx, s.ala.tags[k].grant ≠ 0 → st.tags[k] = s.settings.tags[k]) (h : BudgetLaw s) : BudgetLaw t := by
  refine after.budget (h.imp (fun hs => ?_) fun hs k hk => ?_)
  · show _ ≤ st.capacity _
    rw [hc]
    exact hs
  · show st.tags[k].cls = 0
    rw [ht k hk]
    exact hs k hk

/-- A write that stores other fields than capacities, channels and steps. -/
theorem Storable.stored_apart {s t : State} {st : Settings} (h : Storable s st)
    (after : Handled { s with settings := st } t) (hc : ∀ m, st.capacity m = s.settings.capacity m)
    (hh : st.chans = s.settings.chans) (hs : st.steps = s.settings.steps) : Stored s t :=
  h.stored after (budget_of_same after hc h.owners) fun c _ => sameRange_of_tables hh hs c

theorem capture_of_notSaving {s : State} (h : s.saving = false) : s.capture = none := by
  simpa [State.saving] using h

/-! ### Sample Map and signals -/

theorem sampleEntry_legal {s : State} {off : Nat} {data : List Word} {marked : List (MapIx × SampleEntry × Bool)}
    (hw : writtenEntries 128 7 (fun i => s.settings.sampleMap[i].words) sampleEntryOf off data = some marked)
    (hn : ((unmark marked).any fun e => e.2.valid && (nodeIx e.2.source).isNone) = false)
    (hl : ((unmark marked).any fun e => decide (e.2.high < e.2.low)) = false) :
    ∀ e ∈ unmark marked, e.2.legal := by
  intro e he
  obtain ⟨ws, m, hp⟩ := unmark_parsed hw he
  obtain ⟨h1, h2, h3, h4, h5, h6⟩ := sampleEntryOf_range hp
  have low := List.any_eq_false.mp hl e he
  have node := List.any_eq_false.mp hn e he
  refine ⟨h1, h2, h3, h4, h5, by simpa using low, h6, fun hv => ?_⟩
  simp only [hv, Bool.true_and, nodeIx] at node
  split at node
  · next h => exact h
  · simp at node

/-- No valid written entry shares what `f` names with another valid one. -/
theorem clashes_false {α : Type} [BEq α] [LawfulBEq α] {v : Vector SampleEntry 128} {f : SampleEntry → α}
    {es : List (MapIx × SampleEntry)} (h : clashes v f es = false) {e : MapIx × SampleEntry} (he : e ∈ es)
    (hv : e.2.valid = true) {j : MapIx} (hj : v[j].valid = true) (hne : j ≠ e.1) : f v[j] ≠ f e.2 := by
  intro heq
  have hx := List.any_eq_false.mp h e he
  simp only [hv, Bool.true_and, Bool.not_eq_true, List.any_eq_false] at hx
  have mem : (j, v[j]) ∈ (indices 128).zip v.toList := by
    rw [indices_eq]
    exact List.mem_iff_getElem.mpr ⟨j, by simp, by simp⟩
  have apart : (j != e.1 && v[j].valid && f v[j] == f e.2) = false := hx _ mem
  rw [hj, heq] at apart
  simp [hne] at apart

theorem keysDistinct_storeMap {st : Settings} {es : List (MapIx × SampleEntry)} (h : st.keysDistinct)
    (hk : clashes (storeEntries st.sampleMap es) (fun e => (e.source, e.channel)) es = false)
    (ht : clashes (storeEntries st.sampleMap es) (fun e => (e.target, e.slot)) es = false)
    (hf : (es.any fun e => e.2.valid && st.signals[e.2.target].feed != .sampled) = false) :
    Settings.keysDistinct { st with sampleMap := storeEntries st.sampleMap es } := by
  obtain ⟨keys, feeds, pairs⟩ := h
  let v := storeEntries st.sampleMap es
  refine ⟨fun i j hi hj hne => ?_, fun i hi => ?_, pairs⟩
  · change v[i].valid = true at hi
    change v[j].valid = true at hj
    show (v[i].source, v[i].channel) ≠ (v[j].source, v[j].channel) ∧ (v[i].target, v[i].slot) ≠ (v[j].target, v[j].slot)
    rcases storeEntries_cases st.sampleMap es i with oi | ⟨e, he, rfl, oi⟩
    · rcases storeEntries_cases st.sampleMap es j with oj | ⟨e, he, rfl, oj⟩
      · have ei : v[i] = st.sampleMap[i] := oi
        have ej : v[j] = st.sampleMap[j] := oj
        rw [ei, ej]
        exact keys i j (ei ▸ hi) (ej ▸ hj) hne
      · have ej : v[e.1] = e.2 := oj
        rw [ej]
        exact ⟨clashes_false hk he (ej ▸ hj) hi hne, clashes_false ht he (ej ▸ hj) hi hne⟩
    · have ei : v[e.1] = e.2 := oi
      rw [ei]
      exact ⟨(clashes_false hk he (ei ▸ hi) hj hne.symm).symm, (clashes_false ht he (ei ▸ hi) hj hne.symm).symm⟩
  · change v[i].valid = true at hi
    show st.signals[v[i].target].feed = .sampled
    rcases storeEntries_cases st.sampleMap es i with oi | ⟨e, he, rfl, oi⟩
    · have ei : v[i] = st.sampleMap[i] := oi
      have feed := congrArg (fun e : SampleEntry => st.signals[e.target].feed) ei
      exact feed.trans (feeds i (ei ▸ hi))
    · have ei : v[e.1] = e.2 := oi
      have feed := congrArg (fun e : SampleEntry => st.signals[e.target].feed) ei
      have sampled := List.any_eq_false.mp hf e he
      have valid : e.2.valid = true := ei ▸ hi
      rw [valid, Bool.true_and, bne_iff_ne, not_not] at sampled
      exact feed.trans sampled

theorem calm_fold {β : Type} {f : State → β → State} (h : ∀ s b, Calm s (f s b)) (l : List β) (s : State) :
    Handled s (l.foldl f s) := handled_of_calm (calm_foldl f h l s)

theorem stored_writeSampleMap (s : State) (off : Nat) (data : List Word) : Stored s (s.writeSampleMap off data).1 := by
  unfold State.writeSampleMap
  split
  · exact Stored.refl s
  · next marked hw =>
    dsimp only
    rcases judge_cases s _ (anyClamped marked) (s.storeSampleMap (unmark marked)) with h | ⟨h, passed⟩
    · rw [h]
      exact Stored.refl s
    · rw [h]
      simp only [List.forall_mem_cons] at passed
      obtain ⟨hn, hl, hk, ht, hf, hs, _⟩ := passed
      have idle := capture_of_notSaving hs
      have legal (i : s.settings.legal) : Settings.legal
          { s.settings with sampleMap := storeEntries s.settings.sampleMap (unmark marked) } := by
        obtain ⟨ranges, keys⟩ := (Settings.legal_iff _).mp i
        exact (Settings.legal_iff _).mpr ⟨{ ranges with
          sampleMap := storeEntries_all ranges.sampleMap (sampleEntry_legal hw hn hl) },
          keysDistinct_storeMap keys hk ht hf⟩
      refine Storable.stored_apart
        (st := { s.settings with sampleMap := storeEntries s.settings.sampleMap (unmark marked) })
        { storable_same idle with legal := legal } ?_ (fun m => by cases m <;> rfl) rfl rfl
      have phases (u : State) (v : Vector Nat 128) : Handled u { u with phases := v } := ⟨still_phases u v, rfl⟩
      have slots (l : List (SigIx × SlotIx)) (u : State) :
          Handled u (l.foldl (fun s x => s.modSlot x.1 x.2 Contributor.cleared) u) :=
        calm_fold (fun s x => calm_modSlot s x.1 x.2 _) l u
      exact (phases _ _).trans ((slots _ _).trans (calm_fold calm_evaluateWrite _ _))

theorem derivedTwice_false {v : Vector SignalCfg 96} {es : List (SigIx × SignalCfg)} (h : derivedTwice v es = false)
    {e : SigIx × SignalCfg} (he : e ∈ es) (hf : e.2.feed ≠ .sampled) {j : SigIx} (hne : j ≠ e.1) :
    v[j].feed ≠ e.2.feed := by
  intro heq
  have hx := List.any_eq_false.mp h e he
  rw [bne_iff_ne.mpr hf, Bool.true_and, Bool.not_eq_true, List.any_eq_false] at hx
  have mem : (j, v[j]) ∈ (indices 96).zip v.toList := by
    rw [indices_eq]
    exact List.mem_iff_getElem.mpr ⟨j, by simp, by simp⟩
  have apart : ¬(j != e.1 && v[j].feed == e.2.feed) = true := hx _ mem
  rw [heq] at apart
  simp [hne] at apart

theorem anyConfigured_false {st : Settings} {i : SigIx} (h : anyConfigured st i = false) (k : MapIx)
    (hv : st.sampleMap[k].valid = true) : st.sampleMap[k].target ≠ i := by
  have := List.any_eq_false.mp h st.sampleMap[k] (by simp [Vector.mem_toList_iff])
  rw [hv, Bool.true_and, beq_iff_eq] at this
  exact this

theorem keysDistinct_storeSignals {st : Settings} {es : List (SigIx × SignalCfg)} (h : st.keysDistinct)
    (hc : (es.any fun (e : SigIx × SignalCfg) => e.2.feed != .sampled && anyConfigured st e.1) = false)
    (hd : derivedTwice (storeEntries st.signals es) es = false) :
    Settings.keysDistinct { st with signals := storeEntries st.signals es } := by
  obtain ⟨keys, feeds, pairs⟩ := h
  let v := storeEntries st.signals es
  refine ⟨keys, fun i hi => ?_, fun i j hi hne => ?_⟩
  · change st.sampleMap[i].valid = true at hi
    show v[st.sampleMap[i].target].feed = .sampled
    rcases storeEntries_cases st.signals es st.sampleMap[i].target with oi | ⟨e, he, hei, oi⟩
    · have ei : v[st.sampleMap[i].target] = st.signals[st.sampleMap[i].target] := oi
      rw [ei]
      exact feeds i hi
    · have ei : v[st.sampleMap[i].target] = e.2 := oi
      rw [ei]
      by_contra hf
      have := List.any_eq_false.mp hc e he
      simp only [bne_iff_ne, ne_eq, hf, not_false_eq_true, Bool.and_eq_true, true_and, Bool.not_eq_true] at this
      exact anyConfigured_false this i hi hei.symm
  · change v[i].feed ≠ .sampled at hi
    show v[i].feed ≠ v[j].feed
    rcases storeEntries_cases st.signals es i with oi | ⟨e, he, rfl, oi⟩
    · rcases storeEntries_cases st.signals es j with oj | ⟨e, he, rfl, oj⟩
      · have ei : v[i] = st.signals[i] := oi
        have ej : v[j] = st.signals[j] := oj
        rw [ei, ej]
        exact pairs i j (ei ▸ hi) hne
      · have ej : v[e.1] = e.2 := oj
        rw [ej]
        intro heq
        exact derivedTwice_false hd he (heq ▸ hi) hne heq
    · have ei : v[e.1] = e.2 := oi
      rw [ei]
      exact (derivedTwice_false hd he (ei ▸ hi) hne.symm).symm

theorem calm_storeSignalRuntime (s : State) (old : Vector SignalCfg 96) (i : SigIx) (c : SignalCfg) :
    Calm s (s.storeSignalRuntime old i c) := by
  unfold State.storeSignalRuntime
  split
  · exact Calm.refl s
  · exact Calm.ite _ (fun _ => (calm_modSignal s i _).trans (calm_notify _ i _)) fun _ => calm_modSignal s i _

theorem stored_writeSignals (s : State) (off : Nat) (data : List Word) : Stored s (s.writeSignals off data).1 := by
  unfold State.writeSignals
  split
  · exact Stored.refl s
  · next marked hw =>
    dsimp only
    rcases judge_cases s _ (anyClamped marked) (s.storeSignals (unmark marked)) with h | ⟨h, passed⟩
    · rw [h]
      exact Stored.refl s
    · rw [h]
      simp only [List.forall_mem_cons] at passed
      obtain ⟨hc, hd, hs, _⟩ := passed
      have legal (i : s.settings.legal) : Settings.legal
          { s.settings with signals := storeEntries s.settings.signals (unmark marked) } := by
        obtain ⟨ranges, keys⟩ := (Settings.legal_iff _).mp i
        refine (Settings.legal_iff _).mpr ⟨{ ranges with
          signals := storeEntries_all ranges.signals fun e he => ?_ }, keysDistinct_storeSignals keys hc hd⟩
        obtain ⟨_, _, hp⟩ := unmark_parsed hw he
        exact signalOf_legal hp
      exact Storable.stored_apart
        (st := { s.settings with signals := storeEntries s.settings.signals (unmark marked) })
        { storable_same (capture_of_notSaving hs) with legal := legal }
        (calm_fold (fun u e => calm_storeSignalRuntime u s.settings.signals e.1 e.2) (unmark marked) _)
        (fun m => by cases m <;> rfl) rfl rfl

/-! ### Limits, channels, steps -/

theorem limit_legal {s : State} {off : Nat} {data : List Word} {marked : List (LimIx × LimitCfg × Bool)}
    (hw : writtenEntries 48 16 (fun i => s.settings.limits[i].words) limitOf off data = some marked)
    (hc : ((unmark marked).any fun e => e.2.valid && !(decide (32 ≤ e.2.code) && decide (e.2.code ≤ 127))) = false)
    (ho : ((unmark marked).any fun e => e.2.valid && !e.2.ordered) = false) :
    ∀ e ∈ unmark marked, e.2.legal := by
  intro e he
  obtain ⟨ws, m, hp⟩ := unmark_parsed hw he
  obtain ⟨h1, h2, h3, h4, h5, h6, h7⟩ := limitOf_range hp
  have code := List.any_eq_false.mp hc e he
  have order := List.any_eq_false.mp ho e he
  refine ⟨h1, h2, h3, h4, h5, h6, h7, fun hv => ?_⟩
  simp only [hv, Bool.true_and, Bool.not_eq_true, Bool.not_eq_false', Bool.and_eq_true, decide_eq_true_eq] at code order
  exact ⟨code.1, code.2, order⟩

theorem stored_writeLimits (s : State) (off : Nat) (data : List Word) : Stored s (s.writeLimits off data).1 := by
  unfold State.writeLimits
  split
  · exact Stored.refl s
  · split
    · exact Stored.refl s
    · next marked hw =>
      dsimp only
      rcases judge_cases s _ (anyClamped marked) (s.storeLimits (unmark marked)) with h | ⟨h, passed⟩
      · rw [h]
        exact Stored.refl s
      · rw [h]
        simp only [List.forall_mem_cons] at passed
        obtain ⟨hc, ho, _, hs, _⟩ := passed
        refine Storable.stored_apart
          (st := { s.settings with limits := storeEntries s.settings.limits (unmark marked) })
          { storable_same (capture_of_notSaving hs) with
            legal := fun i => i.with rfl rfl fun r => { r with
              limits := storeEntries_all r.limits (limit_legal hw hc ho) } } ?_ (fun m => by cases m <;> rfl) rfl rfl
        have runtime (u : State) (v : Vector LimitRt 48) : Reach u ({ u with limits := v } : State).updateHolds :=
          (reach_limits u v).trans (reach_updateHolds _)
        exact handled_of_reach (runtime _ _)

theorem isMasked_iff (s : State) (c : ChanIx) : s.isMasked c = true ↔ (s.chan c).state = .masked := by
  simp [State.isMasked]

theorem stored_writeChans (s : State) (off : Nat) (data : List Word) : Stored s (s.writeChans off data).1 := by
  unfold State.writeChans
  split
  · exact Stored.refl s
  · split
    · exact Stored.refl s
    · next es hw =>
      rcases judge_cases s [(es.any fun e => !s.isMasked e.1, .busy), (s.saving, .busy)] false (s.storeChans es)
        with h | ⟨h, passed⟩
      · rw [h]
        exact Stored.refl s
      · rw [h]
        simp only [List.forall_mem_cons] at passed
        obtain ⟨hm, hs, _⟩ := passed
        have after : Handled (s.withSettings fun st => { st with chans := storeEntries st.chans es }) (s.storeChans es) :=
          calm_fold (fun u (e : ChanIx × ChanCfg) =>
            calm_modChan (s := u) e.1 (fun r => { r with current := e.2.base, remaining := e.2.count }) Iff.rfl) es _
        refine Storable.stored (st := { s.settings with chans := storeEntries s.settings.chans es })
          { storable_same (capture_of_notSaving hs) with
            legal := fun i => i.with rfl rfl fun r => { r with
              chans := storeEntries_all r.chans fun e he => ?_ } } after
          (budget_of_same after (fun m => by cases m <;> rfl) fun _ _ => rfl) fun c hc => ⟨?_, fun _ _ _ => rfl⟩
        · obtain ⟨_, hp⟩ := writtenEntries_parsed hw he
          exact chanOf_legal hp
        · refine storeEntries_other fun e he hec => hc ?_
          have := List.any_eq_false.mp hm e he
          rw [Bool.not_eq_true, Bool.not_eq_false', isMasked_iff, hec] at this
          exact this

theorem stored_writeScheme (s : State) (data : List Word) : Stored s (s.writeScheme data).1 := by
  unfold State.writeScheme
  split
  · exact Stored.refl s
  · next b _ =>
    rcases judge_cases s [(s.saving, .busy)] false (s.withSettings fun st => { st with rotating := b }) with
      h | ⟨h, passed⟩
    · rw [h]
      exact Stored.refl s
    · rw [h]
      have idle := capture_of_notSaving (passed _ (List.mem_cons_self ..))
      exact Storable.stored_apart (st := { s.settings with rotating := b })
        { storable_same idle with legal := fun i => i.with rfl rfl fun r => { r with } }
        (Handled.refl _) (fun m => by cases m <;> rfl) rfl rfl

theorem stepGuarded_false {s : State} {k : StepIx} (h : s.stepGuarded k = false) {c : ChanIx}
    (hc : (s.chan c).state ≠ .masked) :
    ¬((s.settings.chans[c].base : Nat) ≤ k ∧ (k : Nat) < s.settings.chans[c].base + s.settings.chans[c].count) := by
  rintro ⟨hb, hk⟩
  refine List.any_eq_false.mp h c (mem_indices c) ?_
  have active : s.isMasked c = false := Bool.eq_false_iff.mpr fun hm => hc ((isMasked_iff s c).mp hm)
  rw [active, Bool.not_false, Bool.true_and, Bool.and_eq_true, decide_eq_true_eq, decide_eq_true_eq]
  exact ⟨Fin.le_def.mpr hb, hk⟩

theorem stored_writeSteps (s : State) (off : Nat) (data : List Word) : Stored s (s.writeSteps off data).1 := by
  unfold State.writeSteps
  split
  · exact Stored.refl s
  · next marked hw =>
    dsimp only
    rcases judge_cases s
      [((unmark marked).any fun e => s.stepGuarded e.1, .busy), (s.saving, .busy)] (anyClamped marked)
      (s.withSettings fun st => { st with steps := storeEntries st.steps (unmark marked) }) with h | ⟨h, passed⟩
    · rw [h]
      exact Stored.refl s
    · rw [h]
      simp only [List.forall_mem_cons] at passed
      obtain ⟨hg, hs, _⟩ := passed
      refine Storable.stored (st := { s.settings with steps := storeEntries s.settings.steps (unmark marked) })
        { storable_same (capture_of_notSaving hs) with
          legal := fun i => i.with rfl rfl fun r => { r with
            steps := storeEntries_all r.steps fun e he => ?_ } } (Handled.refl _)
        (budget_of_same (Handled.refl _) (fun m => by cases m <;> rfl) fun _ _ => rfl)
        fun c hc => ⟨rfl, fun k hb hk => ?_⟩
      · obtain ⟨_, _, hp⟩ := unmark_parsed hw he
        exact stepOf_legal hp
      · refine storeEntries_other fun e he hek => ?_
        have := Bool.eq_false_iff.mpr (List.any_eq_false.mp hg e he)
        exact stepGuarded_false (hek ▸ this) hc ⟨hb, hk⟩

/-! ### Allocator -/

theorem handled_capacityMoved (s : State) (old : Nat) : Handled s (s.capacityMoved old) := by
  unfold State.capacityMoved
  split
  · split
    · exact handled_of_reach (reach_shedPass s)
    · exact Handled.refl s
  · split
    · exact handled_of_calm (calm_headTest s none)
    · exact Handled.refl s

/-- R71 mends the law of R69 behind a new capacity: a shed pass where the budget has fallen below the sum. -/
theorem capacityMoved_budget {s : State} {old : Nat}
    (h : s.ala.sum ≤ old ∨ ∀ t : TagIx, s.ala.tags[t].grant ≠ 0 → s.settings.tags[t].cls = 0) :
    BudgetLaw (s.capacityMoved old) := by
  have law : (s.capacityMoved old).ala.budgetOk s.settings := by
    unfold State.capacityMoved
    split
    · split
      · exact shedPass_budget s
      · next hb => exact .inl (Nat.le_of_not_lt hb)
    · next hb =>
      have kept : s.ala.budgetOk s.settings := h.imp_left fun hs => hs.trans (Nat.le_of_not_lt hb)
      split
      · exact headTest_budget s kept
      · exact kept
  show (s.capacityMoved old).ala.budgetOk (s.capacityMoved old).settings
  rwa [(handled_capacityMoved s old).settings]

theorem stored_writeAllocator (s : State) (off : Nat) (data : List Word) : Stored s (s.writeAllocator off data).1 := by
  unfold State.writeAllocator
  split
  · exact Stored.refl s
  · dsimp only
    rcases judge_cases s [(s.saving, .busy)] false _ with h | ⟨h, passed⟩
    · rw [h]
      exact Stored.refl s
    · rw [h]
      have idle := capture_of_notSaving (passed _ (List.mem_cons_self ..))
      have word (w : Word) : w.toNat ≤ 65535 := Nat.le_of_lt_succ w.isLt
      let ws := overlay s.allocatorWords 0 off data
      exact Storable.stored (st := { s.settings with
          gridCap := (wordAt ws 0).toNat, sagCap := (wordAt ws 1).toNat, backupCap := (wordAt ws 2).toNat })
        { storable_same idle with
          legal := fun i => i.with rfl rfl fun r => { r with
            gridCap := word _, sagCap := word _, backupCap := word _ } }
        (handled_capacityMoved _ _) (fun law => capacityMoved_budget law)
        fun c _ => sameRange_of_tables rfl rfl c

theorem calm_modTag_shedding (s : State) (t : TagIx) (b : Bool) :
    Calm s (s.modTag t fun r => { r with shedding := b }) := by
  have grant (k : TagIx) :
      (updAt s.ala.tags t fun r => { r with shedding := b })[k].grant = s.ala.tags[k].grant :=
    updAt_all (fun k (x : TagRt) => x.grant = s.ala.tags[k].grant) _ _ _ (fun _ => rfl) rfl k
  refine Calm.alaTo _ (fun ⟨h1, h2⟩ => ⟨h1, fun q hq => ?_⟩) ⟨rfl, .inr fun k => (grant k).le⟩ fun _ k _ hk => ?_
  · rw [grant]
    exact h2 q hq
  · rw [grant]
    exact hk

theorem stored_writeTags (s : State) (off : Nat) (data : List Word) : Stored s (s.writeTags off data).1 := by
  unfold State.writeTags
  split
  · exact Stored.refl s
  · split
    · exact Stored.refl s
    · next es hw =>
      rcases judge_cases s
        [(es.any fun e => (s.tag e.1).grant != 0 || s.ala.queued e.1, .busy), (s.saving, .busy)] false (s.storeTags es)
        with h | ⟨h, passed⟩
      · rw [h]
        exact Stored.refl s
      · rw [h]
        simp only [List.forall_mem_cons] at passed
        obtain ⟨hg, hs, _⟩ := passed
        have granted (k : TagIx) (hk : s.ala.tags[k].grant ≠ 0) :
            (storeEntries s.settings.tags es)[k] = s.settings.tags[k] := by
          refine storeEntries_other fun e he hek => hk ?_
          have := List.any_eq_false.mp hg e he
          simp only [Bool.or_eq_true, bne_iff_ne, not_or, Decidable.not_not] at this
          exact hek ▸ this.1
        have freed (u : State) (e : TagIx × TagCfg) :
            Calm u (if e.2.valid then u else u.modTag e.1 fun r => { r with shedding := false }) :=
          Calm.ite _ (fun _ => Calm.refl u) fun _ => calm_modTag_shedding u e.1 false
        refine Storable.stored_apart (st := { s.settings with tags := storeEntries s.settings.tags es })
          { storable_same (capture_of_notSaving hs) with
            owners := granted
            legal := fun i => i.with rfl rfl fun r => { r with
              tags := storeEntries_all r.tags fun e he => ?_ } } (calm_fold freed es _)
          (fun m => by cases m <;> rfl) rfl rfl
        obtain ⟨_, hp⟩ := writtenEntries_parsed hw he
        exact tagOf_legal hp

/-! ### Parameter objects -/

theorem stored_writeConv (s : State) (off : Nat) (data : List Word) : Stored s (s.writeConv off data).1 := by
  unfold State.writeConv
  split
  · exact Stored.refl s
  · next c m hw =>
    rcases judge_cases s [(!s.convAtRest, .state), (s.saving, .busy)] m
      (s.withSettings fun st => { st with conv := c }) with h | ⟨h, passed⟩
    · rw [h]
      exact Stored.refl s
    · rw [h]
      simp only [List.forall_mem_cons] at passed
      obtain ⟨_, hs, _⟩ := passed
      exact Storable.stored_apart (st := { s.settings with conv := c }) { storable_same (capture_of_notSaving hs) with
        legal := fun i => i.with rfl rfl fun r => { r with conv := convOf_legal hw } } (Handled.refl _)
        (fun m => by cases m <;> rfl) rfl rfl

theorem stored_writeAlw (s : State) (off : Nat) (data : List Word) : Stored s (s.writeAlw off data).1 := by
  unfold State.writeAlw
  split
  · exact Stored.refl s
  · next c m hw =>
    rcases judge_cases s [(s.saving, .busy)] m (s.storeAlw c) with h | ⟨h, passed⟩
    · rw [h]
      exact Stored.refl s
    · rw [h]
      have idle := capture_of_notSaving (passed _ (List.mem_cons_self ..))
      refine Storable.stored_apart (st := { s.settings with alw := c }) { storable_same idle with
        legal := fun i => i.with rfl rfl fun r => { r with alw := alwOf_legal hw } } ?_
        (fun m => by cases m <;> rfl) rfl rfl
      unfold State.storeAlw
      split
      · exact Handled.refl _
      · exact handled_of_reach (reach_alw _ _ rfl rfl rfl rfl)

theorem yawAtRest_notDriving {s : State} (h : s.yawAtRest = true) : s.yaw.state ≠ .driving := by
  rcases (yawAtRest_iff s).mp h with e | e <;> rw [e] <;> decide

theorem stored_writeYaw (s : State) (off : Nat) (data : List Word) : Stored s (s.writeYaw off data).1 := by
  unfold State.writeYaw
  split
  · exact Stored.refl s
  · next c m hw =>
    rcases judge_cases s [(!s.yawAtRest, .state), (s.saving, .busy)] m (s.storeYaw c) with h | ⟨h, passed⟩
    · rw [h]
      exact Stored.refl s
    · rw [h]
      simp only [List.forall_mem_cons, Bool.not_eq_false'] at passed
      obtain ⟨hr, hs, _⟩ := passed
      refine Storable.stored_apart (st := { s.settings with yaw := c }) { storable_same (capture_of_notSaving hs) with
        yaw := fun hd => absurd hd (yawAtRest_notDriving hr)
        legal := fun i => i.with rfl rfl fun r => { r with yaw := yawOf_legal hw } } ?_
        (fun m => by cases m <;> rfl) rfl rfl
      have emptied (u : State) (l : Option Int) (p : Prop) [Decidable p] :
          Reach u (u.modYaw fun y => { y with window := if p then y.window else [], lastHeading := l }) := by
        refine reach_modYaw u _ rfl rfl rfl (fun hl => ?_) fun _ => id
        dsimp only
        split
        · exact hl
        · exact Nat.zero_le _
      exact handled_of_reach (emptied _ _ _)

/-- The twist may be set while YAW does not drive. -/
theorem reach_presetTwist (s : State) (v : Int) (h : s.yaw.state ≠ .driving) (hv : -1000000 ≤ v ∧ v ≤ 1000000) :
    Reach s (s.presetTwist v) := by
  have set : Reach s (s.modYaw fun y => { y with twist := v, hardBlocked := false }) := {
    base_modYaw s _ (fun hr => ⟨hr.1, hv⟩) fun hd => absurd hd h with
    hard := fun _ hd => absurd hd h
    rest := id
    alw := fun _ _ => id }
  exact set.trans (reach_publish _ _ _)

theorem limitTo_range {lo hi x : Int} (h : lo ≤ hi) : lo ≤ limitTo lo hi x ∧ limitTo lo hi x ≤ hi := by
  unfold limitTo
  omega

theorem stored_writeTwist (s : State) (off : Nat) (data : List Word) : Stored s (s.writeTwist off data).1 := by
  unfold State.writeTwist
  split
  · exact Stored.refl s
  · dsimp only
    rcases judge_cases s [(!s.yawAtRest, .state), (s.saving, .busy)] _ _ with h | ⟨h, passed⟩
    · rw [h]
      exact Stored.refl s
    · rw [h]
      simp only [List.forall_mem_cons, Bool.not_eq_false'] at passed
      exact stored_of_handled (handled_of_reach
        (reach_presetTwist s _ (yawAtRest_notDriving passed.1) (limitTo_range (by decide))))

/-! ### Cooling -/

/-- A handled change ahead of a stored write that touches no channel and no step. -/
theorem Stored.behind {s u t : State} (before : Handled s u) (h : Stored u t)
    (hc : t.settings.chans = u.settings.chans) (hs : t.settings.steps = u.settings.steps) : Stored s t where
  toOrderly := before.toOrderly.trans h.toOrderly
  class3 := h.class3.trans before.class3
  ranges c _ := sameRange_of_tables (by rw [hc, before.settings]) (by rw [hs, before.settings]) c

theorem stored_writeClc (s : State) (off : Nat) (data : List Word) : Stored s (s.writeClc off data).1 := by
  unfold State.writeClc
  split
  · exact Stored.refl s
  · next c m hw =>
    rcases judge_cases s s.clcChecks m
      (((s.restartClaims.heatersOff).withSettings fun st => { st with clc := c }).restartStages) with h | ⟨h, passed⟩
    · rw [h]
      exact Stored.refl s
    · rw [h]
      simp only [State.clcChecks, List.forall_mem_cons] at passed
      obtain ⟨_, hs, _⟩ := passed
      have before := handled_of_reach ((reach_restartClaims s).trans (reach_heatersOff _))
      have idle : s.restartClaims.heatersOff.capture = none :=
        ((reach_restartClaims s).trans (reach_heatersOff _)).capture.trans (capture_of_notSaving hs)
      have after := handled_of_reach
        (reach_restartStages (s.restartClaims.heatersOff.withSettings fun st => { st with clc := c }))
      have factors (i : s.restartClaims.heatersOff.settings.factorsBounded) :
          Settings.factorsBounded { s.restartClaims.heatersOff.settings with clc := c } := by
        obtain ⟨_, _, _, _, _, _, _, _, _, _, _, _, _, bound, _⟩ := clcOf_legal hw
        exact ⟨i.1, bound⟩
      refine Stored.behind before (Storable.stored_apart
        (st := { s.restartClaims.heatersOff.settings with clc := c }) { storable_same idle with
        factors := factors
        legal := fun i => i.with rfl rfl fun r => { r with clc := clcOf_legal hw } } after
        (fun m => by cases m <;> rfl) rfl rfl) ?_ ?_
      · rw [after.settings]; rfl
      · rw [after.settings]; rfl

theorem stored_writeStages (s : State) (off : Nat) (data : List Word) : Stored s (s.writeStages off data).1 := by
  unfold State.writeStages
  split
  · exact Stored.refl s
  · next marked hw =>
    dsimp only
    rcases judge_cases s
      ((!stagesOrdered (storeEntries s.settings.stages (unmark marked)), .range) :: s.clcChecks) (anyClamped marked) _
      with h | ⟨h, passed⟩
    · rw [h]
      exact Stored.refl s
    · rw [h]
      simp only [State.clcChecks, List.forall_mem_cons, Bool.not_eq_false'] at passed
      obtain ⟨ho, _, hs, _⟩ := passed
      have before := handled_of_reach (reach_restartClaims s)
      have same : s.restartClaims.settings = s.settings := before.settings
      have idle : s.restartClaims.capture = none := (reach_restartClaims s).capture.trans (capture_of_notSaving hs)
      have after := handled_of_reach (reach_restartStages (s.restartClaims.withSettings fun st =>
        { st with stages := storeEntries s.settings.stages (unmark marked) }))
      have written (e : StageIx × Stage) (he : e ∈ unmark marked) : e.2.legal := by
        obtain ⟨ws, _, hp⟩ := unmark_parsed hw he
        have read : (stageOf ws).1 = e.2 := congrArg Prod.fst (Option.some.inj hp)
        exact read ▸ stageOf_legal ws
      have factors (i : s.restartClaims.settings.factorsBounded) : Settings.factorsBounded
          { s.restartClaims.settings with stages := storeEntries s.settings.stages (unmark marked) } := by
        refine ⟨storeEntries_all (P := fun g : Stage => g.capacity ≤ 16384) (same ▸ i.1) fun e he => ?_, i.2⟩
        obtain ⟨_, _, _, _, _, bound, _⟩ := written e he
        exact bound
      refine Stored.behind before (Storable.stored_apart
        (st := { s.restartClaims.settings with stages := storeEntries s.settings.stages (unmark marked) })
        { storable_same idle with
        factors := factors
        legal := fun i => i.with rfl rfl fun r => { r with
          stages := storeEntries_all (same ▸ r.stages) written
          ordered := ho } } after
        (fun m => by cases m <;> rfl) rfl rfl) ?_ ?_
      · rw [after.settings]; rfl
      · rw [after.settings]; rfl

/-! ### Events, ring, management -/

/-- A code whose descriptor is not enabled leaves pending and service. -/
theorem handled_disableEvent (s : State) (c : Code) :
    Handled s (s.modEvent c fun r => { r with pending := false, inService := false, recurred := false }) := by
  refine ⟨still_events s _ (fun d hp hi => ?_) fun d hi => ?_, rfl⟩
  all_goals
    rw [updAt_get] at hi
    split at hi
    · exact absurd hi Bool.false_ne_true
  · rwa [updAt_other _ _ ‹_›] at hp
  · exact hi

theorem handled_foldl {β : Type} {f : State → β → State} (h : ∀ s b, Handled s (f s b)) (l : List β) (s : State) :
    Handled s (l.foldl f s) :=
  foldl_rel Handled Handled.refl (fun _ _ _ => Handled.trans) f h l s

theorem handled_ite {s : State} (p : Prop) [Decidable p] {a b : State} (ha : p → Handled s a) (hb : ¬p → Handled s b) :
    Handled s (if p then a else b) := by
  split
  · exact ha ‹_›
  · exact hb ‹_›

theorem stored_writeEvents (s : State) (off : Nat) (data : List Word) : Stored s (s.writeEvents off data).1 := by
  unfold State.writeEvents
  split
  · exact Stored.refl s
  · next es hw =>
    rcases judge_cases s
      [(es.any fun e => s.evu.events[e.1].inService && s.settings.events[e.1].group != e.2.group, .busy),
        (s.saving, .busy)] false (s.storeEvents es) with h | ⟨h, passed⟩
    · rw [h]
      exact Stored.refl s
    · rw [h]
      simp only [List.forall_mem_cons] at passed
      obtain ⟨hg, hs, _⟩ := passed
      have groups (c : Code) (hc : s.evu.events[c].inService = true) :
          (storeEntries s.settings.events es)[c].group = s.settings.events[c].group := by
        rcases storeEntries_cases s.settings.events es c with e | ⟨e, he, rfl, hv⟩
        · rw [e]
        · have := List.any_eq_false.mp hg e he
          rw [hc, Bool.true_and, bne_iff_ne, not_not] at this
          rw [hv, this]
      have disabled (u : State) (e : Code × EventCfg) : Handled u (if e.2.enabled then u
          else u.modEvent e.1 fun r => { r with pending := false, inService := false, recurred := false }) :=
        handled_ite _ (fun _ => Handled.refl u) fun _ => handled_disableEvent u e.1
      refine Storable.stored_apart (st := { s.settings with events := storeEntries s.settings.events es })
        { storable_same (capture_of_notSaving hs) with
          groups := groups
          legal := fun i => i.with rfl rfl fun r => { r with
            events := storeEntries_all r.events fun e he => ?_ } }
        ((handled_foldl disabled es _).trans (handled_dispatchTest _)) (fun m => by cases m <;> rfl) rfl rfl
      obtain ⟨_, hp⟩ := writtenEntries_parsed hw he
      exact eventOf_legal hp

theorem stored_writeEventControl (s : State) (data : List Word) : Stored s (s.writeEventControl data).1 := by
  unfold State.writeEventControl
  split
  · exact Stored.refl s
  · next n hn =>
    rcases judge_cases s [(s.saving, .busy)] false (s.withSettings fun st => { st with noticeDest := n }) with
      h | ⟨h, passed⟩
    · rw [h]
      exact Stored.refl s
    · rw [h]
      have idle := capture_of_notSaving (passed _ (List.mem_cons_self ..))
      exact Storable.stored_apart (st := { s.settings with noticeDest := n }) { storable_same idle with
        legal := fun i => i.with rfl rfl fun r => { r with noticeDest := (nodeOf_range (by decide) hn).1 } }
        (Handled.refl _) (fun m => by cases m <;> rfl) rfl rfl

theorem stored_writeRingControl (s : State) (data : List Word) : Stored s (s.writeRingControl data).1 := by
  unfold State.writeRingControl
  split
  · exact Stored.refl s
  · next o _ =>
    rcases judge_cases s [(s.saving, .busy)] false (s.withSettings fun st => { st with offer := o }) with
      h | ⟨h, passed⟩
    · rw [h]
      exact Stored.refl s
    · rw [h]
      have idle := capture_of_notSaving (passed _ (List.mem_cons_self ..))
      exact Storable.stored_apart (st := { s.settings with offer := o })
        { storable_same idle with legal := fun i => i.with rfl rfl fun r => { r with } }
        (Handled.refl _) (fun m => by cases m <;> rfl) rfl rfl

theorem stored_writeMgtControl (s : State) (data : List Word) : Stored s (s.writeMgtControl data).1 := by
  unfold State.writeMgtControl
  split
  · exact Stored.refl s
  · next b _ =>
    rcases judge_cases s [(s.saving, .busy)] false (s.withSettings fun st => { st with bootAutostart := b }) with
      h | ⟨h, passed⟩
    · rw [h]
      exact Stored.refl s
    · rw [h]
      have idle := capture_of_notSaving (passed _ (List.mem_cons_self ..))
      exact Storable.stored_apart (st := { s.settings with bootAutostart := b })
        { storable_same idle with legal := fun i => i.with rfl rfl fun r => { r with } }
        (Handled.refl _) (fun m => by cases m <;> rfl) rfl rfl

/-! ### Any write -/

theorem stored_writeRegion (s : State) (r : Region) (off : Nat) (data : List Word) :
    Stored s (s.writeRegion r off data).1 := by
  cases r with
  | mgtControl => exact stored_writeMgtControl s data
  | ringControl => exact stored_writeRingControl s data
  | seqControl => exact stored_writeScheme s data
  | channels => exact stored_writeChans s off data
  | steps => exact stored_writeSteps s off data
  | sampleMap => exact stored_writeSampleMap s off data
  | signals => exact stored_writeSignals s off data
  | limits => exact stored_writeLimits s off data
  | allocator => exact stored_writeAllocator s off data
  | tags => exact stored_writeTags s off data
  | convParams => exact stored_writeConv s off data
  | alwParams => exact stored_writeAlw s off data
  | yawParams => exact stored_writeYaw s off data
  | yawRecord => exact stored_writeTwist s off data
  | clcParams => exact stored_writeClc s off data
  | stages => exact stored_writeStages s off data
  | descriptors => exact stored_writeEvents s off data
  | eventControl => exact stored_writeEventControl s data
  | _ => exact Stored.refl s

theorem stored_serveWrite (s : State) (a : Word) (n : Octet) (data : List Word) : Stored s (s.serveWrite a n data).1 := by
  unfold State.serveWrite
  split
  · exact Stored.refl s
  · split
    · exact Stored.refl s
    · exact stored_writeRegion s _ _ data

/-- A WRITE as it is served: orderly, and the range of a channel that is not MASKED stays. -/
theorem writeAt_orderly (s : State) (src : Node) (a : Word) (n : Octet) (data : List Word) :
    Orderly s (s.writeAt src a n data) ∧
      ∀ c : ChanIx, (s.chan c).state ≠ .masked → sameRange s (s.writeAt src a n data) c := by
  rcases served_cases s src 1 a (plain fun s => s.serveWrite a n data) with still | ⟨_, room, eq⟩
  · exact ⟨still.toOrderly, fun c _ => sameRange_of_tables (congrArg _ still.settings) (congrArg _ still.settings) c⟩
  · have stored := stored_serveWrite s a n data
    have answered := still_answer (s := (s.serveWrite a n data).1)
      { dest := src, kind := 1, status := (s.serveWrite a n data).2, addr := a, data := [] } (stored.class3 ▸ room)
    rw [State.writeAt, eq]
    dsimp only [plain]
    refine ⟨stored.toOrderly.trans answered.toOrderly, fun c hc => ?_⟩
    unfold sameRange
    rw [answered.settings]
    exact stored.ranges c hc

end Sys2Proof.Machine
end

section
/-! The state after a reset keeps the laws, and with the resets, BOOT_END and the insertion every command is taken
apart: `exec_cases` says what a command can be for the laws. -/

namespace Sys2Proof.Machine

/-! ### The default tables -/

theorem defaultSampleEntry_legal : defaultSampleEntry.legal := by
  unfold SampleEntry.legal int16
  decide

theorem defaultLimit_legal : defaultLimit.legal := by
  unfold LimitCfg.legal int16
  decide

theorem defaultChan_legal : defaultChan.legal := by
  unfold ChanCfg.legal int16
  decide

theorem defaultStep_legal : defaultStep.legal := ⟨by decide, by decide⟩

theorem defaultStages_legal (i : StageIx) : defaultSettings.stages[i].legal := by
  unfold Stage.legal int16
  revert i
  decide

theorem defaultConv_legal : defaultSettings.conv.legal := by
  unfold ConvCfg.legal
  decide

theorem defaultAlw_legal : defaultSettings.alw.legal := by
  unfold AlwCfg.legal int16
  decide

theorem defaultYaw_legal : defaultSettings.yaw.legal := by
  unfold YawCfg.legal
  decide

theorem defaultClc_legal : defaultSettings.clc.legal := by
  unfold ClcCfg.legal
  decide

theorem defaultSettings_ranges : defaultSettings.Ranges where
  sampleMap i := by
    rw [show defaultSettings.sampleMap[i] = defaultSampleEntry from Vector.getElem_replicate ..]
    exact defaultSampleEntry_legal
  signals i := by
    rw [show defaultSettings.signals[i] = defaultSignal from Vector.getElem_replicate ..]
    exact ⟨by decide, by decide, .inl rfl⟩
  limits i := by
    rw [show defaultSettings.limits[i] = defaultLimit from Vector.getElem_replicate ..]
    exact defaultLimit_legal
  chans i := by
    rw [show defaultSettings.chans[i] = defaultChan from Vector.getElem_replicate ..]
    exact defaultChan_legal
  steps i := by
    rw [show defaultSettings.steps[i] = defaultStep from Vector.getElem_replicate ..]
    exact defaultStep_legal
  gridCap := by decide
  sagCap := by decide
  backupCap := by decide
  tags i := by
    rw [show defaultSettings.tags[i] = defaultTag from Vector.getElem_replicate ..]
    exact ⟨by decide, by decide⟩
  conv := defaultConv_legal
  alw := defaultAlw_legal
  yaw := defaultYaw_legal
  clc := defaultClc_legal
  stages := defaultStages_legal
  ordered := by decide
  events i := by
    rw [show defaultSettings.events[i] = defaultEvent i from tabulate_get ..]
    exact Nat.zero_le _
  noticeDest := by decide

theorem defaultSettings_legal : defaultSettings.legal := by
  have entry (i : MapIx) : defaultSettings.sampleMap[i].valid = false :=
    congrArg SampleEntry.valid (Vector.getElem_replicate ..)
  have feed (i : SigIx) : defaultSettings.signals[i].feed = .sampled :=
    congrArg SignalCfg.feed (Vector.getElem_replicate ..)
  refine (Settings.legal_iff _).mpr ⟨defaultSettings_ranges, fun i _ hi => ?_, fun i hi => ?_, fun i _ hi => ?_⟩
  · exact absurd ((entry i).symm.trans hi) Bool.false_ne_true
  · exact absurd ((entry i).symm.trans hi) Bool.false_ne_true
  · exact absurd (feed i) hi

theorem Settings.legal.factorsBounded {st : Settings} (h : st.legal) : st.factorsBounded := by
  obtain ⟨ranges, _⟩ := st.legal_iff.mp h
  obtain ⟨_, _, _, _, _, _, _, _, _, _, _, _, _, bound, _⟩ := ranges.clc
  refine ⟨fun k => ?_, bound⟩
  obtain ⟨_, _, _, _, _, bound, _⟩ := ranges.stages k
  exact bound

/-! ### Blocks at their reset state -/

theorem resetEvents_get (c : Code) : (Vector.replicate 128 resetEvent)[c] = resetEvent := Vector.getElem_replicate ..

theorem eventLaw_of_quiet {s : State} (h : ∀ c : Code, s.evu.events[c].inService = false) : EventLaw s :=
  ⟨fun c hc => absurd ((h c).symm.trans hc.2) Bool.false_ne_true,
    fun c _ hc => absurd ((h c).symm.trans hc) Bool.false_ne_true⟩

theorem resetSeq_engineOk (st : Settings) : (resetSeq st).engineOk := by
  refine ⟨fun c => ⟨fun h => ?_, nofun⟩, nofun⟩
  have : (resetSeq st).chans[c].state = .masked := by
    simp [resetSeq, resetChan]
  exact absurd (this.symm.trans h) nofun

theorem resetAla_tag (t : TagIx) : resetAla.tags[t] = resetTag := Vector.getElem_replicate ..

theorem resetAla_claimsOk : resetAla.claimsOk := ⟨List.nodup_nil, nofun⟩

theorem resetAla_budgetOk (st : Settings) : resetAla.budgetOk st :=
  .inr fun t ht => absurd (congrArg TagRt.grant (resetAla_tag t)) ht

/-! ### The resets -/

/-- A reset of the blocks over legal settings, none of them in service: the ring interface, the log and the First-Out
Store keep their laws, and so the part keeps all of them. -/
structure ResetTo (s t : State) : Prop where
  straps : t.addrStraps = s.addrStraps
  pending : t.pending = s.pending
  class0 : t.rif.class0 = s.rif.class0 ∨ t.rif.class0 = []
  class1 : t.rif.class1 = s.rif.class1 ∨ t.rif.class1 = []
  class2 : t.rif.class2 = s.rif.class2 ∨ t.rif.class2 = []
  class3 : t.rif.class3 = s.rif.class3 ∨ t.rif.class3 = []
  service : ∀ c : Code, t.evu.events[c].inService = false
  log : t.evu.log = s.evu.log
  nextSeq : t.evu.nextSeq = s.evu.nextSeq
  firstOut : t.evu.firstOut = s.evu.firstOut
  capture : t.capture = none
  image : t.image = s.image
  settings : t.settings = s.settings ∨ t.settings = s.image.getD defaultSettings ∨ t.settings = defaultSettings
  boot : BootLaw s → BootLaw t
  seq : t.seq = resetSeq t.settings
  ala : t.ala = resetAla
  cnv : t.cnv.state = .off
  alw : t.alw = resetAlw
  yaw : t.yaw.state = .held ∧ t.yaw.window = [] ∧ t.yaw.twist = 0
  config : t.part ≠ .operating → t.yaw.inhibit.config = true
  clc : t.clc = resetClc t.settings

theorem length_of_kept {α : Type} {l m : List α} {n : Nat} (h : m = l ∨ m = []) (hl : l.length ≤ n) : m.length ≤ n := by
  rcases h with rfl | rfl
  · exact hl
  · exact Nat.zero_le _

theorem getD_all {P : Settings → Prop} {o : Option Settings} {d : Settings} (hd : P d) (h : ∀ st, o = some st → P st) :
    P (o.getD d) := by
  cases o with
  | none => exact hd
  | some st => exact h st rfl

theorem ResetTo.keepsLaws {s t : State} (h : ResetTo s t) : KeepsLaws s t where
  straps := h.straps
  pending := h.pending
  queue := fun ⟨l0, n0, l1, l2, l3⟩ => by
    refine ⟨?_, length_of_kept h.class0 n0, length_of_kept h.class1 l1, length_of_kept h.class2 l2,
      length_of_kept h.class3 l3⟩
    rcases h.class0 with e | e
    · rwa [e]
    · rw [e]
      rfl
  event _ := eventLaw_of_quiet h.service
  log hl := by
    unfold LogLaw
    rw [h.log, h.nextSeq]
    exact hl
  grows hl := LogGrows.same hl h.log h.nextSeq
  four := by
    rw [h.firstOut]
    exact id
  capture _ := absent h.capture
  boot := h.boot
  rest _ := fun ho => ⟨h.cnv, h.yaw.1, h.config ho⟩
  engine _ := by
    show t.seq.engineOk
    rw [h.seq]
    exact resetSeq_engineOk _
  claims _ := by
    show t.ala.claimsOk
    rw [h.ala]
    exact resetAla_claimsOk
  budget _ := by
    show t.ala.budgetOk t.settings
    rw [h.ala]
    exact resetAla_budgetOk _
  hard _ := fun hd => absurd (h.yaw.1.symm.trans hd) nofun
  range _ := by
    obtain ⟨_, hw, ht⟩ := h.yaw
    unfold YawRangeLaw
    rw [hw, ht]
    decide
  yawGrant _ _ := fun hd => absurd (h.yaw.1.symm.trans hd) nofun
  allowance := fun ⟨hs, hi, _⟩ => by
    have factors : t.settings.factorsBounded := by
      rcases h.settings with e | e | e
      · rwa [e]
      · rw [e]
        exact getD_all defaultSettings_legal.factorsBounded hi
      · rw [e]
        exact defaultSettings_legal.factorsBounded
    refine ⟨factors, h.image ▸ hi, absent h.capture, ?_, ?_⟩
    · rw [h.clc]
      exact factors.1 0
    · rw [h.alw]
      exact ⟨Nat.le_refl _, Nat.le_refl _, Nat.zero_le _⟩
  legal := fun ⟨hs, hi, _⟩ => by
    refine ⟨?_, h.image ▸ hi, absent h.capture⟩
    rcases h.settings with e | e | e
    · rwa [e]
    · rw [e]
      exact getD_all defaultSettings_legal hi
    · rw [e]
      exact defaultSettings_legal

theorem ResetTo.orderly {s t : State} (h : ResetTo s t) (h0 : t.rif.class0 = s.rif.class0) : Orderly s t where
  toKeepsLaws := h.keepsLaws
  block := fun ⟨d, hd⟩ => ⟨d, h0 ▸ hd⟩
  firstOut := h.firstOut ▸ List.prefix_rfl

theorem resetTo_pinReset {s t : State} (h : exec .pinReset s = .next t) : ResetTo s t := by
  cases h
  exact {
    straps := rfl, pending := rfl
    class0 := .inr rfl, class1 := .inr rfl, class2 := .inr rfl, class3 := .inr rfl
    service := fun c => congrArg EventRt.inService (resetEvents_get c)
    log := rfl, nextSeq := rfl, firstOut := rfl, capture := rfl, image := rfl
    settings := .inr (.inr rfl)
    boot := fun _ => ⟨by simp [State.hardReset, State.reset], fun _ => ⟨rfl, rfl⟩⟩
    seq := rfl, ala := rfl, cnv := rfl, alw := rfl, yaw := ⟨rfl, rfl, rfl⟩, config := fun _ => rfl, clc := rfl }

/-- A power-on reset of a state that holds no record is a reset of the blocks. -/
theorem resetTo_powerOn (s : State) (hs : s.evu.log = [] ∧ s.evu.nextSeq = 0 ∧ s.evu.firstOut = []) :
    ResetTo s (s.hardReset .power) where
  straps := rfl
  pending := rfl
  class0 := .inr rfl
  class1 := .inr rfl
  class2 := .inr rfl
  class3 := .inr rfl
  service c := congrArg EventRt.inService (resetEvents_get c)
  log := hs.1.symm
  nextSeq := hs.2.1.symm
  firstOut := hs.2.2.symm
  capture := rfl
  image := rfl
  settings := .inr (.inr rfl)
  boot _ := ⟨by simp [State.hardReset, State.reset], fun _ => ⟨rfl, rfl⟩⟩
  seq := rfl
  ala := rfl
  cnv := rfl
  alw := rfl
  yaw := ⟨rfl, rfl, rfl⟩
  config _ := rfl
  clc := rfl

/-- A power-on reset empties the log and the First-Out Store, and then it keeps every law. -/
theorem keepsLaws_powerOnReset {s t : State} (h : exec .powerOnReset s = .next t) :
    KeepsLaws { s with evu := { s.evu with nextSeq := 0, log := [], firstOut := [] } } t := by
  cases h
  exact (resetTo_powerOn { s with evu := { s.evu with nextSeq := 0, log := [], firstOut := [] } }
    ⟨rfl, rfl, rfl⟩).keepsLaws

theorem resetTo_softState (s : State) : ResetTo s s.softState where
  straps := rfl
  pending := rfl
  class0 := .inl rfl
  class1 := .inl rfl
  class2 := .inl rfl
  class3 := .inl rfl
  service c := by simp [State.softState, EventRt.soft]
  log := rfl
  nextSeq := rfl
  firstOut := rfl
  capture := rfl
  image := rfl
  settings := .inl rfl
  boot := id
  seq := rfl
  ala := rfl
  cnv := rfl
  alw := rfl
  yaw := ⟨rfl, rfl, rfl⟩
  config ho := by
    have rest : s.part ≠ .operating := ho
    simp [State.softState, YawRt.soft, State.operating, rest]
  clc := rfl

theorem still_ite_raise (s : State) (p : Prop) [Decidable p] (c : Code) (d : List Int) :
    Still s (if p then s.raise c d else s) := Still.ite p (fun _ => still_raise s c d) fun _ => Still.refl s

/-- The soft reset keeps the laws, and it keeps the settings. -/
theorem still_softReset (s : State) : Still s s.softReset := by
  have reset : Still s s.softState := ⟨(resetTo_softState s).orderly rfl, rfl⟩
  have started (u : State) : Still u (if u.operating then u.clcStart else u) :=
    Still.ite _ (fun _ => still_of_reach (reach_clcStart u)) fun _ => Still.refl u
  exact ((reset.trans (started _)).trans (still_raise _ _ _)).trans (still_ite_raise _ _ _ _)

theorem still_resetAt (s : State) (src : Node) (a : Word) : Still s (s.resetAt src a) := by
  unfold State.resetAt
  split
  · next room =>
    split
    · exact ((still_pushAnswer s _ room).trans (still_softReset _)).trans (still_settle _)
    · exact still_refuseState src 13 a room
  · exact Still.refl s

/-- The part as BOOT leaves it, with BYPASS released. -/
theorem resetTo_bootLeft (s : State) {p : PartState} (hp : p ≠ .boot) :
    ResetTo s { s.loaded.releaseBypass with part := p } where
  straps := rfl
  pending := rfl
  class0 := .inl rfl
  class1 := .inl rfl
  class2 := .inl rfl
  class3 := .inl rfl
  service c := congrArg EventRt.inService (resetEvents_get c)
  log := rfl
  nextSeq := rfl
  firstOut := rfl
  capture := rfl
  image := rfl
  settings := .inr (.inl rfl)
  boot _ := ⟨by simp [State.releaseBypass, hp], fun hb => absurd hb hp⟩
  seq := rfl
  ala := rfl
  cnv := rfl
  alw := rfl
  yaw := ⟨rfl, rfl, rfl⟩
  config _ := rfl
  clc := rfl

theorem reach_enterOperating (s : State) : Reach { s with part := .operating } s.enterOperating :=
  reach_enterBlocks { s with part := .operating } rfl

/-- The part state chosen at the end of BOOT. -/
theorem orderly_chosen (s : State) (b : Bool) : Orderly s (if b then s.loaded.releaseBypass.enterOperating
    else { s.loaded.releaseBypass with part := .configuration }) := by
  have reset {p : PartState} (hp : p ≠ .boot) : Orderly s { s.loaded.releaseBypass with part := p } :=
    (resetTo_bootLeft s hp).orderly rfl
  split
  · have operating : PartState.operating ≠ .boot := nofun
    exact (reset operating).trans (still_of_reach (reach_enterOperating _)).toOrderly
  · have configured : PartState.configuration ≠ .boot := nofun
    exact reset configured

theorem orderly_leaveBoot (s : State) : Orderly s s.loaded.leaveBoot := by
  have raised (u : State) (d : List Int) (hu : Orderly s u) (o : Option Nat) :
      Orderly s (match o with
        | none => u.raise 0 d
        | some a => (u.raise 0 d).raise 28 [(a : Int)]) := by
    cases o with
    | none => exact hu.trans (still_raise u 0 d).toOrderly
    | some a => exact (hu.trans (still_raise u 0 d).toOrderly).trans (still_raise _ _ _).toOrderly
  exact raised _ _ (orderly_chosen s _) _

theorem orderly_bootEnd {s t : State} (h : exec .bootEnd s = .next t) : Orderly s t := by
  cases h
  show Orderly s (if s.part = .boot then s.loaded.leaveBoot.settle else s)
  split
  · exact (orderly_leaveBoot s).trans (still_settle _).toOrderly
  · exact Orderly.refl s

/-! ### The insertion -/

/-- A change that keeps the laws, the First-Out Store and the settings; a frame may leave the Insertion Queue. -/
structure Inserts (s t : State) : Prop extends KeepsLaws s t where
  firstOut : s.evu.firstOut <+: t.evu.firstOut
  settings : t.settings = s.settings

theorem Inserts.trans {s t u : State} (a : Inserts s t) (b : Inserts t u) : Inserts s u where
  toKeepsLaws := a.toKeepsLaws.trans b.toKeepsLaws
  firstOut := a.firstOut.trans b.firstOut
  settings := b.settings.trans a.settings

theorem Still.inserts {s t : State} (h : Still s t) : Inserts s t := ⟨h.toKeepsLaws, h.firstOut, h.settings⟩

/-- A tail of the class 0 queue keeps its shape. -/
theorem class0Shape_suffix {l m : List Class0} (h : m <:+ l) (hl : class0Shape l = true) : class0Shape m = true := by
  obtain e | ⟨g, e⟩ | ⟨_, _, _, _, e⟩ | ⟨_, _, _, _, e⟩ | ⟨_, _, _, _, _, _, _, e⟩ := class0Shape_cases hl <;>
    rw [e] at h <;> simp only [List.suffix_cons_iff, List.suffix_nil] at h
  · rw [h]
    rfl
  · obtain e | e := h <;> rw [e] <;> rfl
  · obtain e | e | e := h <;> rw [e] <;> rfl
  · obtain e | e | e := h <;> rw [e] <;> rfl
  · obtain e | e | e | e := h <;> rw [e] <;> rfl

/-- The queue without the head of one class. -/
theorem inserts_leave (s : State) (r : RifRt) (h0 : r.class0 <:+ s.rif.class0) (h1 : r.class1 <:+ s.rif.class1)
    (h2 : r.class2 <:+ s.rif.class2) (h3 : r.class3 <:+ s.rif.class3) (hi : r.portIn = s.rif.portIn)
    (ho : r.portOut = s.rif.portOut) : Inserts s { s with rif := r } where
  toKeepsLaws := { KeepsLaws.refl s with
    queue := fun ⟨l0, n0, l1, l2, l3⟩ => ⟨class0Shape_suffix h0 l0, h0.length_le.trans n0, h1.length_le.trans l1,
      h2.length_le.trans l2, h3.length_le.trans l3⟩
    boot := fun ⟨hy, hp⟩ => ⟨hy, fun hb => hi ▸ ho ▸ hp hb⟩ }
  firstOut := List.prefix_rfl
  settings := rfl

theorem inserts_insertHead (s : State) : Inserts s s.insertHead := by
  have tail {α : Type} {l : List α} {a : α} {m : List α} (h : l = a :: m) : m <:+ l := h ▸ List.suffix_cons a m
  have same {α : Type} {l : List α} : l <:+ l := List.suffix_rfl
  have sent (u : State) (o : LineOut) (hu : Inserts s u) : Inserts s (u.emitLine o) :=
    hu.trans (still_emitLine u o).inserts
  unfold State.insertHead
  split
  · next f rest e0 =>
    exact sent _ _ (inserts_leave s { s.rif with class0 := rest } (tail e0) same same same rfl rfl)
  · next f rest _ e1 =>
    have goOn (u : State) : Inserts u u.releaseQueueWaits.offerHeld :=
      (still_of_reach ((Reach.of_calm (calm_releaseQueueWaits u)).trans (reach_offerHeld _))).inserts
    exact (sent _ _ (inserts_leave s { s.rif with class1 := rest } same (tail e1) same same rfl rfl)).trans (goOn _)
  · next f rest _ _ e2 =>
    exact (sent _ _ (inserts_leave s { s.rif with class2 := rest } same same (tail e2) same rfl rfl)).trans
      (still_dispatchTest _).inserts
  · next f rest _ _ _ e3 =>
    exact sent _ _ (inserts_leave s { s.rif with class3 := rest } same same same (tail e3) rfl rfl)
  · exact (Still.refl s).inserts

theorem inserts_frameInsertion {s t : State} (h : exec .frameInsertion s = .next t) : Inserts s t := by
  cases h
  show Inserts s (if s.rif.portOut.state = .up then s.drainBuffer.insertHead else s)
  split
  · exact (still_drainBuffer s).inserts.trans (inserts_insertHead _)
  · exact (Still.refl s).inserts

end Sys2Proof.Machine
end

section
/-! What a command can be for the laws: orderly, a clearing of the First-Out Store, the insertion, the end of BOOT or
a hard reset. -/

namespace Sys2Proof.Machine

/-! ### The clearing of the First-Out Store -/

theorem dispatchUpTo_firstOut (n : Nat) (s : State) : (dispatchUpTo n s).evu.firstOut = s.evu.firstOut := by
  induction n generalizing s with
  | zero => rfl
  | succ n ih =>
    unfold dispatchUpTo
    split
    · split
      · rfl
      · exact (ih _).trans rfl
    · rfl

theorem dispatchTest_firstOut (s : State) : s.dispatchTest.evu.firstOut = s.evu.firstOut := dispatchUpTo_firstOut 4 s

/-- A change that keeps every law and the settings, and empties the First-Out Store where no hand-over was left. -/
structure Cleared (s t : State) : Prop extends KeepsLaws s t where
  block : BlockQueued s → BlockQueued t
  firstOut : s.work = [] → t.evu.firstOut = []
  settings : t.settings = s.settings

theorem Cleared.andThen {s t u : State} (a : Cleared s t) (b : Still t u)
    (hf : s.work = [] → u.evu.firstOut = t.evu.firstOut) : Cleared s u where
  toKeepsLaws := a.toKeepsLaws.trans b.toKeepsLaws
  block h := b.block (a.block h)
  firstOut h := (hf h).trans (a.firstOut h)
  settings := b.settings.trans a.settings

theorem cleared_firstOut (s : State) : Cleared s (s.modEvu fun e => { e with firstOut := [] }) where
  toKeepsLaws := { KeepsLaws.refl s with
    grows := fun h => LogGrows.same h rfl rfl
    four := fun _ => Nat.zero_le _ }
  block := id
  firstOut _ := rfl
  settings := rfl

theorem cleared_clearFirstOut (s : State) : Cleared s s.clearFirstOut.1 :=
  (cleared_firstOut s).andThen (still_dispatchTest _) fun _ => dispatchTest_firstOut _

/-- CLEAR FIRST-OUT is discarded, refused in BOOT, or empties the store. -/
theorem served_clearFirstOut (s : State) (src : Node) (k : Octet) (a : Word) :
    Still s (s.served src k a (plain State.clearFirstOut)) ∨
      Cleared s (s.served src k a (plain State.clearFirstOut)) := by
  rcases served_cases s src k a (plain State.clearFirstOut) with still | ⟨_, room, eq⟩
  · exact .inl still
  · rw [eq]
    dsimp only [plain]
    have room' : s.clearFirstOut.1.rif.class3.length < 2 :=
      (handled_dispatchTest (s.modEvu fun e => { e with firstOut := [] })).class3 ▸ room
    have quiet (ans : MgtAnswer) (h : s.work = []) : (s.clearFirstOut.1.pushAnswer ans).work = [] :=
      (dispatchTest_work (s.modEvu fun e => { e with firstOut := [] })).trans h
    refine .inr ((cleared_clearFirstOut s).andThen (still_answer _ room') fun h => ?_)
    rw [settle_nil (quiet _ h)]
    rfl

/-! ### Requests in frames -/

/-- Out of BOOT a handler is a handled change. -/
def Handles (f : State → State × Status × List Word) : Prop := ∀ s : State, s.part ≠ .boot → Handled s (f s).1

theorem handles_plain {f : State → State × Status} (h : ∀ s, Handled s (f s).1) : Handles (plain f) := fun s _ => h s

theorem handles_outOfRange : Handles outOfRange := fun s _ => Handled.refl s

theorem handles_clearHandler {a q : Word} (h : a.toNat ≠ 2) : Handles (clearHandler a q) := by
  unfold clearHandler
  split
  · exact handles_plain fun s => handled_of_reach (reach_clearTrip s)
  · exact handles_plain fun s => handled_of_reach (reach_clearYaw s)
  · exact absurd ‹_› h
  · exact handles_plain handled_clearCounts
  · exact handles_plain fun s => handled_clearPending s q
  · exact handles_outOfRange

theorem handles_conversionHandler (a : Word) : Handles (conversionHandler a) := by
  unfold conversionHandler
  split
  · exact handles_plain fun s => handled_of_reach (reach_convStart s)
  · exact handles_plain fun s => handled_of_reach (reach_convRun s)
  · exact handles_plain fun s => handled_of_reach (reach_convStop s)
  · exact handles_outOfRange

theorem handled_enableYaw (s : State) : Handled s s.enableYaw.1 :=
  handled_of_reach (reach_putInhibit s .management false (.inl nofun))

theorem handled_disableYaw (s : State) : Handled s s.disableYaw.1 := handled_of_reach (reach_addStopping s .management)

theorem handles_yawHandler (a : Word) : Handles (yawHandler a) := by
  unfold yawHandler
  split
  · exact handles_plain handled_enableYaw
  · exact handles_plain handled_disableYaw
  · exact handles_outOfRange

/-- The handler of a request that is no WRITE and no CLEAR FIRST-OUT. -/
theorem handles_handler (r : Request) (hw : r.kind.toNat ≠ 1) (hc : r.kind.toNat = 7 → r.addr.toNat ≠ 2) :
    Handles r.handler := by
  unfold Request.handler
  split
  · exact fun s _ => handled_serveRead s _ _ _
  · exact absurd ‹_› hw
  · exact handles_plain (handled_chanRequest _ calm_startChan)
  · exact handles_plain (handled_chanRequest _ calm_abortRequest)
  · exact handles_plain (handled_chanRequest _ calm_maskRequest)
  · exact handles_plain (handled_chanRequest _ calm_unmaskRequest)
  · exact handles_plain fun s => handled_ackRequest s _
  · exact handles_clearHandler (hc ‹_›)
  · exact handles_conversionHandler _
  · exact handles_yawHandler _
  · exact handles_plain handled_saveRequest
  · exact handled_commissionRequest
  · exact handled_decommissionRequest
  · exact handles_outOfRange

/-- A change that keeps the laws and the descriptors and steps of every channel that is not MASKED. -/
structure Tidy (s t : State) : Prop extends Orderly s t where
  ranges : ∀ c : ChanIx, (s.chan c).state ≠ .masked → sameRange s t c

theorem Still.tidy {s t : State} (h : Still s t) : Tidy s t :=
  ⟨h.toOrderly, fun c _ => sameRange_of_tables (congrArg _ h.settings) (congrArg _ h.settings) c⟩

theorem tidy_writeAt (s : State) (src : Node) (a : Word) (n : Octet) (data : List Word) :
    Tidy s (s.writeAt src a n data) :=
  have ⟨orderly, ranges⟩ := writeAt_orderly s src a n data
  ⟨orderly, ranges⟩

theorem takeRequest_cases (s : State) (r : Request) : Tidy s (s.takeRequest r) ∨ Cleared s (s.takeRequest r) := by
  unfold State.takeRequest
  split
  · exact .inl (still_resetAt s _ _).tidy
  · by_cases hw : r.kind.toNat = 1
    · have kind : r.kind = 1 := BitVec.eq_of_toNat_eq hw
      have handler : r.handler = plain fun s => s.serveWrite r.addr r.len r.data := by
        unfold Request.handler
        rw [hw]
        rfl
      rw [handler, kind]
      exact .inl (tidy_writeAt s r.src r.addr r.len r.data)
    · by_cases hc : r.kind.toNat = 7 ∧ r.addr.toNat = 2
      · have handler : r.handler = plain State.clearFirstOut := by
          unfold Request.handler clearHandler
          rw [hc.1, hc.2]
          rfl
        rw [handler]
        exact (served_clearFirstOut s _ _ _).imp_left Still.tidy
      · exact .inl (still_served _ _ _ fun awake =>
          handles_handler r hw (fun h7 h2 => hc ⟨h7, h2⟩) s awake).tidy

/-! ### Received frames -/

theorem still_forward (s : State) (f : RxFrame) : Still s (s.forward f) := by
  refine Still.ite _ (fun _ => ?_) fun _ => Still.refl s
  refine Still.ite _ (fun _ => still_emitLine s _) fun _ => ?_
  exact Still.ite _ (fun _ => still_rif s _ rfl rfl rfl id fun _ hi ho => ⟨hi, ho⟩) fun _ => Still.refl s

theorem still_copyMark (s : State) (os : List Octet) : Still s (s.copyMark os) := by
  unfold State.copyMark
  split
  · exact still_useMark s _
  · exact Still.refl s

theorem still_copySample (s : State) (os : List Octet) : Still s (s.copySample os) := by
  unfold State.copySample
  split
  · exact Still.ite _ (fun _ => still_takeSampleFrame s _ _ _ _) fun _ => Still.refl s
  · exact Still.refl s

theorem still_raiseCheck (s : State) (os : List Octet) : Still s (s.raiseCheck os) := still_raise s _ _

/-- A received frame is a still change, or a request to the part. -/
theorem receive_cases (s : State) (f : RxFrame) :
    Still s (s.receive f) ∨ ∃ r, s.receive f = s.takeRequest r := by
  unfold State.receive
  dsimp only
  split
  · exact .inl ((still_forward s _).trans (still_raise _ _ _))
  · split
    · exact .inl (still_forward s f)
    · split
      · exact .inl ((still_forward s _).trans (still_raise _ _ _))
      · unfold State.filterFrame
        dsimp only
        split
        · exact .inl (Still.ite _ (fun _ => Still.refl s) fun _ => still_raiseCheck s _)
        · split
          · split
            · unfold State.consume
              split
              · exact .inl (Still.refl s)
              · exact .inr ⟨_, rfl⟩
            · exact .inl (still_raiseCheck s _)
          · split
            · have copied (u : State) (os : List Octet) : Still u (if frameClass os = 0 then u.copyMark os
                  else if frameClass os = 1 then u.copySample os else u) :=
                Still.ite _ (fun _ => still_copyMark u os) fun _ =>
                  Still.ite _ (fun _ => still_copySample u os) fun _ => Still.refl u
              exact .inl ((still_forward s _).trans (copied _ _))
            · exact .inl ((still_forward s _).trans (still_raiseCheck _ _))

/-! ### Saves -/

/-- The captured settings become the image, or the capture is dropped. -/
theorem still_image (s : State) (o : Option Settings) (b : Bool) (h : o = s.capture ∨ o = s.image) :
    Still s { s with image := o, imageValid := b, capture := none } := by
  have kept {P : Settings → Prop} (hi : ∀ st, s.image = some st → P st) (hc : ∀ st, s.capture = some st → P st) :
      ∀ st, o = some st → P st := by
    rcases h with rfl | rfl
    · exact hc
    · exact hi
  exact {
    Still.refl s with
    capture := fun _ => absent rfl
    allowance := fun ⟨hs, hi, hc, rest⟩ => ⟨hs, kept hi hc, absent rfl, rest⟩
    legal := fun ⟨hs, hi, hc⟩ => ⟨hs, kept hi hc, absent rfl⟩ }

theorem still_saveCompletion {s t : State} (h : exec .saveCompletion s = .next t) : Still s t := by
  cases h
  split
  · exact Still.refl s
  · next c hc => exact (still_image s (some c) true (.inl hc.symm)).trans (still_raise _ 25 [])

theorem still_saveFailure {o : Word} {s t : State} (h : exec (.saveFailure o) s = .next t) : Still s t := by
  cases h
  split
  · exact Still.refl s
  · exact (still_image s s.image s.imageValid (.inr rfl)).trans (still_raise _ 26 _)

/-! ### Turns of the engine -/

theorem calm_turn (s : State) (f : State → ChanIx → Step → Option State)
    (h : ∀ c st t, s.seq.holder = some c → f s c st = some t → Calm s t) : Still s (s.engineStep f).settle :=
  (still_of_reach (Reach.of_calm (calm_engineStep s f fun c st t hc _ ht => h c st t hc ht))).trans (still_settle _)

theorem still_calmSettle {s u : State} (h : Calm s u) : Still s u.settle :=
  (still_of_reach (Reach.of_calm h)).trans (still_settle _)

theorem still_reachSettle {s u : State} (h : Reach s u) : Still s u.settle :=
  (still_of_reach h).trans (still_settle _)

/-! ### Every command -/

/-- What a command can be for the laws. -/
inductive CommandEffect (i : Instr) (s t : State) : Prop
  | tidy (h : Tidy s t)
  | clears (hi : (∃ src, i = .clearFirstOut src) ∨ ∃ f, i = .frameReceived f) (h : Cleared s t)
  | inserts (hi : i = .frameInsertion) (h : Inserts s t)
  | leavesBoot (hi : i = .bootEnd) (h : Orderly s t)
  | pinReset (hi : i = .pinReset) (h : ResetTo s t)
  | powerOn (hi : i = .powerOnReset)

theorem CommandEffect.still {i : Instr} {s t : State} (h : Still s t) : CommandEffect i s t := .tidy h.tidy

theorem effect_frameReceived {f : RxFrame} {s t : State} (h : exec (.frameReceived f) s = .next t) :
    CommandEffect (.frameReceived f) s t := by
  cases h
  split
  · rcases receive_cases s f with still | ⟨r, eq⟩
    · exact .still still
    · rw [eq]
      rcases takeRequest_cases s r with tidy | clears
      · exact .tidy tidy
      · exact .clears (.inr ⟨f, rfl⟩) clears
  · exact .still (Still.refl s)

theorem effect_clearFirstOut {src : Node} {s t : State} (h : exec (.clearFirstOut src) s = .next t) :
    CommandEffect (.clearFirstOut src) s t := by
  cases h
  rcases served_clearFirstOut s src 7 2 with still | clears
  · exact .still still
  · exact .clears (.inl ⟨src, rfl⟩) clears

theorem still_cycleMark {n : RingTime} {s t : State} (h : exec (.cycleMark n) s = .next t) : Still s t := by
  cases h
  exact Still.ite _ (fun _ => still_useMark s n) fun _ => Still.refl s

theorem still_emit {s t : State} (h : exec .emit s = .next t) : Still s t := by
  cases h
  refine calm_turn s _ fun c st t hc ht => ?_
  cases st <;> cases ht
  exact calm_emitStep s c _ _ hc

theorem still_await {s t : State} (h : exec .await s = .next t) : Still s t := by
  cases h
  refine calm_turn s _ fun c st t _ ht => ?_
  cases st <;> cases ht
  exact calm_awaitStep s c _ _ _

theorem still_dwell {s t : State} (h : exec .dwell s = .next t) : Still s t := by
  cases h
  refine calm_turn s _ fun c st t _ ht => ?_
  cases st <;> cases ht
  exact calm_afterClose s c _ fun u hu => calm_waitFor u c .dwell hu

theorem still_claim {s t : State} (h : exec .claim s = .next t) : Still s t := by
  cases h
  refine calm_turn s _ fun c st t _ ht => ?_
  cases st <;> cases ht
  exact calm_claimStep s c _ _

theorem still_free {s t : State} (h : exec .free s = .next t) : Still s t := by
  cases h
  refine calm_turn s _ fun c st t _ ht => ?_
  cases st <;> cases ht
  exact calm_freeStep s c _

theorem still_link {s t : State} (h : exec .link s = .next t) : Still s t := by
  cases h
  refine calm_turn s _ fun c st t _ ht => ?_
  cases st <;> cases ht
  exact calm_linkStep s c

/-- Every command, taken apart for the laws. -/
theorem exec_effect {i : Instr} {s t : State} (h : exec i s = .next t) : CommandEffect i s t := by
  cases i with
  | powerOnReset => exact .powerOn rfl
  | pinReset => exact .pinReset rfl (resetTo_pinReset h)
  | bootEnd => exact .leavesBoot rfl (orderly_bootEnd h)
  | lineActivity p => exact .still (still_lineActivity h)
  | alignmentBurstTimer p => exact .still (still_alignmentBurstTimer h)
  | burstReceived p i w g => exact .still (still_burstReceived h)
  | acknowledgeBurstsSent p => exact .still (still_acknowledgeBurstsSent h)
  | lineNoActivity p => exact .still (still_lineNoActivity h)
  | dataLock p => exact .still (still_dataLock h)
  | verifyTimeout p => exact .still (still_verifyTimeout h)
  | stuckTimeout p => exact .still (still_stuckTimeout h)
  | linkLoss p k os => exact .still (still_linkLoss h)
  | silentEnd p a => exact .still (still_silentEnd h)
  | frameReceived f => exact effect_frameReceived h
  | cycleMark n => exact .still (still_cycleMark h)
  | cycleMarksLost => exact .still (still_cycleMarksLost h)
  | localCycleEvent => exact .still (still_localCycleEvent h)
  | frameInsertion => exact .inserts rfl (inserts_frameInsertion h)
  | sampleFrame src sq n items => cases h; exact .still (still_takeSampleFrame s src sq n items)
  | contributorStale n k => cases h; exact .still (still_calmSettle (calm_staleContributor s n k))
  | stepEngineGrant => cases h; exact .still (still_calmSettle (calm_grantEngine s))
  | emit => exact .still (still_emit h)
  | await => exact .still (still_await h)
  | awaitTimeout c => cases h; exact .still (still_calmSettle (calm_awaitExpiry s c))
  | dwell => exact .still (still_dwell h)
  | dwellComplete c => cases h; exact .still (still_calmSettle (calm_dwellExpiry s c))
  | claim => exact .still (still_claim h)
  | claimTimeout c => cases h; exact .still (still_calmSettle (calm_claimExpiry s c))
  | free => exact .still (still_free h)
  | link => exact .still (still_link h)
  | stallWindow => cases h; exact .still (still_reachSettle (reach_stallCheck s))
  | restElapsed => cases h; exact .still (still_reachSettle (reach_restCheck s))
  | stageDwellElapsed => cases h; exact .still (still_reachSettle (reach_dwellTest s))
  | flowWindow => cases h; exact .still (still_reachSettle (reach_windowTest s))
  | read src a n q => cases h; exact .still (still_served _ _ _ fun _ => handled_serveRead s a n q)
  | portStatusRead src p o n => cases h; exact .still (still_served _ _ _ fun _ => handled_serveRead s _ n _)
  | logRead src st o n => cases h; exact .still (still_served _ _ _ fun _ => handled_serveRead s _ n _)
  | sampleMapWrite src o n d => cases h; exact .tidy (tidy_writeAt s src _ n d)
  | signalRecordWrite src o n d => cases h; exact .tidy (tidy_writeAt s src _ n d)
  | limitTableWrite src o n d => cases h; exact .tidy (tidy_writeAt s src _ n d)
  | channelDescriptorWrite src o n d => cases h; exact .tidy (tidy_writeAt s src _ n d)
  | prioritySchemeWrite src o n d => cases h; exact .tidy (tidy_writeAt s src _ n d)
  | stepListWrite src o n d => cases h; exact .tidy (tidy_writeAt s src _ n d)
  | capacityWrite src o n d => cases h; exact .tidy (tidy_writeAt s src _ n d)
  | loadTagWrite src o n d => cases h; exact .tidy (tidy_writeAt s src _ n d)
  | conversionParameterWrite src o n d => cases h; exact .tidy (tidy_writeAt s src _ n d)
  | allowanceParameterWrite src o n d => cases h; exact .tidy (tidy_writeAt s src _ n d)
  | yawParameterWrite src o n d => cases h; exact .tidy (tidy_writeAt s src _ n d)
  | twistPreset src o n d => cases h; exact .tidy (tidy_writeAt s src _ n d)
  | coolingWrite src o n d => cases h; exact .tidy (tidy_writeAt s src _ n d)
  | eventDescriptorWrite src o n d => cases h; exact .tidy (tidy_writeAt s src _ n d)
  | eventControlWrite src o n d => cases h; exact .tidy (tidy_writeAt s src _ n d)
  | ringControlWrite src o n d => cases h; exact .tidy (tidy_writeAt s src _ n d)
  | managementControlWrite src o n d => cases h; exact .tidy (tidy_writeAt s src _ n d)
  | write src a n d => cases h; exact .tidy (tidy_writeAt s src a n d)
  | start src q => cases h; exact .still (still_served _ _ _ fun _ => handled_chanRequest q calm_startChan s)
  | abort src q => cases h; exact .still (still_served _ _ _ fun _ => handled_chanRequest q calm_abortRequest s)
  | mask src q => cases h; exact .still (still_served _ _ _ fun _ => handled_chanRequest q calm_maskRequest s)
  | unmask src q => cases h; exact .still (still_served _ _ _ fun _ => handled_chanRequest q calm_unmaskRequest s)
  | ack src q => cases h; exact .still (still_served _ _ _ fun _ => handled_ackRequest s q)
  | clearTrip src => cases h; exact .still (still_served _ _ _ fun _ => handled_of_reach (reach_clearTrip s))
  | clearYaw src => cases h; exact .still (still_served _ _ _ fun _ => handled_of_reach (reach_clearYaw s))
  | clearFirstOut src => exact effect_clearFirstOut h
  | clearEventCounts src => cases h; exact .still (still_served _ _ _ fun _ => handled_clearCounts s)
  | clearPending src q => cases h; exact .still (still_served _ _ _ fun _ => handled_clearPending s q)
  | conversionStart src => cases h; exact .still (still_served _ _ _ fun _ => handled_of_reach (reach_convStart s))
  | conversionRun src => cases h; exact .still (still_served _ _ _ fun _ => handled_of_reach (reach_convRun s))
  | conversionStop src => cases h; exact .still (still_served _ _ _ fun _ => handled_of_reach (reach_convStop s))
  | yawEnable src => cases h; exact .still (still_served _ _ _ fun _ => handled_enableYaw s)
  | yawDisable src => cases h; exact .still (still_served _ _ _ fun _ => handled_disableYaw s)
  | save src => cases h; exact .still (still_served _ _ _ fun _ => handled_saveRequest s)
  | saveCompletion => exact .still (still_saveCompletion h)
  | saveFailure o => exact .still (still_saveFailure h)
  | commission src => cases h; exact .still (still_served _ _ _ fun awake => handled_commissionRequest s awake)
  | decommission src => cases h; exact .still (still_served _ _ _ fun awake => handled_decommissionRequest s awake)
  | reset src => cases h; exact .still (still_resetAt s src 0)

end Sys2Proof.Machine
end

section
/-! The laws that every step keeps, and the first statements on every command. -/

namespace Sys2Proof.Machine

/-- The state with no record in the log and none in the First-Out Store. -/
def State.forgotten (s : State) : State := { s with evu := { s.evu with nextSeq := 0, log := [], firstOut := [] } }

/-- Every command keeps the laws; a power-on reset does so once the log and the store are empty. -/
theorem exec_keeps {i : Instr} {s t : State} (h : exec i s = .next t) :
    KeepsLaws s t ∨ i = .powerOnReset ∧ KeepsLaws s.forgotten t := by
  cases exec_effect h with
  | tidy h => exact .inl h.toKeepsLaws
  | clears _ h => exact .inl h.toKeepsLaws
  | inserts _ h => exact .inl h.toKeepsLaws
  | leavesBoot _ h => exact .inl h.toKeepsLaws
  | pinReset _ h => exact .inl h.keepsLaws
  | powerOn hi =>
    subst hi
    exact .inr ⟨rfl, keepsLaws_powerOnReset h⟩

theorem step_cases {s t : State} (h : step s = .next t) :
    (s.pending = [] ∧ Still s t) ∨
      ∃ c rest, s.pending = c :: rest ∧ exec c { s with pending := rest } = .next t := by
  unfold step at h
  split at h
  · next e =>
    cases h
    exact .inl ⟨e, still_drainBuffer s⟩
  · next c rest e => exact .inr ⟨c, rest, e, h⟩

/-- A law that `KeepsLaws` names, and that neither the queue of commands nor the records of the log take part in, is
kept by every step. -/
theorem step_keeps {P : State → Prop} (keeps : ∀ s t, KeepsLaws s t → P s → P t)
    (pending : ∀ (s : State) l, P s → P { s with pending := l }) (forgotten : ∀ s : State, P s → P s.forgotten)
    {s t : State} (hs : P s) (h : step s = .next t) : P t := by
  rcases step_cases h with ⟨_, still⟩ | ⟨c, rest, _, run⟩
  · exact keeps s t still.toKeepsLaws hs
  · rcases exec_keeps run with k | ⟨_, k⟩
    · exact keeps _ t k (pending s rest hs)
    · exact keeps _ t k (forgotten _ (pending s rest hs))

/-- Settles O3: the laws of the queue by `step_keeps`; a command other than an insertion and the hard resets takes no
Block Command from class 0. -/
theorem queueLawKept : Obligations.QueueLawKept := by
  unfold Obligations.QueueLawKept
  refine ⟨fun s t hs h => step_keeps (fun _ _ k => k.queue) (fun _ _ => id) (fun _ => id) hs h, ?_⟩
  intro c s t notInserted notPower notPin h
  cases exec_effect h with
  | tidy h => exact h.block
  | clears _ h => exact h.block
  | inserts hi _ => exact absurd hi notInserted
  | leavesBoot _ h => exact h.block
  | pinReset hi _ => exact absurd hi notPin
  | powerOn hi => exact absurd hi notPower

/-- Settles O4. -/
theorem eventLawKept : Obligations.EventLawKept := by
  unfold Obligations.EventLawKept
  exact fun s t hs h => step_keeps (fun _ _ k => k.event) (fun _ _ => id) (fun _ => id) hs h

/-- An emptied log keeps its law. -/
theorem logLaw_forgotten (s : State) : LogLaw s.forgotten := ⟨Nat.zero_le _, nofun⟩

/-- Settles O5: each command but a power-on reset lets the log grow at its end and the First-Out Store stand; the
requests that clear the store empty it, since no hand-over is left to fill it again. -/
theorem logAndFirstOutKept : Obligations.LogAndFirstOutKept := by
  unfold Obligations.LogAndFirstOutKept
  constructor
  case left =>
    intro s t hs h
    refine ⟨step_keeps (fun _ _ k => k.log) (fun _ _ => id) (fun s _ => logLaw_forgotten s) hs h, ?_⟩
    rcases step_cases h with ⟨_, still⟩ | ⟨c, rest, front, run⟩
    · exact .inr (still.grows hs.1)
    · rcases exec_keeps run with k | ⟨power, _⟩
      · exact .inr (k.grows hs.1)
      · exact .inl (by rw [front, power]; rfl)
  case right =>
    intro c s t four h
    have kept (k : KeepsLaws s t) (p : s.evu.firstOut <+: t.evu.firstOut) :
        t.evu.firstOut.length ≤ 4 ∧ (s.work = [] → s.evu.firstOut <+: t.evu.firstOut ∨
          (t.evu.firstOut = [] ∧
            ((∃ src, c = .clearFirstOut src) ∨ (∃ f, c = .frameReceived f) ∨ c = .powerOnReset))) :=
      ⟨k.four four, fun _ => .inl p⟩
    cases exec_effect h with
    | tidy h => exact kept h.toKeepsLaws h.firstOut
    | clears hi h => exact ⟨h.four four, fun quiet => .inr ⟨h.firstOut quiet, hi.imp_right .inl⟩⟩
    | inserts _ h => exact kept h.toKeepsLaws h.firstOut
    | leavesBoot _ h => exact kept h.toKeepsLaws h.firstOut
    | pinReset _ h => exact kept h.keepsLaws (h.firstOut ▸ List.prefix_rfl)
    | powerOn hi =>
      subst hi
      cases h
      exact ⟨Nat.zero_le _, fun _ => .inr ⟨rfl, .inr (.inr rfl)⟩⟩

/-- Settles O6. -/
theorem partLawsKept : Obligations.PartLawsKept := by
  unfold Obligations.PartLawsKept
  exact fun s t h =>
    ⟨fun hs => step_keeps (fun _ _ k => k.capture) (fun _ _ => id) (fun _ => id) hs h,
      fun hs => step_keeps (fun _ _ k => k.boot) (fun _ _ => id) (fun _ => id) hs h,
      fun hs => step_keeps (fun _ _ k => k.rest) (fun _ _ => id) (fun _ => id) hs h⟩

/-- Settles O7. -/
theorem engineLawKept : Obligations.EngineLawKept := by
  unfold Obligations.EngineLawKept
  exact fun s t hs h => step_keeps (fun _ _ k => k.engine) (fun _ _ => id) (fun _ => id) hs h

/-- Settles O8. -/
theorem allocatorLawsKept : Obligations.AllocatorLawsKept := by
  unfold Obligations.AllocatorLawsKept
  exact fun s t h =>
    ⟨fun hs => step_keeps (fun _ _ k => k.claims) (fun _ _ => id) (fun _ => id) hs h,
      fun hs => step_keeps (fun _ _ k => k.budget) (fun _ _ => id) (fun _ => id) hs h⟩

/-- Settles O9; the grant law stands on the law of the Claim Queue. -/
theorem yawLawsKept : Obligations.YawLawsKept := by
  unfold Obligations.YawLawsKept
  have grant (s t : State) (k : KeepsLaws s t) : ClaimLaw s ∧ YawGrantLaw s → ClaimLaw t ∧ YawGrantLaw t :=
    fun ⟨hc, hy⟩ => ⟨k.claims hc, k.yawGrant hc hy⟩
  exact fun s t h =>
    ⟨fun hs => step_keeps (fun _ _ k => k.hard) (fun _ _ => id) (fun _ => id) hs h,
      fun hs => step_keeps (fun _ _ k => k.range) (fun _ _ => id) (fun _ => id) hs h,
      fun hc hy => (step_keeps grant (fun _ _ => id) (fun _ => id) ⟨hc, hy⟩ h).2⟩

/-- Settles O10. -/
theorem allowanceLawKept : Obligations.AllowanceLawKept := by
  unfold Obligations.AllowanceLawKept
  exact fun s t hs h => step_keeps (fun _ _ k => k.allowance) (fun _ _ => id) (fun _ => id) hs h

/-- Settles O12. -/
theorem settingsStayLegal : Obligations.SettingsStayLegal := by
  unfold Obligations.SettingsStayLegal
  exact fun s t hs h => step_keeps (fun _ _ k => k.legal) (fun _ _ => id) (fun _ => id) hs h

/-- Settles O11: a write is refused where it would touch the range of a channel that is not MASKED, and every other
command but the resets and the end of BOOT keeps the tables. -/
theorem runningRangesKept : Obligations.RunningRangesKept := by
  unfold Obligations.RunningRangesKept
  intro i s t c notPower notPin notBoot active h
  have same (e : t.settings = s.settings) : sameRange s t c :=
    sameRange_of_tables (congrArg _ e) (congrArg _ e) c
  cases exec_effect h with
  | tidy h => exact h.ranges c active
  | clears _ h => exact same h.settings
  | inserts _ h => exact same h.settings
  | leavesBoot hi _ => exact absurd hi notBoot
  | pinReset hi _ => exact absurd hi notPin
  | powerOn hi => exact absurd hi notPower

theorem exec_next (c : Instr) (s : State) : ∃ t, exec c s = .next t := by
  cases c <;> exact ⟨_, rfl⟩

/-- Settles O2. -/
theorem everyCommandAnswers : Obligations.EveryCommandAnswers := by
  unfold Obligations.EveryCommandAnswers
  intro c s
  obtain ⟨t, h⟩ := exec_next c s
  rcases exec_keeps h with k | ⟨_, k⟩
  · exact ⟨t, h, k.pending, k.straps⟩
  · exact ⟨t, h, k.pending, k.straps⟩

theorem reset_eventLaw : EventLaw State.reset :=
  eventLaw_of_quiet fun c => congrArg EventRt.inService (resetEvents_get c)

theorem reset_rangeLaw : YawRangeLaw State.reset := by
  unfold YawRangeLaw
  decide

theorem reset_allowanceLaw : AllowanceLaw State.reset := by
  have factors : defaultSettings.factorsBounded := defaultSettings_legal.factorsBounded
  have cooling : (resetClc defaultSettings).cf ≤ 16384 := factors.1 0
  have alw : resetAlw.alwOk := ⟨Nat.le_refl _, Nat.le_refl _, Nat.zero_le _⟩
  exact ⟨factors, absent rfl, absent rfl, cooling, alw⟩

/-- Settles O13: the state after a power-on reset holds every block at its reset state over the default tables. -/
theorem resetKeepsTheLaws : Obligations.ResetKeepsTheLaws := by
  unfold Obligations.ResetKeepsTheLaws
  have queue : QueueLaw State.reset := by
    unfold QueueLaw
    decide
  have log : LogLaw State.reset := ⟨Nat.zero_le _, nofun⟩
  have boot : BootLaw State.reset := ⟨⟨fun _ => rfl, fun _ => rfl⟩, fun _ => ⟨rfl, rfl⟩⟩
  have off : State.reset.yaw.state ≠ .driving := nofun
  exact ⟨queue, reset_eventLaw, log, absent rfl, boot, fun _ => ⟨rfl, rfl, rfl⟩, resetSeq_engineOk defaultSettings,
    resetAla_claimsOk, resetAla_budgetOk defaultSettings, fun h => absurd h off, reset_rangeLaw, fun h => absurd h off,
    reset_allowanceLaw, defaultSettings_legal⟩

end Sys2Proof.Machine
end

section
/-! The words of every table record read back as that record (12.2, 12.4). -/

namespace Sys2Proof.Machine

/-! ### Words of a list -/

@[simp] theorem wordAt_cons_zero (w : Word) (ws : List Word) : wordAt (w :: ws) 0 = w := rfl

@[simp] theorem wordAt_cons_succ (w : Word) (ws : List Word) (k : Nat) : wordAt (w :: ws) (k + 1) = wordAt ws k := rfl

theorem wordAt_append_left {a b : List Word} {k : Nat} (h : k < a.length) : wordAt (a ++ b) k = wordAt a k := by
  rw [wordAt, wordAt, List.getD_eq_getElem?_getD, List.getD_eq_getElem?_getD, List.getElem?_append_left h]

theorem wordAt_append_right (a b : List Word) (k : Nat) : wordAt (a ++ b) (a.length + k) = wordAt b k := by
  rw [wordAt, wordAt, List.getD_eq_getElem?_getD, List.getD_eq_getElem?_getD,
    List.getElem?_append_right (Nat.le_add_right ..), Nat.add_sub_cancel_left]

theorem wordAt_map_toList {α : Type} {n : Nat} (f : α → Word) (v : Vector α n) (k : Fin n) :
    wordAt (v.toList.map f) k = f v[k] := by
  simp [wordAt, List.getD_eq_getElem?_getD]

/-- The words of a counted list of signals. -/
def signalWords (n : Nat) (l : List SigIx) : List Word := wordsList n 1 (l.map fun (i : SigIx) => [wordNat i])

theorem signalWords_eq (n : Nat) (l : List SigIx) :
    signalWords n l = wordNat l.length :: (l.map (fun (i : SigIx) => wordNat i) ++ List.replicate (n - l.length) 0) := by
  have flat : (l.map fun (i : SigIx) => [wordNat i]).flatten = l.map fun (i : SigIx) => wordNat i := by
    induction l with
    | nil => rfl
    | cons i l ih => simp [ih]
  simp [signalWords, wordsList, flat]

theorem signalWords_length {n : Nat} {l : List SigIx} (h : l.length ≤ n) : (signalWords n l).length = n + 1 := by
  rw [signalWords_eq]
  simp
  omega

theorem mapM_some {α : Type} (l : List α) : (l.map some).mapM id = some l := by
  induction l with
  | nil => rfl
  | cons a l ih => simp [List.mapM_cons, ih]

/-- A counted list of signals reads back from the word where its count stands. -/
theorem signalListOf_words {n : Nat} (hn : n < 65536) {l : List SigIx} (h : l.length ≤ n) {ws : List Word} {k : Nat}
    (hw : ∀ j, j ≤ n → wordAt ws (k + j) = wordAt (signalWords n l) j) : signalListOf n ws k = some l := by
  have count : (wordAt ws k).toNat = l.length := by
    rw [show k = k + 0 from rfl, hw 0 (Nat.zero_le _), signalWords_eq, wordAt_cons_zero, wordNat_toNat (by omega)]
  have element (j : Nat) (hj : j < l.length) : ixOf 96 (wordAt ws (k + 1 + j)) = some l[j] := by
    rw [show k + 1 + j = k + (j + 1) by omega, hw _ (by omega), signalWords_eq, wordAt_cons_succ,
      wordAt_append_left (by simpa using hj)]
    rw [show wordAt (l.map fun (i : SigIx) => wordNat i) j = wordNat l[j] by
      simp [wordAt, List.getD_eq_getElem?_getD, hj]]
    exact ixOf_word (by omega) _
  have elements : ((List.range l.length).map fun j => ixOf 96 (wordAt ws (k + 1 + j))) = l.map some := by
    refine List.ext_getElem (by simp) fun j h1 h2 => ?_
    simpa using element j (by simpa using h1)
  unfold signalListOf
  simp only [count, h, if_true, elements, mapM_some]

/-! ### Packed fields -/

theorem ixOf_of_toNat {n : Nat} {w : Word} {i : Fin n} (h : w.toNat = i) : ixOf n w = some i := by
  unfold ixOf
  simp [h]

theorem field_toNat {n : Nat} (h : n < 65536) (lo len : Nat) :
    ((wordNat n).extractLsb' lo len).toNat = n / 2 ^ lo % 2 ^ len := by
  rw [BitVec.extractLsb'_toNat, wordNat_toNat h, Nat.shiftRight_eq_div_pow]

theorem wordNat_msb {n : Nat} (h : n < 65536) : (wordNat n).msb = decide (32768 ≤ n) := by
  rw [BitVec.msb_eq_decide, wordNat_toNat h]

theorem decimation_le {d : Nat} (h : d = 1 ∨ d = 2 ∨ d = 4 ∨ d = 8) : d ≤ 8 := by omega

theorem sampleEntry_readBack (x : SampleEntry) (h : x.legal) : sampleEntryOf x.words = some (x, false) := by
  obtain ⟨dec, gain, offset, low, high, _, rate, _⟩ := h
  have d8 := decimation_le dec
  have src := x.source.isLt
  have ch := x.channel.isLt
  have tg := x.target.isLt
  have sl := x.slot.isLt
  have v1 : yesNo x.valid ≤ 1 := by cases x.valid <;> decide
  have b0 : 32768 * yesNo x.valid + 256 * x.channel + x.source.toNat < 65536 := by omega
  have b1 : 4096 * x.decimation + 256 * x.slot + x.target < 65536 := by omega
  have valid : (wordNat (32768 * yesNo x.valid + 256 * x.channel + x.source.toNat)).msb = x.valid := by
    rw [wordNat_msb b0]
    cases x.valid <;> simp [yesNo] <;> omega
  have source : (wordNat (32768 * yesNo x.valid + 256 * x.channel + x.source.toNat)).extractLsb' 0 6 = x.source := by
    refine BitVec.eq_of_toNat_eq ?_
    rw [field_toNat b0]
    omega
  have channel : ((wordNat (32768 * yesNo x.valid + 256 * x.channel + x.source.toNat)).extractLsb' 8 4).toNat
      = x.channel := by
    rw [field_toNat b0]
    omega
  have target : ixOf 96 (((wordNat (4096 * x.decimation + 256 * x.slot + x.target)).extractLsb' 0 7).setWidth 16)
      = some x.target := by
    refine ixOf_of_toNat ?_
    rw [BitVec.toNat_setWidth, field_toNat b1]
    omega
  have slot : ixOf 3 (((wordNat (4096 * x.decimation + 256 * x.slot + x.target)).extractLsb' 8 2).setWidth 16)
      = some x.slot := by
    refine ixOf_of_toNat ?_
    rw [BitVec.toNat_setWidth, field_toNat b1]
    omega
  have decimation : ((wordNat (4096 * x.decimation + 256 * x.slot + x.target)).extractLsb' 12 4).toNat
      = x.decimation := by
    rw [field_toNat b1]
    omega
  have r16 : (wordNat x.rate).toNat = x.rate := wordNat_toNat (by omega)
  unfold sampleEntryOf SampleEntry.words
  simp only [wordAt_cons_zero, wordAt_cons_succ, target, slot, decimation, valid, source, channel, dec, r16,
    wordInt_toInt gain, wordInt_toInt offset, wordInt_toInt low, wordInt_toInt high,
    clampU_in (Nat.zero_le _) rate, movedU_in (Nat.zero_le _) rate, Option.bind_eq_bind, Option.bind_some, if_true,
    Fin.eta]

theorem signal_readBack (x : SignalCfg) (h : x.legal) : signalOf x.words = some (x, false) := by
  obtain ⟨lo, hi, code⟩ := h
  have stale : (wordNat x.staleLimit).toNat = x.staleLimit := wordNat_toNat (by omega)
  have feed : (wordNat x.feed.code).toNat = x.feed.code := wordNat_toNat (by cases x.feed <;> decide)
  have merge : (wordNat x.merge.code).toNat = x.merge.code := wordNat_toNat (by cases x.merge <;> decide)
  unfold signalOf SignalCfg.words
  simp only [wordAt_cons_zero, wordAt_cons_succ, feed, merge, stale, feedOf_code, mergeOf_code,
    ixOf_word (n := 128) (by omega), code, clampU_in lo hi, movedU_in lo hi, Option.bind_eq_bind, Option.bind_some,
    if_true]

/-- The fields in their ranges are read back, the order of the levels aside. -/
theorem limit_fields_readBack (x : LimitCfg) (trip : int16 x.trip) (release : int16 x.release)
    (lowTrip : int16 x.lowTrip) (lowRelease : int16 x.lowRelease) (lo : 1 ≤ x.persistence) (hi : x.persistence ≤ 255)
    (code : x.code < 65536) : limitOf x.words = some (x, false) := by
  have n16 : (wordNat x.persistence).toNat = x.persistence := wordNat_toNat (by omega)
  have c16 : (wordNat x.code).toNat = x.code := wordNat_toNat code
  have kind : (wordNat x.kind.code).toNat = x.kind.code := wordNat_toNat (by cases x.kind <;> decide)
  have onLoss : (wordNat x.onLoss.code).toNat = x.onLoss.code := wordNat_toNat (by cases x.onLoss <;> decide)
  have action : (wordNat x.action.code).toNat = x.action.code := wordNat_toNat (by cases x.action <;> decide)
  unfold limitOf LimitCfg.words
  simp only [wordAt_cons_zero, wordAt_cons_succ, n16, c16, kind, onLoss, action, limitKindOf_code, onLossOf_code,
    limitActionOf_code, boolOf_word, ixOf_word (n := 96) (by omega), ixOf_word (n := 8) (by omega),
    wordInt_toInt trip, wordInt_toInt release, wordInt_toInt lowTrip, wordInt_toInt lowRelease, clampU_in lo hi,
    movedU_in lo hi, Option.bind_eq_bind, Option.bind_some]

theorem limit_readBack (x : LimitCfg) (h : x.legal) : limitOf x.words = some (x, false) :=
  let ⟨trip, release, lowTrip, lowRelease, lo, hi, code, _⟩ := h
  limit_fields_readBack x trip release lowTrip lowRelease lo hi code

theorem chan_readBack (x : ChanCfg) (h : x.legal) : chanOf x.words = some x := by
  obtain ⟨lo, hi, top, level⟩ := h
  have count : (wordNat x.count).toNat = x.count := wordNat_toNat (by omega)
  have mode : (wordNat x.mode.code).toNat = x.mode.code := wordNat_toNat (by cases x.mode <;> decide)
  have sense : (wordNat x.demandSense.code).toNat = x.demandSense.code :=
    wordNat_toNat (by cases x.demandSense <;> decide)
  have owner : (wordNat x.owner.code).toNat = x.owner.code := wordNat_toNat (by cases x.owner <;> decide)
  unfold chanOf ChanCfg.words
  simp only [wordAt_cons_zero, wordAt_cons_succ, count, mode, sense, owner, runModeOf_code, senseOf_code, ownerOf_code,
    boolOf_word, ixOf_word (n := 256) (by omega), ixOf_word (n := 96) (by omega), optIxOf_word (n := 8) (by omega),
    wordInt_toInt level, lo, hi, top, Option.bind_eq_bind, Option.bind_some, and_self, if_true]

theorem await_signal (i : SigIx) (sense : Sense) :
    ixOf 96 (((wordNat (i + 32768 * sense.code)).extractLsb' 0 7).setWidth 16) = some i ∧
      (if (wordNat (i + 32768 * sense.code)).msb then Sense.below else .above) = sense := by
  have bound : (i : Nat) + 32768 * sense.code < 65536 := by cases sense <;> simp [Sense.code] <;> omega
  constructor
  · refine ixOf_of_toNat ?_
    rw [BitVec.toNat_setWidth, field_toNat bound]
    cases sense <;> simp [Sense.code] <;> omega
  · rw [wordNat_msb bound]
    cases sense with
    | above =>
      simp [Sense.code]
      omega
    | below => simp [Sense.code]

theorem step_readBack (x : Step) (h : x.legal) : stepOf x.words = some (x, false) := by
  cases x with
  | emit node output value =>
    obtain ⟨lo, level⟩ := h
    have node16 := nodeOf_word (hi := 63) node lo (by omega)
    show (do
      let n ← nodeOf 1 63 (wordNat node.toNat)
      let o ← ixOf 16 (wordNat output)
      some (Step.emit n o (wordInt value).toInt, false)) = _
    simp only [node16, ixOf_word (n := 16) (by omega), wordInt_toInt level, Option.bind_eq_bind, Option.bind_some]
  | await signal sense level timeout =>
    obtain ⟨range, lo, hi⟩ := h
    have time : (wordNat timeout).toNat = timeout := wordNat_toNat (by omega)
    obtain ⟨named, sensed⟩ := await_signal signal sense
    show (do
      let i ← ixOf 96 (((wordNat (signal + 32768 * sense.code)).extractLsb' 0 7).setWidth 16)
      some (Step.await i (if (wordNat (signal + 32768 * sense.code)).msb then .below else .above)
        (wordInt level).toInt (clampU 1 65535 (wordNat timeout).toNat), movedU 1 65535 (wordNat timeout).toNat)) = _
    simp only [named, sensed, time, wordInt_toInt range, clampU_in lo hi, movedU_in lo hi, Option.bind_eq_bind,
      Option.bind_some]
  | dwell time =>
    obtain ⟨lo, hi⟩ := h
    have time16 : (wordNat time).toNat = time := wordNat_toNat (by omega)
    show some (Step.dwell (clampU 1 65535 (wordNat time).toNat), movedU 1 65535 (wordNat time).toNat) = _
    rw [time16, clampU_in lo hi, movedU_in lo hi]
  | claim tag amount timeout =>
    obtain ⟨lo, hi, low, high⟩ := h
    have amount16 : (wordNat amount).toNat = amount := wordNat_toNat (by omega)
    have time16 : (wordNat timeout).toNat = timeout := wordNat_toNat (by omega)
    show (do
      let t ← ixOf 16 (wordNat tag)
      some (Step.claim t (clampU 1 65535 (wordNat amount).toNat) (clampU 1 65535 (wordNat timeout).toNat),
        movedU 1 65535 (wordNat amount).toNat || movedU 1 65535 (wordNat timeout).toNat)) = _
    simp only [ixOf_word (n := 16) (by omega), amount16, time16, clampU_in lo hi, movedU_in lo hi, clampU_in low high,
      movedU_in low high, Option.bind_eq_bind, Option.bind_some, Bool.or_false]
  | free tag =>
    show (do
      let t ← ixOf 16 (wordNat tag)
      some (Step.free t, false)) = _
    rw [ixOf_word (n := 16) (by omega)]
    rfl
  | link channel =>
    show (do
      let c ← ixOf 8 (wordNat channel)
      some (Step.link c, false)) = _
    rw [ixOf_word (n := 8) (by omega)]
    rfl

theorem tag_readBack (x : TagCfg) (h : x.legal) : tagOf x.words = some x := by
  obtain ⟨name, owner⟩ := h
  have name16 : (wordNat x.name).toNat = x.name := wordNat_toNat (by omega)
  have named : ixOf 256 (wordNat x.name) = some ⟨x.name, by omega⟩ := ixOf_of_toNat name16
  have code : (wordNat x.owner.code).toNat = x.owner.code := wordNat_toNat (by cases x.owner <;> decide)
  unfold tagOf TagCfg.words
  simp only [wordAt_cons_zero, wordAt_cons_succ, named, code, ownerOf_code, boolOf_word, ixOf_word (n := 5) (by omega),
    optIxOf_word (n := 8) (by omega), owner, Option.bind_eq_bind, Option.bind_some, if_false]

theorem stage_readBack (x : Stage) (h : x.legal) : stageOf x.words = (x, false) := by
  obtain ⟨entry, exit, fan, pump, amount, capacity, dwell⟩ := h
  have amount16 : (wordNat x.amount).toNat = x.amount := wordNat_toNat (by omega)
  have dwell16 : (wordNat x.dwell).toNat = x.dwell := wordNat_toNat (by omega)
  have top : (16384 : Nat) ≤ 32767 := by omega
  unfold stageOf Stage.words
  simp only [wordAt_cons_zero, wordAt_cons_succ, wordInt_toInt entry, wordInt_toInt exit, wordInt_toInt fan,
    wordInt_toInt pump, amount16, dwell16, clampS_word (Nat.zero_le _) capacity top,
    movedS_word (Nat.zero_le _) capacity top, clampU_in (Nat.zero_le _) dwell, movedU_in (Nat.zero_le _) dwell,
    Bool.or_false]

/-- The words of an event descriptor read back, whatever stands behind them. -/
theorem event_readBack_append (x : EventCfg) (h : x.legal) (rest : List Word) : eventOf (x.words ++ rest) = some x := by
  have front : ([wordBool x.enabled, wordNat x.group, wordBool x.notify, wordBool x.acknowledged, wordBool x.log,
      wordBool x.firstOut] : List Word).length = 6 := rfl
  have words : x.words ++ rest = [wordBool x.enabled, wordNat x.group, wordBool x.notify, wordBool x.acknowledged,
      wordBool x.log, wordBool x.firstOut] ++ (signalWords 4 x.snapshot ++ rest) := List.append_assoc ..
  have snapshot : signalListOf 4 (x.words ++ rest) 6 = some x.snapshot := by
    refine signalListOf_words (by omega) h fun j hj => ?_
    rw [words]
    refine (wordAt_append_right _ (signalWords 4 x.snapshot ++ rest) j).trans (wordAt_append_left ?_)
    rw [signalWords_length h]
    omega
  have field (k : Nat) (hk : k < 6) : wordAt (x.words ++ rest) k = wordAt [wordBool x.enabled, wordNat x.group,
      wordBool x.notify, wordBool x.acknowledged, wordBool x.log, wordBool x.firstOut] k := by
    rw [words]
    exact wordAt_append_left hk
  unfold eventOf
  simp only [snapshot, field 0 (by omega), field 1 (by omega), field 2 (by omega), field 3 (by omega),
    field 4 (by omega), field 5 (by omega), wordAt_cons_zero, wordAt_cons_succ, boolOf_word,
    ixOf_word (n := 8) (by omega), Option.bind_eq_bind, Option.bind_some]

theorem event_readBack (x : EventCfg) (h : x.legal) : eventOf x.words = some x := by
  have readBack := event_readBack_append x h []
  rwa [List.append_nil] at readBack

/-! ### The parameter objects -/

theorem toList_four {α : Type} (v : Vector α 4) : v.toList = [v[0], v[1], v[2], v[3]] := by
  refine List.ext_getElem (by simp) fun i h1 h2 => ?_
  have : i < 4 := by simpa using h1
  interval_cases i <;> rfl

theorem toList_eight {α : Type} (v : Vector α 8) :
    v.toList = [v[0], v[1], v[2], v[3], v[4], v[5], v[6], v[7]] := by
  refine List.ext_getElem (by simp) fun i h1 h2 => ?_
  have : i < 8 := by simpa using h1
  interval_cases i <;> rfl

theorem vector_four {α : Type} (v : Vector α 4) : #v[v[0], v[1], v[2], v[3]] = v := by
  ext i hi
  interval_cases i <;> rfl

theorem vector_eight {α : Type} (v : Vector α 8) : #v[v[0], v[1], v[2], v[3], v[4], v[5], v[6], v[7]] = v := by
  ext i hi
  interval_cases i <;> rfl

theorem wordAt_skip {a b : List Word} {n : Nat} (h : a.length = n) (k : Nat) : wordAt (a ++ b) (n + k) = wordAt b k :=
  h ▸ wordAt_append_right a b k

/-- A signed magnitude read back within its range. -/
theorem magnitude_word {lo hi n : Nat} (h1 : lo ≤ n) (h2 : n ≤ hi) (h : hi ≤ 32767) :
    clampS lo hi (wordNat n) = n ∧ movedS lo hi (wordNat n) = false :=
  ⟨clampS_word h1 h2 h, movedS_word h1 h2 h⟩

/-- An unsigned magnitude read back within its range. -/
theorem number_word {lo hi n : Nat} (h1 : lo ≤ n) (h2 : n ≤ hi) (h : hi ≤ 65535) :
    clampU lo hi (wordNat n).toNat = n ∧ movedU lo hi (wordNat n).toNat = false := by
  rw [wordNat_toNat (by omega)]
  exact ⟨clampU_in h1 h2, movedU_in h1 h2⟩

/-- A magnitude of two words read back within its range. -/
theorem number_words32 {lo hi n : Nat} {ws : List Word} {k : Nat} (h1 : lo ≤ n) (h2 : n ≤ hi) (h : hi < 2 ^ 32)
    (w1 : wordAt ws k = (BitVec.ofNat 32 n).extractLsb' 16 16)
    (w2 : wordAt ws (k + 1) = (BitVec.ofNat 32 n).extractLsb' 0 16) :
    clampU lo hi (join32 ws k).toNat = n ∧ movedU lo hi (join32 ws k).toNat = false := by
  have joined : (join32 ws k).toNat = n := by
    rw [join32_words _ ws k w1 w2, BitVec.toNat_ofNat, Nat.mod_eq_of_lt (by omega)]
  rw [joined]
  exact ⟨clampU_in h1 h2, movedU_in h1 h2⟩

theorem alw_words (x : AlwCfg) : x.words =
    [wordNat x.length, wordInt x.temps[0], wordInt x.temps[1], wordInt x.temps[2], wordInt x.temps[3],
      wordInt x.temps[4], wordInt x.temps[5], wordInt x.temps[6], wordInt x.temps[7], wordNat x.levels[0],
      wordNat x.levels[1], wordNat x.levels[2], wordNat x.levels[3], wordNat x.levels[4], wordNat x.levels[5],
      wordNat x.levels[6], wordNat x.levels[7], wordNat x.blind, wordNat x.deadBand, wordNat x.gain, wordNat x.iqMax,
      wordNat x.ramp] := by
  rw [AlwCfg.words, toList_eight, toList_eight]
  rfl

theorem alw_readBack (x : AlwCfg) (h : x.legal) : alwOf x.words = some (x, false) := by
  obtain ⟨length, temps, rising, levels, blind, dead, gain, iqMax, lo, hi⟩ := h
  have length16 : (wordNat x.length).toNat = x.length := wordNat_toNat (by omega)
  have temp (k : Nat) (hk : k < 8) : (wordInt x.temps[k]).toInt = x.temps[k] := wordInt_toInt (temps ⟨k, hk⟩)
  have level (k : Nat) (hk : k < 8) : clampS 0 20480 (wordNat x.levels[k]) = x.levels[k] ∧
      movedS 0 20480 (wordNat x.levels[k]) = false :=
    magnitude_word (Nat.zero_le _) (levels ⟨k, hk⟩) (by omega)
  obtain ⟨r0, r1, r2, r3, r4, r5, r6⟩ : x.temps[0] < x.temps[1] ∧ x.temps[1] < x.temps[2] ∧ x.temps[2] < x.temps[3] ∧
      x.temps[3] < x.temps[4] ∧ x.temps[4] < x.temps[5] ∧ x.temps[5] < x.temps[6] ∧ x.temps[6] < x.temps[7] :=
    ⟨rising 0, rising 1, rising 2, rising 3, rising 4, rising 5, rising 6⟩
  obtain ⟨blind1, blind2⟩ := magnitude_word (Nat.zero_le _) blind (by omega)
  obtain ⟨dead1, dead2⟩ := magnitude_word (Nat.zero_le _) dead (by omega)
  obtain ⟨gain1, gain2⟩ := magnitude_word (Nat.zero_le _) gain (by omega)
  obtain ⟨iq1, iq2⟩ := magnitude_word (Nat.zero_le _) iqMax (by omega)
  obtain ⟨ramp1, ramp2⟩ := magnitude_word lo hi (by omega)
  rw [alw_words]
  unfold alwOf
  simp only [wordAt_cons_zero, wordAt_cons_succ, List.range_succ, List.range_zero, List.nil_append, List.cons_append,
    List.all_cons, List.all_nil, List.any_cons, List.any_nil, Nat.add_zero, Nat.zero_add, Nat.reduceAdd, temp, level,
    blind1, blind2, dead1, dead2, gain1, gain2, iq1, iq2, ramp1, ramp2, length16, length, r0, r1, r2, r3, r4, r5, r6,
    decide_true, Bool.and_self, Bool.or_self, and_self, if_true, vector_eight]

theorem yaw_readBack (x : YawCfg) (h : x.legal) : yawOf x.words = some (x, false) := by
  obtain ⟨distinct, amount, long0, long1, short0, short1, longS0, longS1, shortS0, shortS1, s1, s2, s3, s4, vMin,
    vStorm, vUnwind, below, above, hard, stall0, stall1, move0, move1, roll, rest⟩ := h
  have amount16 : (wordNat x.amount).toNat = x.amount := wordNat_toNat (by omega)
  obtain ⟨e1, e2⟩ := number_word long0 long1 (by omega)
  obtain ⟨f1, f2⟩ := number_word short0 short1 (by omega)
  obtain ⟨g1, g2⟩ := number_word longS0 longS1 (by omega)
  obtain ⟨h1, h2⟩ := number_word shortS0 shortS1 (by omega)
  obtain ⟨i1, i2⟩ := number_word (Nat.zero_le x.eStop) (show x.eStop ≤ 17999 by omega) (by omega)
  obtain ⟨j1, j2⟩ := number_word (Nat.zero_le _) vMin (by omega)
  obtain ⟨k1, k2⟩ := number_word (Nat.zero_le _) vStorm (by omega)
  obtain ⟨l1, l2⟩ := number_word (Nat.zero_le _) vUnwind (by omega)
  obtain ⟨m1, m2⟩ := number_word stall0 stall1 (by omega)
  obtain ⟨n1, n2⟩ := number_word move0 move1 (by omega)
  obtain ⟨o1, o2⟩ := number_word (Nat.zero_le _) roll (by omega)
  obtain ⟨p1, p2⟩ := number_word (Nat.zero_le _) rest (by omega)
  obtain ⟨q1, q2⟩ := number_words32 (ws := x.words) (k := 17) (lo := 1) (hi := 1000000) (show 1 ≤ x.unwindLevel by omega)
    (by omega) (by omega) rfl rfl
  obtain ⟨r1, r2⟩ := number_words32 (ws := x.words) (k := 19) (lo := 0) (hi := 999999) (Nat.zero_le x.unwindTarget)
    (by omega) (by omega) rfl rfl
  obtain ⟨t1, t2⟩ := number_words32 (ws := x.words) (k := 21) (lo := 1) (hi := 1000000) (show 1 ≤ x.hardLimit by omega)
    (by omega) (by omega) rfl rfl
  unfold yawOf
  simp only [q1, q2, r1, r2, t1, t2, yawRanges, List.any_cons, List.any_nil, List.all_cons, List.all_nil]
  unfold YawCfg.words words32
  simp only [List.cons_append, List.nil_append, wordAt_cons_zero, wordAt_cons_succ, ixOf_word (n := 96) (by omega),
    ixOf_word (n := 8) (by omega), ixOf_word (n := 16) (by omega), amount16, e1, e2, f1, f2, g1, g2, h1, h2, i1, i2,
    j1, j2, k1, k2, l1, l2, m1, m2, n1, n2, o1, o2, p1, p2, s1, s2, s3, s4, distinct, below, above, decide_true,
    Bool.and_self, Bool.or_self, and_self, if_true, Option.bind_eq_bind, Option.bind_some]

theorem clc_readBack (x : ClcCfg) (h : x.legal) : clcOf x.words = some (x, false) := by
  obtain ⟨tags, changeovers, pump0, pump1, heater0, heater1, node, heaterNode, window0, window1, flow, low0, low1,
    factor, below, humOn⟩ := h
  obtain ⟨a1, a2⟩ := number_word pump0 pump1 (by omega)
  obtain ⟨b1, b2⟩ := number_word heater0 heater1 (by omega)
  obtain ⟨c1, c2⟩ := number_word window0 window1 (by omega)
  obtain ⟨d1, d2⟩ := number_word (Nat.zero_le _) flow (by omega)
  obtain ⟨e1, e2⟩ := number_word low0 low1 (by omega)
  obtain ⟨f1, f2⟩ := number_word (Nat.zero_le _) humOn (by omega)
  obtain ⟨g1, g2⟩ := number_word (Nat.zero_le x.humOff) (show x.humOff ≤ 1000 by omega) (by omega)
  obtain ⟨h1, h2⟩ := magnitude_word (Nat.zero_le _) factor (by omega)
  have node16 := nodeOf_word (hi := 63) x.node node (by omega)
  have heater16 := nodeOf_word (hi := 63) x.heaterNode heaterNode (by omega)
  unfold clcOf ClcCfg.words
  simp only [wordAt_cons_zero, wordAt_cons_succ, clcRanges, List.any_cons, List.any_nil, ixOf_word (n := 96) (by omega),
    ixOf_word (n := 16) (by omega), optIxOf_word (n := 16) (by omega), optIxOf_word (n := 8) (by omega), node16,
    heater16, a1, a2, b1, b2, c1, c2, d1, d2, e1, e2, f1, f2, g1, g2, h1, h2, tags, changeovers, below, and_self,
    Bool.or_self, if_true, Option.bind_eq_bind, Option.bind_some]

/-- The words of the conversion object behind the list of temperature signals. -/
def convTail (x : ConvCfg) : List Word :=
  [wordNat x.setpoint, wordNat x.heartbeat, wordNat x.group.toNat, wordNat x.precharge, wordNat x.run, wordNat x.stop,
    wordNat x.trip, wordNat x.dipEntry, wordNat x.dipExit, wordNat x.absent, wordNat x.absentPersistence,
    wordNat x.levels[0], wordNat x.levels[1], wordNat x.levels[2], wordNat x.levels[3], wordNat x.times[0],
    wordNat x.times[1], wordNat x.times[2], wordNat x.times[3], wordNat x.blindLimit, wordNat x.autonomousCap,
    wordBool x.autostart, wordBool x.shedTrips]

theorem conv_words (x : ConvCfg) : x.words =
    [wordNat x.gridA, wordNat x.gridB, wordNat x.gridC] ++ (signalWords 6 x.temps ++ convTail x) := by
  rw [ConvCfg.words, toList_four, toList_four]
  simp [signalWords, convTail]

theorem conv_readBack (x : ConvCfg) (h : x.legal) : convOf x.words = some (x, false) := by
  obtain ⟨grid, chans, temps, group0, group1, absent, dip, exit, persist0, persist1, l1, l2, l3, top, times, blind0,
    blind1, cap⟩ := h
  have three : [wordNat x.gridA, wordNat x.gridB, wordNat x.gridC].length = 3 := rfl
  have front (k : Nat) (hk : k < 3) : wordAt x.words k = wordAt [wordNat x.gridA, wordNat x.gridB, wordNat x.gridC] k :=
    conv_words x ▸ wordAt_append_left hk
  have listed : signalListOf 6 x.words 3 = some x.temps := by
    refine signalListOf_words (by omega) temps fun j hj => ?_
    rw [conv_words, wordAt_skip three, wordAt_append_left (by rw [signalWords_length temps]; omega)]
  have tail (k : Nat) : wordAt x.words (10 + k) = wordAt (convTail x) k := by
    rw [conv_words, show 10 + k = 3 + (7 + k) by omega, wordAt_skip three, wordAt_skip (signalWords_length temps)]
  have time (k : Nat) (hk : k < 4) : (wordNat x.times[k]).toNat = x.times[k] :=
    wordNat_toNat (Nat.lt_succ_of_le (times ⟨k, hk⟩))
  have group16 := nodeOf_word x.group group0 group1
  obtain ⟨a1, a2⟩ := magnitude_word (Nat.zero_le x.dipEntry) (show x.dipEntry ≤ 32767 by omega) (by omega)
  obtain ⟨b1, b2⟩ := magnitude_word (Nat.zero_le _) exit (by omega)
  obtain ⟨c1, c2⟩ := magnitude_word (Nat.zero_le x.absent) (show x.absent ≤ 32767 by omega) (by omega)
  obtain ⟨d1, d2⟩ := number_word persist0 persist1 (by omega)
  obtain ⟨e1, e2⟩ := magnitude_word (Nat.zero_le x.levels[0]) (show x.levels[0] ≤ 32767 by omega) (by omega)
  obtain ⟨f1, f2⟩ := magnitude_word (Nat.zero_le x.levels[1]) (show x.levels[1] ≤ 32767 by omega) (by omega)
  obtain ⟨g1, g2⟩ := magnitude_word (Nat.zero_le x.levels[2]) (show x.levels[2] ≤ 32767 by omega) (by omega)
  obtain ⟨h1, h2⟩ := magnitude_word (Nat.zero_le _) top (by omega)
  obtain ⟨i1, i2⟩ := number_word blind0 blind1 (by omega)
  obtain ⟨j1, j2⟩ := magnitude_word (Nat.zero_le _) cap (by omega)
  unfold convOf
  simp only [front 0 (by omega), front 1 (by omega), front 2 (by omega), listed, tail 0, tail 1, tail 2, tail 3, tail 4,
    tail 5, tail 6, tail 7, tail 8, tail 9, tail 10, tail 11, tail 12, tail 13, tail 14, tail 15, tail 16, tail 17,
    tail 18, tail 19, tail 20, tail 21, tail 22, List.any_cons, List.any_nil]
  unfold convTail
  simp only [wordAt_cons_zero, wordAt_cons_succ, ixOf_word (n := 96) (by omega), ixOf_word (n := 8) (by omega),
    boolOf_word, group16, a1, a2, b1, b2, c1, c2, d1, d2, e1, e2, f1, f2, g1, g2, h1, h2, i1, i2, j1, j2, time, grid,
    chans, absent, dip, l1, l2, l3, decide_true, Bool.and_self, Bool.or_self, if_true, Option.bind_eq_bind,
    Option.bind_some, vector_four]

/-- Settles O14, record by record. -/
theorem recordsReadBack : Obligations.RecordsReadBack := by
  unfold Obligations.RecordsReadBack
  exact ⟨sampleEntry_readBack, signal_readBack, limit_readBack, chan_readBack, step_readBack, tag_readBack,
    conv_readBack, alw_readBack, yaw_readBack, clc_readBack, stage_readBack, event_readBack⟩

end Sys2Proof.Machine
end

section
/-! The queue of commands, the hard resets and the saves. -/

namespace Sys2Proof.Machine

/-- Settles O1. -/
theorem stepTakesTheFront : Obligations.StepTakesTheFront := by
  unfold Obligations.StepTakesTheFront
  refine ⟨?front, ?idle, ?handOvers, ?owners⟩
  case front =>
    intro c rest s e
    simp only [step, e]
  case idle =>
    intro s e
    have idles : step s = .next s.drainBuffer := by simp only [step, e]
    rw [idles]
    refine ⟨fun h => ?_, fun f hf up => ?_⟩
    · unfold State.drainBuffer
      split
      · rfl
      · next f hf =>
        rcases h with none | down
        · exact absurd (none.symm.trans hf) nofun
        · rw [if_neg down]
    · unfold State.drainBuffer
      rw [hf]
      dsimp only
      rw [if_pos up]
      rfl
  case handOvers =>
    refine fun s n => ⟨rfl, rfl, fun h => ⟨settleUpTo_nil n h, settle_nil h⟩, fun w rest h => ?_⟩
    refine ⟨settleUpTo_cons n h, fun quiet => ?_⟩
    have taken : s.settle = settleUpTo 255 (State.take { s with work := rest } w) := settleUpTo_cons 255 h
    rw [taken, State.settle, show 256 = 255 + 1 from rfl, settleUpTo_add, settleUpTo_nil 1 quiet]
  case owners =>
    refine fun s => ⟨rfl, rfl, fun _ _ _ _ => rfl, fun _ => rfl, fun o t notYaw => ?_, fun _ _ => ⟨rfl, rfl, rfl, rfl, rfl⟩⟩
    cases o with
    | yaw => exact absurd rfl notYaw
    | none => rfl
    | conversion => rfl
    | cooling => rfl
    | allocator => rfl

/-- Settles O20. -/
theorem savesOfTheImage : Obligations.SavesOfTheImage := by
  unfold Obligations.SavesOfTheImage
  refine ⟨fun s src ready => ⟨fun h => ?_, fun h => ?_⟩, fun s c h => ⟨?_, fun off => ?_⟩, fun s h => ⟨?_, fun off => ?_⟩⟩
  · have saved : s.saveRequest = ({ s with capture := some s.settings, image := none, imageValid := false }, .ok) := by
      simp [State.saveRequest, State.saving, h]
    show Host.Outcome.next (s.served src 10 0 (plain State.saveRequest)) = _
    rw [served_plain_eq ready src 10 0 saved ready.noWork]
  · have busy : s.saveRequest = (s, .busy) := by
      simp [State.saveRequest, State.saving, Option.isSome_iff_ne_none.mpr h]
    show Host.Outcome.next (s.served src 10 0 (plain State.saveRequest)) = _
    rw [served_plain_eq ready src 10 0 busy ready.noWork]
  · simp [exec, execSaveCompletion, done, h]
  · simp [exec, execSaveFailure, done, h]
  · simp [exec, execSaveCompletion, done, h]
  · simp [exec, execSaveFailure, done, h]

/-- Settles O15: both resets make the same state but for the cause and what the pin reset keeps of the log. -/
theorem hardResets : Obligations.HardResets := by
  unfold Obligations.HardResets
  intro s
  refine ⟨_, _, rfl, rfl, rfl, rfl, rfl, rfl, rfl, rfl, rfl, rfl, fun r hr => ?_⟩
  obtain ⟨cause, n, log, store, rfl⟩ : ∃ cause n log store, r = (s.hardReset cause).modEvu fun e =>
      { e with nextSeq := n, log := log, firstOut := store } := by
    rcases hr with rfl | rfl
    · exact ⟨.power, 0, [], [], rfl⟩
    · exact ⟨.pin, s.evu.nextSeq, s.evu.log, s.evu.firstOut, rfl⟩
  have signal (i : SigIx) : (resetSignals defaultSettings)[i] = resetSignal defaultSettings i := tabulate_get ..
  have slot (i : SigIx) (k : SlotIx) : (resetSignals defaultSettings)[i].slots[k] = resetContributor := by
    rw [signal]
    exact Vector.getElem_replicate ..
  have chan (c : ChanIx) : ((resetSeq defaultSettings).chans[c]).state = .masked := by
    simp [resetSeq, resetChan]
  have records : ∀ (i : SigIx) (k : SlotIx), (resetSignals defaultSettings)[i].value = 0 ∧
      (resetSignals defaultSettings)[i].lossRaised = false ∧ (resetSignals defaultSettings)[i].lastSlot = none ∧
      (resetSignals defaultSettings)[i].slots[k] = resetContributor := fun i k =>
    ⟨congrArg SignalRt.value (signal i), congrArg SignalRt.lossRaised (signal i),
      congrArg SignalRt.lastSlot (signal i), slot i k⟩
  exact ⟨rfl, rfl, rfl, rfl, rfl, rfl, rfl, rfl, rfl, rfl, rfl, rfl, rfl, rfl, rfl, rfl, rfl, rfl, rfl, rfl, rfl, rfl,
    records, rfl, rfl, rfl, rfl, rfl, rfl, rfl, rfl, rfl, chan, rfl, rfl,
    fun i => congrArg TagRt.grant (resetAla_tag i), rfl, rfl, rfl, rfl, rfl, rfl, rfl, rfl, rfl,
    fun i => congrArg LimitRt.tripped (Vector.getElem_replicate ..), resetEvents_get, rfl⟩

end Sys2Proof.Machine
end

section
/-! The object space (12.3): where an address lies, and what a READ and a WRITE make of it (R181). -/

namespace Sys2Proof.Machine

/-! ### Regions -/

theorem mem_allRegions (r : Region) : r ∈ allRegions := by
  cases r <;> simp [allRegions]

/-- No two regions share a word. -/
theorem regions_disjoint : ∀ r ∈ allRegions, ∀ q ∈ allRegions, r = q ∨ r.base + r.size ≤ q.base ∨
    q.base + q.size ≤ r.base := by
  decide +kernel

theorem regionAt_region {a off : Nat} {r : Region} (ha : a = r.base + off) (ho : off < r.size) : regionAt a = some r := by
  have inside : (decide (r.base ≤ a) && decide (a < r.base + r.size)) = true := by
    simp
    omega
  unfold regionAt
  cases found : allRegions.find? fun r => decide (r.base ≤ a) && decide (a < r.base + r.size) with
  | none => exact absurd inside (List.find?_eq_none.mp found r (mem_allRegions r))
  | some q =>
    have here := List.find?_some found
    simp only [Bool.and_eq_true, decide_eq_true_eq] at here
    obtain rfl | apart := regions_disjoint r (mem_allRegions r) q (mem_allRegions q)
    · rfl
    · omega

theorem regionAt_none {a : Nat} (h : ∀ r : Region, r ∈ allRegions → a < r.base ∨ r.base + r.size ≤ a) :
    regionAt a = none := by
  refine List.find?_eq_none.mpr fun r hr inside => ?_
  simp only [Bool.and_eq_true, decide_eq_true_eq] at inside
  have := h r hr
  omega

/-! ### The tests of R181 -/

theorem decodeSpan_length {addr : Word} {len : Octet} (h : len.toNat = 0 ∨ 32 < len.toNat) :
    decodeSpan addr len = .error .range := by
  rw [decodeSpan, if_pos (by omega)]

theorem decodeSpan_nowhere {addr : Word} {len : Octet} (h1 : 1 ≤ len.toNat) (h2 : len.toNat ≤ 32)
    (h : ∀ r : Region, r ∈ allRegions → addr.toNat < r.base ∨ r.base + r.size ≤ addr.toNat) :
    decodeSpan addr len = .error .noObject := by
  rw [decodeSpan, if_neg (by omega), regionAt_none h]

theorem decodeSpan_beyond {addr : Word} {len : Octet} {r : Region} {off : Nat} (h1 : 1 ≤ len.toNat)
    (h2 : len.toNat ≤ 32) (ha : addr.toNat = r.base + off) (ho : off < r.size) (h : r.size < off + len.toNat) :
    decodeSpan addr len = .error .range := by
  rw [decodeSpan, if_neg (by omega), regionAt_region ha ho]
  exact if_neg (by omega)

theorem decodeSpan_within {addr : Word} {len : Octet} {r : Region} {off : Nat} (h1 : 1 ≤ len.toNat)
    (h2 : len.toNat ≤ 32) (ha : addr.toNat = r.base + off) (h : off + len.toNat ≤ r.size) :
    decodeSpan addr len = .ok (r, off) := by
  rw [decodeSpan, if_neg (by omega), regionAt_region ha (by omega)]
  dsimp only
  rw [if_pos (by omega), ha, Nat.add_sub_cancel_left]

/-- The word address of a region's offset. -/
theorem addressIn_eq (r : Region) (off : Word) : addressIn r off = wordNat (r.base + off.toNat) := by
  rw [addressIn, wordNat, wordNat, BitVec.ofNat_add, BitVec.ofNat_toNat, BitVec.setWidth_eq]

/-- Every region lies within the address space. -/
theorem region_top : ∀ r ∈ allRegions, r.base + r.size < 65536 := by
  decide +kernel

theorem decodeSpan_addressIn {r : Region} {off : Word} {len : Octet} (h1 : 1 ≤ len.toNat) (h2 : len.toNat ≤ 32)
    (h : off.toNat + len.toNat ≤ r.size) : decodeSpan (addressIn r off) len = .ok (r, off.toNat) := by
  refine decodeSpan_within h1 h2 ?_ h
  have top := region_top r (mem_allRegions r)
  rw [addressIn_eq, wordNat_toNat (by omega)]

/-! ### Reads -/

/-- A READ between two commands that changes no state is answered at once. -/
theorem readAt_eq {s t : State} (ready : Ready s) (src : Node) {addr : Word} {len : Octet} {qual : Word} {st : Status}
    {d : List Word} (h : s.serveRead addr len qual = (t, st, d)) (quiet : t.work = []) :
    s.readAt src addr len qual = t.answered { answerOf src 0 addr st with data := d } := by
  have served := served_quiet ready src 0 addr (fun s => s.serveRead addr len qual)
    (by rw [h]; exact quiet)
  simp only [h] at served
  exact served

theorem serveRead_error {s : State} {addr : Word} {len : Octet} {qual : Word} {e : Status}
    (h : decodeSpan addr len = .error e) : s.serveRead addr len qual = (s, e, []) := by
  rw [State.serveRead, h]

theorem serveRead_region {s : State} {addr : Word} {len : Octet} {qual : Word} {r : Region} {off : Nat}
    (h : decodeSpan addr len = .ok (r, off)) (h1 : r ≠ .logWindow) (h2 : r ≠ .portIn) (h3 : r ≠ .portOut) :
    s.serveRead addr len qual = (s, .ok, s.regionWords r off len.toNat) := by
  rw [State.serveRead, h]
  cases r with
  | logWindow => exact absurd rfl h1
  | portIn => exact absurd rfl h2
  | portOut => exact absurd rfl h3
  | _ => rfl

/-! ### Words of records -/

theorem tableWord_entry {n stride : Nat} {f : Fin n → List Word} (i : Fin n) {k : Nat} (hk : k < stride) :
    tableWord n stride f (stride * i + k) = wordAt (f i) k := by
  have entry : (stride * i + k) / stride = i := by
    rw [Nat.mul_add_div (by omega), Nat.div_eq_of_lt hk, Nat.add_zero]
  have word : (stride * i + k) % stride = k := by
    rw [Nat.mul_add_mod, Nat.mod_eq_of_lt hk]
  simp only [tableWord, entry, word, i.isLt, dite_true, Fin.eta]

theorem ChanCfg.length_words (c : ChanCfg) : c.words.length = 10 := rfl

theorem chanWords_descriptor (s : State) (c : ChanIx) {k : Nat} (hk : k < 16) :
    wordAt (s.chanWords c) k = (s.desc c).words.getD k 0 := by
  have length : ((s.desc c).words ++ List.replicate 6 (0 : Word)).length = 16 := rfl
  rw [State.chanWords, wordAt_append_left (by omega)]
  by_cases inside : k < 10
  · exact wordAt_append_left inside
  · obtain ⟨j, rfl⟩ : ∃ j, k = 10 + j := ⟨k - 10, by omega⟩
    rw [wordAt_skip (ChanCfg.length_words _), List.getD_eq_default _ _ (by rw [ChanCfg.length_words]; omega)]
    have small : j < 6 := by omega
    interval_cases j <;> rfl

theorem chanWords_runtime (s : State) (c : ChanIx) (k : Nat) : wordAt (s.chanWords c) (16 + k) = (s.chan c).words.getD k 0 :=
  wordAt_skip (n := 16) rfl k

/-- A word of an element of a list whose elements have the same number of words. -/
theorem getD_flatten {w : Nat} {l : List (List Word)} (hl : ∀ x ∈ l, x.length = w) {rest : List Word} {i k : Nat}
    {x : List Word} (hi : l[i]? = some x) (hk : k < w) : (l.flatten ++ rest).getD (w * i + k) 0 = x.getD k 0 := by
  induction l generalizing i with
  | nil => cases hi
  | cons a l ih =>
    have first : a.length = w := hl a List.mem_cons_self
    rw [List.flatten_cons, List.append_assoc]
    cases i with
    | zero =>
      cases hi
      rw [Nat.mul_zero, Nat.zero_add, List.getD_append _ _ _ _ (by omega)]
    | succ i =>
      rw [List.getD_append_right _ _ _ _ (by rw [first, Nat.mul_succ]; omega),
        show w * (i + 1) + k - a.length = w * i + k by rw [first, Nat.mul_succ]; omega]
      exact ih (fun y hy => hl y (List.mem_cons_of_mem a hy)) hi

theorem wordsList_element {n w : Nat} {l : List (List Word)} (hl : ∀ x ∈ l, x.length = w) {i k : Nat} {x : List Word}
    (hi : l[i]? = some x) (hk : k < w) : wordAt (wordsList n w l) (1 + w * i + k) = x.getD k 0 := by
  rw [show 1 + w * i + k = (w * i + k) + 1 by omega, wordsList, wordAt_cons_succ]
  exact getD_flatten hl hi hk

theorem FirstOut.length_words {r : FirstOut} (h1 : r.detail.length ≤ 6) (h2 : r.snapshot.length ≤ 4) :
    r.words.length = 16 := by
  simp [FirstOut.words, words32, detailWords, snapshotWords]
  omega

/-- Settles O21: the map of 12.3, the tests of R181 by `decodeSpan`, and the words by the records' lists. -/
theorem readAnswersTheWords : Obligations.ReadAnswersTheWords := by
  unfold Obligations.ReadAnswersTheWords
  refine ⟨?map, ?reads, ?words⟩
  case map =>
    refine ⟨by decide, fun r => ⟨mem_allRegions r, ?_⟩⟩
    cases r <;> decide
  case reads =>
    intro s src addr len qual ready
    have refused {e : Status} (h : decodeSpan addr len = .error e) :
        exec (.read src addr len qual) s = .next (s.answered (answerOf src 0 addr e)) :=
      congrArg Host.Outcome.next (readAt_eq ready src (serveRead_error h) ready.noWork)
    refine ⟨fun h => refused (decodeSpan_length h), fun h1 h2 => ⟨fun h => refused (decodeSpan_nowhere h1 h2 h), ?_⟩⟩
    refine fun r off ha ho => ⟨fun h => refused (decodeSpan_beyond h1 h2 ha ho h), fun h n1 n2 n3 => ?_⟩
    exact congrArg Host.Outcome.next
      (readAt_eq ready src (serveRead_region (decodeSpan_within h1 h2 ha h) n1 n2 n3) ready.noWork)
  case words =>
    intro s k p word
    have entry {n stride : Nat} (f : Fin n → List Word) (i : Fin n) :
        k < stride → tableWord n stride f (stride * i + k) = (f i).getD k 0 := tableWord_entry i
    refine ⟨entry fun i => p.sampleMap[i].words, entry fun i => p.signals[i].words ++ s.signals[i].words,
      entry fun i => p.limits[i].words ++ s.limits[i].words, fun i hk => ⟨?_, ?_⟩, entry fun i => p.steps[i].words,
      entry fun i => p.tags[i].words ++ s.ala.tags[i].words, entry fun i => p.stages[i].words,
      entry fun i => p.events[i].words, entry fun i => s.evu.events[i].words, fun i => ?_, fun i => ?_, rfl, rfl, rfl,
      rfl, rfl, rfl, rfl, rfl, rfl, rfl, rfl, rfl, rfl, rfl, rfl, rfl, rfl, rfl, rfl, rfl, rfl, rfl, rfl, rfl, ?_, ?_,
      fun i q hq hk => ?_, fun i r hl hr hk => ?_⟩
    · exact (tableWord_entry i (by omega)).trans (chanWords_descriptor s i hk)
    · exact (congrArg _ (Nat.add_assoc ..)).trans
        ((tableWord_entry i (by omega)).trans (chanWords_runtime s i k))
    · have entry := tableWord_entry (f := fun i => [wordNat s.phases[i]]) i (stride := 1) (k := 0) (by omega)
      rwa [Nat.one_mul, Nat.add_zero] at entry
    · have entry := tableWord_entry (f := fun i => [wordOpt (s.sequences[i].map BitVec.toNat)]) i (stride := 1) (k := 0)
        (by omega)
      rw [Nat.one_mul, Nat.add_zero, wordAt_cons_zero] at entry
      refine entry.trans ?_
      cases s.sequences[i] <;> rfl
    · exact congrArg wordNat (List.length_map _)
    · exact congrArg wordNat (List.length_map _)
    · refine wordsList_element (l := s.ala.queue.map Claim.words) ?_ (by rw [List.getElem?_map, hq]; rfl) hk
      intro x hx
      obtain ⟨q, _, rfl⟩ := List.mem_map.mp hx
      rfl
    · refine wordsList_element (l := s.evu.firstOut.map FirstOut.words) ?_ (by rw [List.getElem?_map, hr]; rfl) hk
      intro x hx
      obtain ⟨r, hr, rfl⟩ := List.mem_map.mp hx
      obtain ⟨h1, h2⟩ := hl r hr
      exact FirstOut.length_words h1 h2

end Sys2Proof.Machine
end

section
/-! Reads of the port status and of the log, and the tests of a WRITE (R163, R172, R181). -/

namespace Sys2Proof.Machine

/-! ### The port status -/

theorem serveRead_port {s : State} {p : Port} {off : Word} {len : Octet} {qual : Word} (h1 : 1 ≤ len.toNat)
    (h : off.toNat + len.toNat ≤ 8) :
    s.serveRead (addressIn (match p with | .inn => .portIn | .out => .portOut) off) len qual =
      (s.clearLinkLost p, .ok, (List.range len.toNat).map fun k => (s.port p).words.getD (off.toNat + k) 0) := by
  cases p with
  | inn =>
    rw [State.serveRead, decodeSpan_addressIn (r := .portIn) h1 (by omega) h]
    rfl
  | out =>
    rw [State.serveRead, decodeSpan_addressIn (r := .portOut) h1 (by omega) h]
    rfl

/-! ### The log -/

theorem log_sequence {s : State} (h : LogLaw s) {k : Nat} {r : FaultRecord} (hr : s.evu.log[k]? = some r) :
    k < s.evu.log.length ∧ r.sequence = s.evu.nextSeq - BitVec.ofNat 16 (s.evu.log.length - k) := by
  obtain ⟨hk, rfl⟩ := List.getElem?_eq_some_iff.mp hr
  exact ⟨hk, h.2 k hk⟩

/-- The distance from the record `k` of `n` to the newest one, and from the oldest one to it. -/
theorem sequence_distance (next : Word) {n k : Nat} (hn : n ≤ 64) (hk : k < n) :
    (next - BitVec.ofNat 16 1 - (next - BitVec.ofNat 16 (n - k))).toNat = n - k - 1 ∧
      (next - BitVec.ofNat 16 (n - k) - (next - BitVec.ofNat 16 n)).toNat = k := by
  simp only [BitVec.toNat_sub, BitVec.toNat_ofNat]
  have := next.isLt
  omega

/-- A sequence less than `n` below the newest one is that of a held record. -/
theorem sequence_held (next start : Word) {n : Nat}
    (h : (next - BitVec.ofNat 16 1 - start).toNat < n) :
    ∃ k, k < n ∧ start = next - BitVec.ofNat 16 (n - k) := by
  refine ⟨n - 1 - (next - BitVec.ofNat 16 1 - start).toNat, by omega, BitVec.eq_of_toNat_eq ?_⟩
  simp only [BitVec.toNat_sub, BitVec.toNat_ofNat] at h ⊢
  have := next.isLt
  have := start.isLt
  omega

theorem readLog_range {s : State} {off len : Nat} {start : Word} (h : off ≠ 0 ∨ len < 16) :
    s.readLog off len start = (.range, []) := if_pos h

theorem readLog_empty {s : State} {len : Nat} {start : Word} (h : 16 ≤ len) (empty : s.evu.log = []) :
    s.readLog 0 len start = (.gone, []) := by
  rw [State.readLog, if_neg (by omega), empty]
  rfl

/-- A read of a log that holds records. -/
theorem readLog_records {s : State} {len : Nat} {start : Word} (h : 16 ≤ len) (law : LogLaw s)
    (some : 0 < s.evu.log.length) :
    let n := s.evu.log.length
    let new := s.evu.nextSeq - BitVec.ofNat 16 1
    let old := s.evu.nextSeq - BitVec.ofNat 16 n
    s.readLog 0 len start = if (new - start).toNat < n then
        (.ok, ((s.evu.log.drop (start - old).toNat).take (len / 16)).flatMap FaultRecord.words)
      else (.gone, [old, new]) := by
  intro n new old
  obtain ⟨a, ha⟩ : ∃ a, s.evu.log.head? = Option.some a := ⟨_, List.head?_eq_getElem? ▸ List.getElem?_eq_getElem some⟩
  obtain ⟨b, hb⟩ : ∃ b, s.evu.log.getLast? = Option.some b :=
    ⟨_, List.getLast?_eq_getElem? ▸ List.getElem?_eq_getElem (by omega)⟩
  have oldest : a.sequence = old := (log_sequence law (List.head?_eq_getElem? ▸ ha)).2
  have newest : b.sequence = new := by
    have held := (log_sequence law (List.getLast?_eq_getElem? ▸ hb)).2
    rwa [show s.evu.log.length - (s.evu.log.length - 1) = 1 by omega] at held
  rw [State.readLog, if_neg (by omega), ha, hb]
  simp only [oldest, newest]
  rfl

theorem serveRead_log {s : State} {off start : Word} {len : Octet} (h1 : 1 ≤ len.toNat)
    (h : off.toNat + len.toNat ≤ 32) :
    s.serveRead (addressIn .logWindow off) len start = (s, s.readLog off.toNat len.toNat start) := by
  rw [State.serveRead, decodeSpan_addressIn (r := .logWindow) h1 (by omega) h]

/-- Settles O22: reads of the port status, and of the log by the place of the start sequence among the held ones. -/
theorem portAndLogReads : Obligations.PortAndLogReads := by
  unfold Obligations.PortAndLogReads
  refine ⟨?ports, ?log⟩
  case ports =>
    intro s src p off len ready h1 h
    have read := readAt_eq ready src (serveRead_port (s := s) (p := p) (qual := 0) h1 h) ready.noWork
    refine congrArg Host.Outcome.next (read.trans ?_)
    cases p <;> rw [addressIn_eq] <;> rfl
  case log =>
    intro s src start off len ready law h1 h a n
    have read {st : Status} {d : List Word} (e : s.readLog off.toNat len.toNat start = (st, d)) :
        exec (.logRead src start off len) s = .next (a st d) := by
      have served := readAt_eq ready src (by rw [serveRead_log (s := s) (start := start) h1 h, e]) ready.noWork
      rw [addressIn_eq] at served
      exact congrArg Host.Outcome.next served
    refine ⟨fun short => read (readLog_range (short.imp_left fun ho h0 => ho (BitVec.eq_of_toNat_eq h0))), ?_⟩
    rintro rfl long
    refine ⟨fun empty => read (readLog_empty long (List.length_eq_zero_iff.mp empty)), fun k hk hs => ?_,
      fun some notHeld => ?_⟩
    · obtain ⟨near, index⟩ := sequence_distance s.evu.nextSeq law.1 hk
      refine read ((readLog_records long law (by omega)).trans ?_)
      rw [hs, near, index, if_pos (by omega)]
    · refine read ((readLog_records long law some).trans ?_)
      rw [if_neg fun near => ?_]
      · rfl
      · obtain ⟨k, hk, hs⟩ := sequence_held _ _ near
        exact notHeld k hk hs

/-! ### Writes -/

theorem serveWrite_error {s : State} {addr : Word} {len : Octet} {d : List Word} {e : Status}
    (hl : d.length = len.toNat) (h : decodeSpan addr len = .error e) : s.serveWrite addr len d = (s, e) := by
  rw [State.serveWrite, if_neg (not_not.mpr hl), h]

theorem serveWrite_region {s : State} {addr : Word} {len : Octet} {d : List Word} {r : Region} {off : Nat}
    (hl : d.length = len.toNat) (h : decodeSpan addr len = .ok (r, off)) :
    s.serveWrite addr len d = s.writeRegion r off d := by
  rw [State.serveWrite, if_neg (not_not.mpr hl), h]

/-- A WRITE between two commands that is refused. -/
theorem exec_write_refused {s : State} (ready : Ready s) (src : Node) {addr : Word} {len : Octet} {d : List Word}
    {e : Status} (h : s.serveWrite addr len d = (s, e)) :
    exec (.write src addr len d) s = .next (s.answered (answerOf src 1 addr e)) :=
  congrArg Host.Outcome.next (served_plain_eq ready src 1 addr (f := fun s => s.serveWrite addr len d) h ready.noWork)

/-- The regions of runtime fields alone. -/
def runtimeRegions : List Region :=
  [.identity, .portIn, .portOut, .ringStatus, .engine, .phases, .memories, .claimQueue, .convRecord, .alwRecord,
    .yawWindow, .clcRecord, .summary, .eventState, .logHeader, .logWindow, .firstOut]

theorem writeRegion_readOnly (s : State) {r : Region} (h : r ∈ runtimeRegions) (off : Nat) (d : List Word) :
    s.writeRegion r off d = (s, .readOnly) := by
  simp only [runtimeRegions, List.mem_cons, List.not_mem_nil, or_false] at h
  rcases h with rfl | rfl | rfl | rfl | rfl | rfl | rfl | rfl | rfl | rfl | rfl | rfl | rfl | rfl | rfl | rfl | rfl <;>
    rfl

/-- Settles O23. -/
theorem writeDecode : Obligations.WriteDecode := by
  unfold Obligations.WriteDecode
  refine ⟨fun s src addr len d ready => ?_, fun s src off len d => ?_⟩
  · intro refused
    have refuse {e : Status} (h : s.serveWrite addr len d = (s, e)) : refused e := exec_write_refused ready src h
    refine ⟨fun h => refuse ?_, fun hl h1 h2 => ⟨fun h => ?_, fun r off ha ho => ⟨fun h => ?_, fun h hr => ?_⟩⟩⟩
    · by_cases hl : d.length = len.toNat
      · exact serveWrite_error hl (decodeSpan_length (h.resolve_left fun n => n hl))
      · rw [State.serveWrite, if_pos hl]
    · exact refuse (serveWrite_error hl (decodeSpan_nowhere h1 h2 h))
    · exact refuse (serveWrite_error hl (decodeSpan_beyond h1 h2 ha ho h))
    · exact refuse ((serveWrite_region hl (decodeSpan_within h1 h2 ha h)).trans (writeRegion_readOnly s hr off d))
  · exact ⟨rfl, rfl, rfl, rfl, rfl, rfl, rfl, rfl, rfl, rfl, rfl, rfl, rfl, rfl, rfl, rfl, rfl⟩

end Sys2Proof.Machine
end

section
/-! Writes of one-word objects, of one whole table entry and of one whole parameter object (R38, R39, R42, R66, R78,
R100, R114, R152, R153, R172, R187). -/

namespace Sys2Proof.Machine

/-! ### A write between two commands -/

theorem writeAt_addressIn {s t : State} (ready : Ready s) (src : Node) (r : Region) {off : Word} {len : Octet}
    {d : List Word} {st : Status} (hl : d.length = len.toNat) (h1 : 1 ≤ len.toNat) (h2 : len.toNat ≤ 32)
    (h : off.toNat + len.toNat ≤ r.size) (hw : s.writeRegion r off.toNat d = (t, st)) :
    s.writeAt src (addressIn r off) len d = (t.answered (writeAnswer src r off.toNat st)).settle := by
  rw [writeAt_region ready src hl (decodeSpan_addressIn h1 h2 h), hw, addressIn_eq]
  rfl

/-- A write whose rule leaves no hand-over. -/
theorem writeAt_quiet {s t : State} (ready : Ready s) (src : Node) (r : Region) {off : Word} {len : Octet}
    {d : List Word} {st : Status} (hl : d.length = len.toNat) (h1 : 1 ≤ len.toNat) (h2 : len.toNat ≤ 32)
    (h : off.toNat + len.toNat ≤ r.size) (hw : s.writeRegion r off.toNat d = (t, st)) (quiet : t.work = []) :
    s.writeAt src (addressIn r off) len d = t.answered (writeAnswer src r off.toNat st) := by
  rw [writeAt_addressIn ready src r hl h1 h2 h hw, settle_nil (s := t.answered _) quiet]

theorem capture_iff (s : State) : s.saving = false ↔ s.capture = none := by
  simp [State.saving]

/-- The check on a save in flight alone. -/
theorem judge_saving (s t : State) (clamped : Bool) : s.judge [(s.saving, .busy)] clamped t =
    if s.capture = none then (t, if clamped then .okClamped else .ok) else (s, .busy) := by
  split
  · next idle =>
    rw [(capture_iff s).mpr idle]
    rfl
  · next saving =>
    rw [(saving_iff s).mpr saving]
    rfl

/-- A guard that answers BUSY, and the check on a save in flight. -/
theorem judge_busy (s t : State) (g : Bool) (clamped : Bool) : s.judge [(g, .busy), (s.saving, .busy)] clamped t =
    if s.capture = none ∧ g = false then (t, if clamped then .okClamped else .ok) else (s, .busy) := by
  cases g with
  | true => simp [judge_cons_fails]
  | false => simp [judge_cons_passes, judge_saving]

/-- A write answered OK or BUSY, as a condition stands. -/
theorem writeAt_ite {s t : State} (ready : Ready s) (src : Node) (r : Region) {off : Word} {len : Octet} {d : List Word}
    (p : Prop) [Decidable p] (hl : d.length = len.toNat) (h1 : 1 ≤ len.toNat) (h2 : len.toNat ≤ 32)
    (h : off.toNat + len.toNat ≤ r.size)
    (hw : s.writeRegion r off.toNat d = if p then (t, .ok) else (s, .busy)) (quiet : t.work = []) :
    s.writeAt src (addressIn r off) len d = if p then t.answered (writeAnswer src r off.toNat .ok)
      else s.answered (writeAnswer src r off.toNat .busy) := by
  split
  · next hp => exact writeAt_quiet ready src r hl h1 h2 h (hw.trans (if_pos hp)) quiet
  · next hp => exact writeAt_quiet ready src r hl h1 h2 h (hw.trans (if_neg hp)) ready.noWork

/-! ### One-word objects -/

theorem boolOf_none {w : Word} (h0 : w ≠ 0) (h1 : w ≠ 1) : boolOf w = none := by
  rw [boolOf, if_neg h0, if_neg h1]

theorem offerOf_none {n : Nat} (h : 3 ≤ n) : offerOf n = none := by
  match n with
  | n + 3 => rfl

theorem nodeOf_none {lo hi : Nat} {w : Word} (h : w.toNat < lo ∨ hi < w.toNat) : nodeOf lo hi w = none :=
  if_neg (by omega)

/-- Settles O24. -/
theorem scalarWrites : Obligations.ScalarWrites := by
  unfold Obligations.ScalarWrites
  intro s src w ready
  have stored (r : Region) (hr : r.size = 1) {t : State} (hw : s.writeRegion r 0 [w] = s.judge [(s.saving, .busy)] false t)
      (quiet : t.work = []) : s.writeAt src (addressIn r 0) 1 [w] =
        if s.capture = none then t.answered (writeAnswer src r 0 .ok) else s.answered (writeAnswer src r 0 .busy) :=
    writeAt_ite ready src r _ rfl (by decide) (by decide) (by rw [hr]; decide) (hw.trans (judge_saving s t false)) quiet
  have refused (r : Region) (hr : r.size = 1) (hw : s.writeRegion r 0 [w] = (s, .range)) :
      s.writeAt src (addressIn r 0) 1 [w] = s.answered (writeAnswer src r 0 .range) :=
    writeAt_quiet ready src r rfl (by decide) (by decide) (by rw [hr]; decide) hw ready.noWork
  refine ⟨?flag, ?notFlag, ?offer, ?notOffer, ?node, ?notNode⟩
  case flag =>
    rintro b rfl
    have flag : boolOf (wordAt [wordNat (yesNo b)] 0) = some b := boolOf_word b
    refine ⟨congrArg Host.Outcome.next (stored .seqControl rfl ?_ ready.noWork),
      congrArg Host.Outcome.next (stored .mgtControl rfl ?_ ready.noWork), rfl⟩
    · simp only [State.writeRegion, State.writeScheme, flag, State.withSettings]
    · simp only [State.writeRegion, State.writeMgtControl, flag, State.withSettings]
  case notFlag =>
    intro h0 h1
    have flag : boolOf (wordAt [w] 0) = none := boolOf_none h0 h1
    refine ⟨congrArg Host.Outcome.next (refused .seqControl rfl ?_),
      congrArg Host.Outcome.next (refused .mgtControl rfl ?_)⟩
    · simp only [State.writeRegion, State.writeScheme, flag]
    · simp only [State.writeRegion, State.writeMgtControl, flag]
  case offer =>
    rintro o rfl
    have offer : offerOf (wordAt [wordNat o.code] 0).toNat = some o := by cases o <;> rfl
    refine congrArg Host.Outcome.next (stored .ringControl rfl ?_ ready.noWork)
    simp only [State.writeRegion, State.writeRingControl, offer, State.withSettings]
  case notOffer =>
    intro h
    have offer : offerOf (wordAt [w] 0).toNat = none := offerOf_none h
    refine congrArg Host.Outcome.next (refused .ringControl rfl ?_)
    simp only [State.writeRegion, State.writeRingControl, offer]
  case node =>
    rintro n lo rfl
    have node : nodeOf 1 63 (wordAt [wordNat n.toNat] 0) = some n := nodeOf_word n lo (by omega)
    refine congrArg Host.Outcome.next (stored .eventControl rfl ?_ ready.noWork)
    simp only [State.writeRegion, State.writeEventControl, node, State.withSettings]
  case notNode =>
    intro h
    have node : nodeOf 1 63 (wordAt [w] 0) = none := nodeOf_none (by show w.toNat < 1 ∨ 63 < w.toNat; omega)
    refine congrArg Host.Outcome.next (refused .eventControl rfl ?_)
    simp only [State.writeRegion, State.writeEventControl, node]

/-! ### One whole entry of a table -/

/-- A write that begins at an entry and stays within it touches that entry alone. -/
theorem written_entry {n stride len : Nat} (i : Fin n) (h1 : 1 ≤ len) (h : len ≤ stride) :
    written n stride (stride * i) len = [i] := by
  have touched (j : Fin n) : touches (stride * i) len (j * stride) ((j + 1) * stride) = decide (j = i) := by
    rw [touches, ← Bool.decide_and, decide_eq_decide, Fin.ext_iff, Nat.mul_comm stride]
    constructor
    · rintro ⟨below, above⟩
      have le : (i : Nat) < j + 1 := Nat.lt_of_mul_lt_mul_right below
      have ge : (j : Nat) * stride < (i + 1) * stride := by
        rw [Nat.succ_mul]
        omega
      have := Nat.lt_of_mul_lt_mul_right ge
      omega
    · intro same
      rw [same, Nat.succ_mul]
      omega
  rw [written, indices_eq]
  simp only [touched]
  have here := List.filter_beq (l := List.finRange n) i
  rw [List.count_eq_one_of_mem (List.nodup_finRange n) (List.mem_finRange i), List.replicate_one] at here
  exact here

/-- Words written from the beginning of a record stand ahead of the rest of its words. -/
theorem overlay_front {ws data : List Word} (off : Nat) (h : data.length ≤ ws.length) :
    overlay ws off off data = data ++ ws.drop data.length := by
  refine List.ext_getElem (by simp [overlay, h]) fun k h1 h2 => ?_
  by_cases front : k < data.length
  · simp [overlay, front]
  · simp only [overlay, List.getElem_map, List.getElem_zipIdx, Nat.zero_add, Nat.le_add_right, if_true,
      Nat.add_sub_cancel_left, List.getElem?_eq_none (Nat.le_of_not_lt front), Option.getD_none,
      List.getElem_append_right (Nat.le_of_not_lt front), List.getElem_drop]
    congr 1
    omega

/-- A record written whole is read back from the written words. -/
theorem overlay_whole {ws data : List Word} (off : Nat) (h : ws.length = data.length) : overlay ws off off data = data := by
  rw [overlay_front off h.ge, ← h, List.drop_length, List.append_nil]

theorem writtenEntries_whole {α : Type} {n stride : Nat} {words : Fin n → List Word} {parse : List Word → Option α}
    (i : Fin n) {data : List Word} {x : α} (h1 : 1 ≤ data.length) (h : data.length ≤ stride)
    (hw : data.length ≤ (words i).length) (hx : parse (data ++ (words i).drop data.length) = some x) :
    writtenEntries n stride words parse (stride * i) data = some [(i, x)] := by
  rw [writtenEntries, written_entry i h1 h]
  simp only [List.mapM_cons, List.mapM_nil, Nat.mul_comm _ stride, overlay_front _ hw, hx]
  rfl

/-- A record of a fixed number of words. -/
theorem writtenEntries_fixed {α : Type} {n stride : Nat} {words : Fin n → List Word} {parse : List Word → Option α}
    (i : Fin n) {data : List Word} {x : α} (h1 : 1 ≤ data.length) (h : data.length ≤ stride)
    (hw : (words i).length = data.length) (hx : parse data = some x) :
    writtenEntries n stride words parse (stride * i) data = some [(i, x)] :=
  writtenEntries_whole i h1 h hw.ge (by rwa [← hw, List.drop_length, List.append_nil])

theorem hitsRuntime_whole {n stride lo hi len : Nat} (i : Fin n) (h1 : 1 ≤ len) (h : len ≤ stride) (hlo : len ≤ lo) :
    hitsRuntime n stride lo hi (stride * i) len = false := by
  rw [hitsRuntime, written_entry i h1 h]
  have apart : ¬(i * stride + lo < stride * i + len) := by
    rw [Nat.mul_comm]
    omega
  simp [touches, apart]

/-- The offset of an entry of a table, as a request names it. -/
theorem entry_offset {n stride : Nat} {r : Region} (hr : r.size = n * stride) (i : Fin n) {len : Nat} (h : len ≤ stride)
    (h1 : 1 ≤ len) : (wordNat (stride * i)).toNat = stride * i ∧ stride * i + len ≤ r.size := by
  have inside : stride * i + len ≤ r.size := by
    rw [hr, Nat.mul_comm n]
    exact (Nat.add_le_add_left h _).trans (Nat.mul_succ stride i ▸ Nat.mul_le_mul_left stride i.isLt)
  have top := region_top r (mem_allRegions r)
  exact ⟨wordNat_toNat (by omega), inside⟩

/-- A write of one whole entry, answered OK or BUSY. -/
theorem writeAt_entry {s t : State} (ready : Ready s) (src : Node) {r : Region} {n stride : Nat}
    (hr : r.size = n * stride) (i : Fin n) {len : Octet} {d : List Word} (p : Prop) [Decidable p]
    (hl : d.length = len.toNat) (h1 : 1 ≤ len.toNat) (h2 : len.toNat ≤ 32) (h : len.toNat ≤ stride)
    (hw : s.writeRegion r (stride * i) d = if p then (t, .ok) else (s, .busy)) (quiet : t.work = []) :
    s.writeAt src (addressIn r (wordNat (stride * i))) len d =
      if p then t.answered (writeAnswer src r (stride * i) .ok)
      else s.answered (writeAnswer src r (stride * i) .busy) := by
  obtain ⟨off, inside⟩ := entry_offset hr i h h1
  have written := writeAt_ite (off := wordNat (stride * i)) ready src r p hl h1 h2 (by rw [off]; exact inside)
    (by rw [off]; exact hw) quiet
  rwa [off] at written

/-! ### Steps, descriptors, tags, event descriptors -/

theorem Step.length_words (x : Step) : x.words.length = 4 := by cases x <;> rfl

theorem TagCfg.length_words (x : TagCfg) : x.words.length = 5 := rfl

theorem EventCfg.length_words {x : EventCfg} (h : x.legal) : x.words.length = 11 := by
  show (signalWords 4 x.snapshot).length + 6 = 11
  rw [signalWords_length h]

theorem EventCfg.le_length_words (x : EventCfg) : 11 ≤ x.words.length := by
  show 11 ≤ (signalWords 4 x.snapshot).length + 6
  rw [signalWords_eq]
  simp
  omega

theorem stepGuarded_iff (s : State) (k : StepIx) : s.stepGuarded k = false ↔
    ∀ c : ChanIx, (s.chan c).state = .masked ∨ k < (s.desc c).base ∨ (s.desc c).base + (s.desc c).count ≤ (k : Nat) := by
  have guarded (c : ChanIx) : ¬((!s.isMasked c && decide ((s.desc c).base ≤ k) &&
      decide ((k : Nat) < (s.desc c).base + (s.desc c).count)) = true) ↔
      ((s.chan c).state = .masked ∨ k < (s.desc c).base ∨ (s.desc c).base + (s.desc c).count ≤ (k : Nat)) := by
    rw [← isMasked_iff]
    cases s.isMasked c
    · simp only [Bool.not_false, Bool.true_and, Bool.and_eq_true, decide_eq_true_eq, Fin.lt_def, Fin.le_def,
        Bool.false_eq_true, false_or]
      omega
    · simp
  rw [State.stepGuarded, List.any_eq_false]
  exact ⟨fun h c => (guarded c).mp (h c (mem_indices c)), fun h c _ => (guarded c).mpr (h c)⟩

theorem writeSteps_whole (s : State) (k : StepIx) {x : Step} (h : x.legal) :
    s.writeSteps (4 * k) x.words = if s.capture = none ∧ s.stepGuarded k = false then
      ({ s with settings := { s.settings with steps := s.settings.steps.set k x } }, .ok) else (s, .busy) := by
  have length := x.length_words
  have parsed : writtenEntries 256 4 (fun i => s.settings.steps[i].words) stepOf (4 * k) x.words = some [(k, x, false)] :=
    writtenEntries_fixed k (by omega) (by omega) ((Step.length_words _).trans length.symm) (step_readBack x h)
  have guarded : ([(k, x)].any fun e => s.stepGuarded e.1) = s.stepGuarded k := by simp
  rw [State.writeSteps, parsed]
  show s.judge [([(k, x)].any fun e => s.stepGuarded e.1, .busy), (s.saving, .busy)] false _ = _
  rw [guarded, judge_busy]
  rfl

theorem writeChans_whole (s : State) (c : ChanIx) {x : ChanCfg} (h : x.legal) :
    s.writeChans (32 * c) x.words = if s.capture = none ∧ (s.chan c).state = .masked then
      (({ s with settings := { s.settings with chans := s.settings.chans.set c x } } : State).modChan c
        fun r => { r with current := x.base, remaining := x.count }, .ok) else (s, .busy) := by
  have parsed : writtenEntries 8 32 (fun i => (s.desc i).words) chanOf (32 * c) x.words = some [(c, x)] :=
    writtenEntries_fixed c (by rw [ChanCfg.length_words]; decide) (by rw [ChanCfg.length_words]; decide) rfl
      (chan_readBack x h)
  have runtime : hitsRuntime 8 32 16 24 (32 * c) x.words.length = false :=
    hitsRuntime_whole c (by rw [ChanCfg.length_words]; decide) (by rw [ChanCfg.length_words]; decide)
      (by rw [ChanCfg.length_words]; decide)
  have guarded : ([(c, x)].any fun e => !s.isMasked e.1) = !s.isMasked c := by simp
  rw [State.writeChans, runtime, parsed]
  show s.judge [([(c, x)].any fun e => !s.isMasked e.1, .busy), (s.saving, .busy)] false _ = _
  rw [guarded, judge_busy]
  simp only [Bool.not_eq_false', isMasked_iff]
  rfl

theorem modTag_self (s : State) (i : TagIx) {f : TagRt → TagRt} (h : f (s.tag i) = s.tag i) : s.modTag i f = s := by
  have same : updAt s.ala.tags i f = s.ala.tags := by
    rw [updAt, show f s.ala.tags[i] = s.ala.tags[i] from h]
    exact Vector.set_getElem_self ..
  rw [State.modTag, State.modAla, same]

theorem writeTags_whole (s : State) (i : TagIx) {x : TagCfg} (h : x.legal) :
    s.writeTags (16 * i) x.words =
      if s.capture = none ∧ (s.tag i).grant = 0 ∧ ∀ q ∈ s.ala.queue, q.tag ≠ i then
        (({ s with settings := { s.settings with tags := s.settings.tags.set i x } } : State).modTag i
          fun r => { r with shedding := r.shedding && x.valid }, .ok) else (s, .busy) := by
  have parsed : writtenEntries 16 16 (fun i => s.settings.tags[i].words) tagOf (16 * i) x.words = some [(i, x)] :=
    writtenEntries_fixed i (by rw [TagCfg.length_words]; decide) (by rw [TagCfg.length_words]; decide) rfl
      (tag_readBack x h)
  have runtime : hitsRuntime 16 16 5 10 (16 * i) x.words.length = false :=
    hitsRuntime_whole i (by rw [TagCfg.length_words]; decide) (by rw [TagCfg.length_words]; decide)
      (by rw [TagCfg.length_words])
  have guarded : ([(i, x)].any fun e => (s.tag e.1).grant != 0 || s.ala.queued e.1) = false ↔
      (s.tag i).grant = 0 ∧ ∀ q ∈ s.ala.queue, q.tag ≠ i := by
    simp [AlaRt.queued]
  have stored : s.storeTags [(i, x)] =
      ({ s with settings := { s.settings with tags := s.settings.tags.set i x } } : State).modTag i
        fun r => { r with shedding := r.shedding && x.valid } := by
    show (if x.valid then _ else _) = _
    cases x.valid with
    | true =>
      rw [if_pos rfl]
      exact (modTag_self _ i (by rw [Bool.and_true])).symm
    | false =>
      simp only [Bool.and_false]
      rfl
  rw [State.writeTags, runtime, parsed]
  show s.judge [([(i, x)].any fun e => (s.tag e.1).grant != 0 || s.ala.queued e.1, .busy), (s.saving, .busy)] false _ = _
  rw [judge_busy, stored]
  simp only [guarded]
  rfl

theorem modEvent_self (s : State) (c : Code) {f : EventRt → EventRt} (h : f s.evu.events[c] = s.evu.events[c]) :
    s.modEvent c f = s := by
  have same : updAt s.evu.events c f = s.evu.events := by
    rw [updAt, h]
    exact Vector.set_getElem_self ..
  rw [State.modEvent, State.modEvu, same]

theorem writeEvents_whole (s : State) (c : Code) {x : EventCfg} (h : x.legal) :
    s.writeEvents (16 * c) x.words =
      if s.capture = none ∧ (s.evu.events[c].inService = true → x.group = s.settings.events[c].group) then
        ((({ s with settings := { s.settings with events := s.settings.events.set c x } } : State).modEvent c
          fun e => if x.enabled then e
            else { e with pending := false, inService := false, recurred := false }).dispatchTest, .ok)
      else (s, .busy) := by
  have length := EventCfg.length_words h
  have parsed : writtenEntries 128 16 (fun i => s.settings.events[i].words) eventOf (16 * c) x.words = some [(c, x)] :=
    writtenEntries_whole c (by omega) (by omega) (length.trans_le (EventCfg.le_length_words _))
      (event_readBack_append x h _)
  have guarded : ([(c, x)].any fun e => s.evu.events[e.1].inService && s.settings.events[e.1].group != e.2.group) = false
      ↔ (s.evu.events[c].inService = true → x.group = s.settings.events[c].group) := by
    rw [List.any_cons, List.any_nil, Bool.or_false, Bool.and_eq_false_iff, bne_eq_false_iff_eq, ← Bool.not_eq_true,
      ← imp_iff_not_or]
    exact imp_congr_right fun _ => eq_comm
  have stored (u : State) : (if x.enabled then u
      else u.modEvent c fun r => { r with pending := false, inService := false, recurred := false }) =
      u.modEvent c fun e => if x.enabled then e
        else { e with pending := false, inService := false, recurred := false } := by
    cases x.enabled with
    | true => exact (modEvent_self u c rfl).symm
    | false => rfl
  rw [State.writeEvents, parsed]
  show s.judge [([(c, x)].any fun e => s.evu.events[e.1].inService && s.settings.events[e.1].group != e.2.group, .busy),
    (s.saving, .busy)] false _ = _
  rw [judge_busy]
  simp only [guarded, ← stored]
  rfl

/-- Settles O25. -/
theorem tableWrites : Obligations.TableWrites := by
  unfold Obligations.TableWrites
  refine fun s src ready => ⟨fun k x h => ?steps, fun c x h => ?chans, fun i x h => ?tags, fun c x h => ?events⟩
  case steps =>
    simp only [← stepGuarded_iff]
    exact congrArg Host.Outcome.next (writeAt_entry (r := .steps) (n := 256) (stride := 4) ready src rfl k _
      x.length_words (by decide) (by decide) (by decide) (writeSteps_whole s k h) ready.noWork)
  case chans =>
    exact congrArg Host.Outcome.next (writeAt_entry (r := .channels) (n := 8) (stride := 32) ready src rfl c _
      x.length_words (by decide) (by decide) (by decide) (writeChans_whole s c h) ready.noWork)
  case tags =>
    exact congrArg Host.Outcome.next (writeAt_entry (r := .tags) (n := 16) (stride := 16) ready src rfl i _
      x.length_words (by decide) (by decide) (by decide) (writeTags_whole s i h) ready.noWork)
  case events =>
    refine congrArg Host.Outcome.next (writeAt_entry (r := .descriptors) (n := 128) (stride := 16) ready src rfl c _
      (EventCfg.length_words h) (by decide) (by decide) (by decide) (writeEvents_whole s c h) ?_)
    rw [dispatchTest_work]
    exact ready.noWork

/-! ### Parameter objects -/

theorem YawCfg.length_words (x : YawCfg) : x.words.length = 27 := rfl

theorem AlwCfg.length_words (x : AlwCfg) : x.words.length = 22 := by
  rw [alw_words]
  rfl

theorem ConvCfg.length_words {x : ConvCfg} (h : x.temps.length ≤ 6) : x.words.length = 33 := by
  rw [conv_words, List.length_append, List.length_append, signalWords_length h]
  rfl

theorem convAtRest_iff (s : State) : s.convAtRest = true ↔ s.cnv.state = .off ∨ s.cnv.state = .tripped := by
  simp [State.convAtRest]

/-- A guard that answers STATE, and the check on a save in flight. -/
theorem judge_state (s t : State) (g : Bool) (clamped : Bool) : s.judge [(!g, .state), (s.saving, .busy)] clamped t =
    if g = false then (s, .state) else if s.capture ≠ none then (s, .busy)
      else (t, if clamped then .okClamped else .ok) := by
  cases g with
  | true => simp [judge_cons_passes, judge_saving]
  | false => simp [judge_cons_fails]

/-- The conversion object written but for its last word, which stays. -/
theorem overlay_conv {x y : ConvCfg} (hx : x.temps.length ≤ 6) (hy : y.temps.length ≤ 6)
    (same : x.shedTrips = y.shedTrips) : overlay y.words 0 0 (x.words.take 32) = x.words := by
  have lx := ConvCfg.length_words hx
  have ly := ConvCfg.length_words hy
  have last {z : ConvCfg} (hz : z.temps.length ≤ 6) : z.words.drop 32 = [wordBool z.shedTrips] := by
    have front : ([wordNat z.gridA, wordNat z.gridB, wordNat z.gridC] ++ signalWords 6 z.temps).length = 10 := by
      rw [List.length_append, signalWords_length hz]
      rfl
    rw [conv_words, ← List.append_assoc, show 32 = 10 + 22 from rfl, ← front, List.drop_length_add_append]
    rfl
  have taken : (x.words.take 32).length = 32 := by simp [lx]
  rw [overlay_front 0 (by omega), taken, last hy, ← same, ← last hx, List.take_append_drop]

/-- A write answered by a chain of two refusals. -/
theorem writeAt_refusals {s t : State} (ready : Ready s) (src : Node) (r : Region) {len : Octet} {d : List Word}
    (p q : Prop) [Decidable p] [Decidable q] (hl : d.length = len.toNat) (h1 : 1 ≤ len.toNat) (h2 : len.toNat ≤ 32)
    (h : len.toNat ≤ r.size)
    (hw : s.writeRegion r 0 d = if p then (s, .state) else if q then (s, .busy) else (t, .ok)) (quiet : t.work = []) :
    s.writeAt src (addressIn r 0) len d = if p then s.answered (writeAnswer src r 0 .state)
      else if q then s.answered (writeAnswer src r 0 .busy) else t.answered (writeAnswer src r 0 .ok) := by
  have answered {u : State} {st : Status} (hu : s.writeRegion r 0 d = (u, st)) (hq : u.work = []) :
      s.writeAt src (addressIn r 0) len d = u.answered (writeAnswer src r 0 st) :=
    writeAt_quiet ready src r hl h1 h2 (by simpa using h) hu hq
  split
  · next hp => exact answered (hw.trans (if_pos hp)) ready.noWork
  · next hp =>
    split
    · next hq => exact answered (hw.trans ((if_neg hp).trans (if_pos hq))) ready.noWork
    · next hq => exact answered (hw.trans ((if_neg hp).trans (if_neg hq))) quiet

theorem writeConv_whole (s : State) {x : ConvCfg} (h : x.legal) (hs : s.settings.conv.legal)
    (same : x.shedTrips = s.settings.conv.shedTrips) :
    s.writeConv 0 (x.words.take 32) = if s.cnv.state ≠ .off ∧ s.cnv.state ≠ .tripped then (s, .state)
      else if s.capture ≠ none then (s, .busy)
      else ({ s with settings := { s.settings with conv := x } }, .ok) := by
  have readBack := conv_readBack x h
  obtain ⟨_, _, hx, _⟩ := h
  obtain ⟨_, _, hy, _⟩ := hs
  have atRest : s.convAtRest = false ↔ s.cnv.state ≠ .off ∧ s.cnv.state ≠ .tripped := by
    rw [← Bool.not_eq_true, convAtRest_iff, not_or]
  rw [State.writeConv, overlay_conv hx hy same, readBack]
  show s.judge [(!s.convAtRest, .state), (s.saving, .busy)] false _ = _
  rw [judge_state]
  simp only [atRest]
  rfl

theorem writeYaw_whole (s : State) {x : YawCfg} (h : x.legal) :
    s.writeYaw 0 x.words = if s.yaw.state ≠ .held ∧ s.yaw.state ≠ .fault then (s, .state)
      else if s.capture ≠ none then (s, .busy)
      else (s.storeYaw x, .ok) := by
  have atRest : s.yawAtRest = false ↔ s.yaw.state ≠ .held ∧ s.yaw.state ≠ .fault := by
    rw [← Bool.not_eq_true, yawAtRest_iff, not_or]
  rw [State.writeYaw, overlay_whole 0 ((YawCfg.length_words _).trans x.length_words.symm), yaw_readBack x h]
  show s.judge [(!s.yawAtRest, .state), (s.saving, .busy)] false _ = _
  rw [judge_state]
  simp only [atRest]
  rfl

theorem storeAlw_eq (s : State) (x : AlwCfg) : s.storeAlw x =
    ({ s with settings := { s.settings with alw := x } } : State).modAlw fun a =>
      { a with history := if s.settings.alw.length = x.length then a.history else [] } := by
  unfold State.storeAlw
  dsimp only
  split <;> rfl

theorem writeAlw_whole (s : State) {x : AlwCfg} (h : x.legal) :
    s.writeAlw 0 x.words = if s.capture = none then (s.storeAlw x, .ok) else (s, .busy) := by
  rw [State.writeAlw, overlay_whole 0 ((AlwCfg.length_words _).trans x.length_words.symm), alw_readBack x h]
  exact judge_saving s _ false

/-- Settles O26. -/
theorem parameterWrites : Obligations.ParameterWrites := by
  unfold Obligations.ParameterWrites
  refine fun s src ready => ⟨fun x h hs same => ?conv, fun x h => ?alw, fun x h => ?yaw⟩
  case conv =>
    refine congrArg Host.Outcome.next (writeAt_refusals ready src .convParams _ _ ?_ (by decide) (by decide) (by decide)
      (writeConv_whole s h hs same) ready.noWork)
    obtain ⟨_, _, temps, _⟩ := h
    rw [List.length_take, ConvCfg.length_words temps]
    rfl
  case alw =>
    have written := writeAt_ite (off := 0) (len := 22) ready src .alwParams _ x.length_words (by decide) (by decide) (by decide)
      (writeAlw_whole s h) (by rw [storeAlw_eq]; exact ready.noWork)
    rw [storeAlw_eq] at written
    exact congrArg Host.Outcome.next (written.trans (ite_not ..).symm)
  case yaw =>
    exact congrArg Host.Outcome.next (writeAt_refusals ready src .yawParams _ _ x.length_words (by decide) (by decide)
      (by decide) (writeYaw_whole s h) ready.noWork)

end Sys2Proof.Machine
end

section
/-! Requests to a channel (R43, R44). -/

namespace Sys2Proof.Machine

theorem request_of_idle {s : State} {c : ChanIx} (h : (s.chan c).state = .idle) (who : Requester) :
    s.request c who = s.modChan c ChanRt.request := by
  rw [State.request, h]

theorem request_of_masked {s : State} {c : ChanIx} (h : (s.chan c).state = .masked) (who : Requester) :
    s.request c who = s.raise 7 [(c : Int), who.number] := by
  rw [State.request, h]

/-- An active channel merges a request. -/
theorem request_of_active {s : State} {c : ChanIx} (hi : (s.chan c).state ≠ .idle) (hm : (s.chan c).state ≠ .masked)
    (who : Requester) : s.request c who = s := by
  unfold State.request
  split
  · exact absurd ‹_› hi
  · exact absurd ‹_› hm
  all_goals rfl

/-- Settles O30. -/
theorem requests : Obligations.Requests := by
  unfold Obligations.Requests
  exact fun s c who => ⟨fun h => request_of_idle h who, fun h => request_of_masked h who,
    fun hi hm => request_of_active hi hm who⟩

/-! ### Management requests to a channel -/

theorem chanRequest_code (h : State → ChanIx → State × Status) (c : ChanIx) (s : State) :
    chanRequest (wordNat c) h s = h s c := by
  rw [chanRequest, ixOf_word (by omega)]

theorem chanRequest_range (h : State → ChanIx → State × Status) {q : Word} (beyond : 7 < q.toNat) (s : State) :
    chanRequest q h s = (s, .range) := by
  rw [chanRequest, ixOf_eq_none beyond]

theorem isMasked_false_iff (s : State) (c : ChanIx) : s.isMasked c = false ↔ (s.chan c).state ≠ .masked := by
  rw [← Bool.not_eq_true, isMasked_iff, ne_eq]

theorem startChan_eq (s : State) (c : ChanIx) : s.startChan c =
    if (s.chan c).state = .masked then
      if (s.desc c).valid then (s.modChan c fun r => r.load (s.desc c) .requested, .ok) else (s, .state)
    else (s.request c .management, .ok) := by
  simp only [State.startChan, isMasked_iff]

theorem unmaskRequest_eq (s : State) (c : ChanIx) : s.unmaskRequest c =
    if (s.chan c).state = .masked then
      if (s.desc c).valid then (s.modChan c fun r => r.load (s.desc c) .idle, .ok) else (s, .state)
    else (s, .ok) := by
  unfold State.unmaskRequest
  split
  · next masked =>
    rw [if_pos ((isMasked_iff s c).mp masked)]
    split
    · next valid => rw [State.unmaskChan, masked, valid, Bool.and_self, if_pos rfl]
    · rfl
  · next active => rw [if_neg fun h => active ((isMasked_iff s c).mpr h)]

theorem maskRequest_eq (s : State) (c : ChanIx) : s.maskRequest c =
    if (s.chan c).state = .idle then (s.modChan c fun r => { r with state := .masked }, .ok)
    else (s, if (s.chan c).state = .masked then .ok else .busy) := by
  unfold State.maskRequest
  split <;> simp_all

theorem abortRequest_eq (s : State) (c : ChanIx) : s.abortRequest c =
    if (s.chan c).state = .masked then (s, .state) else (s.abortChan c .management, .ok) := by
  simp only [State.abortRequest, isMasked_iff]

/-- A channel request between two commands whose handler leaves no hand-over. -/
theorem served_chanRequest {s t : State} (ready : Ready s) (src : Node) (k : Octet) {q : Word} {st : Status}
    {h : State → ChanIx → State × Status} (e : chanRequest q h s = (t, st)) (quiet : t.work = []) :
    s.served src k 0 (plain (chanRequest q h)) = t.answered (answerOf src k 0 st) :=
  served_plain_eq ready src k 0 e quiet

theorem served_boot {s : State} (hb : s.part = .boot) (room : s.rif.class3.length < 2) (src : Node) (k : Octet) (a : Word)
    (f : State → State × Status × List Word) : s.served src k a f = s.answered (answerOf src k a .state) := by
  have asleep : s.awake = false := by simp [State.awake, hb]
  rw [State.served, if_pos room, asleep, if_neg Bool.false_ne_true]
  rfl

/-- Settles O29: each request by the state of its channel, RANGE beyond channel 7, STATE in BOOT. -/
theorem channelRequests : Obligations.ChannelRequests := by
  unfold Obligations.ChannelRequests
  refine ⟨?channels, ?others⟩
  case channels =>
    intro s src c q st loaded ready
    have answer {h : State → ChanIx → State × Status} (k : Octet) {t : State} {x : Status} (e : h s c = (t, x))
        (quiet : t.work = []) :
        s.served src k 0 (plain (chanRequest q h)) = t.answered (answerOf src k 0 x) :=
      served_chanRequest ready src k ((chanRequest_code h c s).trans e) quiet
    refine ⟨congrArg Host.Outcome.next ?start, congrArg Host.Outcome.next ?unmask, congrArg Host.Outcome.next ?mask,
      congrArg Host.Outcome.next ?abort⟩
    case start =>
      have e := startChan_eq s c
      split_ifs at e ⊢
      · exact answer 2 e ready.noWork
      · exact answer 2 e ready.noWork
      · exact answer 2 e ((request_work s c _).trans ready.noWork)
    case unmask =>
      have e := unmaskRequest_eq s c
      split_ifs at e ⊢
      · exact answer 5 e ready.noWork
      · exact answer 5 e ready.noWork
      · exact answer 5 e ready.noWork
    case mask =>
      have e := maskRequest_eq s c
      split_ifs at e ⊢
      all_goals exact answer 4 e ready.noWork
    case abort =>
      have e := abortRequest_eq s c
      split_ifs at e ⊢
      · exact answer 3 e ready.noWork
      · have served := served_plain_settle ready src 3 0 (chanRequest q State.abortRequest)
        rwa [chanRequest_code, e] at served
  case others =>
    intro s src q refused
    refine ⟨fun ready beyond => ?_, fun hb room => ?_⟩
    · have answer (h : State → ChanIx → State × Status) (k : Octet) :
          s.served src k 0 (plain (chanRequest q h)) = s.answered (answerOf src k 0 .range) :=
        served_chanRequest ready src k (chanRequest_range h beyond s) ready.noWork
      exact ⟨congrArg Host.Outcome.next (answer _ 2), congrArg Host.Outcome.next (answer _ 5),
        congrArg Host.Outcome.next (answer _ 4), congrArg Host.Outcome.next (answer _ 3)⟩
    · exact ⟨congrArg Host.Outcome.next (served_boot hb room ..), congrArg Host.Outcome.next (served_boot hb room ..),
        congrArg Host.Outcome.next (served_boot hb room ..), congrArg Host.Outcome.next (served_boot hb room ..)⟩

end Sys2Proof.Machine
end

section
/-! PROOFS. Ring ports and the Insertion Queue: port moves, bursts, link loss, insertion and placements (O36 to O41). -/

namespace Sys2Proof.Machine

/-! ### Changes of one port -/

theorem modPort_congr {s : State} {p : Port} {f g : PortRt → PortRt} (h : f (s.port p) = g (s.port p)) :
    s.modPort p f = s.modPort p g := by
  cases p
  · exact congrArg (fun r => { s with rif := { s.rif with portIn := r } }) h
  · exact congrArg (fun r => { s with rif := { s.rif with portOut := r } }) h

theorem modPort_self {s : State} {p : Port} {f : PortRt → PortRt} (h : f (s.port p) = s.port p) :
    s.modPort p f = s := by
  cases p
  · exact congrArg (fun r => { s with rif := { s.rif with portIn := r } }) h
  · exact congrArg (fun r => { s with rif := { s.rif with portOut := r } }) h

theorem modPort_modPort (s : State) (p : Port) (f g : PortRt → PortRt) :
    (s.modPort p f).modPort p g = s.modPort p (g ∘ f) := by
  cases p <;> rfl

/-- Settles O36, row by row, by the state of the port. -/
theorem portMoves : Obligations.PortMoves := by
  intro s p
  refine ⟨congrArg _ (if_congr ?active rfl rfl), congrArg Host.Outcome.next ?noActivity, rfl,
    congrArg _ (if_congr ?stuck rfl rfl), rfl, rfl, rfl, rfl⟩
  case active => simp [State.awake]
  case noActivity => cases h : (s.port p).state <;> rfl
  case stuck => cases h : (s.port p).state <;> simp [PortRt.stuckDue, h]

/-! ### Bursts -/

theorem holdsFast_iff (r : Rates) : holdsFast r = true ↔ r ≠ .base := by cases r <;> decide

theorem holdsBase_iff (r : Rates) : holdsBase r = true ↔ r ≠ .fast := by cases r <;> decide

theorem offer_fast_iff (o : Offer) : o.rates ≠ .base ↔ o ≠ .baseOnly := by cases o <;> decide

theorem offer_base_iff (o : Offer) : o.rates ≠ .fast ↔ o ≠ .fastOnly := by cases o <;> decide

theorem commonRate_eq (theirs : Rates) (o : Offer) :
    commonRate theirs o.rates =
      if theirs ≠ .base ∧ o ≠ .baseOnly then some .fast
      else if theirs ≠ .fast ∧ o ≠ .fastOnly then some .base else none := by
  simp only [commonRate, Bool.and_eq_true, holdsFast_iff, holdsBase_iff, offer_fast_iff, offer_base_iff]

theorem further_eq (r : PortRt) :
    (if r.bursts = 4 then { r with further := satSucc 6 r.further } else r) =
      { r with further := if r.bursts = 4 ∧ r.further < 6 then r.further + 1 else r.further } := by
  by_cases hb : r.bursts = 4
  · simp [hb, satSucc]
  · simp [hb]

/-- Settles O37: the burst timer by the state of the port, the rate decision by the rates the offers hold. -/
theorem burstsSent : Obligations.BurstsSent := by
  refine ⟨fun s p => congrArg Host.Outcome.next ?timer, fun s p theirs hk hb hf ht => congrArg Host.Outcome.next ?rate⟩
  case timer =>
    refine (if_congr (awake_iff s) rfl rfl).trans ?_
    by_cases hb : s.part = .boot
    · rw [if_neg (not_not.mpr hb), if_pos hb]
    rw [if_pos hb, if_neg hb]
    cases h : (s.port p).state with
    | acknowledge => exact congrArg ((s.emitLine _).modPort p) (funext further_eq)
    | _ => rfl
  case rate =>
    refine (if_pos ⟨hk, hb, hf⟩).trans ?_
    rw [ht]
    dsimp only
    rw [commonRate_eq]
    split_ifs <;> rfl

theorem burst_of_listen {r : PortRt} (h : r.state = .listen) (i f : Bool) (w : CapWord) :
    r.burst i w f = r.burstInListen i w := by
  rw [PortRt.burst, h]

theorem burst_of_acknowledge {r : PortRt} (h : r.state = .acknowledge) (i f : Bool) (w : CapWord) :
    r.burst i w f = r.burstInAcknowledge w f := by
  rw [PortRt.burst, h]

/-- A burst in LISTEN that is not the fourth equal one stays there and counts. -/
theorem burst_listening {r : PortRt} {i f : Bool} {w : CapWord} (hk : r.state = .listen) (hn : r.nextCount w ≠ 4) :
    r.burst i w f = { r with inverted := r.polarity i, bursts := r.nextCount w, before := some w } := by
  rw [burst_of_listen hk]
  exact if_neg hn

/-- The fourth equal burst in LISTEN takes the port to ACKNOWLEDGE. -/
theorem burst_fourth {r : PortRt} {i f : Bool} {w : CapWord} (hk : r.state = .listen) (hn : r.nextCount w = 4) :
    r.burst i w f =
      { r with inverted := r.polarity i, before := some w, state := .acknowledge, partnerRates := some w.rates,
               partnerRole := some w.role, bursts := 0, further := 0 } := by
  rw [burst_of_listen hk]
  exact (if_pos hn).trans rfl

theorem polarity_first {r : PortRt} (i : Bool) (h : r.before = none) : r.polarity i = i := by
  cases i <;> simp [PortRt.polarity, h]

theorem polarity_next {r : PortRt} {w : CapWord} (i : Bool) (h : r.before = some w) :
    r.polarity i = (i || r.inverted) := by
  cases i <;> simp [PortRt.polarity, h]

theorem burst_first {r : PortRt} {i f : Bool} {w : CapWord} (hk : r.state = .listen) (h : r.before ≠ some w) :
    r.burst i w f = { r with inverted := r.polarity i, bursts := 1, before := some w } := by
  have hn : r.nextCount w = 1 := if_neg h
  rw [burst_listening hk (by rw [hn]; decide), hn]

theorem burst_next {r : PortRt} {i f : Bool} {w : CapWord} (hk : r.state = .listen) (h : r.before = some w)
    (hn : r.bursts + 1 ≠ 4) :
    r.burst i w f = { r with inverted := i || r.inverted, bursts := r.bursts + 1 } := by
  have e : r.nextCount w = r.bursts + 1 := if_pos h
  rw [burst_listening hk (by rwa [e]), e, polarity_next i h, ← h]

/-- Settles O38, by the state of the port and whether the word differs from the one before. -/
theorem bursts : Obligations.Bursts := by
  refine ⟨fun s p w i1 i2 i3 i4 f1 f2 f3 f4 hk hn => ?four, fun s p w inv flag => ⟨fun hk hw => ?differing, fun hk =>
    ⟨fun hs => congrArg Host.Outcome.next ?same, fun hs => congrArg Host.Outcome.next ?other⟩,
    fun hl ha => congrArg Host.Outcome.next (modPort_self ?_)⟩⟩
  case four =>
    have one : (s.port p).burst i1 w f1 =
        { s.port p with inverted := i1, bursts := 1, before := some w } := by
      rw [burst_first hk (by rw [hn]; exact nofun), polarity_first i1 hn]
    have two : ((s.port p).burst i1 w f1).burst i2 w f2 =
        { s.port p with inverted := i2 || i1, bursts := 2, before := some w } := by
      rw [one]
      exact burst_next hk rfl (by simp)
    have three : (((s.port p).burst i1 w f1).burst i2 w f2).burst i3 w f3 =
        { s.port p with inverted := i3 || (i2 || i1), bursts := 3, before := some w } := by
      rw [two]
      exact burst_next hk rfl (by simp)
    refine ⟨_, _, _, rfl, rfl, rfl, ?_, ?_, ?_, ?_, congrArg Host.Outcome.next ?_⟩
    · rw [State.modPort_same, one]
      exact hk
    · rw [State.modPort_same, one]
    · rw [State.modPort_same, State.modPort_same, two]
    · rw [State.modPort_same, State.modPort_same, State.modPort_same, three]
    · rw [modPort_modPort, modPort_modPort, modPort_modPort]
      refine modPort_congr ?_
      show (((((s.port p).burst i1 w f1).burst i2 w f2).burst i3 w f3).burst i4 w f4) = _
      rw [three]
      refine (burst_fourth (by exact hk) (by exact if_pos rfl)).trans ?_
      rw [polarity_next (w := w) i4 rfl]
      have order : (i4 || (i3 || (i2 || i1))) = (i1 || i2 || i3 || i4) := by
        rw [Bool.or_comm i2 i1, Bool.or_comm i3, Bool.or_comm i4]
      rw [← order]
  case differing =>
    refine ⟨_, rfl, ?_, ?_, ?_, fun hi => ?_⟩ <;> rw [State.modPort_same, burst_first hk hw]
    · exact hk
    · exact if_pos hi
  case same =>
    refine Eq.trans (modPort_congr (g := fun x => if flag = true then { x with bursts := satSucc 4 x.bursts } else x) ?_) ?_
    · show (s.port p).burst inv w flag = _
      rw [burst_of_acknowledge hk]
      exact if_pos hs
    · cases flag
      · exact modPort_self (if_neg Bool.false_ne_true)
      · by_cases hb : (s.port p).bursts < 4
        · rw [if_pos ⟨rfl, hb⟩]
          exact modPort_congr (by simp [satSucc, hb])
        · rw [if_neg fun h => hb h.2]
          exact modPort_self (by simp [satSucc, hb])
  case other =>
    refine modPort_congr ?_
    show (s.port p).burst inv w flag = _
    rw [burst_of_acknowledge hk]
    exact if_neg hs
  · show (s.port p).burst inv w flag = _
    cases h : (s.port p).state with
    | listen => exact absurd h hl
    | acknowledge => exact absurd h ha
    | _ => rw [PortRt.burst, h]

theorem forwarding_iff (s : State) (os : List Octet) :
    s.forwarding os = true ↔
      (4 ≤ os.length ∧ frameSource os ≠ s.ownAddress ∧ ¬(frameClass os = 3 ∧ frameDest os = s.ownAddress)) ∧
        s.rif.portOut.state = .up ∧ s.rif.portIn.rate = s.rif.portOut.rate := by
  simp only [State.forwarding, State.evenRates, Bool.and_eq_true, decide_eq_true_eq, bne_iff_ne, beq_iff_eq,
    Bool.not_eq_true', Bool.and_eq_false_imp, beq_eq_false_iff_ne, not_and, and_assoc, ne_eq]

/-- Settles O39: whether a frame is being forwarded, and the two ends of a cut frame. -/
theorem linkLoss : Obligations.LinkLoss := by
  intro s cause transit
  refine ⟨congrArg Host.Outcome.next (if_congr Iff.rfl ?inn rfl), congrArg Host.Outcome.next (if_congr Iff.rfl ?out rfl)⟩
  case inn =>
    rw [← if_congr (forwarding_iff s transit) rfl rfl]
    cases h : s.forwarding transit <;> cases cause <;> simp [State.cutTransit, h] <;> rfl
  case out =>
    by_cases h : transit = [] <;> cases cause <;> simp [State.cutTransit, h] <;> rfl

/-- What one slot of class 1 takes of a frame that CLC holds. -/
theorem offerStage_eq (s : State) :
    s.offerStage = { s with
      rif := { s.rif with
        class1 := s.rif.class1 ++ (if s.rif.class1.length < 6 then s.clc.heldStage.toList else []) }
      clc := { s.clc with heldStage := if s.rif.class1.length < 6 then none else s.clc.heldStage } } := by
  rw [State.offerStage]
  have keep (q : List CmdFrame) (held : Option CmdFrame) (hq : q = s.rif.class1) (hh : held = s.clc.heldStage) :
      s = { s with rif := { s.rif with class1 := q }, clc := { s.clc with heldStage := held } } := by
    rw [hq, hh]
  cases h : s.clc.heldStage with
  | none => exact keep _ _ (by simp) (by simp [h])
  | some f =>
    by_cases hr : s.rif.class1.length < 6
    · simp [State.class1Room, hr]
      rfl
    · exact (if_neg (by simpa [State.class1Room] using hr)).trans (keep _ _ (by simp [hr]) (by simp [hr, h]))

theorem offerHeater_eq (s : State) :
    s.offerHeater = { s with
      rif := { s.rif with
        class1 := s.rif.class1 ++ (if s.rif.class1.length < 6 then s.clc.heldHeater.toList else []) }
      clc := { s.clc with heldHeater := if s.rif.class1.length < 6 then none else s.clc.heldHeater } } := by
  rw [State.offerHeater]
  have keep (q : List CmdFrame) (held : Option CmdFrame) (hq : q = s.rif.class1) (hh : held = s.clc.heldHeater) :
      s = { s with rif := { s.rif with class1 := q }, clc := { s.clc with heldHeater := held } } := by
    rw [hq, hh]
  cases h : s.clc.heldHeater with
  | none => exact keep _ _ (by simp) (by simp [h])
  | some f =>
    by_cases hr : s.rif.class1.length < 6
    · simp [State.class1Room, hr]
      rfl
    · exact (if_neg (by simpa [State.class1Room] using hr)).trans (keep _ _ (by simp [hr]) (by simp [hr, h]))

theorem chan_releaseQueueWaits (s : State) (c : ChanIx) :
    s.releaseQueueWaits.chan c =
      if (s.chan c).state = .waiting .queue then { s.chan c with state := .requested } else s.chan c :=
  Vector.getElem_map ..

theorem drainBuffer_some {s : State} {f : RxFrame} (hu : s.rif.portOut.state = .up) (hf : s.rif.buffer = some f) :
    s.drainBuffer =
      { s with rif := { s.rif with buffer := none, line := s.rif.line ++ [.forwarded f.octets f.aborted] } } := by
  rw [State.drainBuffer, hf]
  exact if_pos hu

theorem drainBuffer_none {s : State} (h : s.rif.buffer = none) : s.drainBuffer = s := by
  rw [State.drainBuffer, h]

theorem exec_frameInsertion_up {s : State} (h : s.rif.portOut.state = .up) :
    exec .frameInsertion s = .next s.drainBuffer.insertHead :=
  congrArg Host.Outcome.next (if_pos h)

/-- Settles O40: the buffer first, then the lowest class that holds a frame. -/
theorem frameInsertion : Obligations.FrameInsertion := by
  refine ⟨fun s => ⟨fun hd => congrArg Host.Outcome.next (if_neg hd), fun f hu hf => ?_, fun hu hn => ?_⟩,
    fun s => ⟨rfl, chan_releaseQueueWaits s, ?_⟩⟩
  · rw [exec_frameInsertion_up hu, exec_frameInsertion_up (by exact hu), drainBuffer_some hu hf, drainBuffer_none rfl]
  · rw [exec_frameInsertion_up hu, drainBuffer_none hn]
    refine ⟨fun f rest h0 => ?_, fun f rest h0 h1 => ?_, fun f rest h0 h1 h2 => ?_,
      fun f rest h0 h1 h2 h3 => ?_, fun h0 h1 h2 h3 => ?_⟩
    · rw [State.insertHead, h0]
      rfl
    · rw [State.insertHead, h0, h1]
      rfl
    · rw [State.insertHead, h0, h1, h2]
      rfl
    · rw [State.insertHead, h0, h1, h2, h3]
      rfl
    · rw [State.insertHead, h0, h1, h2, h3]
  · rw [State.offerHeld, offerHeater_eq, offerStage_eq]

/-- Settles O41: the placements in the shapes of class 0, and the shape law after them. -/
theorem classZeroPlacements : Obligations.ClassZeroPlacements := by
  intro d e a b c
  refine ⟨rfl, rfl, rfl, rfl, rfl, rfl, rfl, rfl, rfl, rfl, rfl, rfl, fun q hq =>
    ⟨placeRefIn_shape _ _ _ q hq, placeBlockIn_shape d q hq, ?_⟩⟩
  obtain rfl | ⟨g, rfl⟩ | ⟨_, _, _, x, rfl⟩ | ⟨x, _, _, _, rfl⟩ | ⟨_, _, _, x, _, _, _, rfl⟩ := class0Shape_cases hq
  · exact ⟨d, rfl⟩
  · cases g with
    | ref => exact ⟨d, rfl⟩
    | block x => exact ⟨x, rfl⟩
  all_goals exact ⟨x, rfl⟩

end Sys2Proof.Machine
end

section
/-! PROOFS. The requests to YAW (R129, R130), the ends of waits (R51 to R53, R57) and the expiry rows of the jobs. -/

namespace Sys2Proof.Machine

/-! ### Requests to YAW -/

@[simp] theorem stopYaw_work (s : State) (cause : StopCause) (fault : Bool) :
    (s.stopYaw cause fault).work = s.work := request_work ..

theorem putInhibit_work (s : State) (r : Inhibit) (b : Bool) : (s.putInhibit r b).work = s.work := rfl

/-- A reason that stops a move, added while YAW drives without it, or at another time (R119, R124). -/
theorem addStopping_eq (s : State) (r : Inhibit) :
    s.addStopping r =
      if s.yaw.state = .driving ∧ s.yaw.inhibit.has r = false then (s.putInhibit r true).stopYaw .inhibit false
      else s.putInhibit r true := by
  refine if_congr ?_ rfl rfl
  simp [State.putInhibit, and_comm]

theorem addStopping_work (s : State) (r : Inhibit) : (s.addStopping r).work = s.work := by
  rw [addStopping_eq]
  split
  · rw [stopYaw_work, putInhibit_work]
  · rfl

theorem beyondRoll_of_management {i : InhibitSet} (h : i.management = true) : i.beyondRoll = true := by
  refine decide_eq_true fun e => ?_
  have : i.management = false := congrArg InhibitSet.management e
  exact Bool.noConfusion (h.symm.trans this)

/-- Settles O35: the handlers leave no hand-over, and a DISABLE in RELEASING is found by the entry checks. -/
theorem yawRequests : Obligations.YawRequests := by
  intro s src
  refine ⟨fun ready => ⟨?clear, ?enable, ?disable⟩, fun hb room => ⟨?_, ?_⟩, fun hk hm hg => ?release⟩
  case clear =>
    refine congrArg Host.Outcome.next ?_
    by_cases h : s.yaw.state = .fault ∧ s.yaw.stopConfirmed = true
    · rw [if_pos h]
      exact served_plain_eq ready src 7 1 (if_pos h) ready.noWork
    · rw [if_neg h]
      exact served_plain_eq ready src 7 1 (if_neg h) ready.noWork
  case enable => exact congrArg Host.Outcome.next (served_plain_eq ready src 9 0 rfl ready.noWork)
  case disable =>
    refine congrArg Host.Outcome.next ((served_plain_eq ready src 9 1 rfl ?_).trans ?_)
    · rw [addStopping_work]
      exact ready.noWork
    · rw [addStopping_eq]
      rfl
  case release =>
    rw [State.yawOutcome, hk]
    refine (if_pos rfl).trans ?_
    show s.entryChecks = _
    rw [State.entryChecks, hg]
    exact (if_neg (by simp)).trans (if_pos (beyondRoll_of_management hm))
  all_goals exact congrArg Host.Outcome.next (served_boot hb room ..)

/-! ### Waits that are not due -/

theorem awaitExpiry_early {s : State} {c : ChanIx} (h : ¬s.waitDue c) : s.awaitExpiry c = s := by
  unfold State.awaitExpiry
  split
  · next hk hs => exact if_neg fun hn => h (by rw [State.waitDue, hk, hs]; exact hn)
  · rfl

theorem dwellExpiry_early {s : State} {c : ChanIx} (h : ¬s.waitDue c) : s.dwellExpiry c = s := by
  unfold State.dwellExpiry
  split
  · next hk hs => exact if_neg fun hn => h (by rw [State.waitDue, hk, hs]; exact hn)
  · rfl

theorem claimExpiry_early {s : State} {c : ChanIx} (h : ¬s.waitDue c) : s.claimExpiry c = s := by
  unfold State.claimExpiry
  split
  · next hk hs => exact if_neg fun hn => h (by rw [State.waitDue, hk, hs]; exact hn)
  · rfl

/-! ### Step faults and completed waits -/

theorem raise_desc (s : State) (k : Code) (d : List Int) (c : ChanIx) : (s.raise k d).desc c = s.desc c :=
  desc_of_settings_eq (evt_raise s k d).settings c

theorem stepFault_eq (s : State) (c : ChanIx) (cause : StepFault) :
    let v := ((s.modChan c fun r => { r with fault := true, state := .masked }).engineFree c).raise 8
      [(c : Int), ((s.chan c).current : Int), cause.code]
    s.stepFault c cause =
      { v with work := v.work ++
          (if (s.desc c).owner = .none then [] else [.outcome (s.desc c).owner c (.fault (s.chan c).current cause)]) } := by
  intro v
  have hd : v.desc c = s.desc c := raise_desc ..
  rw [← hd]
  exact notifyOwner_eq v c _

theorem chan_modChan (s : State) (c : ChanIx) (f : ChanRt → ChanRt) : (s.modChan c f).chan c = f (s.chan c) :=
  updAt_same ..

theorem modChan_congr {s : State} {c : ChanIx} {f g : ChanRt → ChanRt} (h : f (s.chan c) = g (s.chan c)) :
    s.modChan c f = s.modChan c g :=
  congrArg (fun r => { s with seq := { s.seq with chans := s.seq.chans.set c r } }) h

theorem modChan_modChan (s : State) (c : ChanIx) (f g : ChanRt → ChanRt) :
    (s.modChan c f).modChan c g = s.modChan c (g ∘ f) := by
  have twice : updAt (updAt s.seq.chans c f) c g = updAt s.seq.chans c (g ∘ f) := by
    simp [updAt, Vector.set_set]
  exact congrArg (fun v => { s with seq := { s.seq with chans := v } }) twice

theorem completeWait_more {s : State} {c : ChanIx} (h : 1 < (s.chan c).remaining) :
    s.completeWait c = s.modChan c fun r =>
      { r with remaining := r.remaining - 1, current := r.current + 1, state := .requested } := by
  refine (if_neg ?_).trans ?_
  · rw [chan_modChan]
    exact Nat.sub_ne_zero_of_lt h
  · rw [modChan_modChan]
    refine modChan_congr ?_
    simp [ChanRt.completeStep, h]

theorem completeWait_last {s : State} {c : ChanIx} (h : (s.chan c).remaining ≤ 1) :
    s.completeWait c = (s.modChan c fun r => { r with remaining := 0 }).finishRun c := by
  refine (if_pos ?_).trans (congrArg (State.finishRun · c) (modChan_congr ?_))
  · rw [chan_modChan]
    exact Nat.sub_eq_zero_of_le h
  · simp [ChanRt.completeStep, Nat.sub_eq_zero_of_le h, h]

/-- Settles O51: each end of a wait by its kind, then the step fault and the completed wait. -/
theorem waitExpiries : Obligations.WaitExpiries := by
  refine ⟨fun s c => ⟨?await, ?dwell, ?claim, fun early quiet => ⟨?_, ?_, ?_⟩⟩, fun s c cause =>
    ⟨?fault, completeWait_more, completeWait_last, fun ho => ?_⟩⟩
  case await =>
    intro i sense l n hs hd
    refine congrArg (fun x : State => Host.Outcome.next x.settle) ?_
    rw [State.awaitExpiry, hd.1, hs]
    exact if_pos hd.2
  case dwell =>
    intro n hs hd
    refine congrArg (fun x : State => Host.Outcome.next x.settle) ?_
    rw [State.dwellExpiry, hd.1, hs]
    exact if_pos hd.2
  case claim =>
    intro t a n hs hd
    refine congrArg (fun x : State => Host.Outcome.next x.settle) ?_
    rw [State.claimExpiry, hd.1, hs]
    exact if_pos hd.2
  case fault =>
    rw [stepFault_eq]
    cases cause <;> rfl
  · refine congrArg Host.Outcome.next ?_
    rw [awaitExpiry_early early, settle_nil quiet]
  · refine congrArg Host.Outcome.next ?_
    rw [dwellExpiry_early early, settle_nil quiet]
  · refine congrArg Host.Outcome.next ?_
    rw [claimExpiry_early early, settle_nil quiet]
  · rw [terminalCount_of_room (.inl ho), frameClosed_of_noFrame ho]

/-! ### What the operations on signals leave -/

/-- `t` is `s` but for the signals, the event state, the Notices queued and the hand-overs. -/
def OnlySignals (s t : State) : Prop :=
  t = { s with
    signals := t.signals, evu := t.evu, rif := { s.rif with class2 := t.rif.class2 }, work := t.work }

namespace OnlySignals

variable {s t u : State}

theorem refl (s : State) : OnlySignals s s := rfl

theorem trans (a : OnlySignals s t) (b : OnlySignals t u) : OnlySignals s u := by
  unfold OnlySignals at a b ⊢
  rw [a] at b
  exact b

theorem of_evt (h : Evt s t) : OnlySignals s t := by
  have e := h.eq
  unfold OnlySignals
  rw [e]

theorem settings (h : OnlySignals s t) : t.settings = s.settings := (congrArg State.settings h : _)
theorem part (h : OnlySignals s t) : t.part = s.part := (congrArg State.part h : _)
theorem seq (h : OnlySignals s t) : t.seq = s.seq := (congrArg State.seq h : _)
theorem ala (h : OnlySignals s t) : t.ala = s.ala := (congrArg State.ala h : _)
theorem cnv (h : OnlySignals s t) : t.cnv = s.cnv := (congrArg State.cnv h : _)
theorem alw (h : OnlySignals s t) : t.alw = s.alw := (congrArg State.alw h : _)
theorem yaw (h : OnlySignals s t) : t.yaw = s.yaw := (congrArg State.yaw h : _)
theorem clc (h : OnlySignals s t) : t.clc = s.clc := (congrArg State.clc h : _)

end OnlySignals

theorem onlySignals_raise (s : State) (c : Code) (d : List Int) : OnlySignals s (s.raise c d) :=
  .of_evt (evt_raise s c d)

theorem onlySignals_lossEvents (s : State) (i : SigIx) (old new : Quality) :
    OnlySignals s (s.lossEvents i old new) := by
  have set (b : Bool) : OnlySignals s (s.modSignal i fun r => { r with lossRaised := b }) := rfl
  unfold State.lossEvents
  split
  · exact (set true).trans (onlySignals_raise ..)
  · split
    · refine (set false).trans ?_
      unfold State.raiseRecovery
      dsimp only
      split
      · exact onlySignals_raise ..
      · exact .of_evt (evt_raiseKind ..)
    · exact .refl s

theorem onlySignals_publish (s : State) (f : Feed) (v : Int) : OnlySignals s (s.publish f v) := by
  unfold State.publish
  split
  · exact .refl s
  · next i _ =>
    have written : OnlySignals s ((s.modSignal i fun r => r.written v).notify i .derived) := rfl
    exact written.trans (onlySignals_lossEvents ..)

/-! ### The expiry rows of the jobs -/

theorem usable_iff (q : Quality) : q.usable = true ↔ q = .good ∨ q = .degraded := by
  cases q <;> simp [Quality.usable]

theorem movement_eq (y : YawRt) :
    y.movement = if y.direction = .ccw then y.stallBase - y.twist else y.twist - y.stallBase := by
  cases h : y.direction <;> simp [YawRt.movement, h]

theorem windowTest_due {s : State} (h : s.settings.clc.window ≤ s.clc.flowTimer) : s.windowTest = s.endWindow :=
  if_pos h

/-- A flow window that ends while the count cannot be read (R142). -/
theorem endWindow_lost {s : State} (h : s.signals[s.settings.clc.flowCount].quality.usable = false) :
    s.endWindow = s.modClc fun c => { c with flowTimer := 0, prevCount := none, flow := none } :=
  (if_neg (Bool.eq_false_iff.mp h)).trans rfl

theorem endWindow_first {s : State} (h : s.signals[s.settings.clc.flowCount].quality.usable = true)
    (hp : s.clc.prevCount = none) :
    s.endWindow = s.modClc fun c =>
      { c with flowTimer := 0, prevCount := some s.signals[s.settings.clc.flowCount].value } := by
  refine (if_pos h).trans ?_
  simp only [State.modClc_clc, hp]
  rfl

/-- A flow window with a count before it (R142). -/
theorem endWindow_flow {s : State} {old : Int} (h : s.signals[s.settings.clc.flowCount].quality.usable = true)
    (hp : s.clc.prevCount = some old) :
    let v := s.signals[s.settings.clc.flowCount].value
    let flow := ((v - old) % 65536).toNat
    let w := (s.modClc fun c => { c with flowTimer := 0, prevCount := some v, flow := some flow }).publish
      .coolantFlow (min flow 32767)
    s.endWindow = (w.publish .coolingFactor w.clc.cf).judgeFlow flow := by
  refine (if_pos h).trans ?_
  simp only [State.modClc_clc, hp]
  rfl


/-- Settles O52, row by row, by whether the expiry is due. -/
theorem jobExpiries : Obligations.JobExpiries := by
  intro s
  refine ⟨fun hd hm => ?stalled, fun hd hm => ?moving, fun hd => ?rest, fun hd => ?dwell, fun hd =>
    ⟨fun hu => ?lost, fun hu hp => ?first, fun hu old hp => ?flow⟩, fun quiet =>
    ⟨fun hd => ?_, fun hd => ?_, fun hd => ?_, fun hd => ?_⟩⟩
  case stalled =>
    refine congrArg (fun x : State => Host.Outcome.next x.settle) ((if_pos hd).trans ((if_pos ?_).trans ?_))
    · rw [movement_eq]
      exact hm
    · simp only [movement_eq]
  case moving =>
    refine congrArg (fun x : State => Host.Outcome.next x.settle) ((if_pos hd).trans (if_neg ?_))
    rw [movement_eq]
    exact not_lt.mpr hm
  case rest => exact congrArg (fun x : State => Host.Outcome.next x.settle) (if_pos hd)
  case dwell => exact congrArg (fun x : State => Host.Outcome.next x.settle) (if_pos hd)
  case lost =>
    refine congrArg (fun x : State => Host.Outcome.next x.settle) ((windowTest_due hd).trans (endWindow_lost ?_))
    exact Bool.eq_false_iff.mpr fun h => hu ((usable_iff _).mp h)
  case first =>
    exact congrArg (fun x : State => Host.Outcome.next x.settle)
      ((windowTest_due hd).trans (endWindow_first ((usable_iff _).mpr hu) hp))
  case flow =>
    have published (x : State) (v : Int) : (x.publish .coolantFlow v).clc = x.clc := (onlySignals_publish ..).clc
    refine ⟨congrArg (fun x : State => Host.Outcome.next x.settle) ((windowTest_due hd).trans
      ((endWindow_flow ((usable_iff _).mpr hu) hp).trans ?_)), ?_⟩
    · rw [published]
      rfl
    · exact (onlySignals_publish ..).clc.trans (published ..)
  · exact congrArg Host.Outcome.next ((congrArg State.settle (if_neg hd)).trans (settle_nil quiet))
  · exact congrArg Host.Outcome.next ((congrArg State.settle (if_neg hd)).trans (settle_nil quiet))
  · exact congrArg Host.Outcome.next
      ((congrArg State.settle (if_neg (Bool.eq_false_iff.mp hd))).trans (settle_nil quiet))
  · exact congrArg Host.Outcome.next ((congrArg State.settle (if_neg (not_le.mpr hd))).trans (settle_nil quiet))

end Sys2Proof.Machine
end

section
/-! PROOFS. The Frame Filter (R173, R174): the row a received frame meets, and the requests it carries. -/

namespace Sys2Proof.Machine

/-! ### Forwarding -/

theorem forward_eq (s : State) (f : RxFrame) :
    s.forward f =
      if s.rif.portOut.state = .up then
        if s.rif.portIn.rate = s.rif.portOut.rate then
          { s with rif := { s.rif with line := s.rif.line ++ [.forwarded f.octets f.aborted] } }
        else if s.rif.buffer = none then { s with rif := { s.rif with buffer := some f } }
        else s
      else s :=
  if_congr Iff.rfl (if_congr beq_iff_eq rfl rfl) rfl

theorem forward_part (s : State) (f : RxFrame) : (s.forward f).part = s.part := by
  rw [forward_eq]
  split_ifs <;> rfl

theorem forward_portIn (s : State) (f : RxFrame) : (s.forward f).rif.portIn = s.rif.portIn := by
  rw [forward_eq]
  split_ifs <;> rfl

/-! ### Requests by kind and subject -/

/-- A request that asks for a command is taken as that command is executed. -/
theorem exec_of_command {r : Request} {c : Instr} (h : r.command = some c) (s : State) :
    exec c s = .next (s.takeRequest r) := by
  obtain ⟨src, kind, qual, addr, len, data⟩ := r
  have hk : kind = BitVec.ofNat 8 kind.toNat := BitVec.eq_of_toNat_eq (by simp)
  have ha : addr = BitVec.ofNat 16 addr.toNat := BitVec.eq_of_toNat_eq (by simp)
  dsimp only [Request.command] at h
  generalize kind.toNat = k at h hk
  generalize addr.toNat = a at h ha
  subst hk ha
  split at h
  all_goals cases h
  all_goals rfl

/-- A kind or a subject outside its list has the handler that answers RANGE (R180, R190). -/
theorem handler_outOfRange {r : Request}
    (h : 13 < r.kind.toNat ∨ (r.kind = 7 ∧ 4 < r.addr.toNat) ∨ (r.kind = 8 ∧ 2 < r.addr.toNat) ∨
      (r.kind = 9 ∧ 1 < r.addr.toNat)) : r.handler = outOfRange := by
  obtain hk | ⟨hk, ha⟩ | ⟨hk, ha⟩ | ⟨hk, ha⟩ := h
  · unfold Request.handler
    split
    rotate_right
    · rfl
    all_goals omega
  · have subject : r.handler = clearHandler r.addr r.qual := by
      unfold Request.handler
      rw [hk]
      rfl
    rw [subject]
    unfold clearHandler
    split
    rotate_right
    · rfl
    all_goals omega
  · have subject : r.handler = conversionHandler r.addr := by
      unfold Request.handler
      rw [hk]
      rfl
    rw [subject]
    unfold conversionHandler
    split
    rotate_right
    · rfl
    all_goals omega
  · have subject : r.handler = yawHandler r.addr := by
      unfold Request.handler
      rw [hk]
      rfl
    rw [subject]
    unfold yawHandler
    split
    rotate_right
    · rfl
    all_goals omega

theorem requestOf_src {src : Node} {os : List Octet} {r : Request} (h : requestOf src os = some r) : r.src = src := by
  unfold requestOf at h
  split at h
  · cases h
    rfl
  · cases h

theorem takeRequest_noRoom {s : State} (h : 2 ≤ s.rif.class3.length) (r : Request) : s.takeRequest r = s := by
  have full : ¬s.rif.class3.length < 2 := not_lt.mpr h
  unfold State.takeRequest
  split
  · exact if_neg full
  · exact if_neg full

/-! ### The rows of the filter -/

theorem exec_frameReceived {s : State} (ha : s.part ≠ .boot) (hu : s.rif.portIn.state = .up) (f : RxFrame) :
    exec (.frameReceived f) s = .next (s.receive f) :=
  congrArg Host.Outcome.next (if_pos ⟨(awake_iff s).mpr ha, hu⟩)

theorem receive_whole {s : State} {f : RxFrame} (hf : f.aborted = false) (h4 : 4 ≤ f.octets.length)
    (h96 : f.octets.length ≤ 96) : s.receive f = s.filterFrame f.octets :=
  (if_neg (not_lt.mpr h96)).trans ((if_neg (by simp [hf])).trans (if_neg (not_lt.mpr h4)))

theorem good_iff (os : List Octet) :
    (checkPasses os && lengthAgrees os) = true ↔
      checkPasses os = true ∧ os.length = (octetAt os 3).toNat + 6 := by
  rw [Bool.and_eq_true, lengthAgrees, beq_iff_eq]

section
variable {s : State} {os : List Octet}

theorem filterFrame_own (h : frameSource os = s.ownAddress) :
    s.filterFrame os = if checkPasses os then s else s.raiseCheck os := if_pos h

theorem filterFrame_mine (ho : frameSource os ≠ s.ownAddress)
    (hm : frameClass os = 3 ∧ frameDest os = s.ownAddress) :
    s.filterFrame os = if checkPasses os && lengthAgrees os then s.consume os else s.raiseCheck os :=
  (if_neg ho).trans (if_pos hm)

theorem filterFrame_bad (ho : frameSource os ≠ s.ownAddress)
    (hm : ¬(frameClass os = 3 ∧ frameDest os = s.ownAddress))
    (hg : ¬(checkPasses os && lengthAgrees os) = true) :
    s.filterFrame os = (s.forward { octets := os, aborted := false }).raiseCheck os :=
  (if_neg ho).trans ((if_neg hm).trans (if_neg hg))

theorem filterFrame_good (ho : frameSource os ≠ s.ownAddress)
    (hm : ¬(frameClass os = 3 ∧ frameDest os = s.ownAddress))
    (hg : (checkPasses os && lengthAgrees os) = true) :
    let t := s.forward { octets := os, aborted := false }
    s.filterFrame os =
      if frameClass os = 0 then t.copyMark os else if frameClass os = 1 then t.copySample os else t :=
  (if_neg ho).trans ((if_neg hm).trans (if_pos hg))

end

/-- Settles O43: the rows of R173 in their order, and the command of each request consumed. -/
theorem frameFilter : Obligations.FrameFilter := by
  intro s f os got src sent named own mine good
  have forwarded (o : List Octet) (m : Bool) : s.forward { octets := o, aborted := m } = sent o m := forward_eq ..
  refine ⟨fun h => ?_, fun ha hu => ?_⟩
  · refine congrArg Host.Outcome.next (if_neg fun ⟨ha, hu⟩ => ?_)
    exact h.elim ((awake_iff s).mp ha) fun hd => hd hu
  have handled : got = .next (s.receive f) := exec_frameReceived ha hu f
  refine ⟨fun h96 => ?_, fun h96 hab => ?_, fun hab h4 => ?_, fun hab h4 h96 => ?_⟩
  · rw [handled, State.receive, if_pos h96, forwarded]
  · have f_eq : f = { octets := os, aborted := true } := by rw [← hab]
    rw [handled, State.receive, if_neg (not_lt.mpr h96), if_pos hab, ← forwarded, ← f_eq]
  · rw [handled, State.receive, if_neg (not_lt.mpr (h4.le.trans (by decide))), if_neg (by simp [hab]), if_pos h4, forwarded]
  have filtered : got = .next (s.filterFrame os) := handled.trans (congrArg _ (receive_whole hab h4 h96))
  have consumed (ho : ¬own) (hm : mine) (hg : good) : got = .next (s.consume os) := by
    rw [filtered, filterFrame_mine ho hm, if_pos ((good_iff os).mpr hg)]
  have requested (ho : ¬own) (hm : mine) (hg : good) {r : Request} (hr : requestOf src (framePayload os) = some r) :
      got = .next (s.takeRequest r) := by
    rw [consumed ho hm hg, State.consume, hr]
  refine ⟨fun ho => ?_, fun ho hm hg => ?_, fun ho hm hg r c hr hc => ?_, fun ho hm hg hr => ?_,
    fun ho hm hg r hr => ⟨fun full => ?_, fun room quiet bad => ?_⟩, fun ho hm hg => ?_,
    fun ho hg hc a b c d hp => ?_, fun ho hg hc sq n rest hp hn => ?_, fun ho hm hg h0 h1 => ?_⟩
  · rw [filtered, filterFrame_own ho]
    rfl
  · rw [filtered, filterFrame_mine ho hm, if_neg fun h => hg ((good_iff os).mp h)]
    rfl
  · rw [requested ho hm hg hr, exec_of_command hc]
  · rw [consumed ho hm hg, State.consume, hr]
  · rw [requested ho hm hg hr, takeRequest_noRoom full]
  · have source : r.src = src := requestOf_src hr
    have notReset : r.kind.toNat ≠ 13 := by
      obtain h | ⟨h, _⟩ | ⟨h, _⟩ | ⟨h, _⟩ := bad
      · omega
      all_goals rw [h]; decide
    rw [requested ho hm hg hr, State.takeRequest, if_neg notReset, handler_outOfRange bad, source]
    exact congrArg Host.Outcome.next (served_quiet ⟨ha, room, quiet⟩ _ _ _ _ quiet)
  · rw [filtered, filterFrame_bad ho hm fun h => hg ((good_iff os).mp h), forwarded]
    rfl
  · have notMine : ¬mine := fun hm => absurd (hc.symm.trans hm.1) (by decide)
    rw [filtered, filterFrame_good ho notMine ((good_iff os).mpr hg), if_pos hc, State.copyMark, hp]
    dsimp only
    rw [← forwarded, exec, execCycleMark,
      if_pos ⟨(awake_iff _).mpr (by rwa [forward_part]), by rwa [forward_portIn]⟩]
    rfl
  · have notMine : ¬mine := fun hm => absurd (hc.symm.trans hm.1) (by decide)
    rw [filtered, filterFrame_good ho notMine ((good_iff os).mpr hg), if_neg (by omega), if_pos hc, State.copySample, hp]
    dsimp only
    rw [if_pos hn, forwarded]
    rfl
  · rw [filtered, filterFrame_good ho hm ((good_iff os).mpr hg), if_neg h0, if_neg h1, forwarded]

end Sys2Proof.Machine
end

section
/-! PROOFS. Cycle events (R177): what one leaves where nothing is due, and the contributors it makes STALE (R15). -/

namespace Sys2Proof.Machine

/-! ### Nothing is due -/

theorem waitExpiry_early {s : State} {c : ChanIx} (h : ¬s.waitDue c) : s.waitExpiry c = s := by
  rw [State.waitExpiry, awaitExpiry_early h, dwellExpiry_early h, claimExpiry_early h]

theorem takeWaits_early {s : State} (hw : s.work = []) (h : ∀ c, ¬s.waitDue c) : s.takeWaits = s := by
  have one (c : ChanIx) : (s.waitExpiry c).settle = s := by rw [waitExpiry_early (h c), settle_nil hw]
  refine foldl_keeps (· = s) _ ?_ _ s rfl
  rintro _ c rfl
  exact one c

/-- Between two cycle events with nothing due, a cycle event finds nothing to take before it. -/
theorem catchUp_nothingDue {s : State} (h : NothingDue s) : s.catchUp = s := by
  obtain ⟨hw, hwait, hstall, hrest, hdwell, hflow⟩ := h
  have stall : s.stallCheck = s := if_neg fun hd => absurd (hstall hd.1) (not_lt.mpr hd.2)
  have rest : s.restCheck = s := if_neg fun hd => absurd (hrest hd.1) (not_lt.mpr hd.2)
  have dwell : s.dwellTest = s := if_neg (Bool.eq_false_iff.mp hdwell)
  have window : s.windowTest = s := if_neg (not_le.mpr hflow)
  rw [State.catchUp, takeWaits_early hw hwait, stall, settle_nil hw, rest, dwell, settle_nil hw, window, settle_nil hw]

theorem nothingDue_raise {s : State} (h : NothingDue s) (c : Code) (d : List Int) : NothingDue (s.raise c d) := by
  have e : s.raise c d = { s with
      evu := (s.raise c d).evu, rif := { s.rif with class2 := (s.raise c d).rif.class2 } } := (evt_raise s c d).eq
  rw [e]
  exact h

/-! ### The counts of the blocks -/

/-- What the blocks count at a cycle event (R15, R51 to R53, R119, R126, R137, R142). -/
def Counts (t u : State) : Prop :=
  u = { t with signals := u.signals, seq := u.seq, yaw := u.yaw, clc := u.clc } ∧
  (∀ (i : SigIx) (k : SlotIx), u.signals[i].slots[k] =
    if t.signals[i].slots[k].quality = .absent then t.signals[i].slots[k]
    else { t.signals[i].slots[k] with age := satSucc 65535 t.signals[i].slots[k].age }) ∧
  (∀ i : SigIx, u.signals[i] = { t.signals[i] with
    slots := u.signals[i].slots, limit := t.settings.signals[i].staleLimit }) ∧
  u.seq = { t.seq with chans := u.seq.chans } ∧
  (∀ c : ChanIx, u.chan c = { t.chan c with timer :=
    if (t.chan c).state ∈ [.waiting .await, .waiting .dwell, .waiting .claim] then satSucc 65535 (t.chan c).timer
    else (t.chan c).timer }) ∧
  u.yaw = { t.yaw with
    stallTimer := if t.yaw.state = .driving then satSucc 65535 t.yaw.stallTimer else t.yaw.stallTimer
    restTimer := if t.yaw.state = .held then satSucc 1047552 t.yaw.restTimer else t.yaw.restTimer } ∧
  u.clc = { t.clc with
    dwell := satSucc 1047552 t.clc.dwell, dwellDue := u.clc.dwellDue
    flowTimer := satSucc 65535 t.clc.flowTimer } ∧
  (u.clc.dwellDue = true ↔ t.clc.dwell < 1047552 ∧
    t.clc.dwell + 1 = (t.stage t.clc.actual).dwell * 1024)

theorem chanTick_eq (r : ChanRt) :
    r.tick = { r with timer :=
      if r.state ∈ [.waiting .await, .waiting .dwell, .waiting .claim] then satSucc 65535 r.timer else r.timer } := by
  obtain ⟨state⟩ := r
  cases state with
  | waiting k => cases k <;> rfl
  | _ => rfl

theorem yawTick_eq (y : YawRt) :
    y.tick = { y with
      stallTimer := if y.state = .driving then satSucc 65535 y.stallTimer else y.stallTimer
      restTimer := if y.state = .held then satSucc 1047552 y.restTimer else y.restTimer } := by
  obtain ⟨state⟩ := y
  cases state <;> rfl

theorem satSucc_ne (top n : Nat) : satSucc top n ≠ n ↔ n < top := by
  unfold satSucc
  split <;> simp [*]

theorem clcTick_dwellDue {c : ClcRt} (h : c.dwellDue = false) (st : Stage) :
    (c.tick st).dwellDue = true ↔ c.dwell < 1047552 ∧ c.dwell + 1 = st.dwell * 1024 := by
  have move : (satSucc 1047552 c.dwell ≠ c.dwell ∧ satSucc 1047552 c.dwell = st.dwell * 1024) ↔
      c.dwell < 1047552 ∧ c.dwell + 1 = st.dwell * 1024 := by
    rw [satSucc_ne]
    refine and_congr_right fun hl => ?_
    rw [satSucc, if_pos hl]
  simp only [ClcRt.tick, h, Bool.false_or, Bool.and_eq_true, decide_eq_true_eq]
  exact move

theorem count_counts {s : State} (h : s.clc.dwellDue = false) : Counts s s.count := by
  have signal (i : SigIx) : s.count.signals[i] = s.signals[i].older s.settings.signals[i] := tabulate_get ..
  refine ⟨rfl, fun i k => ?_, fun i => ?_, rfl, fun c => ?_, yawTick_eq s.yaw, rfl, clcTick_dwellDue h _⟩
  · rw [signal]
    exact Vector.getElem_map ..
  · rw [signal]
    rfl
  · rw [← chanTick_eq]
    exact Vector.getElem_map ..

/-! ### Contributors gone STALE -/

/-- The contributor is beyond the stale limit in force and still GOOD or SUSPECT (R15). -/
theorem staleDue_iff (s : State) (i : SigIx) (k : SlotIx) :
    s.staleDue i k = true ↔
      (s.signals[i].slots[k].quality = .good ∨ s.signals[i].slots[k].quality = .suspect) ∧
        s.signals[i].limit < s.signals[i].slots[k].age := by
  simp [State.staleDue, SignalRt.staleDue]

theorem indices_zip {α : Type} {n : Nat} (v : Vector α n) :
    (indices n).zip v.toList = (indices n).map fun i => (i, v[i]) := by
  refine (List.zip_of_prod (by simp [Function.comp_def]) ?_).symm
  rw [List.map_map, indices_eq]
  exact List.ext_getElem (by simp) fun i h1 h2 => by simp

theorem staleList_eq (s : State) :
    s.staleList = (indices 96).flatMap fun i => ((indices 3).filter (s.staleDue i)).map fun k => (i, k) := by
  rw [State.staleList, indices_zip, List.flatMap_map]
  rfl

theorem mem_staleList (s : State) (i : SigIx) (k : SlotIx) : (i, k) ∈ s.staleList ↔ s.staleDue i k = true := by
  simp [staleList_eq, mem_indices]

/-- Lowest signal first, then lowest slot. -/
def SlotBefore (a b : SigIx × SlotIx) : Prop := a.1 < b.1 ∨ (a.1 = b.1 ∧ a.2 < b.2)

theorem staleList_sorted (s : State) : s.staleList.Pairwise SlotBefore := by
  rw [staleList_eq, List.pairwise_flatMap]
  refine ⟨fun i _ => List.pairwise_map.mpr (List.Pairwise.filter _ ?_), ?_⟩
  · rw [indices_eq]
    exact (List.pairwise_lt_finRange 3).imp fun h => .inr ⟨rfl, h⟩
  · rw [indices_eq 96]
    refine (List.pairwise_lt_finRange 96).imp fun h x hx y hy => .inl ?_
    obtain ⟨_, _, rfl⟩ := List.mem_map.mp hx
    obtain ⟨_, _, rfl⟩ := List.mem_map.mp hy
    exact h

theorem eq_staleList {s : State} {l : List (SigIx × SlotIx)} (hm : ∀ i k, (i, k) ∈ l ↔ s.staleDue i k = true)
    (hs : l.Pairwise SlotBefore) : l = s.staleList := by
  have nodup {m : List (SigIx × SlotIx)} (h : m.Pairwise SlotBefore) : m.Nodup :=
    h.imp fun {a b} hab e => by
      subst e
      exact hab.elim (lt_irrefl _) fun h => lt_irrefl _ h.2
  refine List.Perm.eq_of_pairwise (fun a b _ _ hab hba => ?_) hs (staleList_sorted s) ?_
  · obtain h | ⟨e, h⟩ := hab <;> obtain g | ⟨e', g⟩ := hba
    · exact absurd g h.asymm
    · exact absurd e'.symm h.ne
    · exact absurd e.symm g.ne
    · exact absurd g h.asymm
  · exact (List.perm_ext_iff_of_nodup (nodup hs) (nodup (staleList_sorted s))).mpr fun ⟨i, k⟩ =>
      (hm i k).trans (mem_staleList s i k).symm

/-! ### Cycle events -/

theorem localCycle_eq {s : State} (ha : s.part ≠ .boot) (hn : NothingDue s) :
    s.localCycle = (s.modRif fun r => { r with ringTime := r.ringTime + 1 }).tick := by
  have awake : s.awake = true := (awake_iff s).mpr ha
  have later : (s.modRif fun r => { r with ringTime := r.ringTime + 1 }).awake = true := awake
  simp only [State.localCycle, awake, if_true, catchUp_nothingDue hn, later]

/-- Settles O42: nothing is due, so a cycle event is ring time, the counts of the blocks and the contributors they
make STALE. -/
theorem cycleEvents : Obligations.CycleEvents := by
  refine ⟨fun s ha hn => ?_, fun s => ⟨fun none => ?_, fun l hm hs => ?_⟩⟩
  · intro at' counts counted
    have counts_count {t : State} (h : t.clc.dwellDue = false) : counted t t.tick := ⟨_, count_counts h, rfl⟩
    have nothing : s.clc.dwellDue = false := hn.2.2.2.2.1
    have awake : s.awake = true := (awake_iff s).mpr ha
    refine ⟨fun n hu => ?_, fun n hd => congrArg Host.Outcome.next (if_neg fun h => hd h.2), fun k hk => ⟨?_, ?_⟩,
      fun hk => ⟨?_, ?_⟩⟩
    · have used : exec (.cycleMark n) s = .next (s.useMark n) := congrArg Host.Outcome.next (if_pos ⟨awake, hu⟩)
      refine ⟨_, used, fun hl => ?_, fun hl => ?_⟩ <;> rw [State.useMark, catchUp_nothingDue hn]
      · rw [if_neg hl]
        exact counts_count nothing
      · rw [if_pos hl]
        exact counts_count ((congrArg ClcRt.dwellDue (onlySignals_raise ..).clc).trans nothing)
    · refine congrArg Host.Outcome.next ?_
      rw [hk]
    · have event : exec .localCycleEvent s = .next s.localCycle := by
        rw [exec, execLocalCycleEvent, hk]
        rfl
      refine ⟨_, event, ?_⟩
      rw [localCycle_eq ha hn]
      have stays : at' (s.rif.ringTime + 1) (.freeRun k) = s.modRif fun r => { r with ringTime := r.ringTime + 1 } := by
        rw [← hk]
        rfl
      rw [stays]
      exact counts_count nothing
    · refine congrArg Host.Outcome.next ?_
      rw [hk]
    · let v := (at' s.rif.ringTime (.freeRun .loss)).raise 5 [s.rif.ringTime.toInt]
      have kept : v = { at' s.rif.ringTime (.freeRun .loss) with
          evu := v.evu, rif := { (at' s.rif.ringTime (.freeRun .loss)).rif with class2 := v.rif.class2 } } :=
        (evt_raise ..).eq
      have time : v.rif.ringTime = s.rif.ringTime := (congrArg (fun x : State => x.rif.ringTime) kept : _)
      have part : v.part = s.part := (congrArg State.part kept : _)
      have clc : v.clc = s.clc := (congrArg State.clc kept : _)
      have lost : exec .cycleMarksLost s = .next v.localCycle := by
        rw [exec, execCycleMarksLost, hk]
        rfl
      have early : NothingDue v := nothingDue_raise (by exact hn) _ _
      refine ⟨v, v.localCycle, rfl, lost, ?_⟩
      clear_value v
      rw [localCycle_eq (by rwa [part]) early, ← time]
      exact counts_count (t := v.modRif fun r => { r with ringTime := r.ringTime + 1 })
        ((congrArg ClcRt.dwellDue clc).trans nothing)
  · have empty : s.staleList = [] := List.eq_nil_iff_forall_not_mem.mpr fun ⟨i, k⟩ h =>
      none i k ((staleDue_iff s i k).mp ((mem_staleList s i k).mp h))
    rw [State.takeStale, empty]
    rfl
  · have stale : l = s.staleList := eq_staleList (fun i k => (hm i k).trans (staleDue_iff s i k).symm) hs
    rw [stale]
    exact List.foldl_ext _ _ _ fun x a _ => congrArg State.settle (if_congr (staleDue_iff x a.1 a.2) rfl rfl)

end Sys2Proof.Machine
end

section
/-! PROOFS. The Step Engine (R46 to R53, R60, R61): who is granted it, the turn of a channel, and the step it takes. -/

namespace Sys2Proof.Machine

/-! ### The channel that is granted the engine -/

/-- The first entry of an ordered list that meets a test. -/
theorem find?_of_first {α : Type} {R : α → α → Prop} {p : α → Bool} {l : List α} {c : α} (hl : l.Pairwise R)
    (hc : c ∈ l) (hp : p c = true) (hn : ∀ d, R d c → p d = false) : l.find? p = some c := by
  induction l with
  | nil => cases hc
  | cons x xs ih =>
    obtain ⟨before, rest⟩ := List.pairwise_cons.mp hl
    obtain rfl | hm := List.mem_cons.mp hc
    · exact List.find?_cons_of_pos hp
    · rw [List.find?_cons_of_neg (by simp [hn x (before c hm)])]
      exact ih rest hm

/-- How many channels stand before this one in the search that starts behind the last granted (R46). -/
theorem grantOrder_sorted (s : State) (h : s.settings.rotating = true) :
    s.grantOrder.Pairwise fun d e => d - (s.seq.lastGranted + 1) < e - (s.seq.lastGranted + 1) := by
  have place (k : ChanIx) : k + s.seq.lastGranted + 1 - (s.seq.lastGranted + 1) = k := by
    rw [add_assoc, add_sub_cancel_right]
  simp only [State.grantOrder, h, if_true, indices_eq]
  refine List.pairwise_map.mpr ((List.pairwise_lt_finRange 8).imp fun hlt => ?_)
  rwa [place, place]

theorem mem_grantOrder (s : State) (c : ChanIx) : c ∈ s.grantOrder := by
  unfold State.grantOrder
  dsimp only
  split
  · refine List.mem_map.mpr ⟨c - (s.seq.lastGranted + 1), mem_indices _, ?_⟩
    rw [add_assoc, sub_add_cancel]
  · exact mem_indices c

theorem nextChan_of_none {s : State} (h : ∀ c : ChanIx, (s.chan c).state ≠ .requested) : s.nextChan = none :=
  List.find?_eq_none.mpr fun c _ => by simpa using h c

theorem nextChan_of_first {s : State} {c : ChanIx} (hc : (s.chan c).state = .requested)
    (hf : s.settings.rotating = false → ∀ d : ChanIx, d < c → (s.chan d).state ≠ .requested)
    (hr : s.settings.rotating = true → ∀ d : ChanIx, (s.chan d).state = .requested →
      c - (s.seq.lastGranted + 1) ≤ d - (s.seq.lastGranted + 1)) : s.nextChan = some c := by
  cases h : s.settings.rotating with
  | true =>
    refine find?_of_first (grantOrder_sorted s h) (mem_grantOrder s c) (by simp [hc]) fun d hd => ?_
    exact Bool.eq_false_iff.mpr fun hq => absurd (hr h d (by simpa using hq)) (not_le.mpr hd)
  | false =>
    have order : s.grantOrder = indices 8 := by simp [State.grantOrder, h]
    rw [State.nextChan, order, indices_eq]
    refine find?_of_first (List.pairwise_lt_finRange 8) (List.mem_finRange c) (by simp [hc]) fun d hd => ?_
    simpa using hf h d hd

/-! ### What the granted channel does -/

theorem suspend_of_room {s : State} {c : ChanIx} (h : s.seq.opened = none ∨ s.rif.class1.length < 6) :
    s.suspend c = (s.frameClosed.modChan c fun r => { r with state := .suspended }).engineFree c := by
  rw [State.suspend, closeFrame_of_room h]
  rfl

theorem suspend_of_full {s : State} {c : ChanIx} {o : OpenFrame} (ho : s.seq.opened = some o)
    (h : 6 ≤ s.rif.class1.length) : s.suspend c = s.frameHeld c o := by
  rw [State.suspend, closeFrame_of_full ho h]
  rfl

theorem goOn_eq {s : State} {c : ChanIx} (ho : s.seq.opened = none) :
    s.goOn c =
      if (s.chan c).remaining = 0 then s.terminalCount c
      else if s.demandHolds c then s
      else (s.modChan c fun r => { r with state := .suspended }).engineFree c := by
  rw [State.goOn, suspend_of_room (.inl ho), frameClosed_of_noFrame ho]

theorem resume_of_noFrame {s : State} {c : ChanIx} (h : (s.chan c).held = none) : s.resume c = s.goOn c := by
  rw [State.resume, h]

theorem resume_of_room {s : State} {c : ChanIx} {f : CmdFrame} (h : (s.chan c).held = some f)
    (hr : s.rif.class1.length < 6) :
    s.resume c = (({ s with rif := { s.rif with class1 := s.rif.class1 ++ [f] } } : State).modChan c fun r =>
      { r with held := none }).goOn c := by
  rw [State.resume, h]
  exact if_pos (decide_eq_true hr)

theorem resume_of_full {s : State} {c : ChanIx} {f : CmdFrame} (h : (s.chan c).held = some f)
    (hr : 6 ≤ s.rif.class1.length) :
    s.resume c = (s.modChan c fun r => { r with state := .waiting .queue }).engineFree c := by
  rw [State.resume, h]
  exact if_neg (by simpa [State.class1Room] using hr)

theorem grantEngine_eq {s : State} {c : ChanIx} (hh : s.seq.holder = none) (hn : s.nextChan = some c) :
    s.grantEngine =
      (({ s with seq := { s.seq with holder := some c, lastGranted := c } } : State).modChan c fun r =>
        { r with state := .running }).resume c := by
  rw [State.grantEngine, hh, hn]
  rfl

/-- Settles O47: the channel found first in the order of the scheme, then its held frame, its end and its demand. -/
theorem engineGrant : Obligations.EngineGrant := by
  refine ⟨fun s hw hidle => ?_, fun s c hh ho hc hf hr => ?_⟩
  · have same : s.grantEngine = s := by
      unfold State.grantEngine
      split
      · rfl
      · next hh => rw [nextChan_of_none (hidle.resolve_left fun h => h hh)]
    exact congrArg Host.Outcome.next ((congrArg State.settle same).trans (settle_nil hw))
  · intro g goes
    have granted : exec .stepEngineGrant s = .next (g.resume c).settle :=
      congrArg (fun x : State => Host.Outcome.next x.settle) (grantEngine_eq hh (nextChan_of_first hc hf hr))
    have chan : g.chan c = { s.chan c with state := .running } := chan_modChan ..
    have goesOn (x : State) (hx : x.seq.opened = none) (hr : (x.chan c).remaining = (s.chan c).remaining)
        (hd : x.demandHolds c = s.demandHolds c) : (x.goOn c).settle = goes x := by
      rw [goOn_eq hx, hr, hd, apply_ite State.settle, apply_ite State.settle]
    refine ⟨fun hn => ?_, fun f hf hroom => ?_, fun f hf hfull => ?_⟩
    · rw [granted, resume_of_noFrame (by rw [chan]; exact hn), goesOn g ho (by rw [chan]) rfl]
    · rw [granted, resume_of_room (s := g) (by rw [chan]; exact hf) hroom]
      have count : (g.chan c).remaining = (s.chan c).remaining := by rw [chan]
      exact congrArg Host.Outcome.next (goesOn _ ho (by rw [chan_modChan]; exact count) rfl)
    · rw [granted, resume_of_full (s := g) (by rw [chan]; exact hf) hfull]

/-! ### Turns of the engine -/

/-- The demand of the channel is false: it is SUSPENDED whatever its step is (R49). -/
theorem engineStep_suspends {s t : State} {c : ChanIx} (hh : s.seq.holder = some c)
    (hk : (s.chan c).state = .running) (hr : 0 < (s.chan c).remaining) (hd : s.demandHolds c = false)
    {f : State → ChanIx → Step → Option State} (hf : f s c (s.stepAt c) = some t) :
    s.engineStep f = s.suspend c := by
  unfold State.engineStep
  simp [hh, hf, hk, hr, hd]

/-- A turn that does not fit the channel holding the engine changes nothing. -/
theorem engineStep_unfit {s : State} {f : State → ChanIx → Step → Option State}
    (h : s.seq.holder = none ∨ ∃ c, s.seq.holder = some c ∧
      (f s c (s.stepAt c) = none ∨ (s.chan c).state ≠ .running ∨ (s.chan c).remaining = 0)) :
    s.engineStep f = s := by
  unfold State.engineStep
  obtain hn | ⟨c, hh, hc⟩ := h
  · rw [hn]
  · rw [hh]
    dsimp only
    split
    · rfl
    · next hf =>
      refine if_neg fun hrun => ?_
      obtain hc | hc | hc := hc
      · rw [hc] at hf
        cases hf
      · exact hc hrun.1
      · exact hrun.2.ne' hc

theorem suspended_work (s : State) (c : ChanIx) (hw : s.work = []) : (s.suspend c).work = [] := by
  by_cases h : s.seq.opened = none ∨ s.rif.class1.length < 6
  · rw [suspend_of_room h]
    exact hw
  · obtain ⟨ho, hl⟩ := not_or.mp h
    obtain ⟨o, ho⟩ := Option.ne_none_iff_exists'.mp ho
    rw [suspend_of_full ho (not_lt.mp hl)]
    exact hw

/-- A turn whose step the holding channel stands on while its demand is false. -/
theorem exec_suspends {s : State} {c : ChanIx} (hh : s.seq.holder = some c)
    (hk : (s.chan c).state = .running) (hr : 0 < (s.chan c).remaining) (hd : s.demandHolds c = false)
    (hw : s.work = []) : exec (s.stepAt c).command s = .next (s.suspend c) := by
  have turn {t : State} {f : State → ChanIx → Step → Option State} (hf : f s c (s.stepAt c) = some t) :
      (s.engineStep f).settle = s.suspend c := by
    rw [engineStep_suspends hh hk hr hd hf, settle_nil (suspended_work s c hw)]
  cases hs : s.stepAt c <;> exact congrArg Host.Outcome.next (turn (by rw [hs]))

/-- A turn of another kind than the step of the holding channel, or while it does not run. -/
theorem exec_unfit {s : State} {i : Instr} (hi : i ∈ [Instr.emit, .await, .dwell, .claim, .free, .link])
    (hw : s.work = []) (h : s.seq.holder = none ∨ ∃ c, s.seq.holder = some c ∧
      ((s.stepAt c).command ≠ i ∨ (s.chan c).state ≠ .running ∨ (s.chan c).remaining = 0)) :
    exec i s = .next s := by
  have turn {f : State → ChanIx → Step → Option State}
      (hf : ∀ c, (s.stepAt c).command ≠ i → f s c (s.stepAt c) = none) : (s.engineStep f).settle = s := by
    rw [engineStep_unfit (h.imp_right fun ⟨c, hh, hc⟩ => ⟨c, hh, hc.imp_left (hf c)⟩), settle_nil hw]
  simp only [List.mem_cons, List.not_mem_nil, or_false] at hi
  obtain rfl | rfl | rfl | rfl | rfl | rfl := hi
  all_goals
    refine congrArg Host.Outcome.next (turn fun c hc => ?_)
    generalize s.stepAt c = step at hc
    cases step <;> first | rfl | exact absurd rfl hc

/-! ### EMIT -/

theorem exec_emit_of_turn {s : State} {c : ChanIx} {n : Node} {o : OutIx} {v : Int} (h : Turn s c)
    (hs : s.stepAt c = .emit n o v) :
    exec .emit s = .next (s.emitStep c n { output := o, value := v }).settle :=
  congrArg (fun x : State => Host.Outcome.next x.settle) (h.engineStep (by rw [hs]))

/-- The item joins the frame, which is open then, and the step is completed (R47, R60). -/
def State.itemAdded (s : State) (c : ChanIx) (o : OpenFrame) : State :=
  ({ s with seq := { s.seq with opened := some o } } : State).modChan c ChanRt.completeStep

theorem addItem_of_room {s : State} {c : ChanIx} {o : OpenFrame} {i : CmdItem} (h : o.items.length < 7) :
    s.addItem c o i = (s.itemAdded c { o with items := o.items ++ [i] }).afterStep c :=
  if_pos (by rw [List.length_append]; exact Nat.succ_lt_succ h)

theorem addItem_eighth {s : State} {c : ChanIx} {o : OpenFrame} {i : CmdItem} (h : 7 ≤ o.items.length) :
    s.addItem c o i =
      let p := (s.itemAdded c { o with items := o.items ++ [i] }).closeFrame c
      if p.2 then p.1.afterStep c else p.1 :=
  if_neg (by rw [List.length_append]; exact not_lt.mpr (Nat.succ_le_succ h))

theorem afterStep_last {s : State} {c : ChanIx} (h : (s.chan c).remaining = 0) :
    s.afterStep c = s.terminalCount c := if_pos h

theorem afterStep_single {s : State} {c : ChanIx} (h : (s.chan c).remaining ≠ 0) (hm : (s.desc c).mode = .single)
    (hr : s.seq.opened = none ∨ s.rif.class1.length < 6) :
    s.afterStep c = (s.frameClosed.modChan c fun r => { r with state := .requested }).engineFree c := by
  rw [State.afterStep, if_neg h, if_pos hm, closeFrame_of_room hr]
  rfl

theorem afterStep_single_full {s : State} {c : ChanIx} {o : OpenFrame} (h : (s.chan c).remaining ≠ 0)
    (hm : (s.desc c).mode = .single) (ho : s.seq.opened = some o) (hl : 6 ≤ s.rif.class1.length) :
    s.afterStep c = s.frameHeld c o := by
  rw [State.afterStep, if_neg h, if_pos hm, closeFrame_of_full ho hl]
  rfl

theorem afterStep_more {s : State} {c : ChanIx} (h : (s.chan c).remaining ≠ 0) (hm : (s.desc c).mode ≠ .single) :
    s.afterStep c = s := by
  rw [State.afterStep, if_neg h, if_neg hm]

/-- Settles O48: the frame the item joins, what follows the step, and the turns that do not take it. -/
theorem emitStep : Obligations.EmitStep := by
  refine ⟨fun s c n o v turn hs => ?_, fun s c hh hk hr hd hw => ⟨fun room => ?_, fun f hf full => ?_⟩,
    fun s i hi hw h => exec_unfit hi hw h⟩
  · intro i fresh room added got after
    have emits : got = .next (s.emitStep c n i).settle := exec_emit_of_turn turn hs
    -- what follows the step, for a state that has taken it
    have afterStep (x : State) (hw : x.work = []) (hc : (x.chan c).remaining = (s.chan c).remaining - 1)
        (hd : x.desc c = s.desc c) : (x.afterStep c).settle = after x x.seq.opened := by
      have pos := turn.remaining
      by_cases hl : (s.chan c).remaining = 1
      · rw [afterStep_last (by omega)]
        exact (if_pos hl).symm
      · have more : (x.chan c).remaining ≠ 0 := by omega
        refine Eq.trans ?_ (if_neg hl).symm
        by_cases hm : (s.desc c).mode = .single
        · refine Eq.trans ?_ (if_pos hm).symm
          rw [← hd] at hm
          cases ho : x.seq.opened with
          | none => rw [afterStep_single more hm (.inl ho), frameClosed_of_noFrame ho]; exact settle_nil hw
          | some f =>
            by_cases hr : x.rif.class1.length < 6
            · rw [afterStep_single more hm (.inr hr)]
              exact (settle_nil (by exact hw)).trans (if_pos hr).symm
            · rw [afterStep_single_full more hm ho (not_lt.mp hr)]
              exact (settle_nil (by exact hw)).trans (if_neg hr).symm
        · rw [afterStep_more more (by rwa [hd]), settle_nil hw]
          exact (if_neg hm).symm
    -- an item that leaves its frame open
    have joins (x : State) (hx : x.work = []) (hc : x.chan c = s.chan c) (hd : x.desc c = s.desc c) (f : OpenFrame)
        (hf : f.items.length < 7) :
        (x.addItem c f i).settle =
          after (added x { f with items := f.items ++ [i] }) (some { f with items := f.items ++ [i] }) := by
      rw [addItem_of_room hf]
      refine afterStep _ hx ?_ hd
      rw [State.itemAdded, chan_modChan]
      exact congrArg (fun r : ChanRt => r.remaining - 1) hc
    refine ⟨fun ho => ?_, fun f ho hn => ⟨fun hl => ?_, fun hl hr => ?_, fun hl hr => ?_⟩, fun f ho hn =>
      ⟨fun hr => ?_, fun hr => ?_⟩⟩ <;> rw [emits, State.emitStep, ho] <;> refine congrArg Host.Outcome.next ?_
    · exact joins s turn.work rfl rfl { dest := n, items := [], chan := c } (by simp)
    · exact (congrArg State.settle (if_pos hn)).trans (joins s turn.work rfl rfl f hl)
    · refine (congrArg State.settle (if_pos hn)).trans ?_
      rw [addItem_eighth hl, closeFrame_of_room (s := s.itemAdded c _) (.inr hr)]
      refine afterStep _ turn.work ?_ rfl
      exact congrArg ChanRt.remaining (chan_modChan ..)
    · refine (congrArg State.settle (if_pos hn)).trans ?_
      rw [addItem_eighth hl, closeFrame_of_full (s := s.itemAdded c _) rfl (not_lt.mp hr)]
      exact settle_nil turn.work
    · refine (congrArg State.settle (if_neg hn)).trans ?_
      rw [closeFrame_of_room (.inr hr)]
      exact joins s.frameClosed turn.work rfl rfl { dest := n, items := [], chan := c } (by simp)
    · refine (congrArg State.settle (if_neg hn)).trans ?_
      rw [closeFrame_of_full ho (not_lt.mp hr)]
      exact settle_nil turn.work
  · rw [exec_suspends hh hk hr hd hw, suspend_of_room room]
  · rw [exec_suspends hh hk hr hd hw, suspend_of_full hf full]

end Sys2Proof.Machine
end

section
/-! PROOFS. The steps that wait (R51 to R53), the completion of a step (R47, R48), and channels at a signal update
(R20, R49). -/

namespace Sys2Proof.Machine

/-- A condition on a signal holds (R26, R49, R51). -/
theorem levelHolds_iff (sense : Sense) (l v : Int) (q : Quality) :
    levelHolds sense l v q = true ↔
      (q = .good ∨ q = .degraded) ∧ ((sense = .above ∧ l < v) ∨ (sense = .below ∧ v < l)) := by
  cases sense <;> simp [levelHolds, usable_iff]

theorem afterClose_of_room {s : State} {c : ChanIx} (f : State → State)
    (h : s.seq.opened = none ∨ s.rif.class1.length < 6) : s.afterClose c f = f s.frameClosed := by
  rw [State.afterClose, closeFrame_of_room h]
  rfl

theorem afterClose_of_full {s : State} {c : ChanIx} {o : OpenFrame} (f : State → State)
    (ho : s.seq.opened = some o) (h : 6 ≤ s.rif.class1.length) : s.afterClose c f = s.frameHeld c o := by
  rw [State.afterClose, closeFrame_of_full ho h]
  rfl

section
variable {s : State} {c : ChanIx} (h : Turn s c)
include h

theorem exec_await_of_turn {i : SigIx} {sense : Sense} {l : Int} {n : Nat} (hs : s.stepAt c = .await i sense l n) :
    exec .await s = .next (s.awaitStep c i sense l).settle :=
  congrArg (fun x : State => Host.Outcome.next x.settle) (h.engineStep (by rw [hs]))

theorem exec_dwell_of_turn {n : Nat} (hs : s.stepAt c = .dwell n) :
    exec .dwell s = .next (s.afterClose c fun s => s.waitFor c .dwell).settle :=
  congrArg (fun x : State => Host.Outcome.next x.settle) (h.engineStep (by rw [hs]))

theorem exec_claim_of_turn {t : TagIx} {a n : Nat} (hs : s.stepAt c = .claim t a n) :
    exec .claim s = .next (s.claimStep c t a).settle :=
  congrArg (fun x : State => Host.Outcome.next x.settle) (h.engineStep (by rw [hs]))

end

/-! ### The completion of a step -/

theorem completeNow_eq (s : State) (c : ChanIx) :
    s.completeNow c = (s.modChan c ChanRt.completeStep).afterStep c := rfl

theorem completed_remaining (s : State) (c : ChanIx) :
    ((s.modChan c ChanRt.completeStep).chan c).remaining = (s.chan c).remaining - 1 :=
  congrArg ChanRt.remaining (chan_modChan ..)

theorem completeNow_last {s : State} {c : ChanIx} (h : (s.chan c).remaining ≤ 1) :
    s.completeNow c = (s.modChan c ChanRt.completeStep).terminalCount c :=
  afterStep_last (by rw [completed_remaining]; omega)

theorem completeNow_more {s : State} {c : ChanIx} (hm : (s.desc c).mode ≠ .single) (h : 1 < (s.chan c).remaining) :
    s.completeNow c = s.modChan c ChanRt.completeStep :=
  afterStep_more (by rw [completed_remaining]; omega) hm

theorem completeNow_single {s : State} {c : ChanIx} (hm : (s.desc c).mode = .single)
    (h : 1 < (s.chan c).remaining) (ho : s.seq.opened = none) :
    s.completeNow c =
      ((s.modChan c ChanRt.completeStep).modChan c fun r => { r with state := .requested }).engineFree c := by
  rw [completeNow_eq, afterStep_single (s := s.modChan c _) (by rw [completed_remaining]; omega) hm (.inl ho), frameClosed_of_noFrame]
  exact ho

/-! ### An update at a channel -/

theorem updateChan_await {s : State} {c : ChanIx} {j : SigIx} {sense : Sense} {l : Int} {n : Nat}
    (hk : (s.chan c).state = .waiting .await) (hs : s.stepAt c = .await j sense l n) (i : SigIx) (v : Int)
    (q : Quality) :
    s.updateChan i v q c = if j = i ∧ levelHolds sense l v q then s.completeWait c else s := by
  rw [State.updateChan, hk, hs]

theorem updateChan_suspended {s : State} {c : ChanIx} (hk : (s.chan c).state = .suspended) (i : SigIx) (v : Int)
    (q : Quality) :
    s.updateChan i v q c =
      if (s.desc c).mode = .demand ∧ (s.desc c).demandSignal = i ∧
          levelHolds (s.desc c).demandSense (s.desc c).demandLevel v q then
        s.modChan c fun r => { r with state := .requested }
      else s := by
  rw [State.updateChan, hk]

theorem updateChan_other {s : State} {c : ChanIx} (ha : (s.chan c).state ≠ .waiting .await)
    (hu : (s.chan c).state ≠ .suspended) (i : SigIx) (v : Int) (q : Quality) : s.updateChan i v q c = s := by
  unfold State.updateChan
  split
  · next h _ => exact absurd h ha
  · next h => exact absurd h hu
  · rfl

/-- Settles O49: a step that waits begins once the frame is closed; what completes and what an update ends. -/
theorem waitSteps : Obligations.WaitSteps := by
  refine ⟨fun s c turn => ?_, fun s c => ?_⟩
  · intro room u waits
    have waiting (x : State) (k : WaitKind) : x.waitFor c k = waits x k := rfl
    have quiet (k : WaitKind) : (waits u k).settle = waits u k := settle_nil turn.work
    refine ⟨fun i sense l n hs hr => ?_, fun n hs hr => ?_, fun t a n hs hr => ?_, fun o i ho hl hi hm => ?_⟩
    · have awaits : exec .await s = .next (if levelHolds sense l s.signals[i].value s.signals[i].quality then
          u.completeNow c else waits u .await).settle := by
        rw [exec_await_of_turn turn hs, State.awaitStep, afterClose_of_room _ hr]
        rfl
      refine ⟨fun holds => ?_, fun fails => ?_⟩
      · rw [awaits, if_pos ((levelHolds_iff ..).mpr holds)]
      · rw [awaits, if_neg fun h => fails ((levelHolds_iff ..).mp h), quiet]
    · rw [exec_dwell_of_turn turn hs, afterClose_of_room _ hr, waiting, quiet]
    · intro p
      have claims (x : State) (e : s.claimStep c t a = x) : exec .claim s = .next x.settle := by
        rw [exec_claim_of_turn turn hs, e]
      refine ⟨fun ha => claims _ ?_, fun ha => claims _ ?_, fun ha => claims _ ?_⟩ <;>
        rw [State.claimStep, afterClose_of_room _ hr] <;> dsimp only <;> rw [show (s.frameClosed.claimTag t a (.chan c)).2 = _ from ha]
      rfl
    · have held {x : State} (e : x = s.frameHeld c o) : x.settle = s.frameHeld c o := by
        rw [e]
        exact settle_nil turn.work
      subst hi
      cases hs : s.stepAt c with
      | await i sense l n => exact (exec_await_of_turn turn hs).trans (congrArg _ (held (afterClose_of_full _ ho hl)))
      | dwell n => exact (exec_dwell_of_turn turn hs).trans (congrArg _ (held (afterClose_of_full _ ho hl)))
      | claim t a n => exact (exec_claim_of_turn turn hs).trans (congrArg _ (held (afterClose_of_full _ ho hl)))
      | _ =>
        rw [hs] at hm
        simp [Step.command] at hm
  · intro down
    refine ⟨fun h => completeNow_more h.1 h.2, fun hm h ho => completeNow_single hm h ho, fun h => completeNow_last h,
      fun i v q => ?_⟩
    intro d meets asked u
    have met (sense : Sense) (l : Int) : levelHolds sense l v q = true ↔ meets sense l := levelHolds_iff ..
    refine ⟨rfl, fun hk j sense l n hs => ?_, fun hk => ?_, fun ha hu => updateChan_other ha hu i v q⟩
    · have tested : u = if j = i ∧ meets sense l then s.completeWait c else s :=
        (updateChan_await hk hs i v q).trans (if_congr (and_congr_right' (met sense l)) rfl rfl)
      refine ⟨fun hj hm => tested.trans (if_pos ⟨hj, hm⟩), fun hf => tested.trans (if_neg fun h => ?_)⟩
      exact hf.elim (fun hj => hj h.1) fun hm => hm h.2
    · have tested : u = if asked then s.modChan c fun r => { r with state := .requested } else s :=
        (updateChan_suspended hk i v q).trans
          (if_congr (and_congr_right' (and_congr_right' (met d.demandSense d.demandLevel))) rfl rfl)
      exact ⟨fun h => tested.trans (if_pos h), fun h => tested.trans (if_neg h)⟩

end Sys2Proof.Machine
end

section
/-! PROOFS. Aborts (R58): the claim an aborted channel waits for, its frames, and its end. -/

namespace Sys2Proof.Machine

/-! ### What the head test leaves -/

/-- Only heads leave the Claim Queue at a head test. -/
theorem headTestUpTo_queue (own : Option TagIx) (n : Nat) (s : State) :
    ∀ q ∈ (headTestUpTo own n s).ala.queue, q ∈ s.ala.queue := by
  induction n generalizing s with
  | zero => exact fun _ h => h
  | succ n ih =>
    unfold headTestUpTo
    split
    · exact fun _ h => h
    · split
      · intro q hq
        have left := ih _ q hq
        rw [grantHead_ala] at left
        exact List.mem_of_mem_tail left
      · exact fun _ h => h

/-- A head test takes no grant away: the amounts it gives are not 0 (R68). -/
theorem headTestUpTo_grants (own : Option TagIx) (n : Nat) (s : State) (h : ∀ q ∈ s.ala.queue, q.amount ≠ 0)
    (t : TagIx) (ht : (s.tag t).grant ≠ 0) : ((headTestUpTo own n s).tag t).grant ≠ 0 := by
  induction n generalizing s with
  | zero => exact ht
  | succ n ih =>
    unfold headTestUpTo
    split
    · exact ht
    · next q rest hq =>
      split
      · refine ih _ (fun p hp => ?_) ?_
        · rw [grantHead_ala] at hp
          exact h p (List.mem_of_mem_tail hp)
        · show (s.grantHead q own).ala.tags[t].grant ≠ 0
          rw [grantHead_ala]
          show (s.ala.giveGrant q.tag q.amount s.rif.ringTime).tags[t].grant ≠ 0
          rw [AlaRt.giveGrant_grant]
          split
          · exact h q (by simp [hq])
          · exact ht
      · exact ht

/-! ### A channel that a grant does not reach -/

theorem modChan_other {s : State} {c d : ChanIx} (f : ChanRt → ChanRt) (h : d ≠ c) :
    (s.modChan d f).chan c = s.chan c := updAt_other _ _ h

theorem chan_of_seq {s t : State} (h : t.seq = s.seq) (c : ChanIx) : t.chan c = s.chan c := by
  rw [State.chan, h, State.chan]

theorem request_chan {s : State} {c : ChanIx} (h : (s.chan c).state ≠ .idle) (d : ChanIx) (who : Requester) :
    (s.request d who).chan c = s.chan c := by
  unfold State.request
  split
  · next hd => exact modChan_other _ fun e => h (e ▸ hd)
  · exact chan_of_seq (evt_raise ..).seq c
  all_goals rfl

theorem notifyOwner_chan (s : State) (d c : ChanIx) (e : RunEnd) : (s.notifyOwner d e).chan c = s.chan c := by
  rw [notifyOwner_eq]
  rfl

theorem requestStepLink_chan {s : State} {c : ChanIx} (h : (s.chan c).state ≠ .idle) (d : ChanIx) (st : Step) :
    (s.requestStepLink d st).chan c = s.chan c := by
  cases st with
  | link e => exact request_chan h e _
  | _ => rfl

theorem requestLink_chan {s : State} {c : ChanIx} (h : (s.chan c).state ≠ .idle) (d : ChanIx) :
    (s.requestLink d).chan c = s.chan c := by
  unfold State.requestLink
  split
  · rfl
  · exact request_chan h _ _

/-- The end of another channel's run reaches a channel that is not IDLE with no request. -/
theorem finishRun_chan {s : State} {c d : ChanIx} (hd : d ≠ c) (h : (s.chan c).state ≠ .idle) :
    (s.finishRun d).chan c = s.chan c := by
  have ended : ((s.modChan d fun r => r.endRun (s.desc d)).releaseEngine d).chan c = s.chan c := modChan_other _ hd
  have step := requestStepLink_chan (by rwa [ended]) d (s.stepAt d)
  have link := requestLink_chan (by rwa [step, ended]) d
  exact (notifyOwner_chan ..).trans (link.trans (step.trans ended))

theorem completeWait_chan {s : State} {c d : ChanIx} (hd : d ≠ c) (h : (s.chan c).state ≠ .idle) :
    (s.completeWait d).chan c = s.chan c := by
  have completed : (s.modChan d ChanRt.completeStep).chan c = s.chan c := modChan_other _ hd
  unfold State.completeWait
  dsimp only
  split
  · exact (finishRun_chan hd (by rwa [completed])).trans completed
  · exact (modChan_other _ hd).trans completed

theorem takeGrant_chan {s : State} {c : ChanIx} {who : Claimant} (hw : who ≠ .chan c)
    (h : (s.chan c).state ≠ .idle) (t : TagIx) : (s.takeGrant who t).chan c = s.chan c := by
  cases who with
  | clc => exact chan_of_seq (clcGranted_seq s t) c
  | chan d =>
    have hd : d ≠ c := fun e => hw (e ▸ rfl)
    show (s.chanGranted d).chan c = _
    unfold State.chanGranted
    split
    · exact completeWait_chan hd h
    · rfl

theorem grantHead_chan {s : State} {c : ChanIx} {q : Claim} (hw : q.who ≠ .chan c) (h : (s.chan c).state ≠ .idle)
    (own : Option TagIx) : (s.grantHead q own).chan c = s.chan c := by
  let given := s.modAla fun a => { a.giveGrant q.tag q.amount s.rif.ringTime with queue := a.queue.tail }
  have same : given.chan c = s.chan c := rfl
  have branches : s.grantHead q own = if own = some q.tag then given else given.takeGrant q.who q.tag := rfl
  rw [branches]
  split
  · exact same
  · exact (takeGrant_chan hw (by rw [same]; exact h) q.tag).trans same

/-- Channels whose claims do not wait, and that are not IDLE, are not reached by a head test. -/
theorem headTestUpTo_chan (own : Option TagIx) (n : Nat) (s : State) (c : ChanIx) (h : (s.chan c).state ≠ .idle)
    (hq : ∀ q ∈ s.ala.queue, q.who ≠ .chan c) : (headTestUpTo own n s).chan c = s.chan c := by
  induction n generalizing s with
  | zero => rfl
  | succ n ih =>
    unfold headTestUpTo
    split
    · rfl
    · next q rest hs =>
      split
      · have told : (s.grantHead q own).chan c = s.chan c := grantHead_chan (hq q (by simp [hs])) h own
        have others : ∀ p ∈ (s.grantHead q own).ala.queue, p.who ≠ .chan c := by
          rw [grantHead_ala]
          exact fun p hp => hq p (List.mem_of_mem_tail hp)
        have idle : ((s.grantHead q own).chan c).state ≠ .idle := by
          rw [told]
          exact h
        exact (ih (s.grantHead q own) idle others).trans told
      · rfl

/-! ### The withdrawal -/

theorem withdraw_eq (s : State) (who : Claimant) (t : TagIx) :
    let rest := s.ala.queue.filter fun q => decide (¬(q.tag = t ∧ q.who = who))
    s.withdraw who t =
      if rest = s.ala.queue then s else ({ s with ala := { s.ala with queue := rest } } : State).headTest := by
  intro rest
  have kept : (s.ala.queue.filter fun q => !(q.tag == t && q.who == who)) = rest := by
    refine List.filter_congr fun q _ => ?_
    simp [beq_eq_decide]
  have all : (s.ala.queue.any fun q => q.tag == t && q.who == who) = true ↔ rest ≠ s.ala.queue := by
    rw [← kept, Ne, List.filter_eq_self]
    simp
  unfold State.withdraw
  by_cases h : rest = s.ala.queue
  · rw [if_pos h, if_neg (all.not.mpr (not_not.mpr h))]
  · rw [if_neg h, if_pos (all.mpr h), ← kept]
    rfl

/-- What a withdrawal leaves of the Claim Queue. -/
theorem withdraw_queue (s : State) (who : Claimant) (t : TagIx) :
    ∀ q ∈ (s.withdraw who t).ala.queue, q ∈ s.ala.queue ∧ ¬(q.tag = t ∧ q.who = who) := by
  intro q hq
  have member (h : q ∈ s.ala.queue.filter fun q => decide (¬(q.tag = t ∧ q.who = who))) :
      q ∈ s.ala.queue ∧ ¬(q.tag = t ∧ q.who = who) :=
    ⟨List.mem_of_mem_filter h, of_decide_eq_true (List.mem_filter.mp h).2⟩
  rw [withdraw_eq] at hq
  split at hq
  · next h =>
    rw [← h] at hq
    exact member hq
  · exact member (headTestUpTo_queue _ _ _ q hq)

theorem withdraw_grants {s : State} (h : ClaimLaw s) (who : Claimant) (t k : TagIx) (hk : (s.tag k).grant ≠ 0) :
    ((s.withdraw who t).tag k).grant ≠ 0 := by
  rw [withdraw_eq]
  split
  · exact hk
  · exact headTestUpTo_grants _ _ _ (fun q hq => (h.2 q (List.mem_of_mem_filter hq)).1) k hk

/-- With its claim withdrawn, a channel that claims nothing else is not reached by the head test behind it. -/
theorem withdraw_chan {s : State} {c : ChanIx} {t : TagIx} (h : (s.chan c).state ≠ .idle)
    (hq : ∀ q ∈ s.ala.queue, q.who = .chan c → q.tag = t) : (s.withdraw (.chan c) t).chan c = s.chan c := by
  rw [withdraw_eq]
  split
  · rfl
  · refine headTestUpTo_chan _ _ _ c h fun q hm hw => ?_
    obtain ⟨mem, other⟩ := List.mem_filter.mp hm
    exact (of_decide_eq_true other) ⟨hq q mem hw, hw⟩

theorem withdrawChan_of_claim {s : State} {c : ChanIx} {t : TagIx} {a n : Nat}
    (hk : (s.chan c).state = .waiting .claim) (hs : s.stepAt c = .claim t a n) :
    s.withdrawChan c = s.withdraw (.chan c) t := by
  rw [State.withdrawChan, hk, hs]

/-- Only a channel that waits in CLAIM has a claim to withdraw. -/
theorem withdrawChan_cases (s : State) (c : ChanIx) :
    s.withdrawChan c = s ∨ ∃ t, s.withdrawChan c = s.withdraw (.chan c) t := by
  unfold State.withdrawChan
  split
  · exact .inr ⟨_, rfl⟩
  · exact .inl rfl

theorem withdrawChan_of_noClaim {s : State} {c : ChanIx} (h : (s.chan c).state ≠ .waiting .claim) :
    s.withdrawChan c = s := by
  unfold State.withdrawChan
  split
  · next hk _ => exact absurd hk h
  · rfl

theorem told_withdrawChan (s : State) (c : ChanIx) : Told s (s.withdrawChan c) := by
  obtain h | ⟨t, h⟩ := withdrawChan_cases s c <;> rw [h]
  · exact .refl s
  · exact told_withdraw ..

/-! ### The frames of an aborted channel -/

/-- A class 1 that is offered a frame takes it while it has room (R58). -/
def offered (l : List CmdFrame) (f : Option CmdFrame) : List CmdFrame := if l.length < 6 then l ++ f.toList else l

theorem offered_none (l : List CmdFrame) : offered l none = l := by
  simp [offered]

theorem offerOrDrop_eq (s : State) (f : CmdFrame) :
    s.offerOrDrop f = { s with rif := { s.rif with class1 := offered s.rif.class1 (some f) } } := by
  by_cases h : s.rif.class1.length < 6 <;> simp [State.offerOrDrop, State.class1Room, offered, h]; rfl

theorem dropOpen_eq (s : State) (c : ChanIx) :
    let mine := s.seq.opened.filter fun o => decide (o.chan = c)
    s.dropOpen c = { s with
      seq := { s.seq with opened := if mine = none then s.seq.opened else none }
      rif := { s.rif with
        class1 := offered s.rif.class1 (mine.map fun o => { dest := o.dest, items := o.items }) } } := by
  intro mine
  have keep (o : Option OpenFrame) (q : List CmdFrame) (hu : o = s.seq.opened) (hq : q = s.rif.class1) :
      s = { s with seq := { s.seq with opened := o }, rif := { s.rif with class1 := q } } := by
    rw [hu, hq]
  unfold State.dropOpen
  split
  · next ho =>
    have none_mine : mine = none := by simp [mine, ho]
    exact keep _ _ (if_pos none_mine) (by rw [none_mine]; exact offered_none _)
  · next o ho =>
    by_cases hc : o.chan = c
    · have one : mine = some o := by simp [mine, ho, hc]
      rw [if_pos hc, offerOrDrop_eq, one]
      rfl
    · have none_mine : mine = none := by simp [mine, ho, hc]
      rw [if_neg hc]
      exact keep _ _ (if_pos none_mine) (by rw [none_mine]; exact offered_none _)

theorem dropHeld_eq (s : State) (c : ChanIx) :
    s.dropHeld c = { s with
      seq := { s.seq with chans := s.seq.chans.set c { s.chan c with held := none } }
      rif := { s.rif with class1 := offered s.rif.class1 (s.chan c).held } } := by
  unfold State.dropHeld
  split
  · next h =>
    have chan : { s.chan c with held := none } = s.chan c := by rw [← h]
    have chans : s.seq.chans.set c { s.chan c with held := none } = s.seq.chans := by
      rw [chan]
      exact Vector.set_getElem_self ..
    rw [chans, h, offered_none]
  · next f h =>
    rw [offerOrDrop_eq, h]
    rfl

/-- The record of an aborted channel (R58). -/
def ChanRt.abortedRun (r : ChanRt) : ChanRt := { r with held := none, aborted := true, state := .masked }

/-- An aborted channel, its claim withdrawn, before event 9: its frames leave it, it is MASKED, and the engine is free
of it. -/
def State.abortedChan (s : State) (c : ChanIx) : State :=
  let mine := s.seq.opened.filter fun o => decide (o.chan = c)
  { s with
    seq := { s.seq with
      opened := if mine = none then s.seq.opened else none
      holder := if s.seq.holder = some c then none else s.seq.holder
      chans := s.seq.chans.set c { s.chan c with held := none, aborted := true, state := .masked } }
    rif := { s.rif with
      class1 := offered (offered s.rif.class1 (mine.map fun o => { dest := o.dest, items := o.items }))
        (s.chan c).held } }

theorem abortedChan_eq (s : State) (c : ChanIx) :
    s.abortedChan c =
      (((s.dropOpen c).dropHeld c).modChan c fun r => { r with aborted := true, state := .masked }).releaseEngine c := by
  have twice : updAt (s.seq.chans.set c { s.chan c with held := none }) c
      (fun r => { r with aborted := true, state := .masked }) =
        s.seq.chans.set c { s.chan c with held := none, aborted := true, state := .masked } := by
    simp [updAt]
  rw [dropOpen_eq, dropHeld_eq, State.abortedChan, ← twice]
  rfl

/-- Settles O31: the withdrawal first, then the frames, and the end of the run. -/
theorem abort : Obligations.Abort := by
  intro s c p
  refine ⟨fun hm => if_pos ((isMasked_iff s c).mpr hm), withdrawChan_of_noClaim, fun t a n hk hs => ?claim, fun d hi hc => ?_,
    fun hl t ht => ?_, fun hm => ?ends⟩
  case claim =>
    intro rest
    rw [withdrawChan_of_claim hk hs]
    refine ⟨fun h => ?_, fun h => ?_, fun q hq => (withdraw_queue _ _ _ q hq).2, withdraw_chan (by rw [hk]; decide)⟩
    · rw [withdraw_eq, if_pos h]
    · rw [withdraw_eq, if_neg h]
  case ends =>
    intro offered' mine v x
    have opened : (s.withdrawChan c).seq.opened = s.seq.opened := (told_withdrawChan s c).opened
    have desc : x.desc c = s.desc c := by
      refine (raise_desc v _ _ c).trans (desc_of_settings_eq ?_ c)
      exact (calm_withdrawChan s c).settings
    have aborted : v = (((s.withdrawChan c).dropOpen c).dropHeld c |>.modChan c fun r =>
        { r with aborted := true, state := .masked }).releaseEngine c := by
      rw [← abortedChan_eq, State.abortedChan, opened]
      rfl
    have current : (v.chan c).current = ((s.withdrawChan c).chan c).current := by
      have chan : v.chan c = ((s.withdrawChan c).chan c).abortedRun := Vector.getElem_set_self ..
      rw [chan, ChanRt.abortedRun]
    refine ⟨?_, (evt_raise ..).eq⟩
    calc s.abortChan c p = (v.raise 9 [(c : Int), ((v.chan c).current : Int), p.code]).notifyOwner c .aborted := by
          rw [aborted]
          exact if_neg fun h => hm ((isMasked_iff s c).mp h)
      _ = x.notifyOwner c .aborted := by
          rw [current]
          cases p <;> rfl
      _ = _ := by rw [notifyOwner_eq, desc]
  · exact ((told_withdrawChan s c).chan d).resolve_right fun h => h.1.elim hi hc
  · obtain h | ⟨k, h⟩ := withdrawChan_cases s c <;> rw [h]
    · exact ht
    · exact withdraw_grants hl _ k t ht

end Sys2Proof.Machine
end

section
/-! SUPPORT. What stage tests, claims and grants leave of the part: every block but CLC, ALA, SEQ and the event state
stays, no SAMPLED signal moves, and of CLC's record the fields that other rules own stay. -/

namespace Sys2Proof.Machine

/-- What the stage tests and the grants leave. -/
structure Staged (s t : State) : Prop where
  eq : t = { s with
    evu := t.evu, rif := { s.rif with class1 := t.rif.class1, class2 := t.rif.class2 }
    signals := t.signals, seq := t.seq, ala := t.ala, clc := t.clc, work := t.work }
  sampled : ∀ i : SigIx, s.settings.signals[i].feed = .sampled → t.signals[i] = s.signals[i]
  clc : t.clc = { s.clc with
    actual := t.clc.actual, dwell := t.clc.dwell, dwellDue := t.clc.dwellDue, stageClaim := t.clc.stageClaim
    heldReported := t.clc.heldReported, pumpClaim := t.clc.pumpClaim, heater := t.clc.heater
    heldStage := t.clc.heldStage, heldHeater := t.clc.heldHeater, cf := t.clc.cf }

namespace Staged

variable {s t u : State}

theorem settings (h : Staged s t) : t.settings = s.settings := (congrArg State.settings h.eq : _)
theorem part (h : Staged s t) : t.part = s.part := (congrArg State.part h.eq : _)
theorem limits (h : Staged s t) : t.limits = s.limits := (congrArg State.limits h.eq : _)
theorem holds (h : Staged s t) : t.holds = s.holds := (congrArg State.holds h.eq : _)
theorem cnv (h : Staged s t) : t.cnv = s.cnv := (congrArg State.cnv h.eq : _)
theorem alw (h : Staged s t) : t.alw = s.alw := (congrArg State.alw h.eq : _)
theorem yaw (h : Staged s t) : t.yaw = s.yaw := (congrArg State.yaw h.eq : _)
theorem target (h : Staged s t) : t.clc.target = s.clc.target := (congrArg ClcRt.target h.clc : _)
theorem fullHold (h : Staged s t) : t.clc.fullHold = s.clc.fullHold := (congrArg ClcRt.fullHold h.clc : _)
theorem duty (h : Staged s t) : t.clc.duty = s.clc.duty := (congrArg ClcRt.duty h.clc : _)
theorem changeFrom (h : Staged s t) : t.clc.changeFrom = s.clc.changeFrom := (congrArg ClcRt.changeFrom h.clc : _)
theorem low (h : Staged s t) : t.clc.low = s.clc.low := (congrArg ClcRt.low h.clc : _)
theorem flow (h : Staged s t) : t.clc.flow = s.clc.flow := (congrArg ClcRt.flow h.clc : _)

theorem refl (s : State) : Staged s s := ⟨rfl, fun _ _ => rfl, rfl⟩

theorem trans (a : Staged s t) (b : Staged t u) : Staged s u where
  eq := by
    have h := b.eq
    rw [a.eq] at h
    exact h
  sampled i hi := (b.sampled i (by rw [a.settings]; exact hi)).trans (a.sampled i hi)
  clc := by
    have h := b.clc
    rw [a.clc] at h
    exact h

theorem ite (p : Prop) [Decidable p] {a b : State} (ha : p → Staged s a) (hb : ¬p → Staged s b) :
    Staged s (if p then a else b) := by
  split
  · exact ha ‹_›
  · exact hb ‹_›

theorem of_onlySignals (h : OnlySignals s t)
    (hs : ∀ i : SigIx, s.settings.signals[i].feed = .sampled → t.signals[i] = s.signals[i]) : Staged s t where
  eq := by
    unfold OnlySignals at h
    rw [h]
  sampled := hs
  clc := by rw [h.clc]

theorem of_evt (h : Evt s t) : Staged s t :=
  of_onlySignals (.of_evt h) fun i _ => by
    have signals : t.signals = s.signals := (congrArg State.signals h.eq : _)
    rw [signals]

theorem raise (s : State) (c : Code) (d : List Int) : Staged s (s.raise c d) := of_evt (evt_raise s c d)

theorem request (s : State) (c : ChanIx) (who : Requester) : Staged s (s.request c who) := by
  unfold State.request
  split
  · exact ⟨rfl, fun _ _ => rfl, rfl⟩
  · exact raise ..
  all_goals exact refl s

end Staged

/-! ### Published quantities -/

theorem modSignal_signal_other {s : State} {i j : SigIx} (f : SignalRt → SignalRt) (h : i ≠ j) :
    (s.modSignal i f).signals[j] = s.signals[j] := updAt_other _ _ h

theorem signal_of_signals_eq {s t : State} (h : t.signals = s.signals) (j : SigIx) : t.signals[j] = s.signals[j] := by
  rw [h]

theorem lossEvents_signal_other {s : State} {i j : SigIx} (h : i ≠ j) (old new : Quality) :
    (s.lossEvents i old new).signals[j] = s.signals[j] := by
  unfold State.lossEvents
  split
  · exact (signal_of_signals_eq (raiseLoss_signals ..) j).trans (modSignal_signal_other _ h)
  · split
    · exact (signal_of_signals_eq (raiseRecovery_signals ..) j).trans (modSignal_signal_other _ h)
    · rfl

theorem derivedSignal_feed {s : State} {f : Feed} {i : SigIx} (h : s.derivedSignal f = some i) :
    s.settings.signals[i].feed = f := by
  have mem := List.mem_of_mem_head? h
  simpa using (mem_selectIx _ _ _).mp mem

/-- A published quantity moves no SAMPLED signal (R17, R18). -/
theorem publish_sampled {s : State} {f : Feed} (hf : f ≠ .sampled) (v : Int) {j : SigIx}
    (hj : s.settings.signals[j].feed = .sampled) : (s.publish f v).signals[j] = s.signals[j] := by
  unfold State.publish
  split
  · rfl
  · next i hi =>
    have other : i ≠ j := fun e => hf ((derivedSignal_feed hi).symm.trans (e ▸ hj))
    exact (lossEvents_signal_other other _ _).trans (modSignal_signal_other _ other)

namespace Staged

variable {s t u : State}

theorem publish (s : State) {f : Feed} (hf : f ≠ .sampled) (v : Int) : Staged s (s.publish f v) :=
  of_onlySignals (onlySignals_publish s f v) fun _ hi => publish_sampled hf v hi

/-! ### CLC's commands and stage changes -/

theorem formCf (s : State) : Staged s s.formCf := by
  refine trans (t := s.modClc _) ⟨rfl, fun _ _ => rfl, rfl⟩ (publish _ (by decide) _)

theorem stageCommand (s : State) : Staged s s.stageCommand := by
  refine ite _ (fun _ => ite _ (fun _ => ?_) fun _ => ?_) fun _ => refl s
  · exact ⟨rfl, fun _ _ => rfl, rfl⟩
  · exact ⟨rfl, fun _ _ => rfl, rfl⟩

theorem heaterCommand (s : State) (on : Bool) : Staged s (s.heaterCommand on) := by
  refine ite _ (fun _ => ite _ (fun _ => ?_) fun _ => ?_) fun _ => refl s
  · exact ⟨rfl, fun _ _ => rfl, rfl⟩
  · exact ⟨rfl, fun _ _ => rfl, rfl⟩

theorem changeStage (s : State) (k : StageIx) : Staged s (s.changeStage k) :=
  trans (t := s.modClc _) ⟨rfl, fun _ _ => rfl, rfl⟩ ((formCf _).trans (stageCommand _))

end Staged

/-! ### Claims and grants -/

/-- What grants leave: while no stage claim waits, the stage and what belongs to it stay too, and no pump claim
begins to wait; while no claim of CLC waits, CLC and class 1 stay as they are. -/
structure Granted (s t : State) : Prop extends Staged s t where
  idle : s.clc.stageClaim = none → t.clc = { s.clc with
    pumpClaim := t.clc.pumpClaim, heater := t.clc.heater
    heldStage := t.clc.heldStage, heldHeater := t.clc.heldHeater }
  pump : s.clc.pumpClaim = false → t.clc.pumpClaim = false
  quiet : s.clc.stageClaim = none → s.clc.pumpClaim = false → s.clc.heater ≠ .claiming →
    t.clc = s.clc ∧ t.rif.class1 = s.rif.class1

namespace Granted

variable {s t u : State}

theorem stageClaim (h : Granted s t) (hs : s.clc.stageClaim = none) : t.clc.stageClaim = none := by
  rw [h.idle hs]
  exact hs

theorem actual (h : Granted s t) (hs : s.clc.stageClaim = none) : t.clc.actual = s.clc.actual :=
  (congrArg ClcRt.actual (h.idle hs) : _)

theorem refl (s : State) : Granted s s := ⟨.refl s, fun _ => rfl, id, fun _ _ _ => ⟨rfl, rfl⟩⟩

theorem trans (a : Granted s t) (b : Granted t u) : Granted s u where
  toStaged := a.toStaged.trans b.toStaged
  idle hs := by
    have h := b.idle (a.stageClaim hs)
    rw [a.idle hs] at h
    exact h
  pump hs := b.pump (a.pump hs)
  quiet hs hp hh := by
    obtain ⟨clc, class1⟩ := a.quiet hs hp hh
    have h := b.quiet
    rw [clc, class1] at h
    exact h hs hp hh

theorem ite (p : Prop) [Decidable p] {a b : State} (ha : p → Granted s a) (hb : ¬p → Granted s b) :
    Granted s (if p then a else b) := by
  split
  · exact ha ‹_›
  · exact hb ‹_›

theorem of_staged (h : Staged s t) (hc : t.clc = s.clc) (hr : t.rif.class1 = s.rif.class1) : Granted s t :=
  ⟨h, fun _ => by rw [hc], fun hp => by rwa [hc], fun _ _ _ => ⟨hc, hr⟩⟩

/-- A change of ALA, SEQ or the hand-overs alone. -/
theorem of_eq (h : t = { s with seq := t.seq, ala := t.ala, work := t.work }) : Granted s t :=
  of_staged ⟨by rw [h], fun i _ => by rw [h], by rw [h]⟩ (by rw [h]) (by rw [h])

theorem raise (s : State) (c : Code) (d : List Int) : Granted s (s.raise c d) :=
  of_staged (.raise s c d) (onlySignals_raise s c d).clc (congrArg (fun x : State => x.rif.class1) (evt_raise s c d).eq :)

theorem request (s : State) (c : ChanIx) (who : Requester) : Granted s (s.request c who) := by
  unfold State.request
  split
  · exact of_eq rfl
  · exact raise ..
  all_goals exact refl s

theorem notifyOwner (s : State) (c : ChanIx) (e : RunEnd) : Granted s (s.notifyOwner c e) :=
  ite _ (fun _ => refl s) fun _ => of_eq rfl

theorem requestStepLink (s : State) (c : ChanIx) (st : Step) : Granted s (s.requestStepLink c st) := by
  cases st with
  | link e => exact request ..
  | _ => exact refl s

theorem requestLink (s : State) (c : ChanIx) : Granted s (s.requestLink c) := by
  unfold State.requestLink
  split
  · exact refl s
  · exact request ..

theorem finishRun (s : State) (c : ChanIx) : Granted s (s.finishRun c) := by
  have ended : Granted s ((s.modChan c fun r => r.endRun (s.desc c)).releaseEngine c) := of_eq rfl
  exact ended.trans ((requestStepLink ..).trans ((requestLink ..).trans (notifyOwner ..)))

theorem completeWait (s : State) (c : ChanIx) : Granted s (s.completeWait c) := by
  have completed : Granted s (s.modChan c ChanRt.completeStep) := of_eq rfl
  exact ite _ (fun _ => completed.trans (finishRun ..)) fun _ => completed.trans (of_eq rfl)

/-- A claim of CLC that is granted. -/
theorem of_waiting (h : Staged s t)
    (hi : s.clc.stageClaim = none → t.clc = { s.clc with
      pumpClaim := t.clc.pumpClaim, heater := t.clc.heater
      heldStage := t.clc.heldStage, heldHeater := t.clc.heldHeater })
    (hp : s.clc.pumpClaim = false → t.clc.pumpClaim = false)
    (hw : ¬(s.clc.stageClaim = none ∧ s.clc.pumpClaim = false ∧ s.clc.heater ≠ .claiming)) : Granted s t :=
  ⟨h, hi, hp, fun a b c => absurd ⟨a, b, c⟩ hw⟩

theorem otherGranted (s : State) (t : TagIx) : Granted s (s.otherGranted t) := by
  refine ite _ (fun hh => of_waiting ?_ (fun _ => ?_) (fun hp => ?_) fun hn => hn.2.2 hh.1) fun _ =>
    ite _ (fun hp => of_waiting ?_ (fun _ => ?_) (fun hn => absurd (hp.1.symm.trans hn) nofun) fun hn =>
      absurd (hp.1.symm.trans hn.2.1) nofun) fun _ => refl s
  · exact Staged.trans (t := s.modClc _) ⟨rfl, fun _ _ => rfl, rfl⟩ (Staged.heaterCommand ..)
  · unfold State.heaterCommand
    split_ifs <;> rfl
  · unfold State.heaterCommand
    split_ifs <;> exact hp
  · exact Staged.trans (t := s.modClc _) ⟨rfl, fun _ _ => rfl, rfl⟩ (Staged.stageCommand _)
  · unfold State.stageCommand
    split_ifs <;> rfl

theorem clcGranted (s : State) (t : TagIx) : Granted s (s.clcGranted t) := by
  unfold State.clcGranted
  split
  · next k hk =>
    refine ite _ (fun _ => of_waiting ?_ (fun hn => absurd (hk.symm.trans hn) nofun) (fun hp => ?_)
      fun hn => absurd (hk.symm.trans hn.1) nofun) fun _ => otherGranted s t
    · exact Staged.trans (t := s.modClc _) ⟨rfl, fun _ _ => rfl, rfl⟩
        ((Staged.changeStage ..).trans ⟨rfl, fun _ _ => rfl, rfl⟩)
    · have formed (u : State) : u.formCf.clc.pumpClaim = u.clc.pumpClaim := by
        rw [State.formCf, (onlySignals_publish ..).clc]
        rfl
      show (State.stageCommand _).clc.pumpClaim = false
      unfold State.stageCommand
      split_ifs <;> exact (formed _).trans hp
  · exact otherGranted s t

theorem takeGrant (s : State) (who : Claimant) (t : TagIx) : Granted s (s.takeGrant who t) := by
  cases who with
  | chan c => exact ite _ (fun _ => completeWait s c) fun _ => refl s
  | clc => exact clcGranted s t

theorem grantHead (s : State) (q : Claim) (own : Option TagIx) : Granted s (s.grantHead q own) := by
  have given : Granted s (s.modAla fun a =>
      { a.giveGrant q.tag q.amount s.rif.ringTime with queue := a.queue.tail }) := of_eq rfl
  exact ite _ (fun _ => given) fun _ => given.trans (takeGrant ..)

theorem headTestUpTo (own : Option TagIx) (n : Nat) (s : State) : Granted s (headTestUpTo own n s) := by
  induction n generalizing s with
  | zero => exact refl s
  | succ n ih =>
    unfold Machine.headTestUpTo
    split
    · exact refl s
    · exact ite _ (fun _ => (grantHead ..).trans (ih _)) fun _ => refl s

theorem headTest (s : State) (own : Option TagIx := none) : Granted s (s.headTest own) := headTestUpTo ..

theorem freeTag (s : State) (t : TagIx) : Granted s (s.freeTag t) := by
  by_cases h : (s.tag t).grant = 0
  · rw [freeTag_of_noGrant h]
    exact refl s
  · rw [freeTag_of_granted h]
    exact trans (t := s.released t) (of_eq rfl) (headTest _)

theorem withdraw (s : State) (who : Claimant) (t : TagIx) : Granted s (s.withdraw who t) :=
  ite _ (fun _ => trans (t := s.modAla _) (of_eq rfl) (headTest _)) fun _ => refl s

theorem withdrawAll (s : State) (who : Claimant) : Granted s (s.withdrawAll who) :=
  ite _ (fun _ => trans (t := s.modAla _) (of_eq rfl) (headTest _)) fun _ => refl s

theorem joinQueue (s : State) (t : TagIx) (n : Nat) (who : Claimant) (inc : Bool) :
    Granted s (s.joinQueue t n who inc).1 :=
  trans (t := s.enqueue _) (of_eq rfl) (headTest _ (some t))

theorem claimTag (s : State) (t : TagIx) (n : Nat) (who : Claimant) : Granted s (s.claimTag t n who).1 := by
  unfold State.claimTag
  dsimp only
  split_ifs
  · exact refl s
  · exact refl s
  · exact joinQueue ..
  · exact freeTag s t
  · exact trans (t := s.modTag t _) (of_eq rfl) (headTest _)
  · exact of_eq rfl
  · exact joinQueue ..

end Granted

/-! ### Stage tests -/

namespace Staged

theorem dropStageClaim (s : State) : Staged s s.dropStageClaim := by
  unfold State.dropStageClaim
  split
  · exact trans (t := s.modClc _) ⟨rfl, fun _ _ => rfl, rfl⟩ (Granted.withdraw ..).toStaged
  · exact refl s

theorem reportHeld (s : State) (k : StageIx) : Staged s (s.reportHeld k) :=
  ite _ (fun _ => refl s) fun _ => trans (t := s.modClc _) ⟨rfl, fun _ _ => rfl, rfl⟩ (raise ..)

theorem stageUp (s : State) (k : StageIx) : Staged s (s.stageUp k) := by
  unfold State.stageUp
  split
  · exact changeStage s k
  · next t _ =>
    have claimed := (Granted.claimTag s t (s.stage k).amount .clc).toStaged
    dsimp only
    split
    · exact claimed.trans (changeStage ..)
    · exact claimed.trans (trans (t := State.modClc _ _) ⟨rfl, fun _ _ => rfl, rfl⟩ (reportHeld ..))
    · exact claimed.trans (reportHeld ..)

theorem stageDown (s : State) (k : StageIx) : Staged s (s.stageDown k) := by
  have dropped := dropStageClaim s
  unfold State.stageDown
  dsimp only
  split
  · exact dropped.trans (changeStage ..)
  · next t _ =>
    have claimed := dropped.trans (Granted.claimTag s.dropStageClaim t (s.dropStageClaim.stage k).amount .clc).toStaged
    split
    · exact claimed.trans (changeStage ..)
    · exact claimed.trans ((Granted.withdraw ..).toStaged.trans (changeStage ..))
    · exact claimed.trans (changeStage ..)

theorem stageTestAt (s : State) (v : Int) (q : Quality) : Staged s (s.stageTestAt v q) := by
  refine ite _ (fun _ => ?_) fun _ => refl s
  have dropped : Staged s (if s.clc.target ≤ s.clc.actual then s.dropStageClaim else s) :=
    ite _ (fun _ => dropStageClaim s) fun _ => refl s
  exact ite _ (fun _ => dropped.trans (stageDown ..)) fun _ =>
    ite _ (fun _ => dropped.trans (stageUp ..)) fun _ => dropped

end Staged

end Sys2Proof.Machine
end

section
/-! PROOFS. LIM: the conditions of an entry, what an update and an acknowledgement do to it, and the holds (R24 to R32,
R159). -/

namespace Sys2Proof.Machine

/-! ### The entries of a signal -/

theorem selectIx_sorted {α : Type} {n : Nat} (p : α → Bool) (v : Vector α n) : (selectIx p v).Pairwise (· < ·) := by
  rw [selectIx, indices_zip, indices_eq, List.filterMap_map, List.pairwise_filterMap]
  refine (List.pairwise_lt_finRange n).imp fun h a ha b hb => ?_
  simp only [Function.comp_apply, Option.ite_none_right_eq_some, Option.some.injEq] at ha hb
  rw [← ha.2, ← hb.2]
  exact h

/-- Two lists that hold the same indices, lowest first, are the same list. -/
theorem eq_of_sorted {n : Nat} {l m : List (Fin n)} (hl : l.Pairwise (· < ·)) (hm : m.Pairwise (· < ·))
    (h : ∀ i, i ∈ l ↔ i ∈ m) : l = m := by
  have nodup {k : List (Fin n)} (hk : k.Pairwise (· < ·)) : k.Nodup := hk.imp fun h => h.ne
  exact List.Perm.eq_of_pairwise (fun _ _ _ _ hab hba => absurd hba hab.asymm) hl hm
    ((List.perm_ext_iff_of_nodup (nodup hl) (nodup hm)).mpr h)

theorem mem_limitsOf (s : State) (sig : SigIx) (i : LimIx) :
    i ∈ s.limitsOf sig ↔ s.settings.limits[i].valid = true ∧ s.settings.limits[i].signal = sig := by
  rw [State.limitsOf, mem_selectIx, Bool.and_eq_true, beq_iff_eq]

/-! ### Conditions -/

theorem trips_iff (c : LimitCfg) (v : Int) :
    c.trips v = true ↔ match c.kind with
      | .above => c.trip < v
      | .below => v < c.trip
      | .outside => c.trip < v ∨ v < c.lowTrip := by
  cases h : c.kind <;> simp [LimitCfg.trips, h]

theorem releases_iff (c : LimitCfg) (v : Int) :
    c.releases v = true ↔ match c.kind with
      | .above => v ≤ c.release
      | .below => c.release ≤ v
      | .outside => c.lowRelease ≤ v ∧ v ≤ c.release := by
  cases h : c.kind <;> simp [LimitCfg.releases, h]

theorem ordered_iff (c : LimitCfg) :
    c.ordered = true ↔ match c.kind with
      | .above => c.release ≤ c.trip
      | .below => c.trip ≤ c.release
      | .outside => c.lowTrip ≤ c.lowRelease ∧ c.lowRelease ≤ c.release ∧ c.release ≤ c.trip := by
  cases h : c.kind <;> simp [LimitCfg.ordered, h, and_assoc]

/-! ### A write whose levels break the order -/

/-- A check that fails, behind one that answers the same. -/
theorem judge_second (s t : State) (st : Status) (b : Bool) (checks : List (Bool × Status)) (clamped : Bool) :
    s.judge ((b, st) :: (true, st) :: checks) clamped t = (s, st) := by
  cases b
  · rw [judge_cons_passes, judge_cons_fails]
  · rw [judge_cons_fails]

theorem writeLimits_unordered (s : State) (i : LimIx) {x : LimitCfg} (hv : x.valid = true) (ho : x.ordered = false)
    (hw : limitOf x.words = some (x, false)) : s.writeLimits (16 * i) x.words = (s, .range) := by
  have runtime : hitsRuntime 48 16 13 16 (16 * i) x.words.length = false :=
    hitsRuntime_whole i (by exact (by decide : 1 ≤ 13)) (by exact (by decide : 13 ≤ 16)) (by exact le_refl 13)
  have parsed : writtenEntries 48 16 (fun i => s.settings.limits[i].words) limitOf (16 * i) x.words =
      some [(i, x, false)] :=
    writtenEntries_fixed i (by exact (by decide : 1 ≤ 13)) (by exact (by decide : 13 ≤ 16)) rfl hw
  have unordered : ([(i, x)].any fun e => e.2.valid && !e.2.ordered) = true := by simp [hv, ho]
  rw [State.writeLimits, runtime, parsed]
  show s.judge (_ :: ([(i, x)].any fun e => e.2.valid && !e.2.ordered, .range) :: _) _ _ = _
  rw [unordered]
  exact judge_second ..

/-! ### Evaluation of one entry -/

theorem satSucc_eq_min {n : Nat} (h : n ≤ 255) : satSucc 255 n = min 255 (n + 1) := by
  unfold satSucc
  split <;> omega

theorem modLimit_congr {s : State} {i : LimIx} {f g : LimitRt → LimitRt} (h : f s.limits[i] = g s.limits[i]) :
    s.modLimit i f = s.modLimit i g :=
  congrArg (fun r => { s with limits := s.limits.set i r }) h

theorem modLimit_same (s : State) (i : LimIx) (f : LimitRt → LimitRt) : (s.modLimit i f).limits[i] = f s.limits[i] :=
  updAt_same ..

theorem testLimit_eq (s : State) (i : LimIx) (v : Int) (h : s.limits[i].counter ≤ 255) :
    let c := s.settings.limits[i]
    let n := if c.trips v then min 255 (s.limits[i].counter + 1) else 0
    let u := s.modLimit i fun r => { r with counter := n }
    s.testLimit i v =
      if s.limits[i].tripped then
        if s.limits[i].latch = false ∧ c.releases v = true then u.releaseLimit i else u
      else if c.trips v = true ∧ c.persistence ≤ n then u.tripLimit i else u := by
  intro c n u
  have counted : s.modLimit i (fun r => { r with counter := if c.trips v then satSucc 255 r.counter else 0 }) = u :=
    modLimit_congr (by rw [satSucc_eq_min h])
  have entry : u.limits[i] = { s.limits[i] with counter := n } := modLimit_same ..
  unfold State.testLimit
  simp only [c, counted, entry] at counted ⊢

theorem loseLimit_eq (s : State) (i : LimIx) :
    let u := s.modLimit i fun r => { r with counter := 0 }
    s.loseLimit i = match s.settings.limits[i].onLoss with
      | .hold => u
      | .trip => if s.limits[i].tripped then u else u.tripLimit i
      | .release => if s.limits[i].tripped = true ∧ s.limits[i].latch = false then u.releaseLimit i else u := by
  intro u
  have entry : u.limits[i] = { s.limits[i] with counter := 0 } := modLimit_same ..
  unfold State.loseLimit
  dsimp only
  rw [entry]
  rfl

theorem limitEntry_valid {s : State} {i : LimIx} (h : s.settings.limits[i].valid = true) (v : Int) (q : Quality) :
    s.limitEntry s.settings.limits[i].signal v q i = match q with
      | .good => s.testLimit i v
      | .degraded => s.testLimit i v
      | .lost => s.loseLimit i
      | .unused => s.modLimit i fun r => { r with counter := 0 } :=
  if_pos ⟨h, rfl⟩

/-! ### Trips and their actions -/

theorem limitAction_eq (s : State) (i : LimIx) :
    s.limitAction i = if s.part ≠ .operating then s
      else match s.settings.limits[i].action with
        | .converterBlock => s.tripCnv .limit i
        | .startChannel => s.request s.settings.limits[i].channel (.limit i)
        | .eventOnly => s
        | .yawStop => s
        | .coolingFull => s := by
  unfold State.limitAction State.operating
  by_cases h : s.part = .operating
  · simp only [h, ne_eq, not_true_eq_false, if_false, beq_self_eq_true]
    cases s.settings.limits[i].action <;> rfl
  · simp only [h, ne_eq, not_false_eq_true, if_true, beq_eq_false_iff_ne.mpr h]

theorem codeOf_eq {n : Nat} {k : Code} (h : n = k) : Fin.ofNat 128 n = k := by
  rw [h]
  exact Fin.ofNat_val_eq_self k

theorem tripLimit_eq (s : State) (i : LimIx) {k : Code} (h : s.settings.limits[i].code = k) :
    let c := s.settings.limits[i]
    let u := (s.modLimit i fun r => { r with tripped := true, latch := c.latching }).raise k [(i : Int)]
    s.tripLimit i = (if s.part ≠ .operating then u
      else match c.action with
        | .converterBlock => u.tripCnv .limit i
        | .startChannel => u.request c.channel (.limit i)
        | .eventOnly => u
        | .yawStop => u
        | .coolingFull => u).updateHolds := by
  intro c u
  have settings : u.settings = s.settings := (onlySignals_raise ..).settings
  have part : u.part = s.part := (onlySignals_raise ..).part
  have action := limitAction_eq u i
  rw [settings, part] at action
  rw [← action]
  show ((State.raise _ (Fin.ofNat 128 s.settings.limits[i].code) _).limitAction i).updateHolds = _
  rw [codeOf_eq h]

/-! ### Holds -/

theorem zip_toList {α β : Type} {n : Nat} (v : Vector α n) (w : Vector β n) :
    v.toList.zip w.toList = (List.finRange n).map fun i => (v[i], w[i]) :=
  List.ext_getElem (by simp) fun i h1 h2 => by simp

theorem anyTripped_iff (s : State) (p : LimitCfg → Bool) :
    s.anyTripped p = true ↔ ∃ i : LimIx, s.settings.limits[i].valid = true ∧ s.limits[i].tripped = true ∧
      p s.settings.limits[i] = true := by
  rw [State.anyTripped, zip_toList, List.any_map, List.any_eq_true]
  simp only [List.mem_finRange, true_and, Function.comp_apply, Bool.and_eq_true]
  exact exists_congr fun i => and_assoc.trans (and_congr_right' and_comm)

/-- The holds as the TRIPPED entries call for them (R32). -/
def State.heldNow (s : State) : Holds :=
  { converter := s.converterHoldDue, yaw := s.limitInhibitDue, cooling := s.fullCoolingDue }

/-- The holds stored, and CNV told. -/
def State.cnvTold (s : State) : State :=
  let a : State := { s with holds := s.heldNow }
  if s.heldNow.converter = s.holds.converter then a else a.tellConverterHold s.heldNow.converter

/-- The holds stored, CNV and YAW told. -/
def State.yawTold (s : State) : State :=
  if s.heldNow.yaw = s.holds.yaw then s.cnvTold else s.cnvTold.tellLimit s.heldNow.yaw

theorem updateHolds_eq (s : State) :
    s.updateHolds =
      if s.heldNow.cooling = s.holds.cooling then s.yawTold else s.yawTold.tellFullHold s.heldNow.cooling := rfl

/-- The settings, the Limit Table's entries, the holds and the SAMPLED signals stay. -/
structure Steady (s t : State) : Prop where
  settings : t.settings = s.settings
  limits : t.limits = s.limits
  holds : t.holds = s.holds
  sampled : ∀ i : SigIx, s.settings.signals[i].feed = .sampled → t.signals[i] = s.signals[i]

namespace Steady

variable {s t u : State}

theorem refl (s : State) : Steady s s := ⟨rfl, rfl, rfl, fun _ _ => rfl⟩

theorem trans (a : Steady s t) (b : Steady t u) : Steady s u :=
  ⟨b.settings.trans a.settings, b.limits.trans a.limits, b.holds.trans a.holds, fun i hi =>
    (b.sampled i (by rw [a.settings]; exact hi)).trans (a.sampled i hi)⟩

theorem of_staged (h : Staged s t) : Steady s t := ⟨h.settings, h.limits, h.holds, h.sampled⟩

theorem stopYaw (s : State) (cause : StopCause) (fault : Bool) : Steady s (s.stopYaw cause fault) :=
  trans (t := s.modYaw _) ⟨rfl, rfl, rfl, fun _ _ => rfl⟩ (of_staged (.request ..))

theorem tellLimit (s : State) (on : Bool) : Steady s (s.tellLimit on) := by
  cases on with
  | false => exact ⟨rfl, rfl, rfl, fun _ _ => rfl⟩
  | true =>
    show Steady s (s.addStopping .limit)
    rw [addStopping_eq]
    split
    · exact trans (t := s.putInhibit .limit true) ⟨rfl, rfl, rfl, fun _ _ => rfl⟩ (stopYaw ..)
    · exact ⟨rfl, rfl, rfl, fun _ _ => rfl⟩

theorem formTarget (s : State) (v : Int) (q : Quality) : Steady s (s.formTarget v q) :=
  trans (t := s.modClc _) ⟨rfl, rfl, rfl, fun _ _ => rfl⟩ (of_staged (.stageTestAt ..))

theorem tellFullHold (s : State) (on : Bool) : Steady s (s.tellFullHold on) :=
  trans (t := s.modClc _) ⟨rfl, rfl, rfl, fun _ _ => rfl⟩ (formTarget ..)

theorem cnvTold (s : State) : Steady { s with holds := s.heldNow } s.cnvTold := by
  unfold State.cnvTold
  dsimp only
  split
  · exact refl _
  · exact ⟨rfl, rfl, rfl, fun _ _ => rfl⟩

theorem yawTold (s : State) : Steady { s with holds := s.heldNow } s.yawTold := by
  unfold State.yawTold
  split
  · exact cnvTold s
  · exact (cnvTold s).trans (tellLimit ..)

/-- Bringing the holds up to date moves the holds alone of what LIM keeps. -/
theorem updateHolds (s : State) : Steady { s with holds := s.heldNow } s.updateHolds := by
  rw [updateHolds_eq]
  split
  · exact yawTold s
  · exact (yawTold s).trans (tellFullHold ..)

end Steady

/-! ### The targets of a hold that switches -/

theorem stopped_inhibit (y : YawRt) (cause : StopCause) (fault refused : Bool) :
    (y.stopped cause fault refused).inhibit = y.inhibit := by
  cases refused <;> rfl

theorem stopYaw_yaw (s : State) (cause : StopCause) (fault : Bool) :
    (s.stopYaw cause fault).yaw = s.yaw.stopped cause fault (s.isMasked s.settings.yaw.stop) :=
  (Staged.request ..).yaw

theorem stopYaw_cnv (s : State) (cause : StopCause) (fault : Bool) : (s.stopYaw cause fault).cnv = s.cnv :=
  (Staged.request ..).cnv

theorem tellLimit_limit (s : State) (on : Bool) : (s.tellLimit on).yaw.inhibit.limit = on := by
  cases on with
  | false => rfl
  | true =>
    show (s.addStopping .limit).yaw.inhibit.limit = true
    rw [addStopping_eq]
    split
    · rw [stopYaw_yaw, stopped_inhibit]
      rfl
    · rfl

theorem tellLimit_cnv (s : State) (on : Bool) : (s.tellLimit on).cnv = s.cnv := by
  cases on with
  | false => rfl
  | true =>
    show (s.addStopping .limit).cnv = s.cnv
    rw [addStopping_eq]
    split
    · exact stopYaw_cnv ..
    · rfl

theorem tellFullHold_staged (s : State) (on : Bool) :
    let u := s.modClc fun c => { c with fullHold := on }
    let temp := s.signals[s.settings.clc.coolant]
    Staged (u.modClc fun c => { c with target := u.calledStage temp.value temp.quality }) (s.tellFullHold on) :=
  .stageTestAt ..

theorem yawTold_cnv (s : State) : s.yawTold.cnv = s.cnvTold.cnv := by
  unfold State.yawTold
  split
  · rfl
  · exact tellLimit_cnv ..

theorem updateHolds_cnv (s : State) : s.updateHolds.cnv = s.cnvTold.cnv := by
  rw [updateHolds_eq]
  split
  · exact yawTold_cnv s
  · exact (tellFullHold_staged ..).cnv.trans (yawTold_cnv s)

theorem updateHolds_yaw (s : State) : s.updateHolds.yaw = s.yawTold.yaw := by
  rw [updateHolds_eq]
  split
  · rfl
  · exact (tellFullHold_staged ..).yaw

/-! ### The statement -/

/-- Settles O54, part by part: the entries of a signal, the conditions, a refused write, one entry at an update, a trip
and a release, and the holds. -/
theorem limitEntries : Obligations.LimitEntries := by
  refine ⟨fun s sig v q l hs hm => ?entries, fun c v => ?conditions,
    fun s src i x ready hv ho trip release lowTrip lowRelease plo phi clo chi => ?refused, fun s i v => ?update,
    fun s i k hk => ⟨tripLimit_eq s i hk, rfl⟩, fun s => ?holds⟩
  case entries =>
    have same : l = s.limitsOf sig := eq_of_sorted hs (selectIx_sorted ..) fun i => (hm i).trans (mem_limitsOf s sig i).symm
    rw [same]
    rfl
  case conditions =>
    intro trips releases
    have ht : trips ↔ _ := trips_iff c v
    have hr : releases ↔ _ := releases_iff c v
    have hd := ordered_iff c
    clear_value trips releases
    refine ⟨fun hk => ?_, fun hk => ?_, fun hk => ?_, fun h => ?_⟩
    · simp only [hk] at ht hr hd
      exact ⟨ht, hr, hd, by rw [ht, hr]; omega⟩
    · simp only [hk] at ht hr hd
      exact ⟨ht, hr, hd, by rw [ht, hr]; omega⟩
    · simp only [hk] at ht hr hd
      exact ⟨ht, hr, hd, by rw [ht, hr]; omega⟩
    · have hd := hd.mp h
      cases hk : c.kind <;> simp only [hk] at ht hr hd <;> rw [ht, hr] <;> omega
  case refused =>
    obtain ⟨off, inside⟩ := entry_offset (r := .limits) (stride := 16) rfl i (len := 13) (by decide) (by decide)
    have parsed := limit_fields_readBack x trip release lowTrip lowRelease plo phi (by omega)
    have written := writeAt_quiet (t := s) (st := .range) (off := wordNat (16 * i)) (len := 13) (d := x.words) ready src
      .limits rfl (by decide) (by decide) (by rw [off]; exact inside)
      (by rw [off]; exact writeLimits_unordered s i hv ho parsed) ready.noWork
    rw [off] at written
    exact congrArg Host.Outcome.next written
  case update =>
    intro c r n set took hv hc
    have entry (q : Quality) : took q = _ := limitEntry_valid hv v q
    have tested : s.testLimit i v = _ := testLimit_eq s i v hc
    refine ⟨fun q hq => ?_, (entry .lost).trans (loseLimit_eq s i), entry .unused⟩
    have took_eq : took q = s.testLimit i v := by
      obtain rfl | rfl := hq
      · exact entry .good
      · exact entry .degraded
    refine ⟨fun hn => ?_, fun hp => ?_⟩
    · rw [took_eq, tested]
      exact if_neg (Bool.eq_false_iff.mp hn)
    · rw [took_eq, tested]
      exact if_pos hp
  case holds =>
    intro h some'
    have now : h = s.heldNow := (Steady.updateHolds s).holds
    have entry (p : LimitCfg → Bool) (q : LimitCfg → Prop) (hp : ∀ c, p c = true ↔ q c) :
        s.anyTripped p = true ↔ some' q :=
      (anyTripped_iff s p).trans (exists_congr fun i => and_congr_right' (and_congr_right' (hp _)))
    have partIs : s.operating = true ↔ s.part = .operating := beq_iff_eq
    have told := updateHolds_eq s
    have isTrue {a b : Bool} (hab : a = b) : a = true ↔ b = true := by rw [hab]
    refine ⟨(isTrue (congrArg Holds.converter now)).trans ?_,
      (isTrue (congrArg Holds.yaw now)).trans ?_, (isTrue (congrArg Holds.cooling now)).trans ?_,
      (Steady.updateHolds s).limits, ?_, fun hne => ?_, fun hne => ?_, fun hne => ?_⟩
    · exact entry (fun c => c.action == .converterBlock && c.latching)
        (fun c => c.action = .converterBlock ∧ c.latching = true) fun c => by simp
    · exact (Bool.and_eq_true ..).to_iff.trans (and_congr partIs (entry _ _ fun c => beq_iff_eq))
    · exact (Bool.and_eq_true ..).to_iff.trans (and_congr partIs (entry _ _ fun c => beq_iff_eq))
    · simp only [now]
      exact told
    all_goals rw [now] at hne ⊢
    · rw [updateHolds_cnv, State.cnvTold, if_neg hne]
      rfl
    · rw [updateHolds_yaw, State.yawTold, if_neg hne]
      exact tellLimit_limit ..
    · rw [told, if_neg hne]
      exact (tellFullHold_staged ..).fullHold

end Sys2Proof.Machine
end

section
/-! PROOFS. Acknowledgements: the latches an ACK clears, and its answer (R30, R159). -/

namespace Sys2Proof.Machine

/-! ### One latch -/

/-- The entry is releasable at the value and quality of its signal as they stand (R30). -/
def State.Releasable (s : State) (i : LimIx) : Prop :=
  let c := s.settings.limits[i]
  let r := s.signals[c.signal]
  (r.quality.usable = true ∧ c.releases r.value = true) ∨ (r.quality = .lost ∧ c.onLoss = .release)

/-- What the entries of a list become as their latches clear one after the other. -/
structure Unlatched (s t : State) (l : List LimIx) : Prop where
  settings : t.settings = s.settings
  sampled : ∀ i : SigIx, s.settings.signals[i].feed = .sampled → t.signals[i] = s.signals[i]
  other : ∀ i : LimIx, i ∉ l → t.limits[i] = s.limits[i]
  latch : ∀ i : LimIx, i ∈ l → t.limits[i].latch = false
  counter : ∀ i : LimIx, i ∈ l → t.limits[i].counter = s.limits[i].counter
  released : ∀ i : LimIx, i ∈ l → s.settings.signals[s.settings.limits[i].signal].feed = .sampled →
    s.limits[i].tripped = true → (t.limits[i].tripped = false ↔ s.Releasable i)

theorem releaseLimit_limits (s : State) (i : LimIx) :
    (s.releaseLimit i).limits = (s.modLimit i fun r => { r with tripped := false, latch := false }).limits :=
  (Steady.updateHolds _).limits

theorem unlatch_released {s : State} {i : LimIx} (h : s.Releasable i) :
    s.unlatch i = (s.modLimit i fun r => { r with latch := false }).releaseLimit i :=
  if_pos h

theorem unlatch_kept {s : State} {i : LimIx} (h : ¬ s.Releasable i) :
    s.unlatch i = s.modLimit i fun r => { r with latch := false } :=
  if_neg h

theorem modLimit_other (s : State) {i j : LimIx} (h : j ≠ i) (f : LimitRt → LimitRt) :
    (s.modLimit i f).limits[j] = s.limits[j] :=
  updAt_other _ f h.symm

theorem unlatched_one (s : State) (i : LimIx) : Unlatched s (s.unlatch i) [i] := by
  by_cases h : s.Releasable i
  · have steady := Steady.updateHolds ((s.modLimit i fun r => { r with latch := false }).modLimit i
      fun r => { r with tripped := false, latch := false })
    have entry : (s.unlatch i).limits[i] = { s.limits[i] with tripped := false, latch := false } := by
      rw [unlatch_released h, releaseLimit_limits, modLimit_same, modLimit_same]
    refine ⟨?_, ?_, ?_, ?_, ?_, ?_⟩
    · rw [unlatch_released h]
      exact steady.settings
    · intro j hj
      rw [unlatch_released h]
      exact steady.sampled j hj
    · intro j hj
      have hne : j ≠ i := fun e => hj (List.mem_singleton.mpr e)
      rw [unlatch_released h, releaseLimit_limits, modLimit_other _ hne, modLimit_other _ hne]
    all_goals
      intro j hj
      obtain rfl := List.mem_singleton.mp hj
      simp only [entry, h, implies_true]
  · have entry : (s.unlatch i).limits[i] = { s.limits[i] with latch := false } := by
      rw [unlatch_kept h, modLimit_same]
    refine ⟨?_, ?_, ?_, ?_, ?_, ?_⟩
    · rw [unlatch_kept h]
      rfl
    · intro j hj
      rw [unlatch_kept h]
      rfl
    · intro j hj
      rw [unlatch_kept h, modLimit_other _ fun e => hj (List.mem_singleton.mpr e)]
    all_goals
      intro j hj
      obtain rfl := List.mem_singleton.mp hj
      simp +contextual only [entry, h, Bool.true_eq_false, implies_true]

namespace Unlatched

/-- What releases an entry of a SAMPLED signal is untouched by the latches cleared before it. -/
theorem releasable {s t : State} {l : List LimIx} (a : Unlatched s t l) {i : LimIx}
    (h : s.settings.signals[s.settings.limits[i].signal].feed = .sampled) : t.Releasable i ↔ s.Releasable i := by
  have signal : t.signals[t.settings.limits[i].signal] = s.signals[s.settings.limits[i].signal] := by
    simp only [a.settings]
    exact a.sampled _ h
  unfold State.Releasable
  simp only [signal]
  simp only [a.settings]

theorem cons {s t u : State} {i : LimIx} {l : List LimIx} (a : Unlatched s t [i]) (b : Unlatched t u l) (h : i ∉ l) :
    Unlatched s u (i :: l) := by
  have settings := b.settings.trans a.settings
  have before (j : LimIx) (hj : j ∈ l) : t.limits[j] = s.limits[j] :=
    a.other j fun e => h (List.mem_singleton.mp e ▸ hj)
  have last : u.limits[i] = t.limits[i] := b.other i h
  refine ⟨settings, fun j hj => ?_, fun j hj => ?_, fun j hj => ?_, fun j hj => ?_, fun j hj hf ht => ?_⟩
  · exact (b.sampled j (by rw [a.settings]; exact hj)).trans (a.sampled j hj)
  · obtain ⟨hne, hl⟩ := not_or.mp (List.mem_cons.not.mp hj)
    exact (b.other j hl).trans (a.other j (List.mem_singleton.not.mpr hne))
  · obtain rfl | hl := List.mem_cons.mp hj
    · rw [last]
      exact a.latch j (List.mem_singleton_self j)
    · exact b.latch j hl
  · obtain rfl | hl := List.mem_cons.mp hj
    · rw [last]
      exact a.counter j (List.mem_singleton_self j)
    · rw [b.counter j hl, before j hl]
  · obtain rfl | hl := List.mem_cons.mp hj
    · rw [last]
      exact a.released j (List.mem_singleton_self j) hf ht
    · exact (b.released j hl (by simp only [a.settings]; exact hf) (by rw [before j hl]; exact ht)).trans
        (a.releasable hf)

theorem all (l : List LimIx) (hl : l.Nodup) (s : State) : Unlatched s (l.foldl State.unlatch s) l := by
  induction l generalizing s with
  | nil => exact ⟨rfl, fun _ _ => rfl, fun _ _ => rfl, nofun, nofun, nofun⟩
  | cons i l ih =>
    obtain ⟨hi, hn⟩ := List.nodup_cons.mp hl
    exact (unlatched_one s i).cons (ih hn (s.unlatch i)) hi

end Unlatched

/-! ### The entries an acknowledgement takes -/

theorem mem_latchedBy (s : State) (c : Code) (i : LimIx) :
    i ∈ s.latchedBy c ↔ s.settings.limits[i].valid = true ∧ s.settings.limits[i].latching = true ∧
      s.settings.limits[i].code = (c : Nat) ∧ s.limits[i].tripped = true ∧ s.limits[i].latch = true := by
  simp only [State.latchedBy, indices_eq, List.mem_filter, List.mem_finRange, true_and, Bool.and_eq_true, beq_iff_eq,
    and_assoc]

theorem nodup_latchedBy (s : State) (c : Code) : (s.latchedBy c).Nodup := by
  rw [State.latchedBy, indices_eq]
  exact (List.nodup_finRange 48).filter _

/-! ### ACK -/

theorem exec_ack (src : Node) (qual : Word) (s : State) :
    exec (.ack src qual) s = .next (s.served src 6 0 (plain (State.ackRequest · qual))) := rfl

theorem ackRequest_range (s : State) {w : Word} (h : 128 ≤ w.toNat) : s.ackRequest w = (s, .range) := by
  rw [State.ackRequest, ixOf_eq_none h]

theorem ackRequest_code (s : State) (c : Code) :
    s.ackRequest (wordNat c) =
      if s.evu.events[c].inService then
        let p := (s.modEvent c EventRt.acknowledged).ackLimits c
        (p.1.dispatchTest, if p.2 then .stillActive else .ok)
      else (s, .notInService) := by
  rw [State.ackRequest, ixOf_word (by decide)]

/-- Settles O32: the answers of `ackRequest`, and of the latches it clears what `Unlatched` says of the entries of the
code. -/
theorem acknowledge : Obligations.Acknowledge := by
  intro s src ready
  refine ⟨fun w hw => ?_, fun c => ⟨fun hn => ?_, fun hs => ?_⟩⟩
  · rw [exec_ack, served_plain_eq (f := (State.ackRequest · w)) ready src 6 0 (ackRequest_range s hw) ready.noWork]
  · have handled : s.ackRequest (wordNat c) = (s, .notInService) :=
      (ackRequest_code s c).trans (if_neg (Bool.eq_false_iff.mp hn))
    rw [exec_ack, served_plain_eq (f := (State.ackRequest · (wordNat c))) ready src 6 0 handled ready.noWork]
  · intro v u hit
    have handled : s.ackRequest (wordNat c) = (u.dispatchTest, if (v.ackLimits c).2 then .stillActive else .ok) :=
      (ackRequest_code s c).trans (if_pos hs)
    have cleared : Unlatched v u (v.latchedBy c) := .all _ (nodup_latchedBy v c) v
    have mem (i : LimIx) : i ∈ v.latchedBy c ↔ hit i := mem_latchedBy v c i
    have active : (v.ackLimits c).2 = true ↔ ∃ i, hit i ∧ u.limits[i].tripped = true :=
      List.any_eq_true.trans (exists_congr fun i => and_congr_left' (mem i))
    refine ⟨if (v.ackLimits c).2 then .stillActive else .ok, ?_, ?_, ?_, fun i hi => cleared.other i ((mem i).not.mpr hi),
      fun i hi => ⟨cleared.latch i ((mem i).mpr hi), cleared.counter i ((mem i).mpr hi), fun hf => ?_⟩⟩
    · split
      · exact .inl rfl
      · exact .inr rfl
    · rw [← active]
      split <;> simp_all
    · rw [exec_ack, served_plain_settle ready, handled]
    · have taken := (mem i).mpr hi
      obtain ⟨-, -, -, tripped, -⟩ := hi
      exact (cleared.released i taken hf tripped).trans (or_congr_left (and_congr_left' (usable_iff _)))

end Sys2Proof.Machine
end

section
/-! PROOFS. The soft reset (R188), with the start action of CLC (R148). -/

namespace Sys2Proof.Machine

/-! ### The start action of CLC -/

/-- CLC has claimed for its duty pump (R148). -/
def State.pumpStarted (s : State) : State :=
  match s.dutyPump with
  | none => s
  | some (t, _) =>
    if (s.tag t).grant = 0 then
      let p := s.claimTag t s.settings.clc.pumpAmount .clc
      match p.2 with
      | .granted => p.1
      | .queued => p.1.modClc fun c => { c with pumpClaim := true }
      | .refused => p.1
    else s

theorem pumpStarted_staged (s : State) : Staged s s.pumpStarted := by
  unfold State.pumpStarted
  split
  · exact .refl s
  · next t _ _ =>
    have claimed := (Granted.claimTag s t s.settings.clc.pumpAmount .clc).toStaged
    refine .ite _ (fun _ => ?_) fun _ => .refl s
    dsimp only
    split
    · exact claimed
    · exact claimed.trans ⟨rfl, fun _ _ => rfl, rfl⟩
    · exact claimed

theorem stageCommand_heater (s : State) : s.stageCommand.clc.heater = s.clc.heater := by
  unfold State.stageCommand
  split_ifs <;> rfl

/-- The commands of the start action, behind its claim. -/
theorem clcStart_eq (s : State) :
    s.clcStart =
      (if s.settings.clc.heaterTag = none then s.pumpStarted.stageCommand
        else s.pumpStarted.stageCommand.heaterCommand (decide (s.pumpStarted.stageCommand.clc.heater = .on))).stageTest.heaterTest := by
  have settings : s.pumpStarted.stageCommand.settings = s.settings :=
    ((pumpStarted_staged s).trans (.stageCommand _)).settings
  show State.heaterTest (State.stageTest
    (if s.pumpStarted.stageCommand.settings.clc.heaterTag.isSome then _ else _)) = _
  rw [settings]
  cases s.settings.clc.heaterTag <;> rfl

/-- The claim of the start action in A_DUTY, with the tag not granted. -/
theorem pumpStarted_duty {s : State} (h : s.clc.duty = .a) (hg : (s.tag s.settings.clc.pumpATag).grant = 0) :
    let q := s.claimTag s.settings.clc.pumpATag s.settings.clc.pumpAmount .clc
    s.pumpStarted = if q.2 = .queued then q.1.modClc fun c => { c with pumpClaim := true } else q.1 := by
  intro q
  have duty : s.dutyPump = some (s.settings.clc.pumpATag, s.settings.clc.pumpAOutput) := by
    rw [State.dutyPump, h]
  rw [State.pumpStarted, duty]
  dsimp only
  rw [if_pos hg]
  cases hq : q.2 <;> simp only [q] at hq <;> simp [q]

/-- The start action over the reset state of ALA and CLC. -/
theorem clcStart_reset {s : State} (hc : s.clc = resetClc s.settings) (ha : s.ala = resetAla) :
    let p := s.settings.clc
    let q := s.claimTag p.pumpATag p.pumpAmount .clc
    let pumped := if q.2 = .queued then q.1.modClc fun c => { c with pumpClaim := true } else q.1
    let sent := if p.heaterTag = none then pumped.stageCommand else pumped.stageCommand.heaterCommand false
    s.clcStart = sent.stageTest.heaterTest := by
  intro p q pumped sent
  have started : s.pumpStarted = pumped := by
    refine pumpStarted_duty (by rw [hc]; rfl) ?_
    show s.ala.tags[p.pumpATag].grant = 0
    rw [ha, resetAla_tag]
    rfl
  have claimed : q.1.clc = s.clc :=
    ((Granted.claimTag s p.pumpATag p.pumpAmount .clc).quiet (by rw [hc]; rfl) (by rw [hc]; rfl)
      (by rw [hc]; exact nofun)).1
  have off : pumped.stageCommand.clc.heater = .off := by
    have heater : pumped.clc.heater = q.1.clc.heater := by
      unfold pumped
      split <;> rfl
    rw [stageCommand_heater, heater, claimed, hc]
    rfl
  rw [clcStart_eq, started, off]
  rfl

/-! ### RESET -/

theorem exec_reset (src : Node) (s : State) : exec (.reset src) s = .next (s.resetAt src 0) := rfl

theorem resetAt_refused {s : State} (h : Ready s) (src : Node) (addr : Word)
    (hr : ¬(s.convAtRest = true ∧ s.yawAtRest = true)) :
    s.resetAt src addr = s.answered (answerOf src 13 addr .state) := by
  have refused : (s.awake && s.convAtRest && s.yawAtRest) = false := by
    rw [Bool.and_assoc, h.awake, Bool.true_and, Bool.eq_false_iff, Ne, Bool.and_eq_true]
    exact hr
  rw [State.resetAt, if_pos h.2.1, refused]
  rfl

theorem resetAt_taken {s : State} (h : Ready s) (src : Node) (addr : Word) (hc : s.convAtRest = true)
    (hy : s.yawAtRest = true) :
    s.resetAt src addr = (s.answered (answerOf src 13 addr .ok)).softReset.settle := by
  rw [State.resetAt, if_pos h.2.1, h.awake, hc, hy]
  rfl

/-- Settles O17: the reset state is `softState`, CLC starts over it by `clcStart_reset`, and the hand-overs leave what
`Reach` keeps. -/
theorem softReset : Obligations.SoftReset := by
  intro s src ready
  refine ⟨fun hr => ?_, fun hc hy => ?_⟩
  · rw [exec_reset, resetAt_refused ready src 0 hr]
  intro p v q pumped sent w x y
  have saved : (!s.saving) = s.capture.isNone := Option.not_isSome s.capture
  have operates : s.operating = true ↔ s.part = .operating := beq_iff_eq
  have yawSoft : s.yaw.soft s.operating = v.yaw := by
    show ({ resetYaw with stopCause := s.yaw.stopCause, faultCause := s.yaw.faultCause, inhibit := _ } : YawRt) = _
    exact congrArg (fun i => { resetYaw with stopCause := s.yaw.stopCause, faultCause := s.yaw.faultCause, inhibit := i })
      (if_congr operates rfl rfl)
  have softened : (s.answered (answerOf src 13 0 .ok)).softState = v := by
    show { v with imageValid := s.imageValid && !s.saving, yaw := s.yaw.soft s.operating } = v
    rw [saved, yawSoft]
  have started_eq : (if v.operating then v.clcStart else v) = w :=
    if_congr operates (clcStart_reset rfl rfl) rfl
  have started : Reach v w := by
    rw [← started_eq]
    exact .ite _ (fun _ => reach_clcStart v) fun _ => .refl v
  have raised : Reach w y := .trans (.raise 0 _) (.ite _ (fun _ => .refl _) fun _ => .raise 26 _)
  have reached : Reach v y.settle := started.trans (raised.trans (reach_settle y))
  have conf (hp : s.part = .configuration) : Evt v y := by
    have waits : w = v := if_neg (by rw [hp]; exact nofun)
    have first : Evt v x := by
      unfold x
      rw [waits]
      exact evt_raise ..
    unfold y
    split
    · exact first
    · exact first.trans (evt_raise ..)
  have quiet (hp : s.part = .configuration) : y.settle = y :=
    settle_nil ((congrArg State.work (conf hp).eq :) : y.work = [])
  have part : w.part = s.part := started.part
  have code : (w.part.code : Int) = if s.part = .operating then 2 else 1 := by
    rw [part]
    obtain ⟨awake, -, -⟩ := ready
    cases h : s.part with
    | boot => exact absurd h awake
    | configuration => rfl
    | operating => rfl
  have reset : w.lastReset = .soft := (congrArg State.lastReset started.eq :)
  have settled : (s.answered (answerOf src 13 0 .ok)).softReset = y := by
    unfold State.softReset
    rw [softened]
    dsimp only
    rw [started_eq, reset, code]
    exact (if_congr (saving_iff s) rfl rfl).trans (ite_not ..)
  refine ⟨y.settle, ?_, rfl, quiet, reached.part, reached.settings, reached.image, reached.capture,
    (congrArg State.imageValid reached.eq :), (congrArg State.lastReset reached.eq :),
    (congrArg State.ownAddress reached.eq :), reached.bypass, reached.portIn, reached.portOut,
    (congrArg (fun u : State => u.rif.ringTime) reached.eq :), (congrArg (fun u : State => u.rif.cycle) reached.eq :),
    reached.pending, reached.class3, fun hp => ?_⟩
  · rw [exec_reset, resetAt_taken ready src 0 hc hy, settled]
  · rw [quiet hp]
    have eq := (conf hp).eq
    exact ⟨(congrArg State.seq eq :), (congrArg State.ala eq :), (congrArg State.cnv eq :), (congrArg State.yaw eq :),
      (congrArg State.clc eq :), (congrArg State.limits eq :), (congrArg State.holds eq :),
      (congrArg State.signals eq :), (congrArg State.alw eq :), (congrArg State.phases eq :),
      (congrArg State.sequences eq :), (congrArg (fun u : State => u.rif.class0) eq :),
      (congrArg (fun u : State => u.rif.class1) eq :)⟩

end Sys2Proof.Machine
end

section
/-! PROOFS. DECOMMISSION (R185, R148). -/

namespace Sys2Proof.Machine

/-! ### The holds outside OPERATING -/

/-- Outside OPERATING the LIMIT inhibit and the full-cooling hold go off, and no target acts on it (R32). -/
theorem updateHolds_notOperating {s : State} (h : s.part ≠ .operating) :
    ∃ hold limit full target,
      s.updateHolds = { s with
        holds := { converter := s.converterHoldDue, yaw := false, cooling := false }
        cnv := { s.cnv with hold := hold }
        yaw := { s.yaw with inhibit := { s.yaw.inhibit with limit := limit } }
        clc := { s.clc with fullHold := full, target := target } } ∧
      (s.yaw.inhibit.limit = s.holds.yaw → limit = false) ∧ (s.clc.fullHold = s.holds.cooling → full = false) := by
  have rest : s.operating = false := beq_eq_false_iff_ne.mpr h
  have now : s.heldNow = { converter := s.converterHoldDue, yaw := false, cooling := false } := by
    rw [State.heldNow, State.limitInhibitDue, State.fullCoolingDue, rest]
    rfl
  have cnvTold : ∃ hold, s.cnvTold = { s with holds := s.heldNow, cnv := { s.cnv with hold := hold } } := by
    unfold State.cnvTold
    split
    · exact ⟨s.cnv.hold, rfl⟩
    · exact ⟨_, rfl⟩
  obtain ⟨hold, cnvTold⟩ := cnvTold
  have yawTold : ∃ limit, s.yawTold = { s with
      holds := s.heldNow, cnv := { s.cnv with hold := hold }
      yaw := { s.yaw with inhibit := { s.yaw.inhibit with limit := limit } } } ∧
      (s.yaw.inhibit.limit = s.holds.yaw → limit = false) := by
    unfold State.yawTold
    rw [cnvTold, now]
    split
    · next same => exact ⟨s.yaw.inhibit.limit, rfl, fun e => e.trans same.symm⟩
    · exact ⟨false, rfl, fun _ => rfl⟩
  obtain ⟨limit, yawTold, cleared⟩ := yawTold
  rw [updateHolds_eq, yawTold, now]
  split
  · next same => exact ⟨hold, limit, s.clc.fullHold, s.clc.target, rfl, cleared, fun e => e.trans same.symm⟩
  · exact ⟨hold, limit, false, _, if_neg (Bool.eq_false_iff.mp rest), cleared, fun _ => rfl⟩

/-! ### The claims of CLC -/

theorem withdrawAll_of_none {s : State} {who : Claimant} (h : ∀ q ∈ s.ala.queue, q.who ≠ who) :
    s.withdrawAll who = s := by
  refine if_neg fun any => ?_
  obtain ⟨q, mem, eq⟩ := List.any_eq_true.mp any
  exact h q mem (beq_iff_eq.mp eq)

/-- The Claim Queue without the claims of a requester. -/
def State.withoutClaims (s : State) (who : Claimant) : State :=
  s.modAla fun a => { a with queue := a.queue.filter fun q => !(q.who == who) }

theorem withdrawAll_cases (s : State) (who : Claimant) :
    (∀ q ∈ s.ala.queue, q.who ≠ who) ∧ s.withdrawAll who = s ∨ s.withdrawAll who = (s.withoutClaims who).headTest := by
  by_cases h : ∀ q ∈ s.ala.queue, q.who ≠ who
  · exact .inl ⟨h, withdrawAll_of_none h⟩
  · push Not at h
    obtain ⟨q, mem, eq⟩ := h
    exact .inr (if_pos (List.any_eq_true.mpr ⟨q, mem, by simpa using eq⟩))

theorem mem_withoutClaims {s : State} {who : Claimant} {q : Claim} :
    q ∈ (s.withoutClaims who).ala.queue ↔ q ∈ s.ala.queue ∧ q.who ≠ who := by
  show q ∈ s.ala.queue.filter _ ↔ _
  rw [List.mem_filter, Bool.not_eq_true', beq_eq_false_iff_ne]

theorem withdrawAll_queue (s : State) (who : Claimant) :
    ∀ q ∈ (s.withdrawAll who).ala.queue, q ∈ s.ala.queue ∧ q.who ≠ who := by
  intro q hq
  obtain ⟨none, same⟩ | tested := withdrawAll_cases s who
  · rw [same] at hq
    exact ⟨hq, none q hq⟩
  · rw [tested] at hq
    exact mem_withoutClaims.mp (headTestUpTo_queue _ _ _ q hq)

theorem withdrawAll_grants {s : State} (h : ClaimLaw s) (who : Claimant) (t : TagIx) (ht : (s.tag t).grant ≠ 0) :
    ((s.withdrawAll who).tag t).grant ≠ 0 := by
  obtain ⟨-, same⟩ | tested := withdrawAll_cases s who
  · rw [same]
    exact ht
  · rw [tested]
    exact headTestUpTo_grants _ _ _ (fun q hq => (h.2 q (mem_withoutClaims.mp hq).1).1) t ht

/-! ### DECOMMISSION -/

theorem exec_decommission (src : Node) (s : State) :
    exec (.decommission src) s = .next (s.served src 12 0 (plain State.decommissionRequest)) := rfl

/-- The part in CONFIGURATION, before the holds and CLC follow (R185). -/
def State.configured (s : State) : State :=
  (({ s with part := .configuration } : State).putInhibit .config true).modCnv fun c =>
    { c with autostartPending := false }

/-- Settles O19: the holds of `configured` by `updateHolds_notOperating`, then what `withdrawAll` leaves when no claim
of CLC waits. -/
theorem decommission : Obligations.Decommission := by
  intro s src ready
  refine ⟨fun hr => ?_, fun hp hc hy => ?_⟩
  · have refused : s.decommissionRequest = (s, .state) :=
      if_neg fun ⟨ho, hc, hy⟩ => hr ⟨beq_iff_eq.mp ho, hc, hy⟩
    rw [exec_decommission, served_plain_eq ready src 12 0 refused ready.noWork]
  intro u
  have taken : s.decommissionRequest = (s.configured.updateHolds.clcStop, .ok) :=
    if_pos ⟨beq_iff_eq.mpr hp, hc, hy⟩
  have last : u = s.configured.updateHolds.clcStop := congrArg Prod.fst taken
  obtain ⟨hold, limit, full, target, held, off, cold⟩ := updateHolds_notOperating (s := s.configured) nofun
  set w := s.configured.updateHolds.modClc ClcRt.stopped with hw
  have stopped : u = w.withdrawAll .clc := last
  rw [held] at hw
  have granted : Granted w u := by
    rw [stopped]
    exact .withdrawAll w .clc
  have idle : w.clc.heater ≠ .claiming := by
    rw [hw]
    show (if s.clc.heater = .claiming then Heater.off else s.clc.heater) ≠ .claiming
    split
    · exact nofun
    · assumption
  obtain ⟨clc, class1⟩ := granted.quiet (by rw [hw]; rfl) (by rw [hw]; rfl) idle
  have told : Told w u := by
    rw [stopped]
    exact told_withdrawAll w .clc
  have chans (c : ChanIx) : w.chan c = s.chan c := by
    rw [hw]
    rfl
  have queue : w.ala.queue = s.ala.queue := by
    rw [hw]
    rfl
  have settles := reach_settle (u.answered (answerOf src 12 0 .ok))
  have class3 : u.rif.class3 = s.rif.class3 := by
    have kept : u.rif.class3 = w.rif.class3 := (congrArg (fun x : State => x.rif.class3) granted.eq :)
    rw [kept, hw]
    rfl
  refine ⟨_, ?_, rfl, settles.part.trans (granted.part.trans (by rw [hw]; rfl)),
    settles.settings.trans (granted.settings.trans (by rw [hw]; rfl)), settles.class3.trans ?_, ?_, ?_, ?_, ?_, ?_, ?_,
    ?_, ?_, ?_, ?_, ?_, ?_, ?_, class1.trans (by rw [hw]; rfl), fun q hq => ?_, fun q hq => ?_, fun hl t ht => ?_,
    fun he => ?_, fun he => ?_, fun hn => ?_, fun c hi hc => ?_⟩
  · rw [exec_decommission, served_plain_settle ready, taken, last]
  · exact congrArg (· ++ _) class3
  · rw [granted.holds, hw]
    rfl
  · rw [granted.holds, hw]
    rfl
  · rw [granted.yaw, hw]
    rfl
  · rw [granted.cnv, hw]
    rfl
  iterate 9
    rw [clc, hw]
    rfl
  · rw [stopped] at hq
    exact (withdrawAll_queue _ _ q hq).2
  · rw [stopped] at hq
    exact queue ▸ (withdrawAll_queue _ _ q hq).1
  · rw [stopped]
    exact withdrawAll_grants (by rw [hw]; exact hl) _ t (by rw [hw]; exact ht)
  · rw [granted.yaw, hw]
    exact off he
  · rw [clc, hw]
    exact cold he
  · have same : u = w := stopped.trans (withdrawAll_of_none (by rw [queue]; exact hn))
    rw [same, hw]
    exact ⟨rfl, rfl⟩
  · obtain same | ⟨moved, -⟩ := told.chan c
    · exact same.trans (chans c)
    · rw [chans] at moved
      exact absurd moved (not_or.mpr ⟨hi, hc⟩)

end Sys2Proof.Machine
end

section
/-! SUPPORT. What a grant rouses: the channel whose claim it answers, and through the end of its run an IDLE one. -/

namespace Sys2Proof.Machine

/-! ### A channel that only requests reach -/

/-- The record is left as it is, or was IDLE and has been requested. -/
def ChanRt.Called (r r' : ChanRt) : Prop := r' = r ∨ r.state = .idle ∧ r' = r.request

namespace ChanRt.Called

variable {r r' r'' : ChanRt}

theorem trans (a : Called r r') (b : Called r' r'') : Called r r'' := by
  obtain rfl | ⟨hi, rfl⟩ := a
  · exact b
  · obtain rfl | ⟨busy, -⟩ := b
    · exact .inr ⟨hi, rfl⟩
    · exact ChanState.noConfusion busy

theorem unmasked (a : Called r r') (h : r.state ≠ .masked) : r'.state ≠ .masked := by
  obtain rfl | ⟨-, rfl⟩ := a
  · exact h
  · exact nofun

theorem unclaimed (a : Called r r') (h : r.state ≠ .waiting .claim) : r'.state ≠ .waiting .claim := by
  obtain rfl | ⟨-, rfl⟩ := a
  · exact h
  · exact nofun

end ChanRt.Called

theorem request_called (s : State) (c d : ChanIx) (who : Requester) :
    (s.chan c).Called ((s.request d who).chan c) := by
  unfold State.request
  split
  · next idle =>
    by_cases e : d = c
    · subst e
      rw [chan_modChan]
      exact .inr ⟨idle, rfl⟩
    · exact .inl (modChan_other _ e)
  · exact .inl (chan_of_seq (evt_raise ..).seq c)
  all_goals exact .inl rfl

theorem finishRun_called {s : State} {c d : ChanIx} (hd : d ≠ c) :
    (s.chan c).Called ((s.finishRun d).chan c) := by
  let ended := (s.modChan d fun r => r.endRun (s.desc d)).releaseEngine d
  let stepped := ended.requestStepLink d (s.stepAt d)
  have same : (s.chan c).Called (ended.chan c) := .inl (modChan_other _ hd)
  have step : (ended.chan c).Called (stepped.chan c) := by
    unfold stepped
    cases s.stepAt d with
    | link e => exact request_called ..
    | _ => exact .inl rfl
  have link : (stepped.chan c).Called ((stepped.requestLink d).chan c) := by
    unfold State.requestLink
    split
    · exact .inl rfl
    · exact request_called ..
  exact (same.trans step).trans (link.trans (.inl (notifyOwner_chan ..)))

theorem completeWait_called {s : State} {c d : ChanIx} (hd : d ≠ c) :
    (s.chan c).Called ((s.completeWait d).chan c) := by
  have completed : (s.chan c).Called ((s.modChan d ChanRt.completeStep).chan c) := .inl (modChan_other _ hd)
  unfold State.completeWait
  dsimp only
  split
  · exact completed.trans (finishRun_called hd)
  · exact completed.trans (.inl (modChan_other _ hd))

/-! ### What is roused -/

/-- A channel that does not wait for a claim is reached by a request at most, and while no channel waits for a claim SEQ
stays. -/
structure Roused (s t : State) : Prop where
  called : ∀ c : ChanIx, (s.chan c).state ≠ .waiting .claim → (s.chan c).Called (t.chan c)
  still : (∀ c : ChanIx, (s.chan c).state ≠ .waiting .claim) → t.seq = s.seq

namespace Roused

variable {s t u : State}

theorem of_seq (h : t.seq = s.seq) : Roused s t :=
  ⟨fun c _ => .inl (chan_of_seq h c), fun _ => h⟩

theorem refl (s : State) : Roused s s := of_seq rfl

theorem trans (a : Roused s t) (b : Roused t u) : Roused s u where
  called c hc := (a.called c hc).trans (b.called c ((a.called c hc).unclaimed hc))
  still hn := by
    have same := a.still hn
    exact (b.still fun c => by rw [chan_of_seq same]; exact hn c).trans same

theorem ite (p : Prop) [Decidable p] {a b : State} (ha : p → Roused s a) (hb : ¬p → Roused s b) :
    Roused s (if p then a else b) := by
  split
  · exact ha ‹_›
  · exact hb ‹_›

theorem chanGranted (s : State) (d : ChanIx) : Roused s (s.chanGranted d) := by
  refine ite _ (fun hw => ⟨fun c hc => completeWait_called fun e => hc (e ▸ hw), fun hn => absurd hw (hn d)⟩)
    fun _ => refl s

theorem takeGrant (s : State) (who : Claimant) (t : TagIx) : Roused s (s.takeGrant who t) := by
  cases who with
  | chan c => exact chanGranted s c
  | clc => exact of_seq (clcGranted_seq s t)

theorem grantHead (s : State) (q : Claim) (own : Option TagIx) : Roused s (s.grantHead q own) := by
  have given : Roused s (s.modAla fun a =>
      { a.giveGrant q.tag q.amount s.rif.ringTime with queue := a.queue.tail }) := of_seq rfl
  exact ite _ (fun _ => given) fun _ => given.trans (takeGrant ..)

theorem headTestUpTo (own : Option TagIx) (n : Nat) (s : State) : Roused s (headTestUpTo own n s) := by
  induction n generalizing s with
  | zero => exact refl s
  | succ n ih =>
    unfold Machine.headTestUpTo
    split
    · exact refl s
    · exact ite _ (fun _ => (grantHead ..).trans (ih _)) fun _ => refl s

theorem headTest (s : State) (own : Option TagIx := none) : Roused s (s.headTest own) := headTestUpTo ..

theorem freeTag (s : State) (t : TagIx) : Roused s (s.freeTag t) := by
  by_cases h : (s.tag t).grant = 0
  · rw [freeTag_of_noGrant h]
    exact refl s
  · rw [freeTag_of_granted h]
    exact trans (t := s.released t) (of_seq rfl) (headTest _)

theorem withdraw (s : State) (who : Claimant) (t : TagIx) : Roused s (s.withdraw who t) :=
  ite _ (fun _ => trans (t := s.modAla _) (of_seq rfl) (headTest _)) fun _ => refl s

theorem joinQueue (s : State) (t : TagIx) (n : Nat) (who : Claimant) (inc : Bool) :
    Roused s (s.joinQueue t n who inc).1 :=
  trans (t := s.enqueue _) (of_seq rfl) (headTest _ (some t))

theorem claimTag (s : State) (t : TagIx) (n : Nat) (who : Claimant) : Roused s (s.claimTag t n who).1 := by
  unfold State.claimTag
  dsimp only
  split_ifs
  · exact refl s
  · exact refl s
  · exact joinQueue ..
  · exact freeTag s t
  · exact trans (t := s.modTag t _) (of_seq rfl) (headTest _)
  · exact of_seq rfl
  · exact joinQueue ..

/-! ### The tests of CLC -/

theorem dropStageClaim (s : State) : Roused s s.dropStageClaim := by
  unfold State.dropStageClaim
  split
  · exact trans (t := s.modClc _) (of_seq rfl) (withdraw ..)
  · exact refl s

theorem reportHeld (s : State) (k : StageIx) : Roused s (s.reportHeld k) :=
  ite _ (fun _ => refl s) fun _ => of_seq (evt_raise ..).seq

theorem changeStage (s : State) (k : StageIx) : Roused s (s.changeStage k) := of_seq (changeStage_seq s k)

theorem stageUp (s : State) (k : StageIx) : Roused s (s.stageUp k) := by
  unfold State.stageUp
  split
  · exact changeStage s k
  · next t _ =>
    have claimed := claimTag s t (s.stage k).amount .clc
    dsimp only
    split
    · exact claimed.trans (changeStage ..)
    · exact claimed.trans (trans (t := State.modClc _ _) (of_seq rfl) (reportHeld ..))
    · exact claimed.trans (reportHeld ..)

theorem stageDown (s : State) (k : StageIx) : Roused s (s.stageDown k) := by
  have dropped := dropStageClaim s
  unfold State.stageDown
  dsimp only
  split
  · exact dropped.trans (changeStage ..)
  · next t _ =>
    have claimed := dropped.trans (claimTag s.dropStageClaim t (s.dropStageClaim.stage k).amount .clc)
    split
    · exact claimed.trans (changeStage ..)
    · exact claimed.trans ((withdraw ..).trans (changeStage ..))
    · exact claimed.trans (changeStage ..)

theorem stageTestAt (s : State) (v : Int) (q : Quality) : Roused s (s.stageTestAt v q) := by
  refine ite _ (fun _ => ?_) fun _ => refl s
  have dropped : Roused s (if s.clc.target ≤ s.clc.actual then s.dropStageClaim else s) :=
    ite _ (fun _ => dropStageClaim s) fun _ => refl s
  exact ite _ (fun _ => dropped.trans (stageDown ..)) fun _ =>
    ite _ (fun _ => dropped.trans (stageUp ..)) fun _ => dropped

theorem heaterCommand (s : State) (on : Bool) : Roused s (s.heaterCommand on) := of_seq (heaterCommand_seq s on)

theorem dropHeaterClaim (s : State) (t : TagIx) : Roused s (s.dropHeaterClaim t) :=
  trans (t := s.modClc _) (of_seq rfl) (withdraw ..)

theorem heaterTestAt (s : State) (v : Int) (q : Quality) : Roused s (s.heaterTestAt v q) := by
  unfold State.heaterTestAt
  split
  · next t _ _ =>
    split
    · refine ite _ (fun _ => ?_) fun _ => refl s
      have claimed := claimTag s t s.settings.clc.heaterAmount .clc
      dsimp only
      split
      · exact claimed.trans (trans (t := State.modClc _ _) (of_seq rfl) (heaterCommand ..))
      · exact claimed.trans (of_seq rfl)
      · exact claimed
    · exact ite _ (fun _ => dropHeaterClaim s t) fun _ => refl s
    · exact ite _ (fun _ => (heaterCommand s false).trans ((freeTag ..).trans (of_seq rfl))) fun _ => refl s
  · exact refl s

theorem pumpStarted (s : State) : Roused s s.pumpStarted := by
  unfold State.pumpStarted
  split
  · exact refl s
  · next t _ _ =>
    have claimed := claimTag s t s.settings.clc.pumpAmount .clc
    refine ite _ (fun _ => ?_) fun _ => refl s
    dsimp only
    split
    · exact claimed
    · exact claimed.trans (of_seq rfl)
    · exact claimed

theorem clcStart (s : State) : Roused s s.clcStart := by
  have sent : Roused s s.pumpStarted.stageCommand := (pumpStarted s).trans (of_seq (stageCommand_seq _))
  have tested (u : State) : Roused u u.stageTest.heaterTest := (stageTestAt ..).trans (heaterTestAt ..)
  rw [clcStart_eq]
  split
  · exact sent.trans (tested _)
  · exact (sent.trans (heaterCommand ..)).trans (tested _)

/-! ### The holds -/

theorem tellFullHold (s : State) (on : Bool) : Roused s (s.tellFullHold on) :=
  trans (t := (s.modClc _).modClc _) (of_seq rfl) (stageTestAt ..)

theorem cnvTold (s : State) : Roused s s.cnvTold := by
  unfold State.cnvTold
  dsimp only
  split <;> exact of_seq rfl

/-- A YAW that rests makes no request when it is told. -/
theorem tellLimit_held {s : State} (h : s.yaw.state = .held) (on : Bool) : Roused s (s.tellLimit on) := by
  cases on with
  | false => exact of_seq rfl
  | true =>
    show Roused s (s.addStopping .limit)
    rw [addStopping_eq, if_neg fun hd => YawState.noConfusion (h.symm.trans hd.1)]
    exact of_seq rfl

theorem updateHolds_held {s : State} (h : s.yaw.state = .held) : Roused s s.updateHolds := by
  rw [updateHolds_eq]
  have held : s.cnvTold.yaw.state = .held := by
    unfold State.cnvTold
    dsimp only
    split <;> exact h
  have told : Roused s s.yawTold := by
    unfold State.yawTold
    split
    · exact cnvTold s
    · exact (cnvTold s).trans (tellLimit_held held _)
  exact ite _ (fun _ => told) fun _ => told.trans (tellFullHold ..)

end Roused

theorem tellLimit_called (s : State) (c : ChanIx) (on : Bool) : (s.chan c).Called ((s.tellLimit on).chan c) := by
  cases on with
  | false => exact .inl rfl
  | true =>
    show (s.chan c).Called ((s.addStopping .limit).chan c)
    rw [addStopping_eq]
    split
    · refine .trans ?_ (request_called _ c ..)
      exact .inl rfl
    · exact .inl rfl

theorem updateHolds_called {s : State} {c : ChanIx} (h : (s.chan c).state ≠ .waiting .claim) :
    (s.chan c).Called (s.updateHolds.chan c) := by
  rw [updateHolds_eq]
  have cnv := (Roused.cnvTold s).called c h
  have told : (s.chan c).Called (s.yawTold.chan c) := by
    unfold State.yawTold
    split
    · exact cnv
    · exact cnv.trans (tellLimit_called ..)
  split
  · exact told
  · exact told.trans ((Roused.tellFullHold ..).called c (told.unclaimed h))

/-! ### CLC's start action leaves the other blocks -/

namespace Staged

theorem dropHeaterClaim (s : State) (t : TagIx) : Staged s (s.dropHeaterClaim t) :=
  trans (t := s.modClc _) ⟨rfl, fun _ _ => rfl, rfl⟩ (Granted.withdraw ..).toStaged

theorem heaterTestAt (s : State) (v : Int) (q : Quality) : Staged s (s.heaterTestAt v q) := by
  unfold State.heaterTestAt
  split
  · next t _ _ =>
    split
    · refine ite _ (fun _ => ?_) fun _ => refl s
      have claimed := (Granted.claimTag s t s.settings.clc.heaterAmount .clc).toStaged
      dsimp only
      split
      · exact claimed.trans (trans (t := State.modClc _ _) ⟨rfl, fun _ _ => rfl, rfl⟩ (heaterCommand ..))
      · exact claimed.trans ⟨rfl, fun _ _ => rfl, rfl⟩
      · exact claimed
    · exact ite _ (fun _ => dropHeaterClaim s t) fun _ => refl s
    · exact ite _ (fun _ => (heaterCommand s false).trans ((Granted.freeTag ..).toStaged.trans
        ⟨rfl, fun _ _ => rfl, rfl⟩)) fun _ => refl s
  · exact refl s

theorem clcStart (s : State) : Staged s s.clcStart := by
  have sent : Staged s s.pumpStarted.stageCommand := (pumpStarted_staged s).trans (stageCommand _)
  have tested (u : State) : Staged u u.stageTest.heaterTest := (stageTestAt ..).trans (heaterTestAt ..)
  rw [clcStart_eq]
  split
  · exact sent.trans (tested _)
  · exact (sent.trans (heaterCommand ..)).trans (tested _)

end Staged

end Sys2Proof.Machine
end

section
/-! PROOFS. COMMISSION: the checks and the entry actions (R184). -/

namespace Sys2Proof.Machine

/-! ### Checks -/

theorem sharedChan_eq_none (seen l : List Designated) :
    sharedChan seen l = none ↔
      l.Pairwise (fun e d => e.chan = d.chan → e.object = d.object) ∧
      ∀ d ∈ l, ∀ e ∈ seen, e.chan = d.chan → e.object = d.object := by
  induction l generalizing seen with
  | nil => simp [sharedChan]
  | cons d l ih =>
    have clash : (seen.any fun e => e.chan == d.chan && e.object != d.object) = true ↔
        ¬ ∀ e ∈ seen, e.chan = d.chan → e.object = d.object := by
      simp
    rw [sharedChan]
    by_cases h : ∀ e ∈ seen, e.chan = d.chan → e.object = d.object
    · rw [if_neg (fun hc => clash.mp hc h), ih, List.pairwise_cons]
      simp only [List.mem_append, List.mem_singleton, or_imp, forall_and, forall_eq, List.forall_mem_cons]
      exact ⟨fun ⟨pairs, before, self⟩ => ⟨⟨self, pairs⟩, h, before⟩,
        fun ⟨⟨self, pairs⟩, _, before⟩ => ⟨pairs, before, self⟩⟩
    · rw [if_pos (clash.mpr h)]
      exact ⟨nofun, fun ⟨_, all⟩ => absurd (all d List.mem_cons_self) h⟩

theorem commissionFailure_eq_none (s : State) :
    s.commissionFailure = none ↔
      (∀ x ∈ s.settings.designatedSignals, s.signals[x.2].quality ≠ .unused) ∧
      (∀ d ∈ s.settings.designatedChans, (s.desc d.chan).valid = true) ∧
      ∀ d ∈ s.settings.designatedChans, ∀ e ∈ s.settings.designatedChans, d.chan = e.chan → d.object = e.object := by
  have signals : (s.settings.designatedSignals.find? fun x => s.signals[x.2].quality == .unused) = none ↔
      ∀ x ∈ s.settings.designatedSignals, s.signals[x.2].quality ≠ .unused := by simp [List.find?_eq_none]
  have chans : (s.settings.designatedChans.find? fun d => !(s.desc d.chan).valid) = none ↔
      ∀ d ∈ s.settings.designatedChans, (s.desc d.chan).valid = true := by simp [List.find?_eq_none]
  have shared : sharedChan [] s.settings.designatedChans = none ↔ ∀ d ∈ s.settings.designatedChans,
      ∀ e ∈ s.settings.designatedChans, d.chan = e.chan → d.object = e.object := by
    rw [sharedChan_eq_none]
    refine ⟨fun h d hd e he => ?_, fun h => ⟨?_, nofun⟩⟩
    · have symm : Std.Symm fun e d : Designated => e.chan = d.chan → e.object = d.object :=
        ⟨fun _ _ h e => (h e.symm).symm⟩
      exact h.1.forall_of_forall (fun _ _ _ => rfl) hd he
    · exact List.pairwise_of_forall_mem_list fun d hd e he => h d hd e he
  rw [State.commissionFailure, ← signals, ← chans, ← shared]
  cases s.settings.designatedSignals.find? fun x => s.signals[x.2].quality == .unused with
  | some x => simp
  | none =>
    cases s.settings.designatedChans.find? fun d => !(s.desc d.chan).valid with
    | some d => simp
    | none => simp

/-! ### Unmasking (R45) -/

/-- A channel's record at the entry to OPERATING. -/
def State.unmasked (s : State) (c : ChanIx) : ChanRt :=
  if (s.chan c).state = .masked ∧ (s.desc c).valid = true then { s.chan c with
    state := .idle, current := (s.desc c).base, remaining := (s.desc c).count
    terminal := false, fault := false, aborted := false }
  else s.chan c

theorem unmaskChan_self (s : State) (c : ChanIx) : (s.unmaskChan c).chan c = s.unmasked c := by
  have masked : (s.isMasked c && (s.desc c).valid) = true ↔ (s.chan c).state = .masked ∧ (s.desc c).valid = true := by
    rw [Bool.and_eq_true, isMasked_iff]
  unfold State.unmaskChan State.unmasked
  by_cases h : (s.chan c).state = .masked ∧ (s.desc c).valid = true
  · rw [if_pos h, if_pos (masked.mpr h), chan_modChan]
    rfl
  · rw [if_neg h, if_neg (mt masked.mp h)]

theorem unmaskChan_other (s : State) {d c : ChanIx} (h : d ≠ c) : (s.unmaskChan d).chan c = s.chan c := by
  unfold State.unmaskChan
  split
  · exact modChan_other _ h
  · rfl

/-- The records of the channels alone change. -/
def OnlyChans (s t : State) : Prop := t = { s with seq := { s.seq with chans := t.seq.chans } }

theorem OnlyChans.trans {s t u : State} (a : OnlyChans s t) (b : OnlyChans t u) : OnlyChans s u := by
  unfold OnlyChans at a b
  rw [a] at b
  exact b

theorem onlyChans_unmaskChan (s : State) (c : ChanIx) : OnlyChans s (s.unmaskChan c) := by
  unfold State.unmaskChan
  split <;> rfl

theorem unmaskFold (l : List ChanIx) (hl : l.Nodup) (s : State) :
    OnlyChans s (l.foldl State.unmaskChan s) ∧
      ∀ c, (l.foldl State.unmaskChan s).chan c = if c ∈ l then s.unmasked c else s.chan c := by
  induction l generalizing s with
  | nil => exact ⟨rfl, fun c => (if_neg List.not_mem_nil).symm⟩
  | cons d l ih =>
    obtain ⟨hd, hl⟩ := List.nodup_cons.mp hl
    obtain ⟨eq, chans⟩ := ih hl (s.unmaskChan d)
    refine ⟨(onlyChans_unmaskChan s d).trans eq, fun c => ?_⟩
    · refine (chans c).trans ?_
      by_cases e : d = c
      · subst e
        rw [if_neg hd, if_pos List.mem_cons_self, unmaskChan_self]
      · have mem : c ∈ d :: l ↔ c ∈ l := by simp [Ne.symm e]
        have record := unmaskChan_other s e
        have desc : (s.unmaskChan d).desc c = s.desc c := by
          rw [onlyChans_unmaskChan s d]
          rfl
        simp only [mem, State.unmasked, record, desc]

theorem unmaskAll_eq (s : State) : OnlyChans s s.unmaskAll ∧ ∀ c, s.unmaskAll.chan c = s.unmasked c := by
  rw [State.unmaskAll, indices_eq]
  obtain ⟨eq, chans⟩ := unmaskFold (List.finRange 8) (List.nodup_finRange 8) s
  refine ⟨eq, fun c => ?_⟩
  rw [chans c, if_pos (List.mem_finRange c)]

theorem unmasked_open {s : State} {c : ChanIx} (hv : (s.desc c).valid = true) : (s.unmasked c).state ≠ .masked := by
  unfold State.unmasked
  split
  · exact nofun
  · next h => exact fun hm => h ⟨hm, hv⟩

theorem unmasked_calm {s : State} {c : ChanIx} (hw : (s.chan c).state ≠ .waiting .claim) :
    (s.unmasked c).state ≠ .waiting .claim := by
  unfold State.unmasked
  split
  · exact nofun
  · exact hw

/-! ### COMMISSION -/

theorem exec_commission (src : Node) (s : State) :
    exec (.commission src) s = .next (s.served src 11 0 State.commissionRequest) := rfl

/-- The part behind the entry actions of SEQ, LIM, CNV, ALW and YAW. -/
def State.entered (s : State) : State :=
  (({ s with part := .operating }.unmaskAll).updateHolds).cnvEnter.putInhibit .config false

theorem answered_part (s : State) (a : MgtAnswer) : (s.answered a).part = s.part := rfl

theorem answered_settings (s : State) (a : MgtAnswer) : (s.answered a).settings = s.settings := rfl

theorem answered_class3 (s : State) (a : MgtAnswer) : (s.answered a).rif.class3 = s.rif.class3 ++ [a] := rfl

theorem enterOperating_eq (s : State) : s.enterOperating = s.entered.clcStart := by
  rw [State.enterOperating, State.entered]

theorem enterOperating_staged (s : State) : Staged s.entered s.enterOperating := by
  rw [enterOperating_eq]
  exact .clcStart _

theorem updateHolds_settings (s : State) : s.updateHolds.settings = s.settings := (Steady.updateHolds s).settings

theorem unmaskAll_settings (s : State) : s.unmaskAll.settings = s.settings :=
  (congrArg State.settings (unmaskAll_eq s).1 :)

theorem entered_eq {s a : State} (ha : a = ({ s with part := .operating } : State).unmaskAll) :
    let b := a.updateHolds
    s.entered = { b with
      cnv := { b.cnv with autostartPending := s.settings.conv.autostart }
      alw := { b.alw with history := [] }
      yaw := { b.yaw with inhibit := { b.yaw.inhibit with config := false } } } := by
  intro b
  have settings : b.settings = s.settings := by
    rw [updateHolds_settings, ha, unmaskAll_settings]
  rw [State.entered, ← ha]
  show ({ b with
      cnv := { b.cnv with autostartPending := b.settings.conv.autostart }
      alw := { b.alw with history := [] }
      yaw := { b.yaw with inhibit := { b.yaw.inhibit with config := false } } } : State) = _
  rw [settings]

theorem entered_seq (s : State) : s.entered.seq = ({ s with part := .operating } : State).unmaskAll.updateHolds.seq := by
  rw [State.entered]
  generalize State.updateHolds _ = b
  rfl

/-- The claim of the start action for a pump's tag. -/
def State.pumpClaimed (s : State) (t : TagIx) : State :=
  if (s.tag t).grant ≠ 0 then s
  else match s.claimTag t s.settings.clc.pumpAmount .clc with
    | (x, .queued) => x.modClc fun c => { c with pumpClaim := true }
    | (x, .granted) => x
    | (x, .refused) => x

theorem pumpStarted_eq (s : State) :
    s.pumpStarted = match s.clc.duty with
      | .a => s.pumpClaimed s.settings.clc.pumpATag
      | .b => s.pumpClaimed s.settings.clc.pumpBTag
      | .changeover => s
      | .noFlow => s := by
  have claimed (t : TagIx) : (if (s.tag t).grant = 0 then
      match (s.claimTag t s.settings.clc.pumpAmount .clc).2 with
      | .granted => (s.claimTag t s.settings.clc.pumpAmount .clc).1
      | .queued => (s.claimTag t s.settings.clc.pumpAmount .clc).1.modClc fun c => { c with pumpClaim := true }
      | .refused => (s.claimTag t s.settings.clc.pumpAmount .clc).1
      else s) = s.pumpClaimed t := by
    unfold State.pumpClaimed
    rw [ite_not]
    congr 1
    rcases s.claimTag t s.settings.clc.pumpAmount .clc with ⟨x, _ | _ | _⟩ <;> rfl
  unfold State.pumpStarted State.dutyPump
  cases s.clc.duty with
  | a => exact claimed _
  | b => exact claimed _
  | changeover => rfl
  | noFlow => rfl

theorem commission_answer {s e : State} {st : Status} {d : List Word} (ready : Ready s) (src : Node)
    (h : s.commissionRequest = (e, st, d)) :
    exec (.commission src) s = .next ((e.answered { answerOf src 11 0 st with data := d }).settle) := by
  rw [exec_commission, served_ready ready, h]

theorem commission_refused {s : State} {st : Status} {d : List Word} (ready : Ready s) (src : Node)
    (h : s.commissionRequest = (s, st, d)) :
    exec (.commission src) s = .next (s.answered { answerOf src 11 0 st with data := d }) := by
  rw [commission_answer ready src h, settle_nil (s := s.answered _) ready.noWork]

/-- What the answer and the hand-overs behind it leave. -/
theorem answered_settle_keeps (s : State) (a : MgtAnswer) :
    (s.answered a).settle.part = s.part ∧ (s.answered a).settle.settings = s.settings ∧
      (s.answered a).settle.rif.class3 = s.rif.class3 ++ [a] := by
  have settles := reach_settle (s.answered a)
  exact ⟨settles.part, settles.settings, settles.class3⟩

/-- Settles O18: the checks by `commissionFailure_eq_none`, the entry by `unmaskAll_eq` and `clcStart_eq`, and the
channels by what `Roused` says of the holds and of CLC's start. -/
theorem commission : Obligations.Commission := by
  refine ⟨commissionFailure_eq_none, fun s src ready => ⟨fun hp => ?_, fun hp a ha => ?_, fun hp hf => ?_⟩⟩
  · exact commission_refused ready src (if_pos (beq_iff_eq.mpr hp))
  all_goals have rest : ¬ s.operating = true := fun ho => absurd (hp.symm.trans (beq_iff_eq.mp ho)) nofun
  · exact commission_refused ready src (by rw [State.commissionRequest, if_neg rest, ha])
  · have taken : s.commissionRequest = (s.enterOperating, .ok, []) := by
      rw [State.commissionRequest, if_neg rest, hf]
    have reached := reach_enterOperating s
    obtain ⟨part, settings, class3⟩ := answered_settle_keeps s.enterOperating (answerOf src 11 0 .ok)
    refine ⟨(s.enterOperating.answered (answerOf src 11 0 .ok)).settle, commission_answer ready src taken, rfl, part.trans reached.part, settings.trans reached.settings, ?_,
      ?_, ?_, ?_, ?_, ?_⟩
    · rw [class3, reached.class3]
    · rw [(enterOperating_staged s).yaw, entered_eq rfl]
    · rw [(enterOperating_staged s).cnv, entered_eq rfl]
    · rw [(enterOperating_staged s).alw, entered_eq rfl]
    · intro a ha b p entered claim pumped sent heated unmasked
      obtain ⟨chans, records⟩ := unmaskAll_eq { s with part := .operating }
      rw [← ha] at chans records
      have whole : s.entered = entered := entered_eq ha
      have kept : entered.settings = s.settings := by
        rw [← whole, ← (enterOperating_staged s).settings, reached.settings]
      have started : entered.pumpStarted = pumped := by
        have claims (t : TagIx) : entered.pumpClaimed t = claim t := by
          rw [State.pumpClaimed, kept] <;> rfl
        rw [pumpStarted_eq, kept, claims, claims] <;> rfl
      refine ⟨records, chans, ?_, fun hy hw c => ?_⟩
      · rw [enterOperating_eq, clcStart_eq, whole, started, kept]
      · have calm : ∀ c, (a.chan c).state ≠ .waiting .claim := fun c => by
          rw [records c]
          exact unmasked_calm (hw c)
        have held : a.yaw.state = .held := by
          rw [chans]
          exact hy
        have roused : Roused a s.enterOperating := by
          rw [enterOperating_eq, whole]
          exact (Roused.updateHolds_held held).trans (.trans (t := entered) (.of_seq rfl) (.clcStart _))
        rw [chan_of_seq (roused.still calm), records c]
        rfl
    · intro c hv hw
      have record : ({ s with part := .operating } : State).unmaskAll.chan c = s.unmasked c := (unmaskAll_eq _).2 c
      have calm : (({ s with part := .operating } : State).unmaskAll.chan c).state ≠ .waiting .claim := by
        rw [record]
        exact unmasked_calm hw
      have entered : (({ s with part := .operating } : State).unmaskAll.chan c).Called (s.entered.chan c) := by
        rw [chan_of_seq (entered_seq s)]
        exact updateHolds_called calm
      have started := (Roused.clcStart s.entered).called c (entered.unclaimed calm)
      rw [← enterOperating_eq] at started
      refine (entered.trans started).unmasked ?_
      rw [record]
      exact unmasked_open hv

end Sys2Proof.Machine
end

section
/-! PROOFS. The end of BOOT (R183). -/

namespace Sys2Proof.Machine

/-! ### The blocks at their reset state -/

/-- With no entry TRIPPED and every hold off, the holds stay as they are. -/
theorem updateHolds_untripped {s : State} (h : ∀ i : LimIx, s.limits[i].tripped = false) (hh : s.holds = resetHolds) :
    s.updateHolds = s := by
  have untripped (p : LimitCfg → Bool) : s.anyTripped p = false := by
    rw [Bool.eq_false_iff, Ne, anyTripped_iff]
    exact fun ⟨i, _, ht, _⟩ => absurd ((h i).symm.trans ht) nofun
  have now : s.heldNow = s.holds := by
    rw [State.heldNow, State.converterHoldDue, State.limitInhibitDue, State.fullCoolingDue, untripped, untripped,
      untripped, Bool.and_false, hh]
    rfl
  have same : ({ s with holds := s.heldNow } : State) = s := by rw [now]
  rw [updateHolds_eq, State.yawTold, State.cnvTold]
  simp only [now, if_true]

/-- A claim that joins an empty queue is granted when it fits, and its own requester is not told. -/
theorem joinQueue_reset {s : State} (ha : s.ala = resetAla) (t : TagIx) (n : Nat) (who : Claimant) (inc : Bool) :
    ∃ a, (s.joinQueue t n who inc).1 = { s with ala := a } ∧ (n ≤ s.settings.gridCap → a.tags[t].grant = n) := by
  let q : Claim := { tag := t, amount := n, who := who, increase := inc }
  let e : State := { s with ala := { resetAla with queue := [q] } }
  have queued : s.enqueue q = e := by
    unfold State.enqueue State.modAla
    rw [ha]
    rfl
  have fits : n ≤ s.settings.gridCap → (e.fits q && !(e.tag q.tag).shedding) = true := by
    intro h
    have sum : e.ala.sum = 0 := rfl
    have shedding : (e.tag q.tag).shedding = false := congrArg TagRt.shedding (resetAla_tag t)
    rw [shedding, Bool.not_false, Bool.and_true, State.fits, sum, Nat.zero_sub, Nat.zero_add]
    exact decide_eq_true h
  have tested : (s.joinQueue t n who inc).1 =
      if e.fits q && !(e.tag q.tag).shedding then
        { e with ala := { e.ala.giveGrant t n s.rif.ringTime with queue := [] } }
      else e := by
    show (s.enqueue q).headTest (some t) = _
    rw [queued]
    show (if e.fits q && !(e.tag q.tag).shedding then headTestUpTo (some t) 0 (e.grantHead q (some t)) else e) = _
    rw [show e.grantHead q (some t) = _ from if_pos rfl]
    rfl
  rw [tested]
  split
  · exact ⟨_, rfl, fun _ => (AlaRt.giveGrant_grant ..).trans (if_pos rfl)⟩
  · next unfit => exact ⟨_, rfl, fun h => absurd (fits h) unfit⟩

/-- A claim over the reset state of ALA changes ALA alone, and is granted when it fits the capacity of GRID. -/
theorem claimTag_reset {s : State} (ha : s.ala = resetAla) (t : TagIx) (n : Nat) (who : Claimant) :
    ∃ a, (s.claimTag t n who).1 = { s with ala := a } ∧
      (s.settings.tags[t].valid = true → n ≤ s.settings.gridCap → a.tags[t].grant = n) := by
  have none : (s.tag t).grant = 0 := by
    show s.ala.tags[t].grant = 0
    rw [ha, resetAla_tag]
    rfl
  have unqueued : s.ala.queued t = false := by
    rw [ha]
    rfl
  unfold State.claimTag
  dsimp only
  rw [none, unqueued, Bool.or_false]
  by_cases hv : s.settings.tags[t].valid = true
  · rw [if_neg (by rw [hv]; exact nofun), if_pos rfl]
    by_cases hn : n = 0
    · rw [if_pos hn]
      exact ⟨s.ala, rfl, fun _ _ => none.trans hn.symm⟩
    · rw [if_neg hn]
      obtain ⟨a, changed, given⟩ := joinQueue_reset ha t n who false
      exact ⟨a, changed, fun _ => given⟩
  · rw [if_pos (by simpa using hv)]
    exact ⟨s.ala, rfl, fun h => absurd h hv⟩

/-! ### CLC's start over the reset state -/

theorem dropStageClaim_of_none {s : State} (h : s.clc.stageClaim = none) : s.dropStageClaim = s := by
  unfold State.dropStageClaim
  rw [h]

/-- At stage 0 with target 0 and no claim waiting, the stage tests change nothing. -/
theorem stageTestAt_idle {s : State} (ha : s.clc.actual = 0) (ht : s.clc.target = 0) (hc : s.clc.stageClaim = none)
    (v : Int) (q : Quality) : s.stageTestAt v q = s := by
  have noDown : s.downDue v q = false := by
    rw [State.downDue, ha]
    rfl
  have noUp : s.upDue = false := by
    rw [State.upDue, ha, ht]
    rfl
  unfold State.stageTestAt
  rw [dropStageClaim_of_none hc, ite_self]
  simp only [noDown, noUp, Bool.false_eq_true, if_false, ite_self]

/-- Heaters that are off stay off at a humidity that is not usable. -/
theorem heaterTestAt_unusable {s : State} (h : s.clc.heater = .off) (v : Int) {q : Quality} (hq : q.usable = false) :
    s.heaterTestAt v q = s := by
  have uncalled : s.heatCalled v q = false := by
    rw [State.heatCalled, hq]
    rfl
  unfold State.heaterTestAt
  split
  · rw [h]
    dsimp only
    rw [uncalled]
    rfl
  · rfl

/-- What the commands of CLC leave of the records its tests read. -/
structure Commanded (s t : State) : Prop where
  settings : t.settings = s.settings
  signals : t.signals = s.signals
  ala : t.ala = s.ala
  actual : t.clc.actual = s.clc.actual
  target : t.clc.target = s.clc.target
  stageClaim : t.clc.stageClaim = s.clc.stageClaim
  heater : t.clc.heater = s.clc.heater

theorem commanded_stageCommand (s : State) : Commanded s s.stageCommand := by
  unfold State.stageCommand
  split_ifs <;> exact ⟨rfl, rfl, rfl, rfl, rfl, rfl, rfl⟩

theorem commanded_heaterCommand (s : State) (on : Bool) : Commanded s (s.heaterCommand on) := by
  unfold State.heaterCommand
  split_ifs <;> exact ⟨rfl, rfl, rfl, rfl, rfl, rfl, rfl⟩

theorem Commanded.trans {s t u : State} (a : Commanded s t) (b : Commanded t u) : Commanded s u :=
  ⟨b.settings.trans a.settings, b.signals.trans a.signals, b.ala.trans a.ala, b.actual.trans a.actual,
    b.target.trans a.target, b.stageClaim.trans a.stageClaim, b.heater.trans a.heater⟩

/-- The duty pump has its grant when CLC has started over the reset state, with no humidity to heat for. -/
theorem clcStart_reset_grant {s : State} (hc : s.clc = resetClc s.settings) (ha : s.ala = resetAla)
    (hq : s.signals[s.settings.clc.humidity].quality.usable = false)
    (hv : s.settings.tags[s.settings.clc.pumpATag].valid = true)
    (hn : s.settings.clc.pumpAmount ≤ s.settings.gridCap) :
    (s.clcStart.tag s.settings.clc.pumpATag).grant = s.settings.clc.pumpAmount := by
  obtain ⟨a, claimed, given⟩ := claimTag_reset ha s.settings.clc.pumpATag s.settings.clc.pumpAmount .clc
  rw [clcStart_reset hc ha]
  generalize s.claimTag s.settings.clc.pumpATag s.settings.clc.pumpAmount .clc = q at claimed
  obtain ⟨x, ans⟩ := q
  dsimp only at claimed ⊢
  subst claimed
  set pumped : State := if ans = .queued then _ else _ with hp
  have started : Commanded ({ s with ala := a } : State) pumped := by
    rw [hp]
    split <;> exact ⟨rfl, rfl, rfl, rfl, rfl, rfl, rfl⟩
  set sent : State := if s.settings.clc.heaterTag = none then _ else _ with hs
  have commanded : Commanded ({ s with ala := a } : State) sent := by
    rw [hs]
    split
    · exact started.trans (commanded_stageCommand _)
    · exact (started.trans (commanded_stageCommand _)).trans (commanded_heaterCommand ..)
  have clc {α : Type} (f : ClcRt → α) {y : α} (h : f sent.clc = f s.clc) (hr : f (resetClc s.settings) = y) :
      f sent.clc = y := by rw [h, hc, hr]
  have staged : sent.stageTest = sent := stageTestAt_idle (clc ClcRt.actual commanded.actual rfl)
    (clc ClcRt.target commanded.target rfl) (clc ClcRt.stageClaim commanded.stageClaim rfl) _ _
  have heated : sent.heaterTest = sent := by
    refine heaterTestAt_unusable (clc ClcRt.heater commanded.heater rfl) _ ?_
    rw [signal_of_signals_eq commanded.signals]
    simp only [commanded.settings]
    exact hq
  rw [staged, heated]
  show sent.ala.tags[s.settings.clc.pumpATag].grant = _
  rw [commanded.ala]
  exact given hv hn

/-- No signal is usable after reset. -/
theorem resetSignals_unusable (st : Settings) (i : SigIx) : (resetSignals st)[i].quality.usable = false := by
  rw [resetSignals, tabulate_get]
  show (resetQuality st i).usable = false
  unfold resetQuality
  split <;> rfl

/-! ### Entry to OPERATING over the reset state -/

/-- The part as BOOT leaves it, with BYPASS released. -/
def State.booted (s : State) : State := s.loaded.releaseBypass

theorem booted_chan (s : State) (c : ChanIx) : s.booted.chan c = resetChan s.booted.settings.chans[c] := by
  show (s.booted.settings.chans.map resetChan)[c] = _
  simp

/-- The part behind the entry actions of all blocks but CLC's start. -/
theorem entered_booted (s : State) :
    s.booted.entered = { s.booted with
      part := .operating
      seq := { s.booted.seq with chans := s.booted.entered.seq.chans }
      cnv := { resetCnv with autostartPending := s.booted.settings.conv.autostart }
      yaw := { resetYaw with inhibit := noInhibit } } ∧
    ∀ c, s.booted.entered.chan c = ({ s.booted with part := .operating } : State).unmasked c := by
  obtain ⟨chans, records⟩ := unmaskAll_eq { s.booted with part := .operating }
  generalize ha : ({ s.booted with part := .operating } : State).unmaskAll = a at chans records
  have untripped : a.updateHolds = a := by
    refine updateHolds_untripped (fun i => ?_) ?_
    · rw [show a.limits = Vector.replicate 48 resetLimit by rw [chans]; rfl]
      exact congrArg LimitRt.tripped (Vector.getElem_replicate ..)
    · rw [chans]
      rfl
  have entered := entered_eq ha.symm
  rw [untripped] at entered
  refine ⟨?_, fun c => ?_⟩
  · have seq : s.booted.entered.seq = a.seq := by rw [entered]
    rw [seq, entered, chans]
    rfl
  · rw [← records c]
    refine chan_of_seq ?_ c
    rw [entered]

theorem unmasked_reset {s : State} {c : ChanIx} {d : ChanCfg} (hc : s.chan c = resetChan d) (hd : s.desc c = d) :
    s.unmasked c = { resetChan d with state := if d.valid then .idle else .masked } := by
  unfold State.unmasked
  rw [hc, hd]
  cases hv : d.valid with
  | true => exact if_pos ⟨rfl, rfl⟩
  | false => exact if_neg (by simp)

/-- What the entry to OPERATING leaves at the end of BOOT. -/
theorem enterOperating_booted (s : State) {st : Settings} (hs : st = s.booted.settings) :
    let e := s.booted.enterOperating
    e.yaw = { resetYaw with inhibit := noInhibit } ∧
    e.cnv = { resetCnv with autostartPending := st.conv.autostart } ∧ e.alw = resetAlw ∧
    e.limits = Vector.replicate 48 resetLimit ∧ e.holds = resetHolds ∧
    (∀ c : ChanIx, e.chan c = { resetChan (st.chans[c]) with
      state := if st.chans[c].valid then .idle else .masked }) ∧
    (st.tags[st.clc.pumpATag].valid = true → st.clc.pumpAmount ≤ st.gridCap →
      (e.tag st.clc.pumpATag).grant = st.clc.pumpAmount) := by
  intro e
  subst hs
  set st := s.booted.settings with hs
  obtain ⟨entered, records⟩ := entered_booted s
  have start : Staged s.booted.entered e := enterOperating_staged s.booted
  have unmasked (c : ChanIx) : s.booted.entered.chan c = { resetChan (st.chans[c]) with
      state := if st.chans[c].valid then .idle else .masked } :=
    (records c).trans (unmasked_reset (booted_chan s c) rfl)
  have calm (c : ChanIx) : (s.booted.entered.chan c).state ≠ .waiting .claim := by
    rw [unmasked c]
    dsimp only
    split <;> exact nofun
  have settings : s.booted.entered.settings = st := by rw [entered]
  refine ⟨?_, ?_, ?_, ?_, ?_, fun c => ?_, fun hv hn => ?_⟩
  · rw [start.yaw, entered]
  · rw [start.cnv, entered]
  · rw [start.alw, entered]
    rfl
  · rw [start.limits, entered]
    rfl
  · rw [start.holds, entered]
    rfl
  · have still : e.seq = s.booted.entered.seq := by
      have roused := (Roused.clcStart s.booted.entered).still calm
      rwa [← enterOperating_eq] at roused
    rw [chan_of_seq still, unmasked c]
  · have signals : s.booted.entered.signals = resetSignals st := by
      rw [entered]
      rfl
    have clc : s.booted.entered.clc = resetClc s.booted.entered.settings := by
      rw [settings, entered]
      rfl
    have ala : s.booted.entered.ala = resetAla := by
      rw [entered]
      rfl
    have granted := clcStart_reset_grant clc ala
    simp only [settings, ← enterOperating_eq] at granted
    refine granted ?_ hv hn
    rw [show s.booted.entered.signals[st.clc.humidity] = (resetSignals st)[st.clc.humidity] by simp only [signals]]
    exact resetSignals_unusable st _

/-! ### BOOT_END -/

theorem exec_bootEnd {s : State} (h : s.part = .boot) : exec .bootEnd s = .next s.loaded.leaveBoot.settle :=
  congrArg Host.Outcome.next (if_pos h)

theorem leaveBoot_manual {s : State} (h : s.booted.settings.bootAutostart = false) :
    s.loaded.leaveBoot = ({ s.booted with part := .configuration } : State).raise 0
      [s.lastReset.code, PartState.configuration.code] := by
  have auto : s.loaded.releaseBypass.settings.bootAutostart = false := h
  unfold State.leaveBoot
  simp only [auto]
  rfl

theorem leaveBoot_passes {s : State} (h : s.booted.settings.bootAutostart = true)
    (hf : s.loaded.commissionFailure = none) :
    s.loaded.leaveBoot = s.booted.enterOperating.raise 0 [s.lastReset.code, PartState.operating.code] := by
  have booted : s.loaded.releaseBypass = s.booted := rfl
  have passes : s.booted.commissionFailure = none := hf
  have entered := reach_enterOperating s.booted
  have reset : s.booted.enterOperating.lastReset = s.lastReset := (congrArg State.lastReset entered.eq :)
  have left : s.loaded.leaveBoot = s.booted.enterOperating.raise 0
      [s.booted.enterOperating.lastReset.code, s.booted.enterOperating.part.code] := by
    unfold State.leaveBoot
    rw [booted]
    simp only [h, passes, Option.isNone_none, Bool.and_true, if_true]
  rw [left, reset, entered.part]

theorem leaveBoot_fails {s : State} (h : s.booted.settings.bootAutostart = true) {a : Nat}
    (hf : s.loaded.commissionFailure = some a) :
    s.loaded.leaveBoot = (({ s.booted with part := .configuration } : State).raise 0
      [s.lastReset.code, PartState.configuration.code]).raise 28 [(a : Int)] := by
  have auto : s.loaded.releaseBypass.settings.bootAutostart = true := h
  have fails : s.loaded.releaseBypass.commissionFailure = some a := hf
  unfold State.leaveBoot
  simp only [auto, fails]
  rfl

/-- The part at the end of BOOT in the state chosen, before the events and hand-overs. -/
theorem leaveBoot_reach (s : State) :
    ∃ p, (p = .operating ∨ p = .configuration) ∧
      (p = .operating ↔ s.booted.settings.bootAutostart = true ∧ s.loaded.commissionFailure = none) ∧
      Reach { s.booted with part := p } s.loaded.leaveBoot := by
  cases h : s.booted.settings.bootAutostart with
  | false =>
    refine ⟨.configuration, .inr rfl, by simp, ?_⟩
    rw [leaveBoot_manual h]
    exact .raise 0 _
  | true =>
    cases hf : s.loaded.commissionFailure with
    | none =>
      refine ⟨.operating, .inl rfl, by simp, ?_⟩
      rw [leaveBoot_passes h hf]
      exact (reach_enterOperating s.booted).trans (.raise 0 _)
    | some a =>
      refine ⟨.configuration, .inr rfl, by simp, ?_⟩
      rw [leaveBoot_fails h hf]
      exact .trans (.raise 0 _) (.raise 28 _)

/-- Settles O16: the events by the three cases of `leaveBoot`, what the part holds by `enterOperating_booted`, and what
the hand-overs leave by `Reach`. -/
theorem bootEnd : Obligations.BootEnd := by
  intro s hb
  obtain ⟨p, chosen, operating, left⟩ := leaveBoot_reach s
  have reached := left.trans (reach_settle s.loaded.leaveBoot)
  generalize ht : s.loaded.leaveBoot.settle = t at reached
  have settings : t.settings = s.booted.settings := reached.settings
  have manual (u : State) (hu : s.loaded.leaveBoot = u) (hw : u.work = []) : t = u := by
    rw [← ht, hu, settle_nil hw]
  refine ⟨t, (exec_bootEnd hb).trans (congrArg _ ht), reached.settings, reached.image,
    (congrArg State.imageValid reached.eq :), (congrArg State.ownAddress reached.eq :), reached.bypass, reached.capture,
    congrArg PortRt.state reached.portIn, congrArg PortRt.stuckTimer reached.portIn,
    congrArg PortRt.state reached.portOut, congrArg PortRt.stuckTimer reached.portOut,
    (congrArg (fun u : State => u.rif.ringTime) reached.eq :), (congrArg State.lastReset reached.eq :), reached.pending,
    ?_, fun hn => ?_, fun ha => ?_, fun ha => ⟨fun hf => ?_, fun a hf => ?_⟩⟩
  · rw [reached.part, settings]
    exact operating
  · exact reached.part.trans (chosen.resolve_left fun e => hn (reached.part.trans e))
  · exact manual _ (leaveBoot_manual (by rwa [settings] at ha)) (raise_work ..)
  · refine ⟨?_, (reach_enterOperating s.booted).part, enterOperating_booted s settings⟩
    rw [← ht, leaveBoot_passes (by rwa [settings] at ha) hf]
    rfl
  · exact manual _ (leaveBoot_fails (by rwa [settings] at ha) hf) ((raise_work ..).trans (raise_work ..))

end Sys2Proof.Machine
end

section
/-! PROOFS. A raise and the dispatch test behind it (R155 to R158, R162, R164). -/

namespace Sys2Proof.Machine

/-! ### An occurrence -/

theorem newest64_add {l : List FaultRecord} (h : l.length ≤ 64) (r : FaultRecord) :
    newest64 (l ++ [r]) = (if l.length < 64 then l else l.tail) ++ [r] := by
  unfold newest64
  rw [List.length_append, List.length_singleton]
  split
  · rw [Nat.sub_eq_zero_of_le (by omega), List.drop_zero]
  · rw [show l.length + 1 - 64 = 1 by omega, List.drop_append_of_le_length (by omega), List.drop_one]

/-- The Fault Record of an occurrence (R162). -/
def State.faultRecord (s : State) (c : Code) (k : EventKind) (d : List Int) : FaultRecord :=
  { sequence := s.evu.nextSeq, time := s.rif.ringTime, code := c, kind := k, count := s.evu.events[c].count,
    conv := s.cnv.state, yaw := s.yaw.state, detail := d, snapshot := s.snapshot c }

theorem logged_eq {s : State} (h : s.evu.log.length ≤ 64) (b : Bool) (c : Code) (k : EventKind) (d : List Int) :
    (if b then s.logRecord c k d else s) = { s with evu := { s.evu with
      nextSeq := if b then s.evu.nextSeq + 1 else s.evu.nextSeq
      log := if b then newest64 (s.evu.log ++ [s.faultRecord c k d]) else s.evu.log } } := by
  cases b with
  | false => rfl
  | true =>
    simp only [if_true]
    rw [newest64_add h]
    rfl

theorem offered_eq (s : State) (c : Code) (k : EventKind) (d : List Int) :
    (if s.firstOutRoom c then s.addFirstOut c k d else s) = { s with evu := { s.evu with
      firstOut := s.evu.firstOut ++
        (if s.settings.events[c].firstOut = true ∧ c ≠ 31 ∧ s.evu.firstOut.length < 4 then
          [{ code := c, time := s.rif.ringTime, kind := k, detail := d, snapshot := s.snapshot c }] else []) } } := by
  have room : s.firstOutRoom c = true ↔
      s.settings.events[c].firstOut = true ∧ c ≠ 31 ∧ s.evu.firstOut.length < 4 := by
    simp [State.firstOutRoom, and_assoc]
  by_cases h : s.settings.events[c].firstOut = true ∧ c ≠ 31 ∧ s.evu.firstOut.length < 4
  · rw [if_pos (room.mpr h), if_pos h]
    rfl
  · rw [if_neg (mt room.mp h), if_neg h, List.append_nil]

theorem marked_eq (s : State) (c : Code) (k : EventKind) :
    s.markOccurrence c k = s.modEvent c fun e => { e with
      pending := e.pending || !e.inService, kind := if e.inService then e.kind else k
      recurred := e.recurred || e.inService } := by
  unfold State.markOccurrence
  congr 1
  funext e
  obtain ⟨pending, kind, inService, recurred⟩ := e
  cases inService <;> simp

/-- Steps 1 to 6 of an occurrence at once (R155). -/
theorem occur_eq {s : State} (h : s.evu.log.length ≤ 64) (c : Code) (k : EventKind) (d : List Int) :
    let cfg := s.settings.events[c]
    let e := s.evu.events[c]
    let count := if e.count < 255 then e.count + 1 else e.count
    let shows := cfg.snapshot.map fun i => if s.signals[i].quality = .unused then 0 else s.signals[i].value
    s.occur c k d = { s with evu := {
      events := s.evu.events.set c { e with
        count := count, time := s.rif.ringTime, detail := d, pending := e.pending || !e.inService,
        kind := if e.inService then e.kind else k, recurred := e.recurred || e.inService }
      nextSeq := if cfg.log then s.evu.nextSeq + 1 else s.evu.nextSeq
      log := if cfg.log then newest64 (s.evu.log ++ [{
          sequence := s.evu.nextSeq, time := s.rif.ringTime, code := c, kind := k, count := count,
          conv := s.cnv.state, yaw := s.yaw.state, detail := d, snapshot := shows }])
        else s.evu.log
      firstOut := s.evu.firstOut ++ (if cfg.firstOut = true ∧ c ≠ 31 ∧ s.evu.firstOut.length < 4 then
        [{ code := c, time := s.rif.ringTime, kind := k, detail := d, snapshot := shows }] else []) } } := by
  intro cfg e count shows
  unfold State.occur
  dsimp only
  rw [logged_eq (s := s.countOccurrence c d) h, offered_eq, marked_eq]
  have own : (s.countOccurrence c d).evu.events[c] = { e with count := count, time := s.rif.ringTime, detail := d } :=
    updAt_same ..
  have events (g : EventRt → EventRt) : updAt (s.countOccurrence c d).evu.events c g =
      s.evu.events.set c (g { e with count := count, time := s.rif.ringTime, detail := d }) := by
    rw [updAt, own]
    exact Vector.set_set ..
  unfold State.faultRecord State.modEvent State.modEvu
  dsimp only
  rw [own, events]
  rfl

/-! ### The code the dispatch test chooses (R156, R157) -/

/-- The best of the codes that satisfy `P`: of the lowest group, and in it the lowest code; none if there is none. -/
def Best (g : Code → Fin 8) (P : Code → Prop) : Option Code → Prop
  | none => ∀ d, ¬P d
  | some c => P c ∧ ∀ d, P d → g c < g d ∨ (g c = g d ∧ c ≤ d)

theorem Best.unique {g : Code → Fin 8} {P : Code → Prop} {a b : Option Code} (ha : Best g P a) (hb : Best g P b) :
    a = b := by
  cases a with
  | none =>
    cases b with
    | none => rfl
    | some c => exact absurd hb.1 (ha c)
  | some c =>
    cases b with
    | none => exact absurd ha.1 (hb c)
    | some d =>
      obtain ⟨hc, c_least⟩ := ha
      obtain ⟨hd, d_least⟩ := hb
      have forth := c_least d hd
      have back := d_least c hc
      simp only [Fin.lt_def, Fin.le_def, Fin.ext_iff] at forth back
      exact congrArg some (Fin.ext (by omega))

theorem Best.congr {g : Code → Fin 8} {P Q : Code → Prop} {o : Option Code} (h : ∀ d, P d ↔ Q d) (hb : Best g P o) :
    Best g Q o := by
  rwa [← funext fun d => propext (h d)]

/-- The better of the best code so far and a code that satisfies `p` or not. -/
def better (g : Code → Fin 8) (p : Code → Bool) (best : Option Code) (x : Code) : Option Code :=
  if p x then
    match best with
    | none => some x
    | some b => if g x < g b then some x else best
  else best

/-- One code more, above those looked at so far. -/
theorem Best.step {g : Code → Fin 8} {P : Code → Prop} {best : Option Code} (hb : Best g P best) {x : Code}
    (p : Code → Bool) (above : ∀ d, P d → d < x) :
    Best g (fun d => P d ∨ d = x ∧ p x = true) (better g p best x) := by
  unfold better
  cases p x with
  | false => exact hb.congr fun d => by simp
  | true =>
    cases best with
    | none => exact ⟨.inr ⟨rfl, rfl⟩, fun d hd => hd.elim (fun hp => absurd hp (hb d)) fun ⟨e, _⟩ => .inr ⟨e ▸ rfl, e ▸ le_rfl⟩⟩
    | some b =>
      obtain ⟨mine, least⟩ := hb
      have below := above b mine
      simp only [if_true]
      split
      · next less =>
        refine ⟨.inr ⟨rfl, trivial⟩, fun d hd => ?_⟩
        obtain hp | ⟨rfl, -⟩ := hd
        · exact .inl ((least d hp).elim less.trans fun ⟨e, _⟩ => e ▸ less)
        · exact .inr ⟨rfl, le_rfl⟩
      · next notLess =>
        refine ⟨.inl mine, fun d hd => ?_⟩
        obtain hp | ⟨rfl, -⟩ := hd
        · exact least d hp
        · exact (not_lt.mp notLess).lt_or_eq.imp_right fun e => ⟨e, below.le⟩

theorem Best.fold {g : Code → Fin 8} (p : Code → Bool) (l : List Code) {P : Code → Prop} {best : Option Code}
    (hb : Best g P best) (hl : l.Pairwise (· < ·)) (above : ∀ d, P d → ∀ x ∈ l, d < x) :
    Best g (fun d => P d ∨ d ∈ l ∧ p d = true) (l.foldl (better g p) best) := by
  induction l generalizing P best with
  | nil => exact hb.congr fun d => by simp
  | cons x l ih =>
    obtain ⟨first, rest⟩ := List.pairwise_cons.mp hl
    rw [List.foldl_cons]
    refine (ih (hb.step p fun d hd => above d hd x List.mem_cons_self) rest fun d hd y hy => ?_).congr fun d => ?_
    · obtain hp | ⟨rfl, -⟩ := hd
      · exact above d hp y (List.mem_cons_of_mem _ hy)
      · exact first y hy
    · rw [List.mem_cons, or_assoc]
      exact or_congr_right ⟨fun h => h.elim (fun ⟨e, hp⟩ => ⟨.inl e, e ▸ hp⟩) fun ⟨m, hp⟩ => ⟨.inr m, hp⟩,
        fun ⟨m, hp⟩ => m.elim (fun e => .inl ⟨e, e ▸ hp⟩) fun m => .inr ⟨m, hp⟩⟩

theorem foldl_min_lt (l : List Code) (f : Code → Nat) (g n : Nat) :
    n < l.foldl (fun g c => min g (f c)) g ↔ n < g ∧ ∀ c ∈ l, n < f c := by
  induction l generalizing g with
  | nil => simp
  | cons c l ih =>
    rw [List.foldl_cons, ih, lt_min_iff, List.forall_mem_cons, and_assoc]

theorem dispatchable_iff (s : State) (c : Code) :
    s.dispatchable c = true ↔ s.evu.events[c].pending = true ∧ s.settings.events[c].notify = true ∧
      ∀ d : Code, s.evu.events[d].inService = true → s.settings.events[c].group < s.settings.events[d].group := by
  have floor : (s.settings.events[c].group : Nat) < s.serviceFloor ↔
      ∀ d : Code, s.evu.events[d].inService = true → s.settings.events[c].group < s.settings.events[d].group := by
    rw [State.serviceFloor, foldl_min_lt, State.inService]
    simp only [mem_selectIx, Fin.isLt, true_and, Fin.lt_def]
  rw [State.dispatchable, Bool.and_eq_true, Bool.and_eq_true, decide_eq_true_iff, floor, and_assoc]

theorem chooseCode_best (s : State) :
    Best (fun c => s.settings.events[c].group) (fun c => s.dispatchable c = true) s.chooseCode := by
  have best := Best.fold (g := fun c => s.settings.events[c].group) s.dispatchable
    (selectIx EventRt.pending s.evu.events) (P := fun _ => False) (best := none) (fun _ h => h) (selectIx_sorted ..)
    fun _ h => h.elim
  refine best.congr fun d => ⟨fun h => h.elim False.elim And.right, fun h => .inr ⟨?_, h⟩⟩
  obtain ⟨pending, -, -⟩ := (dispatchable_iff s d).mp h
  exact (mem_selectIx ..).mpr pending

theorem chooseCode_iff (s : State) (c : Code) :
    s.chooseCode = some c ↔ s.dispatchable c = true ∧ ∀ d, s.dispatchable d = true →
      s.settings.events[c].group < s.settings.events[d].group ∨
        (s.settings.events[c].group = s.settings.events[d].group ∧ c ≤ d) := by
  have best := chooseCode_best s
  refine ⟨fun h => ?_, fun h => best.unique (b := some c) h⟩
  rw [h] at best
  exact best

/-! ### The dispatch test (R157) -/

theorem buildNotice_class2 (s : State) (c : Code) : (s.buildNotice c).rif.class2.length = s.rif.class2.length + 1 :=
  List.length_append ..

/-- More builds than class 2 has room for add nothing. -/
theorem dispatchUpTo_succ (n : Nat) (s : State) (h : 4 ≤ n + s.rif.class2.length) :
    dispatchUpTo (n + 1) s = dispatchUpTo n s := by
  induction n generalizing s with
  | zero => exact if_neg fun ⟨room, _⟩ => by omega
  | succ n ih =>
    rw [dispatchUpTo, dispatchUpTo]
    refine if_congr Iff.rfl ?_ rfl
    cases s.chooseCode with
    | none => rfl
    | some c => exact ih _ (by rw [buildNotice_class2]; omega)

/-- With OUT UP and room left the test ends when no code can be chosen. -/
theorem dispatchUpTo_ends (n : Nat) (s : State) (h : 4 ≤ n + s.rif.class2.length)
    (room : (dispatchUpTo n s).rif.class2.length < 4) (up : s.rif.portOut.state = .up) :
    (dispatchUpTo n s).chooseCode = none := by
  induction n generalizing s with
  | zero => exact absurd room (by show ¬ s.rif.class2.length < 4; omega)
  | succ n ih =>
    rw [dispatchUpTo] at room ⊢
    by_cases hr : s.rif.class2.length < 4 ∧ s.rif.portOut.state = .up
    · rw [if_pos hr] at room ⊢
      cases hc : s.chooseCode with
      | none =>
        simp only [hc]
      | some c =>
        simp only [hc] at room ⊢
        exact ih _ (by rw [buildNotice_class2]; omega) room up
    · rw [if_neg hr] at room
      exact absurd ⟨room, up⟩ hr

theorem dispatchTest_builds {s : State} {c : Code} (hc : s.chooseCode = some c) (room : s.rif.class2.length < 4)
    (up : s.rif.portOut.state = .up) : s.dispatchTest = (s.buildNotice c).dispatchTest := by
  have built : s.dispatchTest = dispatchUpTo 3 (s.buildNotice c) := by
    rw [State.dispatchTest, dispatchUpTo, if_pos ⟨room, up⟩, hc]
  rw [built, State.dispatchTest, dispatchUpTo_succ 3 _ (by rw [buildNotice_class2]; omega)]

theorem dispatchTest_idle {s : State} (h : 4 ≤ s.rif.class2.length ∨ s.rif.portOut.state ≠ .up ∨ s.chooseCode = none) :
    s.dispatchTest = s := by
  rw [State.dispatchTest, dispatchUpTo]
  split
  · next hr =>
    obtain full | down | none := h
    · omega
    · exact absurd hr.2 down
    · rw [none]
  · rfl

theorem buildNotice_event (s : State) (c : Code) :
    let e := s.evu.events[c]
    let acked := s.settings.events[c].acknowledged
    (s.buildNotice c).evu.events[c] = { e with
      pending := false, inService := e.inService || acked, recurred := e.recurred && !acked } := by
  intro e acked
  refine (updAt_same ..).trans ?_
  show (if acked then { e with pending := false, inService := true, recurred := false } else { e with pending := false }) = _
  cases acked <;> simp

/-! ### A raise (R155, R164) -/

theorem occurTested_disabled {s : State} {c : Code} (h : s.settings.events[c].enabled = false) (k : EventKind)
    (d : List Int) : s.occurTested c k d = s :=
  if_neg (Bool.eq_false_iff.mp h)

theorem occurTested_enabled {s : State} {c : Code} (h : s.settings.events[c].enabled = true) (k : EventKind)
    (d : List Int) : s.occurTested c k d = (s.occur c k d).dispatchTest :=
  if_pos h

/-- Settles O58: an occurrence by `occur_eq`, the chosen code by `chooseCode_iff`, and the test's end by
`dispatchUpTo_ends`. -/
theorem eventsRaised : Obligations.EventsRaised := by
  refine ⟨fun s c k d => ?_, fun s => ?_⟩
  · intro occurred cfg u v
    have full : s.firstOutFull c = true ↔ cfg.firstOut = true ∧ c ≠ 31 ∧ 4 ≤ s.evu.firstOut.length := by
      simp [State.firstOutFull, cfg, and_assoc]
    have occurs (x : State) (hx : x.evu.log.length ≤ 64) (c : Code) (k : EventKind) (d : List Int) :
        x.occur c k d = occurred x c k d := occur_eq hx c k d
    have raised : u = if s.settings.events[c].enabled && s.firstOutFull c then
        (s.occurTested c k d).occurTested 31 .occurred [(c : Int)] else s.occurTested c k d := rfl
    refine ⟨fun he => ?_, fun he hl hn => ?_, fun he hl h1 h2 h3 => ?_⟩
    · rw [raised, occurTested_disabled he, he]
      rfl
    · have room : s.firstOutFull c = false := Bool.eq_false_iff.mpr (mt full.mp hn)
      rw [raised, room, Bool.and_false, occurTested_enabled he, occurs s hl.1]
      rfl
    · have tested : s.occurTested c k d = v := by rw [occurTested_enabled he, occurs s hl.1]
      have kept : Evt s v := tested ▸ evt_occurTested s c k d
      have enabled : s.settings.events[c].enabled = true := he
      rw [raised, enabled, full.mpr ⟨h1, h2, h3⟩, tested]
      show (if v.settings.events[(31 : Code)].enabled then (v.occur 31 .occurred [(c : Int)]).dispatchTest else v) = _
      rw [occurs v (kept.step.logOk hl).1, kept.settings]
  · intro grp free
    have free_iff (c : Code) : free c ↔ s.dispatchable c = true := (dispatchable_iff s c).symm
    refine ⟨fun c => ?_, fun c hc room up => ?_, dispatchTest_idle, fun room up => dispatchUpTo_ends 4 s (by omega) room up⟩
    · rw [chooseCode_iff, free_iff]
      exact and_congr_right' (forall_congr' fun d => imp_congr_left (free_iff d).symm)
    · exact ⟨dispatchTest_builds hc room up, rfl, buildNotice_event s c, fun b hb => updAt_other _ _ hb.symm⟩

end Sys2Proof.Machine
end

section
/-! PROOFS. YAW: its stops and their ends (R122 to R128). -/

namespace Sys2Proof.Machine

/-! ### A stop -/

theorem stopYaw_eq (s : State) (cause : StopCause) (fault : Bool) (tell : State → State) :
    s.stopYaw cause fault tell =
      (tell (s.modYaw fun y => y.stopped cause fault (s.isMasked s.settings.yaw.stop))).request
        s.settings.yaw.stop .yaw := rfl

theorem stopped_direction (y : YawRt) (cause : StopCause) (fault refused : Bool) :
    (y.stopped cause fault refused).direction = y.direction ∧ (y.stopped cause fault refused).purpose = y.purpose ∧
      (y.stopped cause fault refused).tick.stallTimer = y.stallTimer := by
  cases refused <;> exact ⟨rfl, rfl, rfl⟩

theorem stopYaw_masked {s : State} (h : (s.chan s.settings.yaw.stop).state = .masked) (cause : StopCause) (fault : Bool) :
    s.stopYaw cause fault = (s.modYaw fun y => y.stopped cause fault true).raise 7
      [(s.settings.yaw.stop : Int), Requester.yaw.number] := by
  rw [stopYaw_eq, (isMasked_iff s _).mpr h]
  exact request_of_masked (s := s.modYaw _) h .yaw

theorem stopYaw_free {s : State} (h : (s.chan s.settings.yaw.stop).state ≠ .masked) (cause : StopCause) (fault : Bool) :
    s.stopYaw cause fault = (s.modYaw fun y => y.stopped cause fault false).request s.settings.yaw.stop .yaw := by
  rw [stopYaw_eq, Bool.eq_false_iff.mpr (mt (isMasked_iff s _).mp h)]
  rfl

/-- A move in the direction would go on outward at or above the hard limit (R120, R124). -/
theorem outward_iff (s : State) (d : Direction) :
    (s.yaw.increases d && s.atHardLimit) = true ↔
      ((d = .cw ∧ 0 < s.yaw.twist) ∨ (d = .ccw ∧ s.yaw.twist < 0)) ∧
        s.settings.yaw.hardLimit ≤ s.yaw.twist.natAbs := by
  rw [Bool.and_eq_true]
  refine and_congr ?_ decide_eq_true_iff
  cases d <;> simp [YawRt.increases]

/-! ### The heading -/

theorem publish_yaw (s : State) (f : Feed) (v : Int) : (s.publish f v).yaw = s.yaw := (onlySignals_publish s f v).yaw

theorem publish_settings (s : State) (f : Feed) (v : Int) : (s.publish f v).settings = s.settings :=
  (onlySignals_publish s f v).settings

theorem twistStops_eq (s : State) :
    s.twistStops =
      if s.yaw.state = .driving then
        if ((s.yaw.direction = .cw ∧ 0 < s.yaw.twist) ∨ (s.yaw.direction = .ccw ∧ s.yaw.twist < 0)) ∧
            s.settings.yaw.hardLimit ≤ s.yaw.twist.natAbs then
          s.stopYaw .hardLimit false fun x => x.raise 19 []
        else if s.yaw.purpose = .unwind ∧ s.yaw.twist.natAbs ≤ s.settings.yaw.unwindTarget then
          s.stopYaw .unwindDone false
        else s
      else s :=
  if_congr Iff.rfl (if_congr (outward_iff s _) rfl rfl) rfl

theorem headingUpdate_usable (s : State) (v : Int) {q : Quality} (hq : q = .good ∨ q = .degraded) :
    s.headingUpdate v q = s.headingUsable v := by
  obtain rfl | rfl := hq <;> rfl

theorem headingUsable_eq (s : State) (v : Int) :
    let y := s.yaw.turn v
    let u := (s.modYaw fun _ => y).publish .twist (y.twist / 100)
    s.headingUsable v =
      (if y.state = .driving then
        if ((y.direction = .cw ∧ 0 < y.twist) ∨ (y.direction = .ccw ∧ y.twist < 0)) ∧
            s.settings.yaw.hardLimit ≤ y.twist.natAbs then
          u.stopYaw .hardLimit false fun x => x.raise 19 []
        else if y.purpose = .unwind ∧ y.twist.natAbs ≤ s.settings.yaw.unwindTarget then
          u.stopYaw .unwindDone false
        else u
      else u).modYaw fun y => { y with inhibit := { y.inhibit with headingLost := false } } := by
  intro y u
  have yaw : u.yaw = y := publish_yaw ..
  have settings : u.settings = s.settings := publish_settings ..
  have stops := twistStops_eq u
  rw [yaw, settings] at stops
  exact congrArg (fun x : State => x.putInhibit .headingLost false) stops

theorem releaseOf_eq (s : State) (d : Direction) :
    s.releaseOf d = if d = .ccw then (s.settings.yaw.releaseCcw, .releaseCcw) else (s.settings.yaw.releaseCw, .releaseCw) := by
  cases d <;> rfl

theorem stopped_eq (y : YawRt) (cause : StopCause) (fault : Bool) (p : Prop) [Decidable p] {b : Bool} (h : b = true ↔ p) :
    y.stopped cause fault b = if p then
      { y with stopCause := cause, faultPending := fault, state := .fault, faultCause := .stopRefused,
               stopConfirmed := false, awaited := .none }
    else { y with stopCause := cause, faultPending := fault, state := .stopping, awaited := .stop } :=
  if_congr h rfl rfl

theorem operating_iff (s : State) : s.operating = true ↔ s.part = .operating := beq_iff_eq

theorem headingLoss_of_calm {s : State}
    (h : s.part ≠ .operating ∨ s.yaw.state = .held ∨ s.yaw.state = .stopping ∨ s.yaw.state = .fault) :
    s.headingLoss = s := by
  unfold State.headingLoss
  split
  · next ho =>
    have operating := (operating_iff s).mp ho
    obtain rest | h | h | h := h
    · exact absurd operating rest
    all_goals rw [h]
  · rfl

theorem headingLoss_driving {s : State} (ho : s.part = .operating) (h : s.yaw.state = .driving) :
    s.headingLoss = s.stopYaw .headingLost true fun x => x.raise 17 [] := by
  rw [State.headingLoss, if_pos ((operating_iff s).mpr ho), h]

theorem headingLoss_releasing {s : State} (ho : s.part = .operating) (h : s.yaw.state = .releasing) :
    s.headingLoss = (((s.modYaw fun y => y.stopped .headingLost true (s.isMasked s.settings.yaw.stop)).raise 17 []).abortChan
      (s.releaseOf s.yaw.direction).1 .owner).stopYaw .headingLost true := by
  rw [State.headingLoss, if_pos ((operating_iff s).mpr ho), h]

/-! ### The window in a move -/

theorem publishLong_yaw (s : State) : s.publishLong.yaw = s.yaw := by
  unfold State.publishLong
  split
  · rfl
  · exact publish_yaw ..

theorem publishLong_settings (s : State) : s.publishLong.settings = s.settings := by
  unfold State.publishLong
  split
  · rfl
  · exact publish_settings ..

theorem windUpdate_sample (s : State) (v : Int) {q : Quality} (hq : q = .good ∨ q = .degraded) :
    s.windUpdate v q .sample = ((s.modYaw fun y => y.append v).publishLong).windowUpdate := by
  obtain rfl | rfl := hq <;> rfl

theorem trackDone_iff {s : State} {m : Int} (h : s.yaw.shortMean = some m) :
    s.trackDone = true ↔ m.natAbs ≤ s.settings.yaw.eStop := by
  rw [State.trackDone, h, decide_eq_true_iff]

/-! ### The end of a stop -/

theorem stopEnded_held {y : YawRt} (h : y.faultPending = false) (rest : Nat) :
    y.stopEnded rest = { y with
      state := .held, awaited := .none, restTimer := 0
      inhibit := { y.inhibit with rest := y.inhibit.rest || decide (0 < rest) } } := by
  unfold YawRt.stopEnded
  rw [h]
  by_cases hr : 0 < rest
  · simp [hr]
  · simp [hr]

theorem stopEnded_fault {y : YawRt} (h : y.faultPending = true) (rest : Nat) :
    y.stopEnded rest =
      { y with state := .fault, faultCause := y.stopCause.fault, awaited := .none, stopConfirmed := true } :=
  if_pos h

/-- Settles O59, part by part: a stop by the state of its channel, the heading updates, the window updates, and the
outcomes of the stop channel. -/
theorem yawStops : Obligations.YawStops := by
  refine ⟨fun s cause fault => ?stop, fun s v q hq => ?heading, fun s v => ?lost, fun s v q cause => ?window,
    fun s c e => ?ends⟩
  case stop =>
    intro c u y
    have yaw : u.yaw = s.yaw.stopped cause fault (s.isMasked c) := stopYaw_yaw ..
    obtain ⟨direction, purpose, timer⟩ := stopped_direction s.yaw cause fault (s.isMasked c)
    refine ⟨fun hm => stopYaw_masked hm .., fun hf => ?_, by rw [yaw]; exact direction, by rw [yaw]; exact purpose, ?_⟩
    · have taken : u = _ := stopYaw_free hf cause fault
      have notMasked : s.isMasked c = false := Bool.eq_false_iff.mpr (mt (isMasked_iff s _).mp hf)
      refine ⟨by rw [yaw, notMasked]; rfl, ?_, fun hi => ?_, fun hi => ?_⟩
      · rw [taken]
        by_cases hi : (s.chan c).state = .idle
        · rw [request_of_idle (s := s.modYaw _) hi]
          rfl
        · rw [request_of_active (s := s.modYaw _) hi hf]
          rfl
      · rw [taken, request_of_idle (s := s.modYaw _) hi]
        exact chan_modChan ..
      · rw [taken, request_of_active (s := s.modYaw _) hi hf]
        rfl
    · show u.yaw.tick.stallTimer = _
      rw [yaw]
      exact timer
  case heading =>
    intro y u cleared outward unwound got
    have usable : got = _ := (headingUpdate_usable s v hq).trans (headingUsable_eq s v)
    rw [usable]
    refine ⟨fun hd ho => ?_, fun hd ho hu => ?_, fun hn => ?_⟩
    · rw [if_pos hd, if_pos ho]
    · rw [if_pos hd, if_neg ho, if_pos hu]
    · by_cases hd : y.state = .driving
      · rw [if_pos hd, if_neg fun ho => hn ⟨hd, .inl ho⟩, if_neg fun hu => hn ⟨hd, .inr hu⟩]
      · rw [if_neg hd]
  case lost =>
    intro u c got
    refine ⟨headingLoss_of_calm (s := u), headingLoss_driving (s := u), fun ho hr => ?_, rfl⟩
    intro r
    have release : (u.releaseOf u.yaw.direction).1 = r := by
      rw [releaseOf_eq]
      exact apply_ite Prod.fst ..
    have stopped : (u.modYaw fun y => y.stopped .headingLost true (u.isMasked u.settings.yaw.stop)) = _ :=
      congrArg (fun f : YawRt → YawRt => u.modYaw f) (funext fun y => stopped_eq y .headingLost true
        ((s.chan c).state = .masked) (isMasked_iff s c))
    refine (headingLoss_releasing (s := u) ho hr).trans ?_
    rw [release, stopped]
  case window =>
    intro lost set joined u
    refine ⟨rfl, fun hq hd m hm => ?_, addStopping_eq s .limit, rfl⟩
    have state : u.yaw.state = .driving := (congrArg YawRt.state (publishLong_yaw joined)).trans hd
    have mean : u.yaw.shortMean = some m := by rw [publishLong_yaw, hm]
    have done := trackDone_iff mean
    rw [windUpdate_sample s v hq]
    show u.windowUpdate = _
    rw [State.windowUpdate, state]
    refine if_congr (and_congr ?_ ?_) rfl rfl
    · rw [publishLong_yaw]
      rfl
    · rw [done, publishLong_settings]
      rfl
  case ends =>
    intro got mine
    have stopping (hs : s.yaw.state = .stopping) (hm : mine) : got = s.stopOutcome e := by
      show s.yawOutcome c e = _
      rw [State.yawOutcome, hs]
      exact if_pos hm.symm
    have faulty (hs : s.yaw.state = .fault) : got =
        if s.settings.yaw.stop = c ∧ e = .terminal then s.modYaw fun y => { y with stopConfirmed := true } else s := by
      show s.yawOutcome c e = _
      rw [State.yawOutcome, hs]
    refine ⟨fun hs hm he hf => ?_, fun hs hm he hf => ?_, fun hs hm he => ?_, fun hs hm he => ?_, fun hs he => ?_,
      fun hs hm => ?_, fun hs => ?_, fun t => ⟨fun hd ht => if_pos ⟨ht.symm, hd⟩, fun hn => if_neg fun ⟨ht, hd⟩ =>
        hn.elim (fun h => h hd) fun h => h ht.symm⟩⟩
    · rw [stopping hs hm, he]
      exact congrArg (fun y => { s with yaw := y }) (stopEnded_held hf _)
    · refine ⟨s.yaw.stopCause.fault, ?_, ?_⟩
      · rw [stopping hs hm, he]
        exact congrArg (fun y => { s with yaw := y }) (stopEnded_fault hf _)
      · refine ⟨?_, ?_, ?_, ?_⟩ <;> exact fun h => by rw [h]; rfl
    · rw [stopping hs hm]
      cases e with
      | terminal => exact absurd rfl he
      | _ => rfl
    · rw [faulty hs]
      exact if_pos ⟨hm.symm, he⟩
    · rw [faulty hs]
      exact if_neg fun h => he h.2
    · show s.yawOutcome c e = s
      have other : ¬ s.settings.yaw.stop = c := fun h => hm h.symm
      unfold State.yawOutcome
      split
      · next h => exact absurd h hs
      · exact if_neg other
      · exact if_neg fun h => other h.1
      all_goals rfl
    · show s.yawOutcome c e = s
      obtain h | h := hs <;> rw [State.yawOutcome, h]

end Sys2Proof.Machine
end

section
/-! PROOFS. YAW: headings, windows, the start decision, a start and the entry to DRIVING (R116 to R123). -/

namespace Sys2Proof.Machine

/-! ### Headings (R117) -/

theorem headingStep_bounds (last v : Int) :
    -17999 ≤ headingStep last v ∧ headingStep last v ≤ 18000 ∧ 36000 ∣ headingStep last v - (v - last) := by
  unfold headingStep
  dsimp only
  split <;> omega

/-! ### A start (R121) -/

theorem startYaw_masked {s : State} {d : Direction} (p : Purpose)
    (h : (s.chan (s.releaseOf d).1).state = .masked) :
    s.startYaw p d = (s.modYaw fun y => { y with
      state := .fault, faultCause := .releaseRefused, stopConfirmed := false, awaited := .none
      hardBlocked := false }).raise 7 [((s.releaseOf d).1 : Int), Requester.yaw.number] := by
  have masked : s.isMasked (s.releaseOf d).1 = true := (isMasked_iff s _).mpr h
  have refused : s.startYaw p d = ((s.modYaw fun y => { y with hardBlocked := false }).modYaw fun y => { y with
      state := .fault, faultCause := .releaseRefused, stopConfirmed := false, awaited := .none }).request
        (s.releaseOf d).1 .yaw := if_pos masked
  rw [refused]
  exact request_of_masked (s := (s.modYaw _).modYaw _) h .yaw

/-- YAW in RELEASING for a move (R121). -/
def YawRt.started (y : YawRt) (p : Purpose) (d : Direction) (aw : YawAwait) : YawRt :=
  { y with
    state := .releasing, awaited := aw, purpose := p, direction := d, faultPending := false, hardBlocked := false }

theorem startYaw_taken {s : State} {d : Direction} (p : Purpose)
    (h : (s.chan (s.releaseOf d).1).state ≠ .masked) :
    let v := (s.modYaw fun y => y.started p d (s.releaseOf d).2).request (s.releaseOf d).1 .yaw
    s.startYaw p d = if p = .unwind then v.raise 18 [s.yaw.twist, d.code] else v := by
  intro v
  have free : ¬ s.isMasked (s.releaseOf d).1 = true := mt (isMasked_iff s _).mp h
  have yaw : v.yaw = s.yaw.started p d (s.releaseOf d).2 := (Staged.request ..).yaw
  have taken : s.startYaw p d = if p = .unwind then v.raise 18 [v.yaw.twist, d.code] else v := if_neg free
  rw [taken, yaw]
  rfl

/-! ### The window (R116) -/

theorem append_eq {y : YawRt} (h : y.window.length ≤ 64) (v : Int) :
    let w := y.window ++ [v]
    y.append v = { y with window := w.drop (w.length - 64) } := by
  have length : (y.window ++ [v]).length = y.window.length + 1 := List.length_append
  unfold YawRt.append
  dsimp only
  congr 1
  split
  · rw [show (y.window ++ [v]).length - 64 = 1 by omega, List.drop_one]
  · rw [show (y.window ++ [v]).length - 64 = 0 by omega, List.drop_zero]

theorem append_means {y : YawRt} (h : y.window.length ≤ 64) (v : Int) :
    let w := y.window ++ [v]
    let kept := w.drop (w.length - 64)
    let newest := w.drop (w.length - 8)
    (y.append v).longMean = some (kept.sum / (kept.length : Int)) ∧
      (y.append v).shortMean = some (newest.sum / (newest.length : Int)) := by
  intro w kept newest
  have length : w.length = y.window.length + 1 := List.length_append
  have nonempty : kept ≠ [] := by
    rw [← List.length_pos_iff]
    simp only [kept, List.length_drop]
    omega
  have same : kept.drop (kept.length - 8) = newest := by
    simp only [kept, newest, List.drop_drop, List.length_drop]
    congr 1
    omega
  rw [append_eq h]
  refine ⟨if_neg nonempty, ?_⟩
  rw [YawRt.shortMean, if_neg nonempty, YawRt.newest]
  show some ((kept.drop (kept.length - 8)).sum / ((kept.drop (kept.length - 8)).length : Int)) = _
  rw [same]

theorem publishLong_eq {s : State} {m : Int} (h : s.yaw.longMean = some m) :
    s.publishLong = s.publish .yawErrorLong m := by
  rw [State.publishLong, h]

theorem windowUpdate_calm {s : State} (hh : s.yaw.state ≠ .held) (hd : s.yaw.state ≠ .driving) : s.windowUpdate = s := by
  unfold State.windowUpdate
  split
  · next h => exact absurd h hh
  · next h => exact absurd h hd
  all_goals rfl

theorem windUpdate_change (s : State) (v : Int) {q : Quality} (hq : q = .good ∨ q = .degraded) {cause : Cause}
    (hc : cause ≠ .sample) : s.windUpdate v q cause = s := by
  obtain rfl | rfl := hq <;> exact if_neg hc

/-! ### The start decision (R120) -/

theorem storm_iff (s : State) :
    s.storm = true ↔ ¬ s.signals[s.settings.yaw.windSpeed].quality.usable = true ∨
      (s.settings.yaw.vStorm : Int) ≤ s.signals[s.settings.yaw.windSpeed].value := by
  unfold State.storm State.usableWind
  dsimp only
  cases s.signals[s.settings.yaw.windSpeed].quality.usable <;> simp

theorem windPasses_iff (s : State) :
    s.windPasses = true ↔ ¬ s.signals[s.settings.yaw.windSpeed].quality.usable = true ∨
      (s.settings.yaw.vMin : Int) ≤ s.signals[s.settings.yaw.windSpeed].value := by
  unfold State.windPasses State.usableWind
  dsimp only
  cases s.signals[s.settings.yaw.windSpeed].quality.usable <;> simp

theorem unwindDue_iff (s : State) :
    s.unwindDue = true ↔ s.settings.yaw.unwindLevel ≤ s.yaw.twist.natAbs ∧
      s.signals[s.settings.yaw.windSpeed].quality.usable = true ∧
      s.signals[s.settings.yaw.windSpeed].value < (s.settings.yaw.vUnwind : Int) ∧ ¬ s.storm = true := by
  unfold State.unwindDue State.usableWind
  dsimp only
  cases s.signals[s.settings.yaw.windSpeed].quality.usable <;> simp
  tauto

theorem trackDue_eq {s : State} {sm lm : Int} (hs : s.yaw.shortMean = some sm) (hl : s.yaw.longMean = some lm) :
    s.trackDue =
      if (if s.storm then s.settings.yaw.eShortStorm else s.settings.yaw.eShort) ≤ sm.natAbs then
        some (signDirection sm)
      else if (if s.storm then s.settings.yaw.eLongStorm else s.settings.yaw.eLong) ≤ lm.natAbs ∧
          s.windPasses = true then some (signDirection lm)
      else none := by
  rw [State.trackDue, hs, hl]

theorem startDecision_idle {s : State} (h : s.yaw.inhibit ≠ noInhibit ∨ s.yaw.window.length < 8) :
    s.startDecision = s.modYaw fun y => { y with hardBlocked := false } := if_pos h

theorem startDecision_due {s : State} (hi : s.yaw.inhibit = noInhibit) (hw : 8 ≤ s.yaw.window.length) :
    s.startDecision =
      if s.unwindDue then s.startYaw .unwind (if 0 < s.yaw.twist then .ccw else .cw)
      else match s.trackDue with
        | none => s.modYaw fun y => { y with hardBlocked := false }
        | some d =>
          if s.yaw.increases d && s.atHardLimit then s.modYaw fun y => { y with hardBlocked := true }
          else s.startYaw .track d :=
  if_neg (not_or.mpr ⟨not_not.mpr hi, Nat.not_lt.mpr hw⟩)

/-! ### The entry to DRIVING (R123) -/

theorem beyondRoll_iff (i : InhibitSet) : i.beyondRoll = true ↔ ¬ { i with roll := false } = noInhibit :=
  decide_eq_true_iff

theorem yawGranted_iff (s : State) :
    s.yawGranted = true ↔ (s.tag s.settings.yaw.tag).grant ≠ 0 ∧ s.settings.tags[s.settings.yaw.tag].owner = .yaw := by
  simp [State.yawGranted]

theorem yawOutcome_releasing {s : State} (h : s.yaw.state = .releasing) (c : ChanIx) (e : RunEnd) :
    s.yawOutcome c e = if (s.releaseOf s.yaw.direction).1 = c then s.releaseOutcome e else s := by
  rw [State.yawOutcome, h]

theorem stopYaw_notDriving (s : State) (cause : StopCause) (fault : Bool) (tell : State → State)
    (ht : ∀ x : State, (tell x).yaw = x.yaw) : (s.stopYaw cause fault tell).yaw.state ≠ .driving := by
  have yaw : (s.stopYaw cause fault tell).yaw = s.yaw.stopped cause fault (s.isMasked s.settings.yaw.stop) :=
    (Staged.request ..).yaw.trans (ht _)
  rw [yaw]
  unfold YawRt.stopped
  split <;> exact nofun

/-- Settles O60, part by part. -/
theorem yawMoves : Obligations.YawMoves := by
  refine ⟨fun s i v q cause => ?updates, fun last v y => ?heading, fun s p d hd => ?start, fun s hr => ?entry,
    fun s v q cause hw => ?window, fun s v q => ?inhibit, fun s => ?decision⟩
  case updates =>
    intro p a b
    have wind : a.settings = s.settings := by
      unfold a
      split
      · exact (reach_headingUpdate s v q).settings
      · rfl
    have roll : b.settings = s.settings := by
      unfold b
      split
      · exact (reach_windUpdate a v q cause).settings.trans wind
      · exact wind
    have second : (if i = a.settings.yaw.windDir then a.windUpdate v q cause else a) = b := by rw [wind]
    have third : s.yawUpdate i v q cause = if i = b.settings.yaw.roll then b.rollUpdate v q else b := by
      rw [← second]
      rfl
    rw [third, roll]
  case heading =>
    intro d
    obtain ⟨low, high, turns⟩ := headingStep_bounds last v
    refine ⟨low, high, turns, fun h => by rw [YawRt.turn, h], fun h => by rw [YawRt.turn, h]; rfl⟩
  case start =>
    intro c u
    have release : s.releaseOf d = (c, if d = .cw then .releaseCw else .releaseCcw) := by
      cases d with
      | none => exact absurd rfl hd
      | cw => rfl
      | ccw => rfl
    refine ⟨fun hm => ?_, fun hm => ?_⟩
    · have refused : u = _ := startYaw_masked p (by rw [release]; exact hm)
      have yaw : u.yaw = { s.yaw with
          state := .fault, faultCause := .releaseRefused, stopConfirmed := false, awaited := .none
          hardBlocked := false } := by
        rw [refused]
        exact (onlySignals_raise ..).yaw
      refine ⟨yaw, ?_, ?_⟩
      · rw [refused]
        exact (evt_raise ..).seq
      · rw [yaw, refused, release]
        rfl
    · have taken : u = _ := startYaw_taken p (by rw [release]; exact hm)
      rw [release] at taken
      set v := (s.modYaw fun y => y.started p d (if d = .cw then .releaseCw else .releaseCcw)).request c .yaw
      have requested : v.yaw = s.yaw.started p d (if d = .cw then .releaseCw else .releaseCcw) := (Staged.request ..).yaw
      have yaw : u.yaw = v.yaw := by
        rw [taken]
        split
        · exact (onlySignals_raise ..).yaw
        · rfl
      have seq : u.seq = v.seq := by
        rw [taken]
        split
        · exact (evt_raise ..).seq
        · rfl
      have whole : ((s.modYaw fun _ => u.yaw).request c .yaw) = v := by
        rw [yaw, requested]
        rfl
      refine ⟨yaw.trans requested, fun hi => ?_, fun hi => ?_, ?_⟩
      · have idle : v = (s.modYaw _).modChan c ChanRt.request := request_of_idle (s := s.modYaw _) hi .yaw
        rw [chan_of_seq seq, idle, chan_modChan]
        rfl
      · have active : v = s.modYaw _ := request_of_active (s := s.modYaw _) hi hm .yaw
        rw [seq, active]
        rfl
      · intro w
        have same : w = v := whole
        rw [same]
        exact ⟨fun hp => taken.trans (if_neg hp), fun hp => taken.trans (if_pos hp)⟩
  case entry =>
    intro c t u held clear outward
    have checks : u = if !s.yawGranted then s.stopYaw .noGrant (!s.yaw.inhibit.shed)
        else if s.yaw.inhibit.beyondRoll then s.stopYaw .inhibit false
        else if s.yaw.increases s.yaw.direction && s.atHardLimit then s.stopYaw .hardLimit false State.raiseHardLimit
        else s.modYaw fun y => { y with state := .driving, awaited := .none, stallBase := y.twist, stallTimer := 0 } :=
      (yawOutcome_releasing hr c .terminal).trans (if_pos rfl)
    have granted : (!s.yawGranted) = true ↔ ¬held := by
      rw [Bool.not_eq_true', Bool.eq_false_iff, Ne, yawGranted_iff]
    have beyond : s.yaw.inhibit.beyondRoll = true ↔ ¬clear := beyondRoll_iff _
    have limit : (s.yaw.increases s.yaw.direction && s.atHardLimit) = true ↔ outward := outward_iff s _
    have noGrant (hn : ¬held) : u = _ := checks.trans (if_pos (granted.mpr hn))
    have inhibited (hh : held) (hn : ¬clear) : u = _ :=
      checks.trans ((if_neg (fun h => granted.mp h hh)).trans (if_pos (beyond.mpr hn)))
    have limited (hh : held) (hc : clear) (ho : outward) : u = _ :=
      checks.trans ((if_neg (fun h => granted.mp h hh)).trans ((if_neg fun h => beyond.mp h hc).trans
        (if_pos (limit.mpr ho))))
    have driving (hh : held) (hc : clear) (ho : ¬outward) : u = _ :=
      checks.trans ((if_neg (fun h => granted.mp h hh)).trans ((if_neg fun h => beyond.mp h hc).trans
        (if_neg (mt limit.mp ho))))
    refine ⟨noGrant, inhibited, limited, driving, ⟨fun hd => ?_, fun ⟨hh, hc, ho⟩ => ?_⟩, fun e he => ?_,
      fun k e hk => ?_⟩
    · by_cases hh : held
      · by_cases hc : clear
        · refine ⟨hh, hc, fun ho => ?_⟩
          rw [limited hh hc ho] at hd
          exact stopYaw_notDriving s _ _ _ (fun x => (onlySignals_raise ..).yaw) hd
        · rw [inhibited hh hc] at hd
          exact absurd hd (stopYaw_notDriving s _ _ id fun _ => rfl)
      · rw [noGrant hh] at hd
        exact absurd hd (stopYaw_notDriving s _ _ id fun _ => rfl)
    · rw [driving hh hc ho]
      rfl
    · rw [yawOutcome_releasing hr, if_pos rfl]
      cases e with
      | terminal => exact absurd rfl he
      | _ => rfl
    · rw [yawOutcome_releasing hr, if_neg (Ne.symm hk)]
  case window =>
    intro w kept newest a u
    obtain ⟨long, short⟩ := append_means hw v
    have appended : (s.modYaw fun y => y.append v) = a := congrArg (fun y => { s with yaw := y }) (append_eq hw v)
    rw [append_eq hw v] at long short
    have published : a.publishLong = u := publishLong_eq long
    have yaw : u.yaw.state = s.yaw.state := (congrArg YawRt.state (publish_yaw a _ _) :)
    refine ⟨long, short, fun hq => ⟨fun hh => ?_, fun hh hd => ?_, windUpdate_change s v hq⟩, rfl⟩
    · rw [windUpdate_sample s v hq, appended, published, State.windowUpdate, yaw, hh]
    · rw [windUpdate_sample s v hq, appended, published]
      exact windowUpdate_calm (by rw [yaw]; exact hh) (by rw [yaw]; exact hd)
  case inhibit =>
    intro room roll
    refine ⟨rfl, fun hq => ?_, rfl, rfl⟩
    obtain rfl | rfl := hq <;> rfl
  case decision =>
    intro p y w usable storm passes unwinds blocked got
    have isUsable : w.quality.usable = true ↔ usable := usable_iff _
    have isStorm : s.storm = true ↔ storm := (storm_iff s).trans (or_congr_left (not_congr isUsable))
    have isPassing : s.windPasses = true ↔ passes := (windPasses_iff s).trans (or_congr_left (not_congr isUsable))
    have isUnwind : s.unwindDue = true ↔ unwinds :=
      (unwindDue_iff s).trans (and_congr_right' (and_congr isUsable (and_congr_right' (not_congr isStorm))))
    refine ⟨startDecision_idle, fun hi hw => ⟨fun hu => ?_, fun hu sm lm hs hl => ?_⟩⟩
    · exact (startDecision_due hi hw).trans (if_pos (isUnwind.mpr hu))
    · intro short long m d refused
      have levels (a b : Nat) : (if s.storm then a else b) = if storm then a else b := if_congr isStorm rfl rfl
      have due : s.trackDue = if short then some (signDirection sm)
          else if long then some (signDirection lm) else none := by
        rw [trackDue_eq hs hl, levels, levels]
        exact if_congr Iff.rfl rfl (if_congr (and_congr_right' isPassing) rfl rfl)
      have decided : got = match s.trackDue with
          | none => blocked false
          | some d => if s.yaw.increases d && s.atHardLimit then blocked true else s.startYaw .track d :=
        (startDecision_due hi hw).trans (if_neg (mt isUnwind.mp hu))
      have limit : (s.yaw.increases d && s.atHardLimit) = true ↔ refused := outward_iff s d
      have chosen (h : short ∨ long) : s.trackDue = some d := by
        rw [due]
        by_cases hs : short
        · rw [if_pos hs]
          exact congrArg (fun m : Int => some (if 0 < m then Direction.cw else .ccw)) (if_pos hs).symm
        · rw [if_neg hs, if_pos (h.resolve_left hs)]
          exact congrArg (fun m : Int => some (if 0 < m then Direction.cw else .ccw)) (if_neg hs).symm
      refine ⟨fun hs hl => ?_, fun h hr => ?_, fun h hr => ?_⟩
      · rw [decided, due, if_neg hs, if_neg hl]
      · rw [decided, chosen h]
        exact if_pos (limit.mpr hr)
      · rw [decided, chosen h]
        exact if_neg (mt limit.mp hr)

end Sys2Proof.Machine
end

section
/-! PROOFS. CNV: the requests of management, the outcomes of its channels, the heartbeat and the autostart test (R82 to
R86, R93, R95). -/

namespace Sys2Proof.Machine

/-! ### Requests of management -/

/-- A request whose handler is known, with the hand-overs it leaves. -/
theorem served_settle_eq {s t : State} (ready : Ready s) (src : Node) (k : Octet) (a : Word) {st : Status}
    {f : State → State × Status} (handled : f s = (t, st)) :
    s.served src k a (plain f) = (t.answered (answerOf src k a st)).settle := by
  rw [served_plain_settle ready, handled]

/-- CNV's channel is requested from a state that takes it, or refuses. -/
theorem isMasked_ite {α : Type} (s : State) (c : ChanIx) (a b : α) :
    (if s.isMasked c then a else b) = if (s.chan c).state = .masked then a else b :=
  if_congr (isMasked_iff s c) rfl rfl

theorem setpointUsed_iff (s : State) :
    s.setpointUsed = true ↔ s.signals[s.settings.conv.setpoint].quality ≠ .unused :=
  bne_iff_ne

theorem beginCharging_eq (s : State) :
    s.beginCharging =
      if (s.chan s.settings.conv.precharge).state = .masked then
        (s.raise 7 [(s.settings.conv.precharge : Int), Requester.conversion.number], .state)
      else (((s.modCnv fun c => { c with state := .charging, awaited := .precharge }).hand .convChanged).request
        s.settings.conv.precharge .conversion, .ok) := by
  have branches := isMasked_ite s s.settings.conv.precharge (s.request s.settings.conv.precharge .conversion, Status.state)
    (((s.modCnv fun c => { c with state := .charging, awaited := .precharge }).hand .convChanged).request
        s.settings.conv.precharge .conversion, .ok)
  refine branches.trans ?_
  split
  · next h => rw [request_of_masked h]
  · rfl

theorem requestRun_eq (s : State) :
    s.requestRun =
      if (s.chan s.settings.conv.run).state = .masked then
        (s.raise 7 [(s.settings.conv.run : Int), Requester.conversion.number], .state)
      else ((s.modCnv fun c => { c with awaited := .run }).request s.settings.conv.run .conversion, .ok) := by
  refine (isMasked_ite s ..).trans ?_
  split
  · next h => rw [request_of_masked h]
  · rfl

theorem clearTrip_eq (s : State) :
    s.clearTrip = if s.cnv.state ≠ .tripped ∨ s.cnv.breaker = false then (s, .state)
      else if s.cnv.hold then (s, .stillActive)
      else ((s.modCnv fun c => { c with state := .off, awaited := .none, dip := 0, blind := 0 }).hand .convChanged, .ok) := by
  rw [ite_or]
  rfl

/-- CNV with autostart no longer pending (R83, R85). -/
def State.manual (s : State) : State := s.modCnv fun c => { c with autostartPending := false }

theorem convStart_eq (s : State) :
    s.convStart =
      if s.part = .operating ∧ s.cnv.state = .off ∧ s.ala.mode = .grid then
        if (s.chan s.settings.conv.precharge).state = .masked then
          (s.manual.raise 7 [(s.settings.conv.precharge : Int), Requester.conversion.number], .state)
        else (((s.manual.modCnv fun c => { c with state := .charging, awaited := .precharge }).hand
          .convChanged).request s.settings.conv.precharge .conversion, .ok)
      else (s.manual, .state) :=
  if_congr (and_congr_left' (operating_iff s)) (beginCharging_eq s.manual) rfl

theorem convRun_eq (s : State) :
    s.convRun = if s.cnv.state = .standby ∧ s.cnv.awaited = .run then (s, .ok)
      else if s.cnv.state = .standby ∧ s.cnv.awaited = .none ∧ s.signals[s.settings.conv.setpoint].quality ≠ .unused then
        s.requestRun
      else (s, .state) := by
  unfold State.convRun
  by_cases h : s.cnv.state = .standby
  · simp only [h, if_true, true_and, setpointUsed_iff]
  · simp only [h, if_false, false_and]

/-- CNV in STOPPING, with what it awaited aborted (R85). -/
def State.stopBegun (s : State) : State :=
  ((s.manual.modCnv fun c => { c with state := .stopping, awaited := .none }).hand .convChanged).abortAwaited s.cnv.awaited

theorem beginStop_eq (s : State) :
    s.manual.beginStop = if (s.stopBegun.chan s.settings.conv.stop).state = .masked then
        ((s.stopBegun.raise 7 [(s.settings.conv.stop : Int), Requester.conversion.number]).tripCnv .channelRefused
          s.settings.conv.stop, .state)
      else ((s.stopBegun.modCnv fun c => { c with awaited := .stop }).request s.settings.conv.stop .conversion, .ok) := by
  have settings : s.stopBegun.settings = s.settings := (reach_abortAwaited ..).settings
  have begun (u : State) (hu : u = s.stopBegun) : s.manual.beginStop = if u.isMasked u.settings.conv.stop then
      ((u.request u.settings.conv.stop .conversion).tripCnv .channelRefused u.settings.conv.stop, .state)
    else ((u.modCnv fun r => { r with awaited := .stop }).request u.settings.conv.stop .conversion, .ok) := by
    rw [hu]
    rfl
  rw [begun _ rfl, settings, isMasked_ite]
  split
  · next h => rw [request_of_masked h]
  · rfl

theorem convStop_eq (s : State) :
    s.convStop = match s.cnv.state with
      | .off => (s.manual, .ok)
      | .stopping => (s.manual, .ok)
      | .tripped => (s.manual, .state)
      | .charging => s.manual.beginStop
      | .standby => s.manual.beginStop
      | .running => s.manual.beginStop
      | .rideThrough => s.manual.beginStop
      | .postDip => s.manual.beginStop := rfl

theorem convStop_busy {s : State} (ho : s.cnv.state ≠ .off) (hs : s.cnv.state ≠ .stopping) (ht : s.cnv.state ≠ .tripped) :
    s.convStop = s.manual.beginStop := by
  rw [convStop_eq]
  split
  · next h => exact absurd h ho
  · next h => exact absurd h hs
  · next h => exact absurd h ht
  all_goals rfl

theorem convStop_rests {s : State} (h : s.cnv.state = .off ∨ s.cnv.state = .stopping) : s.convStop = (s.manual, .ok) := by
  obtain h | h := h <;> rw [convStop_eq, h]

theorem convStop_tripped {s : State} (h : s.cnv.state = .tripped) : s.convStop = (s.manual, .state) := by
  rw [convStop_eq, h]

/-! ### Outcomes (R86) -/

/-- The channel of an outcome is the awaited one. -/
theorem convAwaited_iff (s : State) (c : ChanIx) :
    let p := s.settings.conv
    let awaits (w : ConvAwait) (k : ChanIx) : Prop := s.cnv.awaited = w ∧ k = c
    s.convAwaited = some c ↔
      awaits .precharge p.precharge ∨ awaits .run p.run ∨ awaits .stop p.stop ∨ awaits .trip p.trip := by
  intro p awaits
  unfold State.convAwaited
  cases h : s.cnv.awaited <;> simp [ConvCfg.awaited, awaits, p, h]

theorem cnvOutcome_awaited {s : State} (ho : s.part = .operating) {c : ChanIx} (h : s.convAwaited = some c)
    (e : RunEnd) : s.cnvOutcome c e = s.awaitedOutcome c e :=
  (if_pos ((operating_iff s).mpr ho)).trans (if_pos h)

theorem cnvOutcome_other {s : State} (ho : s.part = .operating) {c : ChanIx} (h : s.convAwaited ≠ some c)
    (e : RunEnd) : s.cnvOutcome c e = s.otherOutcome c e :=
  (if_pos ((operating_iff s).mpr ho)).trans (if_neg h)

/-- The outcome FAULT, by exclusion. -/
theorem fault_of_ne {e : RunEnd} (ht : e ≠ .terminal) (ha : e ≠ .aborted) : ∃ f k, e = .fault f k := by
  cases e with
  | terminal => exact absurd rfl ht
  | aborted => exact absurd rfl ha
  | fault f k => exact ⟨f, k, rfl⟩

theorem enterStandby_eq (s : State) :
    let u := (s.modCnv fun c => { c with state := .standby, awaited := .none }).hand .convChanged
    s.enterStandby =
      if s.settings.conv.autostart = true ∧ s.signals[s.settings.conv.setpoint].quality ≠ .unused then
        if (s.chan s.settings.conv.run).state = .masked then
          u.raise 7 [(s.settings.conv.run : Int), Requester.conversion.number]
        else (u.modCnv fun c => { c with awaited := .run }).request s.settings.conv.run .conversion
      else u := by
  intro u
  have entered : s.enterStandby = if u.settings.conv.autostart && u.setpointUsed then u.requestRun.1 else u := rfl
  rw [entered, requestRun_eq]
  refine if_congr ?_ (apply_ite Prod.fst ..) rfl
  rw [Bool.and_eq_true, setpointUsed_iff]
  exact Iff.rfl

/-! ### The statement -/

theorem autostartTest_due {s : State} (h : s.cnv.autostartPending = true ∧ s.cnv.state = .off ∧ s.ala.mode = .grid ∧
      (s.chan s.settings.conv.precharge).state = .idle) :
    s.autostartTest = ((s.modCnv fun r =>
      { r with autostartPending := false, state := .charging, awaited := .precharge }).hand .convChanged).request
        s.settings.conv.precharge .conversion := by
  obtain ⟨-, -, -, idle⟩ := id h
  have begun : s.autostartTest = (s.modCnv fun c => { c with autostartPending := false }).beginCharging.1 := if_pos h
  have free : ¬ (s.chan s.settings.conv.precharge).state = .masked := fun hm => ChanState.noConfusion (idle.symm.trans hm)
  rw [begun, beginCharging_eq]
  exact congrArg Prod.fst (if_neg free)

theorem heartbeat_lost (s : State) (h : s.cnv.autonomous = false) :
    s.heartbeat .lost = (s.modCnv fun c => { c with autonomous := true }).raise 23 [] := by
  rw [State.heartbeat, if_pos rfl, h]
  rfl

theorem heartbeat_back {s : State} {q : Quality} (hq : q ≠ .lost) (h : s.cnv.autonomous = true) :
    s.heartbeat q = (s.modCnv fun c => { c with autonomous := false }).raise 24 [] := by
  rw [State.heartbeat, if_neg hq, h]
  rfl

theorem heartbeat_same {s : State} {q : Quality} (h : q = .lost ↔ s.cnv.autonomous = true) : s.heartbeat q = s := by
  unfold State.heartbeat
  by_cases hq : q = .lost
  · rw [if_pos hq, if_pos (h.mp hq)]
  · rw [if_neg hq, if_neg (mt h.mpr hq)]

/-- An update of a signal that is no grid phase moves CNV by its heartbeat alone. -/
theorem cnvUpdate_noGrid {s : State} {i : SigIx} (ha : i ≠ s.settings.conv.gridA) (hb : i ≠ s.settings.conv.gridB)
    (hc : i ≠ s.settings.conv.gridC) (v : Int) (q : Quality) :
    s.cnvUpdate i v q = if i = s.settings.conv.heartbeat then s.heartbeat q else s := by
  have noGrid (u : State) (hu : u.settings = s.settings) : u.gridUpdate i v q = u := by
    refine if_neg fun hg => ?_
    obtain ⟨-, mem⟩ := hg
    simp only [State.gridSignals, hu, List.mem_cons, List.not_mem_nil, or_false] at mem
    obtain e | e | e := mem
    · exact ha e
    · exact hb e
    · exact hc e
  have settings : (s.heartbeat q).settings = s.settings := (reach_heartbeat s q).settings
  have read : s.cnvUpdate i v q =
      (if i = s.settings.conv.heartbeat then s.heartbeat q else s).gridUpdate i v q := rfl
  rw [read]
  split
  · exact noGrid _ settings
  · exact noGrid _ rfl

/-- Settles O34: each request by the equation of its handler, the outcomes by the channel awaited, the heartbeat and the
autostart test by their cases. -/
theorem conversionRequests : Obligations.ConversionRequests := by
  refine ⟨fun s src ready => ?requests, fun s c e => ?outcomes, fun s q =>
    ⟨fun hq h => by rw [hq]; exact heartbeat_lost s h, heartbeat_back, heartbeat_same, fun i ha hb hc v =>
      cnvUpdate_noGrid ha hb hc v q⟩, fun s => ⟨autostartTest_due, fun hn => if_neg hn⟩⟩
  case requests =>
    intro p v
    have idle : s.manual.work = [] := ready.noWork
    have none {t : State} (ht : t.work = []) (a : MgtAnswer) : (t.answered a).settle = t.answered a :=
      settle_nil (s := t.answered a) ht
    have raised {t : State} (ht : t.work = []) (c : Code) (d : List Int) : (t.raise c d).work = [] :=
      (raise_work ..).trans ht
    have clear : s.served src 7 0 (plain State.clearTrip) = _ := served_plain_settle ready ..
    have start : s.served src 8 0 (plain State.convStart) = _ := served_plain_settle ready ..
    have run : s.served src 8 1 (plain State.convRun) = _ := served_plain_settle ready ..
    have stop : s.served src 8 2 (plain State.convStop) = _ := served_plain_settle ready ..
    refine ⟨congrArg Host.Outcome.next (clear.trans ?_), congrArg Host.Outcome.next (start.trans ?_),
      congrArg Host.Outcome.next (run.trans ?_), fun h => congrArg Host.Outcome.next (stop.trans ?_),
      fun h => congrArg Host.Outcome.next (stop.trans ?_), fun ho hs ht => congrArg Host.Outcome.next (stop.trans ?_)⟩
    · rw [clearTrip_eq]
      split_ifs
      · exact none ready.noWork _
      · exact none ready.noWork _
      · rfl
    · rw [convStart_eq]
      split_ifs
      · exact none (raised idle ..) _
      · rfl
      · exact none idle _
    · rw [convRun_eq, requestRun_eq]
      split_ifs
      · exact none ready.noWork _
      · exact none (raised ready.noWork ..) _
      · exact none (t := (s.modCnv fun r => { r with awaited := .run }).request p.run .conversion) ((request_work ..).trans ready.noWork) _
      · exact none ready.noWork _
    · rw [convStop_rests h]
      exact none idle _
    · rw [convStop_tripped h]
      exact none idle _
    · rw [convStop_busy ho hs ht, beginStop_eq]
      by_cases h : (s.stopBegun.chan s.settings.conv.stop).state = .masked
      · rw [if_pos h]
        exact (if_pos h).symm
      · rw [if_neg h]
        exact (if_neg h).symm
  case outcomes =>
    intro p got unawait enters failed awaits awaited
    refine ⟨fun hp => if_neg (mt (operating_iff s).mp hp), fun ho => ?_⟩
    have outcome (hw : awaited) : got = s.awaitedOutcome c e := cnvOutcome_awaited ho ((convAwaited_iff s c).mpr hw) e
    have other (hw : ¬awaited) : got = s.otherOutcome c e := cnvOutcome_other ho (mt (convAwaited_iff s c).mp hw) e
    refine ⟨fun hw => ⟨fun he => ?_, fun he => ?_⟩, fun hw => ⟨fun he => ?_, fun he => ?_⟩,
      fun hw => ⟨fun he => ?_, fun he => ?_⟩, fun hw => ⟨fun he => ?_, fun he => ?_⟩, fun hw hf => ?_,
      fun hw => ⟨fun hf => ?_, fun he => ?_, fun he => ?_⟩⟩
    · rw [outcome (.inl hw), he, State.awaitedOutcome, hw.1]
      exact enterStandby_eq s
    · rw [outcome (.inl hw), he, State.awaitedOutcome, hw.1]
    · rw [outcome (.inr (.inl hw)), he, State.awaitedOutcome, hw.1]
      rfl
    · rw [outcome (.inr (.inl hw)), he, State.awaitedOutcome, hw.1]
    · rw [outcome (.inr (.inr (.inl hw))), he, State.awaitedOutcome, hw.1]
      rfl
    · rw [outcome (.inr (.inr (.inl hw))), he, State.awaitedOutcome, hw.1]
    · rw [outcome (.inr (.inr (.inr hw))), he, State.awaitedOutcome, hw.1]
    · rw [outcome (.inr (.inr (.inr hw))), he, State.awaitedOutcome, hw.1]
    · obtain ⟨f, k, rfl⟩ := fault_of_ne hf.1 hf.2
      exact outcome hw
    · obtain ⟨f, k, rfl⟩ := fault_of_ne hf.1 hf.2
      exact other hw
    · rw [other hw, he]
      rfl
    · rw [other hw, he]
      rfl

end Sys2Proof.Machine
end

section
/-! SUPPORT. An evaluation of a signal and an owner's write, with the loss and recovery events (R16, R18, R19). -/

namespace Sys2Proof.Machine

theorem modSignal_eq (s : State) (i : SigIx) (f : SignalRt → SignalRt) :
    s.modSignal i f = { s with signals := s.signals.set i (f s.signals[i]) } := rfl

theorem modSignal_same (s : State) (i : SigIx) (f : SignalRt → SignalRt) : (s.modSignal i f).signals[i] = f s.signals[i] :=
  updAt_same ..

theorem modSignal_modSignal (s : State) (i : SigIx) (f g : SignalRt → SignalRt) :
    (s.modSignal i f).modSignal i g = s.modSignal i (g ∘ f) := by
  rw [modSignal_eq, modSignal_same]
  exact congrArg (fun v => { s with signals := v }) (Vector.set_set ..)

/-! ### Loss and recovery events (R16) -/

theorem raiseLoss_eq (s : State) (i : SigIx) :
    s.raiseLoss i =
      s.raise (if s.settings.signals[i].lossCode = 0 then 29 else s.settings.signals[i].lossCode) [(i : Int)] := rfl

theorem raiseRecovery_eq (s : State) (i : SigIx) :
    s.raiseRecovery i = if s.settings.signals[i].lossCode = 0 then s.raise 30 [(i : Int)]
      else s.raiseKind s.settings.signals[i].lossCode .recovered [(i : Int)] := rfl

theorem lossEvents_lost {s : State} {i : SigIx} {old new : Quality} (ho : old = .good ∨ old = .degraded)
    (hn : new = .lost) :
    s.lossEvents i old new = (s.modSignal i fun r => { r with lossRaised := true }).raiseLoss i :=
  if_pos ⟨(usable_iff old).mpr ho, hn⟩

theorem lossEvents_back {s : State} {i : SigIx} {old new : Quality} (ho : old = .lost)
    (hn : new = .good ∨ new = .degraded) (hr : s.signals[i].lossRaised = true) :
    s.lossEvents i old new = (s.modSignal i fun r => { r with lossRaised := false }).raiseRecovery i := by
  refine (if_neg fun h => ?_).trans (if_pos ⟨ho, (usable_iff new).mpr hn, hr⟩)
  rw [ho] at h
  exact absurd h.1 nofun

theorem lossEvents_none {s : State} {i : SigIx} {old new : Quality}
    (hl : ¬((old = .good ∨ old = .degraded) ∧ new = .lost))
    (hb : ¬(old = .lost ∧ (new = .good ∨ new = .degraded) ∧ s.signals[i].lossRaised = true)) :
    s.lossEvents i old new = s := by
  rw [← usable_iff] at hl hb
  exact (if_neg hl).trans (if_neg hb)

/-! ### Evaluation -/

/-- The signal at its new value and quality, its readers told where they are due an update. -/
def State.evaluated (s : State) (i : SigIx) (cause : Cause) (f : SignalRt → SignalRt) : State :=
  { s with
    signals := s.signals.set i (f { s.signals[i] with value := s.newValue i, quality := s.newQuality i })
    work := s.work ++ (if cause = .sample ∨ s.newValue i ≠ s.signals[i].value ∨ s.newQuality i ≠ s.signals[i].quality then
      [.update i (s.newValue i) (s.newQuality i) cause] else []) }

theorem evaluated_same (s : State) (i : SigIx) (cause : Cause) (f : SignalRt → SignalRt) :
    (s.evaluated i cause f).signals[i] = f { s.signals[i] with value := s.newValue i, quality := s.newQuality i } :=
  updAt_same s.signals i fun r => f { r with value := s.newValue i, quality := s.newQuality i }

theorem evaluated_other (s : State) {i j : SigIx} (h : i ≠ j) (cause : Cause) (f : SignalRt → SignalRt) :
    (s.evaluated i cause f).signals[j] = s.signals[j] :=
  updAt_other s.signals (fun r => f { r with value := s.newValue i, quality := s.newQuality i }) h

theorem evaluated_modSignal (s : State) (i : SigIx) (cause : Cause) (f : SignalRt → SignalRt) :
    (s.evaluated i cause id).modSignal i f = s.evaluated i cause f := by
  rw [modSignal_eq, evaluated_same]
  exact congrArg (fun v => { s.evaluated i cause f with signals := v }) (Vector.set_set ..)

theorem evaluate_eq (s : State) (i : SigIx) (cause : Cause) :
    s.evaluate i cause = (s.evaluated i cause id).lossEvents i s.signals[i].quality (s.newQuality i) := by
  have merged : (s.setMerged i).signals[i] =
      { s.signals[i] with value := s.newValue i, quality := s.newQuality i } := modSignal_same ..
  have moved : signalMoved s (s.setMerged i) i = true ↔
      s.newValue i ≠ s.signals[i].value ∨ s.newQuality i ≠ s.signals[i].quality := by
    rw [signalMoved, merged, Bool.or_eq_true, bne_iff_ne, bne_iff_ne]
  have notified : (s.setMerged i).notify i cause =
      (s.setMerged i).hand (.update i (s.newValue i) (s.newQuality i) cause) := by
    rw [State.notify, merged]
  have told : (if cause = .sample ∨ signalMoved s (s.setMerged i) i = true then (s.setMerged i).notify i cause
      else s.setMerged i) = s.evaluated i cause id := by
    rw [notified]
    refine (if_congr (or_congr_right moved) rfl rfl).trans ?_
    split
    · next h => exact congrArg (fun l => { s.setMerged i with work := s.work ++ l }) (if_pos h).symm
    · next h =>
      have kept : s.work = s.work ++ [] := (List.append_nil _).symm
      exact (congrArg (fun l => { s.setMerged i with work := l }) kept).trans
        (congrArg (fun l => { s.setMerged i with work := s.work ++ l }) (if_neg h).symm)
  show State.lossEvents (if cause = .sample ∨ signalMoved s (s.setMerged i) i = true then (s.setMerged i).notify i cause
      else s.setMerged i) i s.signals[i].quality (State.signals (if cause = .sample ∨ signalMoved s (s.setMerged i) i = true
        then (s.setMerged i).notify i cause else s.setMerged i))[i].quality = _
  rw [told, evaluated_same]
  rfl

/-- An evaluation moves loss-raised at most beside value and quality, and raises at most one event. -/
theorem evaluate_cases (s : State) (i : SigIx) (cause : Cause) :
    ∃ b, Evt (s.evaluated i cause fun r => { r with lossRaised := b }) (s.evaluate i cause) := by
  rw [evaluate_eq]
  unfold State.lossEvents
  split
  · exact ⟨true, by rw [evaluated_modSignal]; exact evt_raise ..⟩
  · split
    · refine ⟨false, ?_⟩
      rw [evaluated_modSignal]
      unfold State.raiseRecovery
      dsimp only
      split
      · exact evt_raise ..
      · exact evt_raiseKind ..
    · exact ⟨s.signals[i].lossRaised, Evt.refl _⟩

/-- What an evaluation leaves: the contributors and the last-accepted slot of its signal, and every other signal; its
readers are told of an accepted value, and of any other change. -/
structure Evaluated (s u : State) (i : SigIx) (cause : Cause) : Prop where
  slots : u.signals[i].slots = s.signals[i].slots
  lastSlot : u.signals[i].lastSlot = s.signals[i].lastSlot
  value : u.signals[i].value = s.newValue i
  quality : u.signals[i].quality = s.newQuality i
  other : ∀ j : SigIx, j ≠ i → u.signals[j] = s.signals[j]
  same : cause ≠ .sample → u.signals[i].value = s.signals[i].value ∧ u.signals[i].quality = s.signals[i].quality →
    u.work = s.work
  told : cause = .sample ∨ ¬(u.signals[i].value = s.signals[i].value ∧ u.signals[i].quality = s.signals[i].quality) →
    u.work = s.work ++ [.update i u.signals[i].value u.signals[i].quality cause]
  onlySignals : OnlySignals s u

theorem evaluate_evaluated (s : State) (i : SigIx) (cause : Cause) : Evaluated s (s.evaluate i cause) i cause := by
  obtain ⟨b, evt⟩ := evaluate_cases s i cause
  generalize s.evaluate i cause = u at evt
  have signals : u.signals = (s.evaluated i cause fun r => { r with lossRaised := b }).signals :=
    (congrArg State.signals evt.eq :)
  have work : u.work = (s.evaluated i cause fun r => { r with lossRaised := b }).work := (congrArg State.work evt.eq :)
  have entry := (signal_of_signals_eq signals i).trans (evaluated_same ..)
  have value : u.signals[i].value = s.newValue i := by rw [entry]
  have quality : u.signals[i].quality = s.newQuality i := by rw [entry]
  refine ⟨by rw [entry], by rw [entry], value, quality,
    fun j hj => (signal_of_signals_eq signals j).trans (evaluated_other s (Ne.symm hj) ..), fun hc hs => ?_, fun ht => ?_,
    .trans (t := s.evaluated i cause _) rfl (.of_evt evt)⟩
  · rw [value, quality] at hs
    obtain ⟨hv, hq⟩ := hs
    rw [work, State.evaluated, if_neg (by simp [hc, hv, hq]), List.append_nil]
  · rw [value, quality] at ht ⊢
    rw [work, State.evaluated, if_pos (ht.imp_right not_and_or.mp)]

end Sys2Proof.Machine
end

section
/-! PROOFS. Sample Frames: which are taken, their items, and the verdict on one (R4 to R10). -/

namespace Sys2Proof.Machine

/-! ### Frames (R4) -/

theorem exec_sampleFrame (src : Node) (sq n : Octet) (items : List SampleItem) (s : State) :
    exec (.sampleFrame src sq n items) s = .next (s.takeSampleFrame src sq n items) := rfl

theorem nodeIx_eq_some {src : Node} {k : Fin 55} (h : src.toNat = k + 1) : nodeIx src = some k := by
  have inside : 1 ≤ src.toNat ∧ src.toNat ≤ 55 := by omega
  rw [nodeIx, dif_pos inside]
  exact congrArg some (Fin.ext (by show src.toNat - 1 = k; omega))

theorem nodeIx_eq_none {src : Node} (h : src.toNat = 0 ∨ 56 ≤ src.toNat) : nodeIx src = none :=
  dif_neg (by omega)

theorem acceptFrame_refused {s : State} {src : Node} {sq n : Octet} {len : Nat}
    (h : src.toNat = 0 ∨ 56 ≤ src.toNat ∨ n.toNat = 0 ∨ 8 < n.toNat ∨ n.toNat ≠ len) :
    s.acceptFrame src sq n len = none := by
  rw [State.acceptFrame]
  by_cases outside : src.toNat = 0 ∨ 56 ≤ src.toNat
  · rw [nodeIx_eq_none outside]
  · cases nodeIx src with
    | none => rfl
    | some k => exact if_pos (by omega)

theorem acceptFrame_repeated {s : State} {src : Node} {sq n : Octet} {len : Nat} {k : Fin 55}
    (h : src.toNat = k + 1) (hr : s.sequences[k] = some sq) : s.acceptFrame src sq n len = none := by
  rw [State.acceptFrame, nodeIx_eq_some h]
  exact if_pos (.inr (.inr (.inr hr)))

theorem acceptFrame_taken {s : State} {src : Node} {sq n : Octet} {len : Nat} {k : Fin 55}
    (h : src.toNat = k + 1) (h1 : 1 ≤ n.toNat) (h8 : n.toNat ≤ 8) (hn : n.toNat = len) (hr : s.sequences[k] ≠ some sq) :
    s.acceptFrame src sq n len = some { s with sequences := s.sequences.set k (some sq) } := by
  rw [State.acceptFrame, nodeIx_eq_some h]
  refine if_neg fun bad => ?_
  obtain bad | bad | bad | bad := bad
  · omega
  · omega
  · exact bad hn
  · exact hr bad

/-! ### Items (R5) -/

theorem mapEntry_none {s : State} {src : Node} {ch : Fin 16}
    (h : ∀ e : MapIx, ¬(s.settings.sampleMap[e].valid = true ∧ s.settings.sampleMap[e].source = src ∧
      s.settings.sampleMap[e].channel = ch)) : s.mapEntry src ch = none := by
  refine List.find?_eq_none.mpr fun e _ he => h e ?_
  simpa [and_assoc] using he

theorem mapEntry_first {s : State} {src : Node} {ch : Fin 16} {e : MapIx}
    (he : s.settings.sampleMap[e].valid = true ∧ s.settings.sampleMap[e].source = src ∧
      s.settings.sampleMap[e].channel = ch)
    (hf : ∀ d : MapIx, d < e → ¬(s.settings.sampleMap[d].valid = true ∧ s.settings.sampleMap[d].source = src ∧
      s.settings.sampleMap[d].channel = ch)) : s.mapEntry src ch = some e := by
  rw [State.mapEntry, indices_eq]
  refine find?_of_first (List.pairwise_lt_finRange 128) (List.mem_finRange e) ?_ fun d hd => ?_
  · simpa [and_assoc] using he
  · refine Bool.eq_false_iff.mpr fun hx => hf d hd ?_
    simpa [and_assoc] using hx

theorem takeItem_entry {s : State} {src : Node} {it : SampleItem} {e : MapIx} (h : s.mapEntry src it.channel = some e) :
    s.takeItem src it =
      let v : State := { s with
        phases := s.phases.set e
          (if s.phases[e] + 1 < s.settings.sampleMap[e].decimation then s.phases[e] + 1 else 0) }
      if s.phases[e] = 0 then v.useItem s.settings.sampleMap[e] it else v := by
  rw [State.takeItem, h]

theorem takeItem_sequences (s : State) (src : Node) (it : SampleItem) :
    (s.takeItem src it).sequences = s.sequences := by
  cases h : s.mapEntry src it.channel with
  | none => rw [State.takeItem, h]
  | some e =>
    rw [takeItem_entry h]
    dsimp only
    split
    · exact (congrArg State.sequences (calm_useItem ..).eq :)
    · rfl

theorem takeItems_sequences (items : List SampleItem) (src : Node) (s : State) :
    (items.foldl (fun x it => (x.takeItem src it).settle) s).sequences = s.sequences :=
  foldl_keeps (fun x : State => x.sequences = s.sequences) _
    (fun x it hx => ((congrArg State.sequences (reach_settle (x.takeItem src it)).eq :)).trans
      ((takeItem_sequences x src it).trans hx)) items s rfl

/-! ### The verdict (R6 to R10) -/

theorem useItem_failed {s : State} {it : SampleItem} (e : SampleEntry) (h : it.quality = .failed) :
    s.useItem e it = (s.modSlot e.target e.slot fun k => k.mark .node).evaluate e.target .change := if_pos h

theorem useItem_outOfRange {s : State} {it : SampleItem} {e : SampleEntry} (h : it.quality ≠ .failed)
    (hr : ¬(e.low ≤ engineering e it.raw ∧ engineering e it.raw ≤ e.high)) :
    s.useItem e it = (s.modSlot e.target e.slot fun k => k.mark .range).evaluate e.target .change :=
  (if_neg h).trans (if_pos (by omega))

theorem jumpRejects_iff (e : SampleEntry) (k : Contributor) (v : Int) :
    jumpRejects e k v = true ↔ e.rate ≠ 0 ∧ (k.quality = .good ∨ k.quality = .suspect) ∧ k.jumps ≠ 3 ∧
      e.rate < (v - k.reference).natAbs := by
  simp [jumpRejects, and_assoc]

theorem useItem_jumps {s : State} {it : SampleItem} {e : SampleEntry} (h : it.quality ≠ .failed)
    (hr : e.low ≤ engineering e it.raw ∧ engineering e it.raw ≤ e.high)
    (hj : jumpRejects e s.signals[e.target].slots[e.slot] (engineering e it.raw) = true) :
    s.useItem e it =
      (s.modSlot e.target e.slot fun k => { k.mark .jump with jumps := k.jumps + 1 }).evaluate e.target .change :=
  (if_neg h).trans ((if_neg (by omega)).trans (if_pos hj))

theorem useItem_accepted {s : State} {it : SampleItem} {e : SampleEntry} (h : it.quality ≠ .failed)
    (hr : e.low ≤ engineering e it.raw ∧ engineering e it.raw ≤ e.high)
    (hj : ¬jumpRejects e s.signals[e.target].slots[e.slot] (engineering e it.raw) = true) :
    let x := s.modSlot e.target e.slot fun k => k.accept (engineering e it.raw) it.quality
    s.useItem e it = (if it.quality = .good then x.modSignal e.target fun r => { r with lastSlot := some e.slot }
      else x).evaluate e.target .sample :=
  (if_neg h).trans ((if_neg (by omega)).trans (if_neg hj))

/-- The signal with one contributor and the last-accepted slot set. -/
def State.contributed (s : State) (i : SigIx) (k : SlotIx) (x : Contributor) (l : Option SlotIx) : State :=
  { s with signals := s.signals.set i { s.signals[i] with slots := s.signals[i].slots.set k x, lastSlot := l } }

theorem contributed_slot (s : State) (i : SigIx) (k : SlotIx) (x : Contributor) (l : Option SlotIx) :
    (s.contributed i k x l).signals[i].slots[k] = x ∧ (s.contributed i k x l).signals[i].lastSlot = l ∧
      (s.contributed i k x l).signals[i].value = s.signals[i].value ∧
      (s.contributed i k x l).signals[i].quality = s.signals[i].quality := by
  have entry : (s.contributed i k x l).signals[i] = { s.signals[i] with slots := s.signals[i].slots.set k x, lastSlot := l } :=
    modSignal_same s i fun r => { r with slots := r.slots.set k x, lastSlot := l }
  rw [entry]
  exact ⟨updAt_same s.signals[i].slots k fun _ => x, rfl, rfl, rfl⟩

theorem contributed_other (s : State) (i : SigIx) (k : SlotIx) (x : Contributor) (l : Option SlotIx) (j : SigIx) (m : SlotIx)
    (h : ¬(j = i ∧ m = k)) : (s.contributed i k x l).signals[j].slots[m] = s.signals[j].slots[m] := by
  by_cases hj : j = i
  · subst hj
    have entry : (s.contributed j k x l).signals[j] =
        { s.signals[j] with slots := s.signals[j].slots.set k x, lastSlot := l } :=
      modSignal_same s j fun r => { r with slots := r.slots.set k x, lastSlot := l }
    rw [entry]
    exact updAt_other s.signals[j].slots (fun _ => x) fun e => h ⟨rfl, e.symm⟩
  · have entry : (s.contributed i k x l).signals[j] = s.signals[j] :=
      modSignal_signal_other (fun r => { r with slots := r.slots.set k x, lastSlot := l }) (Ne.symm hj)
    rw [entry]

/-- The accepted value in its contributor, and a good one in the last-accepted slot (R10). -/
theorem useItem_accepts {s : State} {it : SampleItem} {e : SampleEntry} (h : it.quality ≠ .failed)
    (hr : e.low ≤ engineering e it.raw ∧ engineering e it.raw ≤ e.high)
    (hj : ¬jumpRejects e s.signals[e.target].slots[e.slot] (engineering e it.raw) = true) :
    s.useItem e it = (s.contributed e.target e.slot
      (s.signals[e.target].slots[e.slot].accept (engineering e it.raw) it.quality)
      (if it.quality = .good then some e.slot else s.signals[e.target].lastSlot)).evaluate e.target .sample := by
  rw [useItem_accepted h hr hj]
  congr 1
  split
  · exact modSignal_modSignal ..
  · rfl

/-- A used item sets one contributor, with the last-accepted slot for a good accepted one, and evaluates the signal. -/
theorem useItem_contributes (s : State) (e : SampleEntry) (it : SampleItem) :
    ∃ x l c, s.useItem e it = (s.contributed e.target e.slot x l).evaluate e.target c := by
  by_cases hf : it.quality = .failed
  · exact ⟨_, _, _, useItem_failed e hf⟩
  · by_cases hr : e.low ≤ engineering e it.raw ∧ engineering e it.raw ≤ e.high
    · by_cases hj : jumpRejects e s.signals[e.target].slots[e.slot] (engineering e it.raw) = true
      · exact ⟨_, _, _, useItem_jumps hf hr hj⟩
      · exact ⟨_, _, _, useItem_accepts hf hr hj⟩
    · exact ⟨_, _, _, useItem_outOfRange hf hr⟩

/-- Settles O44: the frames by `acceptFrame`, their items by `mapEntry`, and the verdict by the row of `useItem` that
applies, with what `evaluate_evaluated` says of the evaluation behind it. -/
theorem sampleFrames : Obligations.SampleFrames := by
  refine ⟨fun s src sq n items => ⟨fun h => ?refused, fun k hk => ⟨fun hr => ?repeated, fun hb h1 h8 hn hr => ?taken⟩⟩,
    fun s src it => ⟨fun h => ?unmatched, fun e he hf => ?matched⟩, fun s e it => ?verdict⟩
  case refused =>
    rw [exec_sampleFrame, State.takeSampleFrame]
    obtain hb | h := h
    · rw [if_neg (by simp [State.awake, hb])]
    · rw [acceptFrame_refused h, ite_self]
  case repeated =>
    rw [exec_sampleFrame, State.takeSampleFrame, acceptFrame_repeated hk hr, ite_self]
  case taken =>
    refine ⟨_, ?_, rfl, takeItems_sequences ..⟩
    rw [exec_sampleFrame, State.takeSampleFrame, acceptFrame_taken hk h1 h8 hn hr, if_pos (by simp [State.awake, hb])]
    rfl
  case unmatched =>
    rw [State.takeItem, mapEntry_none h]
  case matched => exact takeItem_entry (mapEntry_first he hf)
  case verdict =>
    intro u i k w v inRange jumps marked same told set rejected
    have jumps_iff : jumpRejects e k v = true ↔ jumps := jumpRejects_iff e k v
    have left (x : Contributor) (l : Option SlotIx) (c : Cause) (hu : u = (set x l).evaluate i c) :
        Evaluated (set x l) u i c := by
      rw [hu]
      exact evaluate_evaluated ..
    have rejects (x : Contributor) (hu : u = (set x s.signals[i].lastSlot).evaluate i .change) : rejected x := by
      have done := left x _ _ hu
      obtain ⟨slot, last, value, quality⟩ := contributed_slot s i e.slot x s.signals[i].lastSlot
      refine ⟨hu, (congrArg (fun l : Vector Contributor 3 => l[e.slot]) done.slots).trans slot, done.lastSlot.trans last,
        fun hs => ?_, fun hs => ?_⟩
      · exact done.same nofun ⟨hs.1.trans value.symm, hs.2.trans quality.symm⟩
      · exact done.told (.inr fun h => hs ⟨h.1.trans value, h.2.trans quality⟩)
    obtain ⟨x, l, c, used⟩ := useItem_contributes s e it
    have done := left x l c used
    have only : OnlySignals s u := .trans (t := s.contributed i e.slot x l) rfl done.onlySignals
    refine ⟨fun hf => rejects _ (useItem_failed e hf), fun hf hr => rejects _ (useItem_outOfRange hf hr),
      fun hf hr hj => rejects _ ((useItem_jumps hf hr (jumps_iff.mpr hj)).trans ?_), fun hf hr hj => ?_,
      fun j m hjm => ?_, fun j hj => (done.other j hj).trans ?_, ?_, (congrArg State.rif only :)⟩
    · have quality : (if k.quality = .good then SlotQuality.suspect else k.quality) = .suspect := by
        obtain ⟨-, live, -⟩ := hj
        split
        · rfl
        · next ng => exact live.resolve_left ng
      exact congrArg (fun q => (set { k with quality := q, reason := .jump, jumps := k.jumps + 1 }
        s.signals[i].lastSlot).evaluate i .change) quality
    · intro last
      have accepts : u = (set (k.accept v it.quality) last).evaluate i .sample :=
        useItem_accepts hf hr (mt jumps_iff.mp hj)
      have done := left _ _ _ accepts
      obtain ⟨slot, lastSlot, value, quality⟩ := contributed_slot s i e.slot (k.accept v it.quality) last
      have slotted : w = k.accept v it.quality :=
        (congrArg (fun l : Vector Contributor 3 => l[e.slot]) done.slots).trans slot
      refine ⟨slotted, done.lastSlot.trans lastSlot, ?_, done.told (.inl rfl)⟩
      rw [slotted]
      exact accepts
    · by_cases hj : j = i
      · subst hj
        exact (congrArg (fun l : Vector Contributor 3 => l[m]) done.slots).trans (contributed_other s i e.slot x l i m hjm)
      · rw [done.other j hj]
        exact contributed_other s i e.slot x l j m hjm
    · exact modSignal_signal_other (fun r => { r with slots := r.slots.set e.slot x, lastSlot := l }) (Ne.symm hj)
    · have eq : u = { s with signals := u.signals, evu := u.evu, rif := { s.rif with class2 := u.rif.class2 }, work := u.work } := only
      have rif : u.rif = { s.rif with class2 := u.rif.class2 } := (congrArg State.rif only :)
      exact eq.trans (congrArg (fun r => { s with signals := u.signals, evu := u.evu, rif := r, work := u.work })
        rif.symm)

end Sys2Proof.Machine
end

section
/-! PROOFS. O46: the merge over the GOOD contributors (R13), quality and value hold (R14), staleness (R15), the events
and updates of an evaluation (R16, R19), the readers of an update (R20), and owner writes (R18). -/

namespace Sys2Proof.Machine

/-! ### The GOOD contributors -/

/-- The slots whose contributor is GOOD, lowest first. -/
def SignalRt.goodSlots (r : SignalRt) : List SlotIx :=
  (List.finRange 3).filter fun k => r.slots[k].quality == .good

theorem mem_goodSlots (r : SignalRt) (k : SlotIx) : k ∈ r.goodSlots ↔ r.slots[k].quality = .good := by
  simp [SignalRt.goodSlots]

theorem goodSlots_sorted (r : SignalRt) : r.goodSlots.Pairwise (· < ·) :=
  (List.pairwise_lt_finRange 3).filter _

theorem good_eq (r : SignalRt) : r.good = r.goodSlots.map fun k => r.slots[k] := by
  have slots : r.slots.toList = (List.finRange 3).map fun k => r.slots[k] :=
    List.ext_getElem (by simp) fun i h1 h2 => by simp
  rw [SignalRt.good, slots, List.filter_map]
  rfl

theorem goodSlots_sum (r : SignalRt) (x : SlotIx → Int) :
    (r.goodSlots.map x).sum = (if r.slots[(0 : SlotIx)].quality = .good then x 0 else 0) +
      (if r.slots[(1 : SlotIx)].quality = .good then x 1 else 0) +
      (if r.slots[(2 : SlotIx)].quality = .good then x 2 else 0) := by
  have slots : List.finRange 3 = [0, 1, 2] := rfl
  rw [SignalRt.goodSlots, slots]
  simp only [List.filter_cons, List.filter_nil, beq_iff_eq]
  split <;> split <;> split <;> simp [add_assoc]

/-! ### The merge (R13) -/

theorem foldl_max_spec (f : SlotIx → Int) (ks : List SlotIx) (a : Int) :
    let m := (ks.map f).foldl max a
    (m = a ∨ ∃ k ∈ ks, m = f k) ∧ a ≤ m ∧ ∀ k ∈ ks, f k ≤ m := by
  induction ks generalizing a with
  | nil => simp
  | cons k ks ih =>
    obtain ⟨picked, above, all⟩ := ih (max a (f k))
    refine ⟨?_, (le_max_left ..).trans above, fun j hj => ?_⟩
    · obtain first | ⟨j, hj, later⟩ := picked
      · obtain left | right := max_choice a (f k)
        · exact .inl (first.trans left)
        · exact .inr ⟨k, List.mem_cons_self, first.trans right⟩
      · exact .inr ⟨j, List.mem_cons_of_mem _ hj, later⟩
    · obtain rfl | hj := List.mem_cons.mp hj
      · exact (le_max_right ..).trans above
      · exact all j hj

theorem foldl_min_spec (f : SlotIx → Int) (ks : List SlotIx) (a : Int) :
    let m := (ks.map f).foldl min a
    (m = a ∨ ∃ k ∈ ks, m = f k) ∧ m ≤ a ∧ ∀ k ∈ ks, m ≤ f k := by
  induction ks generalizing a with
  | nil => simp
  | cons k ks ih =>
    obtain ⟨picked, below, all⟩ := ih (min a (f k))
    refine ⟨?_, below.trans (min_le_left ..), fun j hj => ?_⟩
    · obtain first | ⟨j, hj, later⟩ := picked
      · obtain left | right := min_choice a (f k)
        · exact .inl (first.trans left)
        · exact .inr ⟨k, List.mem_cons_self, first.trans right⟩
      · exact .inr ⟨j, List.mem_cons_of_mem _ hj, later⟩
    · obtain rfl | hj := List.mem_cons.mp hj
      · exact below.trans (min_le_right ..)
      · exact all j hj

theorem youngest_isSome (l : List Contributor) (h : l ≠ []) : ∃ k ∈ l, youngest l = some k := by
  induction l with
  | nil => exact absurd rfl h
  | cons k ks ih =>
    rw [youngest]
    split
    · exact ⟨k, List.mem_cons_self, rfl⟩
    · next j hj =>
      split
      · exact ⟨k, List.mem_cons_self, rfl⟩
      · have rest : ks ≠ [] := fun hn => by rw [hn] at hj; cases hj
        obtain ⟨m, hm, found⟩ := ih rest
        exact ⟨j, List.mem_cons_of_mem _ (Option.some.inj (found.symm.trans hj) ▸ hm), rfl⟩

/-- The youngest of a list of slots, on equal ages the lowest. -/
theorem youngest_of_least {f : SlotIx → Contributor} {l : List SlotIx} {k : SlotIx} (hs : l.Pairwise (· < ·))
    (hk : k ∈ l) (hy : ∀ j ∈ l, (f k).age < (f j).age ∨ ((f k).age = (f j).age ∧ k ≤ j)) :
    youngest (l.map f) = some (f k) := by
  induction l with
  | nil => cases hk
  | cons x xs ih =>
    obtain ⟨below, sorted⟩ := List.pairwise_cons.mp hs
    rw [List.map_cons, youngest]
    obtain rfl | hk := List.mem_cons.mp hk
    · split
      · rfl
      · next y found =>
        have rest : xs.map f ≠ [] := fun hn => by rw [hn] at found; cases found
        obtain ⟨m, hm, same⟩ := youngest_isSome _ rest
        obtain ⟨j, hj, rfl⟩ := List.mem_map.mp hm
        cases same.symm.trans found
        refine if_pos ?_
        obtain younger | ⟨equal, -⟩ := hy j (List.mem_cons_of_mem _ hj)
        · exact younger.le
        · exact equal.le
    · rw [ih sorted hk fun j hj => hy j (List.mem_cons_of_mem _ hj)]
      refine if_neg fun older => ?_
      have later := below k hk
      obtain younger | ⟨-, lower⟩ := hy x List.mem_cons_self
      · exact absurd older younger.not_ge
      · exact absurd lower later.not_ge

theorem lastMerged_of_lastGood {r : SignalRt} {k : SlotIx} (hl : r.lastSlot = some k) (hk : r.slots[k].quality = .good) :
    r.lastMerged = some r.slots[k].value := by
  simp only [SignalRt.lastMerged, hl]
  exact if_pos hk

theorem lastMerged_of_notGood {r : SignalRt} (h : ∀ j : SlotIx, r.lastSlot = some j → r.slots[j].quality ≠ .good) :
    r.lastMerged = (youngest r.good).map Contributor.value := by
  cases hl : r.lastSlot with
  | none => simp only [SignalRt.lastMerged, hl]
  | some j =>
    simp only [SignalRt.lastMerged, hl]
    exact if_neg (h j hl)

theorem merged_none {r : SignalRt} (h : ∀ k : SlotIx, r.slots[k].quality ≠ .good) (m : MergeMode) : r.merged m = none := by
  have empty : r.goodSlots = [] := List.eq_nil_iff_forall_not_mem.mpr fun k hk => h k ((mem_goodSlots r k).mp hk)
  have none : r.good = [] := by rw [good_eq, empty, List.map_nil]
  rw [SignalRt.merged, none]

theorem goodSlots_cons {r : SignalRt} (h : ∃ k : SlotIx, r.slots[k].quality = .good) :
    ∃ k ks, r.goodSlots = k :: ks ∧ r.good = r.slots[k] :: ks.map (fun j => r.slots[j]) := by
  obtain ⟨k, hk⟩ := h
  have mem := (mem_goodSlots r k).mpr hk
  cases slots : r.goodSlots with
  | nil => rw [slots] at mem; cases mem
  | cons j js => exact ⟨j, js, rfl, by rw [good_eq, slots, List.map_cons]⟩

theorem lastMerged_good {r : SignalRt} (h : ∃ k : SlotIx, r.slots[k].quality = .good) :
    ∃ k : SlotIx, r.slots[k].quality = .good ∧ r.lastMerged = some r.slots[k].value := by
  by_cases last : ∃ j : SlotIx, r.lastSlot = some j ∧ r.slots[j].quality = .good
  · obtain ⟨j, hl, hj⟩ := last
    exact ⟨j, hj, lastMerged_of_lastGood hl hj⟩
  · rw [lastMerged_of_notGood fun j hl hj => last ⟨j, hl, hj⟩]
    obtain ⟨k, ks, -, good⟩ := goodSlots_cons h
    obtain ⟨x, hx, found⟩ := youngest_isSome r.good (fun hn => by rw [good] at hn; cases hn)
    rw [good_eq] at hx
    obtain ⟨j, hj, rfl⟩ := List.mem_map.mp hx
    exact ⟨j, (mem_goodSlots r j).mp hj, by rw [found]; rfl⟩

theorem merged_max {r : SignalRt} (h : ∃ k : SlotIx, r.slots[k].quality = .good) :
    ∃ k : SlotIx, r.slots[k].quality = .good ∧ r.merged .max = some r.slots[k].value ∧
      ∀ j : SlotIx, r.slots[j].quality = .good → r.slots[j].value ≤ r.slots[k].value := by
  obtain ⟨k, ks, slots, good⟩ := goodSlots_cons h
  have is : r.merged .max = some ((ks.map fun j => r.slots[j].value).foldl max r.slots[k].value) := by
    simp only [SignalRt.merged, good, List.foldl_map]
  have mem (j : SlotIx) : r.slots[j].quality = .good ↔ j = k ∨ j ∈ ks := by rw [← mem_goodSlots, slots, List.mem_cons]
  obtain ⟨picked, above, all⟩ := foldl_max_spec (fun j => r.slots[j].value) ks r.slots[k].value
  have bound (j : SlotIx) (hj : r.slots[j].quality = .good) :
      r.slots[j].value ≤ (ks.map fun j => r.slots[j].value).foldl max r.slots[k].value := by
    obtain rfl | hj := (mem j).mp hj
    · exact above
    · exact all j hj
  obtain first | ⟨j, hj, later⟩ := picked
  · exact ⟨k, (mem k).mpr (.inl rfl), by rw [is, first], fun j hj => (bound j hj).trans_eq first⟩
  · exact ⟨j, (mem j).mpr (.inr hj), by rw [is, later], fun i hi => (bound i hi).trans_eq later⟩

theorem merged_min {r : SignalRt} (h : ∃ k : SlotIx, r.slots[k].quality = .good) :
    ∃ k : SlotIx, r.slots[k].quality = .good ∧ r.merged .min = some r.slots[k].value ∧
      ∀ j : SlotIx, r.slots[j].quality = .good → r.slots[k].value ≤ r.slots[j].value := by
  obtain ⟨k, ks, slots, good⟩ := goodSlots_cons h
  have is : r.merged .min = some ((ks.map fun j => r.slots[j].value).foldl min r.slots[k].value) := by
    simp only [SignalRt.merged, good, List.foldl_map]
  have mem (j : SlotIx) : r.slots[j].quality = .good ↔ j = k ∨ j ∈ ks := by rw [← mem_goodSlots, slots, List.mem_cons]
  obtain ⟨picked, below, all⟩ := foldl_min_spec (fun j => r.slots[j].value) ks r.slots[k].value
  have bound (j : SlotIx) (hj : r.slots[j].quality = .good) :
      (ks.map fun j => r.slots[j].value).foldl min r.slots[k].value ≤ r.slots[j].value := by
    obtain rfl | hj := (mem j).mp hj
    · exact below
    · exact all j hj
  obtain first | ⟨j, hj, later⟩ := picked
  · exact ⟨k, (mem k).mpr (.inl rfl), by rw [is, first], fun j hj => first.symm.trans_le (bound j hj)⟩
  · exact ⟨j, (mem j).mpr (.inr hj), by rw [is, later], fun i hi => later.symm.trans_le (bound i hi)⟩

theorem merged_primary {r : SignalRt} (h : ∃ k : SlotIx, r.slots[k].quality = .good) :
    ∃ k : SlotIx, r.slots[k].quality = .good ∧ r.merged .primary = some r.slots[k].value ∧
      ∀ j : SlotIx, r.slots[j].quality = .good → k ≤ j := by
  obtain ⟨k, ks, slots, good⟩ := goodSlots_cons h
  have sorted := goodSlots_sorted r
  rw [slots] at sorted
  have mem (j : SlotIx) : r.slots[j].quality = .good ↔ j = k ∨ j ∈ ks := by rw [← mem_goodSlots, slots, List.mem_cons]
  refine ⟨k, (mem k).mpr (.inl rfl), by simp only [SignalRt.merged, good], fun j hj => ?_⟩
  obtain rfl | hj := (mem j).mp hj
  · exact le_rfl
  · exact ((List.pairwise_cons.mp sorted).1 j hj).le

/-- The floored mean of a list lies between two of its values. -/
theorem mean_spec {ι : Type} (f : ι → Int) {l : List ι} (hl : l ≠ []) :
    let n : Int := l.length
    let total := (l.map f).sum
    (∃ k ∈ l, f k ≤ total / n) ∧ (∃ k ∈ l, total / n ≤ f k) ∧ n * (total / n) ≤ total ∧ total < n * (total / n + 1) := by
  intro n total
  have positive : 0 < n := Int.natCast_pos.mpr (List.length_pos_iff.mpr hl)
  have lower : n * (total / n) ≤ total := Int.mul_ediv_self_le positive.ne'
  have upper : total < n * (total / n + 1) := by
    rw [mul_comm]
    exact Int.lt_ediv_add_one_mul_self _ positive
  have scaled (v : Int) : (l.map fun _ => v).sum = n * v := by simp [n, List.map_const']
  obtain ⟨k, hk, high⟩ := List.exists_le_of_sum_le hl (fun _ => total / n) f ((scaled _).trans_le lower)
  obtain ⟨j, hj, low⟩ := List.exists_lt_of_sum_lt f (fun _ => total / n + 1) (upper.trans_eq (scaled _).symm)
  exact ⟨⟨j, hj, Int.lt_add_one_iff.mp low⟩, ⟨k, hk, high⟩, lower, upper⟩

theorem merged_mean {r : SignalRt} (h : ∃ k : SlotIx, r.slots[k].quality = .good) :
    r.merged .mean = some ((r.goodSlots.map fun k => r.slots[k].value).sum / (r.goodSlots.length : Int)) := by
  obtain ⟨k, ks, slots, good⟩ := goodSlots_cons h
  rw [slots]
  simp only [SignalRt.merged, good, List.map_map, List.length_map, List.map_cons, List.sum_cons, List.length_cons]
  rfl

theorem merged_last {r : SignalRt} (h : ∃ k : SlotIx, r.slots[k].quality = .good) : r.merged .last = r.lastMerged := by
  obtain ⟨k, ks, -, good⟩ := goodSlots_cons h
  simp only [SignalRt.merged, good]

theorem lastMerged_youngest {r : SignalRt} {k : SlotIx} (hk : r.slots[k].quality = .good)
    (hl : ∀ j : SlotIx, r.lastSlot = some j → r.slots[j].quality ≠ .good)
    (hy : ∀ j : SlotIx, r.slots[j].quality = .good → r.slots[k].age < r.slots[j].age ∨
      (r.slots[k].age = r.slots[j].age ∧ k ≤ j)) : r.lastMerged = some r.slots[k].value := by
  have found : youngest r.good = some r.slots[k] := by
    rw [good_eq]
    exact youngest_of_least (f := fun k => r.slots[k]) (goodSlots_sorted r) ((mem_goodSlots r k).mpr hk)
      fun j hj => hy j ((mem_goodSlots r j).mp hj)
  rw [lastMerged_of_notGood hl, found]
  rfl

/-! ### Quality and value (R14) -/

theorem slotConfigured_iff (st : Settings) (i : SigIx) (k : SlotIx) :
    slotConfigured st i k = true ↔ ∃ e : MapIx, st.sampleMap[e].valid = true ∧ st.sampleMap[e].target = i ∧
      st.sampleMap[e].slot = k := by
  have entries : st.sampleMap.toList = (List.finRange 128).map fun e => st.sampleMap[e] :=
    List.ext_getElem (by simp) fun i h1 h2 => by simp
  rw [slotConfigured, entries, List.any_map, List.any_eq_true]
  simp only [List.mem_finRange, true_and, Function.comp_apply, Bool.and_eq_true, beq_iff_eq, and_assoc]

theorem mem_configuredSlots (st : Settings) (i : SigIx) (k : SlotIx) :
    k ∈ configuredSlots st i ↔ ∃ e : MapIx, st.sampleMap[e].valid = true ∧ st.sampleMap[e].target = i ∧
      st.sampleMap[e].slot = k := by
  rw [configuredSlots, List.mem_filter, slotConfigured_iff]
  exact and_iff_right (mem_indices k)

/-- The quality of a SAMPLED signal by its configured contributors (R14). -/
theorem newQuality_sampled {s : State} {i : SigIx} (hf : s.settings.signals[i].feed = .sampled) :
    let conf (k : SlotIx) : Prop := k ∈ configuredSlots s.settings i
    let good (k : SlotIx) : Prop := s.signals[i].slots[k].quality = .good
    ((∀ k, ¬conf k) ∧ s.newQuality i = .unused) ∨
    ((∃ k, conf k) ∧ (∀ k, conf k → good k) ∧ s.newQuality i = .good) ∨
    ((∃ k, conf k ∧ good k) ∧ (∃ k, conf k ∧ ¬good k) ∧ s.newQuality i = .degraded) ∨
    ((∃ k, conf k) ∧ (∀ k, conf k → ¬good k) ∧ s.newQuality i = .lost) := by
  simp only [State.newQuality, hf, if_true]
  cases configuredSlots s.settings i with
  | nil => exact .inl ⟨fun k => List.not_mem_nil, rfl⟩
  | cons k ks =>
    refine .inr ?_
    dsimp only
    split
    · next all => exact .inl ⟨⟨k, List.mem_cons_self⟩, by simpa using all, rfl⟩
    · next bad =>
      have bad : ∃ j ∈ k :: ks, s.signals[i].slots[j].quality ≠ .good := by simpa [imp_iff_not_or] using bad
      split
      · next any =>
        have any : ∃ j ∈ k :: ks, s.signals[i].slots[j].quality = .good := by simpa using any
        exact .inr (.inl ⟨any, bad, rfl⟩)
      · next none => exact .inr (.inr ⟨⟨k, List.mem_cons_self⟩, by simpa using none, rfl⟩)

theorem quality_iff {conf good : SlotIx → Prop} {q : Quality}
    (h : ((∀ k, ¬conf k) ∧ q = .unused) ∨ ((∃ k, conf k) ∧ (∀ k, conf k → good k) ∧ q = .good) ∨
      ((∃ k, conf k ∧ good k) ∧ (∃ k, conf k ∧ ¬good k) ∧ q = .degraded) ∨
      ((∃ k, conf k) ∧ (∀ k, conf k → ¬good k) ∧ q = .lost)) :
    (q = .unused ↔ ∀ k, ¬conf k) ∧ (q = .good ↔ (∃ k, conf k) ∧ ∀ k, conf k → good k) ∧
      (q = .degraded ↔ (∃ k, conf k ∧ good k) ∧ ∃ k, conf k ∧ ¬good k) ∧
      (q = .lost ↔ (∃ k, conf k) ∧ ∀ k, conf k → ¬good k) := by
  obtain ⟨no, rfl⟩ | ⟨⟨k, hk⟩, all, rfl⟩ | ⟨⟨k, hk, gk⟩, ⟨j, hj, bj⟩, rfl⟩ | ⟨⟨k, hk⟩, bad, rfl⟩ := h
  · exact ⟨iff_of_true rfl no, iff_of_false nofun fun ⟨⟨k, hk⟩, _⟩ => no k hk,
      iff_of_false nofun fun ⟨⟨k, hk, _⟩, _⟩ => no k hk, iff_of_false nofun fun ⟨⟨k, hk⟩, _⟩ => no k hk⟩
  · exact ⟨iff_of_false nofun fun no => no k hk, iff_of_true rfl ⟨⟨k, hk⟩, all⟩,
      iff_of_false nofun fun ⟨_, j, hj, bj⟩ => bj (all j hj), iff_of_false nofun fun ⟨_, bad⟩ => bad k hk (all k hk)⟩
  · exact ⟨iff_of_false nofun fun no => no k hk, iff_of_false nofun fun ⟨_, all⟩ => bj (all j hj),
      iff_of_true rfl ⟨⟨k, hk, gk⟩, j, hj, bj⟩, iff_of_false nofun fun ⟨_, bad⟩ => bad k hk gk⟩
  · exact ⟨iff_of_false nofun fun no => no k hk, iff_of_false nofun fun ⟨_, all⟩ => bad k hk (all k hk),
      iff_of_false nofun fun ⟨⟨j, hj, gj⟩, _⟩ => bad j hj gj, iff_of_true rfl ⟨⟨k, hk⟩, bad⟩⟩

theorem newValue_sampled {s : State} {i : SigIx} (hf : s.settings.signals[i].feed = .sampled) :
    s.newValue i = if s.newQuality i = .unused then 0
      else (s.signals[i].merged s.settings.signals[i].merge).getD s.signals[i].value := if_pos hf

theorem newValue_derived {s : State} {i : SigIx} (hf : s.settings.signals[i].feed ≠ .sampled) :
    s.newValue i = s.signals[i].value := if_neg hf

theorem newQuality_derived {s : State} {i : SigIx} (hf : s.settings.signals[i].feed ≠ .sampled) :
    s.newQuality i = if s.signals[i].slots[(0 : SlotIx)].quality = .good then .good else .lost :=
  (if_neg hf).trans (if_congr beq_iff_eq rfl rfl)

/-! ### Owner writes (R18) -/

theorem derivedSignal_none {s : State} {f : Feed} (h : ∀ i : SigIx, s.settings.signals[i].feed ≠ f) :
    s.derivedSignal f = none := by
  rw [State.derivedSignal, List.head?_eq_none_iff, List.eq_nil_iff_forall_not_mem]
  exact fun i hi => h i (beq_iff_eq.mp ((mem_selectIx _ _ i).mp hi))

theorem head?_of_least {n : Nat} {l : List (Fin n)} {i : Fin n} (hs : l.Pairwise (· < ·)) (hi : i ∈ l)
    (hl : ∀ j, j < i → j ∉ l) : l.head? = some i := by
  cases l with
  | nil => cases hi
  | cons x xs =>
    obtain rfl | hi := List.mem_cons.mp hi
    · rfl
    · exact absurd List.mem_cons_self (hl x ((List.pairwise_cons.mp hs).1 i hi))

theorem derivedSignal_some {s : State} {f : Feed} {i : SigIx} (hi : s.settings.signals[i].feed = f)
    (hl : ∀ j : SigIx, j < i → s.settings.signals[j].feed ≠ f) : s.derivedSignal f = some i :=
  head?_of_least (selectIx_sorted ..) ((mem_selectIx _ _ i).mpr (beq_iff_eq.mpr hi))
    fun j hj hm => hl j hj (beq_iff_eq.mp ((mem_selectIx _ _ j).mp hm))

/-- The signal as its owner wrote it, the readers handed the update. -/
def State.ownerWritten (s : State) (i : SigIx) (v : Int) (raised : Bool) : State :=
  { s with
    signals := s.signals.set i { s.signals[i] with
      value := v, quality := .good, lossRaised := raised
      slots := s.signals[i].slots.set 0 { s.signals[i].slots[(0 : SlotIx)] with quality := .good, age := 0 } }
    work := s.work ++ [.update i v .good .derived] }

theorem ownerWritten_same (s : State) (i : SigIx) (v : Int) (raised : Bool) :
    (s.ownerWritten i v raised).signals[i] = { s.signals[i].written v with lossRaised := raised } :=
  updAt_same s.signals i fun r => { r.written v with lossRaised := raised }

theorem ownerWritten_modSignal (s : State) (i : SigIx) (v : Int) (raised b : Bool) :
    (s.ownerWritten i v raised).modSignal i (fun r => { r with lossRaised := b }) = s.ownerWritten i v b := by
  rw [modSignal_eq, ownerWritten_same]
  exact congrArg (fun l => { s.ownerWritten i v b with signals := l }) (Vector.set_set ..)

theorem publish_some {s : State} {f : Feed} {i : SigIx} (h : s.derivedSignal f = some i) (v : Int) :
    s.publish f v = (s.ownerWritten i v s.signals[i].lossRaised).lossEvents i s.signals[i].quality .good := by
  have told : (s.modSignal i fun r => r.written v).notify i .derived =
      s.ownerWritten i v s.signals[i].lossRaised := by
    rw [State.notify, modSignal_same]
    rfl
  rw [State.publish, h]
  exact congrArg (fun t => State.lossEvents t i s.signals[i].quality .good) told

/-- Settles O46, from the merge by mode, an evaluation with its loss events, and an owner's write. -/
theorem signalQuality : Obligations.SignalQuality := by
  refine ⟨fun r m => ?_, fun s i hf => ?_, fun s i k => ?_, fun s i cause => ?_, fun s i v q cause => ?_, fun s f v => ?_⟩
  · intro good
    refine ⟨fun none => merged_none none m, fun some => ?_⟩
    cases m with
    | mean =>
      have filled : r.goodSlots ≠ [] := by
        obtain ⟨k, ks, slots, -⟩ := goodSlots_cons some
        rw [slots]
        nofun
      obtain ⟨⟨k, hk, low⟩, ⟨j, hj, high⟩, bounds⟩ := mean_spec (fun k : SlotIx => r.slots[k].value) filled
      have count : (r.goodSlots.length : Int) = (r.goodSlots.map fun _ => (1 : Int)).sum := by simp
      refine ⟨_, merged_mean some, ⟨k, j, (mem_goodSlots r k).mp hk, (mem_goodSlots r j).mp hj, low, high⟩,
        absurd rfl, nofun, nofun, nofun, fun _ => ?_, nofun⟩
      rw [count, goodSlots_sum, goodSlots_sum] at bounds ⊢
      exact bounds
    | max =>
      obtain ⟨k, hk, is, all⟩ := merged_max some
      exact ⟨_, is, ⟨k, k, hk, hk, le_rfl, le_rfl⟩, fun _ => ⟨k, hk, rfl⟩, fun _ => all, nofun, nofun, nofun, nofun⟩
    | min =>
      obtain ⟨k, hk, is, all⟩ := merged_min some
      exact ⟨_, is, ⟨k, k, hk, hk, le_rfl, le_rfl⟩, fun _ => ⟨k, hk, rfl⟩, nofun, fun _ => all, nofun, nofun, nofun⟩
    | primary =>
      obtain ⟨k, hk, is, all⟩ := merged_primary some
      refine ⟨_, is, ⟨k, k, hk, hk, le_rfl, le_rfl⟩, fun _ => ⟨k, hk, rfl⟩, nofun, nofun, fun _ j hj first => ?_,
        nofun, nofun⟩
      obtain below | rfl := (all j hj).lt_or_eq
      · exact absurd hk (first k below)
      · rfl
    | last =>
      obtain ⟨k, hk, is⟩ := lastMerged_good some
      have merged := (merged_last some).trans is
      refine ⟨_, merged, ⟨k, k, hk, hk, le_rfl, le_rfl⟩, fun _ => ⟨k, hk, rfl⟩, nofun, nofun, nofun, nofun,
        fun _ j hj => ⟨fun hl => ?_, fun hl hy => ?_⟩⟩
      · exact Option.some.inj (is.symm.trans (lastMerged_of_lastGood hl hj))
      · exact Option.some.inj (is.symm.trans (lastMerged_youngest hj hl hy))
  · intro conf good q
    have mem (k : SlotIx) : k ∈ configuredSlots s.settings i ↔ conf k := mem_configuredSlots _ i k
    have quality := newQuality_sampled hf
    have value : s.newValue i = if q = .unused then 0
      else (s.signals[i].merged s.settings.signals[i].merge).getD s.signals[i].value := newValue_sampled hf
    simp only [mem] at quality
    obtain ⟨unused, good, degraded, lost⟩ := quality_iff quality
    refine ⟨unused, good, degraded, lost, fun hq => value.trans (if_pos hq), fun none hq => ?_, fun v hv hq => ?_⟩
    · rw [value, if_neg hq, merged_none none]
      rfl
    · rw [value, if_neg hq, hv]
      rfl
  · intro c due v u
    have is : exec (.contributorStale i k) s = .next (s.staleContributor i k).settle := rfl
    refine ⟨fun hd => ?_, fun hd hw => is.trans ?_⟩
    · have done := evaluate_evaluated v i .change
      have slot : v.signals[i].slots[k] = { c with quality := .stale } := modSlot_slot ..
      refine ⟨is.trans (congrArg (fun t => Host.Outcome.next (State.settle t)) (if_pos ((staleDue_iff s i k).mpr hd))),
        (congrArg (fun l : Vector Contributor 3 => l[k]) done.slots).trans slot, done.quality, done.value,
        fun hf hk => ⟨done.quality.trans ?_, done.value.trans ?_⟩⟩
      · subst hk
        have stale : v.signals[i].slots[(0 : SlotIx)].quality = .stale := (congrArg Contributor.quality slot :)
        exact (newQuality_derived (s := v) hf).trans (if_neg fun hg => SlotQuality.noConfusion (stale.symm.trans hg))
      · exact (newValue_derived (s := v) hf).trans (congrArg SignalRt.value (modSignal_same ..) :)
    · have kept : s.staleContributor i k = s := if_neg fun h => hd ((staleDue_iff s i k).mp h)
      rw [kept, settle_nil hw]
  · intro r v q code set usable lost back
    have is : s.evaluate i cause = (set id).lossEvents i r.quality q := evaluate_eq s i cause
    have raised : (set id).signals[i].lossRaised = r.lossRaised := (congrArg SignalRt.lossRaised (evaluated_same s i cause id) :)
    refine ⟨fun hl => ?_, fun hb => ?_, fun hl hb => ?_⟩
    · rw [is, lossEvents_lost hl.1 hl.2]
      exact congrArg (fun t => State.raiseLoss t i) (evaluated_modSignal s i cause _)
    · rw [is, lossEvents_back hb.1 hb.2.1 (raised.trans hb.2.2)]
      exact congrArg (fun t => State.raiseRecovery t i) (evaluated_modSignal s i cause _)
    · rw [is]
      exact lossEvents_none hl fun h => hb ⟨h.1, h.2.1, raised.symm.trans h.2.2⟩
  · exact ⟨nodup_readerOrder _, mem_readerOrder _, fun h => by rw [h]; rfl, rfl⟩
  · refine ⟨fun none => by rw [State.publish, derivedSignal_none none], fun i hi least => ?_⟩
    intro r code set
    have is := publish_some (derivedSignal_some hi least) v
    have raised : (s.ownerWritten i v r.lossRaised).signals[i].lossRaised = r.lossRaised :=
      (congrArg SignalRt.lossRaised (ownerWritten_same ..) :)
    split
    · next back =>
      rw [is, lossEvents_back back.1 (.inl rfl) (raised.trans back.2)]
      exact congrArg (fun t => State.raiseRecovery t i) (ownerWritten_modSignal ..)
    · next kept =>
      rw [is]
      exact lossEvents_none (fun h => absurd h.2 nofun) fun h => kept ⟨h.1, raised.symm.trans h.2.2⟩

end Sys2Proof.Machine
end

section
/-! PROOFS. O57: claims (R67), the Claim Queue (R68), the head test (R69), the shed pass (R72), shed channels (R74) and
the shed of one tag. -/

namespace Sys2Proof.Machine

/-! ### The record of a tag -/

theorem dropRank_tag (a : AlaRt) (t k : TagIx) : ∃ r, (a.dropRank t).tags[k] = { a.tags[k] with rank := r } := by
  unfold AlaRt.dropRank
  split
  · exact ⟨_, rfl⟩
  · simp only [updAt_get]
    split
    · next h =>
      subst h
      exact ⟨_, by rw [Fin.getElem_fin, Vector.getElem_map]; rfl⟩
    · exact ⟨_, by rw [Fin.getElem_fin, Vector.getElem_map]; rfl⟩

theorem giveGrant_given (a : AlaRt) (t : TagIx) (n : Nat) (now : RingTime) :
    ((a.giveGrant t n now).tags[t]).grant = n ∧ ((a.giveGrant t n now).tags[t]).time = now := by
  have tag := updAt_same (a.dropRank t).tags t
    fun r => { r with grant := n, time := now, rank := some ((a.dropRank t).ranked + 1) }
  exact ⟨congrArg TagRt.grant tag, congrArg TagRt.time tag⟩

theorem giveGrant_other (a : AlaRt) {t k : TagIx} (h : k ≠ t) (n : Nat) (now : RingTime) :
    ∃ r, (a.giveGrant t n now).tags[k] = { a.tags[k] with rank := r } := by
  obtain ⟨r, hr⟩ := dropRank_tag a t k
  exact ⟨r, (updAt_other _ _ (Ne.symm h)).trans hr⟩

theorem giveGrant_shedding (a : AlaRt) (t k : TagIx) (n : Nat) (now : RingTime) :
    (a.giveGrant t n now).tags[k].shedding = a.tags[k].shedding := by
  by_cases h : k = t
  · subst h
    obtain ⟨r, hr⟩ := dropRank_tag a k k
    exact (congrArg TagRt.shedding (updAt_same ..)).trans (congrArg TagRt.shedding hr :)
  · obtain ⟨r, hr⟩ := giveGrant_other a h n now
    exact (congrArg TagRt.shedding hr :)

theorem clearGrant_queue (a : AlaRt) (t : TagIx) :
    (a.clearGrant t).queue = a.queue.map fun q => if q.tag = t then { q with increase := false } else q := by
  rw [← AlaRt.dropRank_queue a t]
  rfl

/-! ### Claims (R67) -/

theorem queued_iff (a : AlaRt) (t : TagIx) : a.queued t = true ↔ ∃ q ∈ a.queue, q.tag = t := by
  rw [AlaRt.queued, List.any_eq_true]
  exact exists_congr fun q => and_congr_right' beq_iff_eq

theorem claimTag_unusable {s : State} {t : TagIx}
    (h : ¬(s.settings.tags[t].valid = true ∧ ¬∃ q ∈ s.ala.queue, q.tag = t)) (n : Nat) (who : Claimant) :
    s.claimTag t n who = (s, .refused) := by
  rw [← queued_iff] at h
  exact if_pos (by grind)

theorem claimTag_usable {s : State} {t : TagIx} (hv : s.settings.tags[t].valid = true)
    (hw : ¬∃ q ∈ s.ala.queue, q.tag = t) (n : Nat) (who : Claimant) :
    s.claimTag t n who = if (s.tag t).grant = 0 then
        if n = 0 then (s, .granted) else s.joinQueue t n who false
      else if n = 0 then (s.freeTag t, .granted)
      else if n ≤ (s.tag t).grant then ((s.modTag t fun r => { r with grant := n }).headTest, .granted)
      else if s.ala.sum - (s.tag t).grant + n ≤ s.budget ∧ s.ala.queue = [] then
        (s.modAla fun a => a.giveGrant t n s.rif.ringTime, .granted)
      else s.joinQueue t n who true := by
  rw [← queued_iff] at hw
  have valid : (!s.settings.tags[t].valid) = false := by rw [hv]; rfl
  have free : s.ala.queued t = false := Bool.eq_false_iff.mpr hw
  exact if_neg (by rw [valid, free]; nofun)

theorem joinQueue_answer (s : State) (t : TagIx) (n : Nat) (who : Claimant) (inc : Bool) :
    let p := s.joinQueue t n who inc
    p.2 ≠ .refused ∧ (p.2 = .queued ↔ ∃ q ∈ p.1.ala.queue, q.tag = t) := by
  intro p
  have answer : p.2 = if p.1.ala.queued t = true then .queued else .granted := rfl
  rw [answer, ← queued_iff]
  split
  · next h => exact ⟨nofun, iff_of_true rfl h⟩
  · next h => exact ⟨nofun, iff_of_false nofun h⟩

theorem claimTag_answered {s : State} {t : TagIx} (hv : s.settings.tags[t].valid = true)
    (hw : ¬∃ q ∈ s.ala.queue, q.tag = t) (n : Nat) (who : Claimant) : (s.claimTag t n who).2 ≠ .refused := by
  rw [claimTag_usable hv hw]
  split
  · split
    · nofun
    · exact (joinQueue_answer ..).1
  · split
    · nofun
    · split
      · nofun
      · split
        · nofun
        · exact (joinQueue_answer ..).1

theorem enqueue_empty {s : State} (h : s.ala.queue = []) (q : Claim) :
    s.enqueue q = { s with ala := { s.ala with queue := [q] } } := by
  have queue (p : Claim → Bool) : s.ala.queue.takeWhile p ++ q :: s.ala.queue.dropWhile p = [q] := by rw [h]; rfl
  exact congrArg (fun l => { s with ala := { s.ala with queue := l } }) (queue _)

/-! ### The Claim Queue (R68) -/

theorem enqueue_between (s : State) (q : Claim) :
    let cls (c : Claim) := s.settings.tags[c.tag].cls
    ∃ a b, s.ala.queue = a ++ b ∧ (s.enqueue q).ala.queue = a ++ q :: b ∧ (∀ c ∈ a, cls c ≤ cls q) ∧
      ∀ c ∈ b.head?, cls q < cls c := by
  intro cls
  refine ⟨_, _, List.takeWhile_append_dropWhile.symm, rfl, fun c hc => ?_, fun c hc => ?_⟩
  · exact of_decide_eq_true (p := cls c ≤ cls q) (List.mem_takeWhile_imp hc :)
  · have above := List.head?_dropWhile_not (fun e => decide (cls e ≤ cls q)) s.ala.queue
    rw [Option.mem_def.mp hc] at above
    exact not_le.mp (of_decide_eq_false above)

/-! ### The head test (R69) -/

theorem fits_iff (s : State) (q : Claim) :
    s.fits q = true ↔ s.ala.sum - (if q.increase then (s.tag q.tag).grant else 0) + q.amount ≤ s.budget :=
  decide_eq_true_iff

theorem headTest_nil {s : State} (h : s.ala.queue = []) (own : Option TagIx) : s.headTest own = s := by
  rw [State.headTest, h]
  rfl

theorem headTestUpTo_cons {s : State} {q : Claim} {rest : List Claim} (h : s.ala.queue = q :: rest)
    (own : Option TagIx) (n : Nat) :
    headTestUpTo own (n + 1) s =
      if s.fits q = true ∧ (s.tag q.tag).shedding = false then headTestUpTo own n (s.grantHead q own) else s := by
  rw [headTestUpTo, h]
  exact if_congr (by simp) rfl rfl

theorem grantHead_queue {s : State} {q : Claim} {rest : List Claim} (h : s.ala.queue = q :: rest)
    (own : Option TagIx) : (s.grantHead q own).ala.queue = rest := by
  rw [grantHead_ala]
  exact congrArg List.tail h

theorem headTest_cons {s : State} {q : Claim} {rest : List Claim} (h : s.ala.queue = q :: rest) (own : Option TagIx) :
    s.headTest own =
      if s.fits q = true ∧ (s.tag q.tag).shedding = false then (s.grantHead q own).headTest own else s := by
  have length : s.ala.queue.length = (s.grantHead q own).ala.queue.length + 1 := by rw [grantHead_queue h, h]; rfl
  rw [State.headTest, length, headTestUpTo_cons h, State.headTest]

/-- The head as its grant leaves ALA, before its requester acts. -/
def State.headGiven (s : State) (q : Claim) (rest : List Claim) : State :=
  { s with ala := { s.ala.giveGrant q.tag q.amount s.rif.ringTime with queue := rest } }

theorem grantHead_eq {s : State} {q : Claim} {rest : List Claim} (h : s.ala.queue = q :: rest) (own : Option TagIx) :
    s.grantHead q own = if own = some q.tag then s.headGiven q rest else (s.headGiven q rest).takeGrant q.who q.tag := by
  have given : (s.modAla fun a => { a.giveGrant q.tag q.amount s.rif.ringTime with queue := a.queue.tail }) =
      s.headGiven q rest :=
    congrArg (fun l => { s with ala := { s.ala.giveGrant q.tag q.amount s.rif.ringTime with queue := l } })
      (congrArg List.tail h)
  rw [State.grantHead, given]

theorem takeGrant_eq (s : State) (who : Claimant) (t : TagIx) :
    s.takeGrant who t = match who with
      | .chan c => if (s.chan c).state = .waiting .claim then s.completeWait c else s
      | .clc => s.clcGranted t := by
  cases who <;> rfl

theorem grantHead_tag (s : State) (q : Claim) (own : Option TagIx) :
    ((s.grantHead q own).tag q.tag).grant = q.amount ∧ ((s.grantHead q own).tag q.tag).time = s.rif.ringTime ∧
      (∀ t : TagIx, t ≠ q.tag → ((s.grantHead q own).tag t).grant = (s.tag t).grant ∧
        ((s.grantHead q own).tag t).time = (s.tag t).time) ∧
      ∀ t : TagIx, ((s.grantHead q own).tag t).shedding = (s.tag t).shedding := by
  have tag (t : TagIx) : (s.grantHead q own).tag t = (s.ala.giveGrant q.tag q.amount s.rif.ringTime).tags[t] := by
    rw [State.tag, grantHead_ala]
  obtain ⟨grant, time⟩ := giveGrant_given s.ala q.tag q.amount s.rif.ringTime
  refine ⟨(congrArg TagRt.grant (tag _)).trans grant, (congrArg TagRt.time (tag _)).trans time, fun t ht => ?_,
    fun t => (congrArg TagRt.shedding (tag t)).trans (giveGrant_shedding ..)⟩
  obtain ⟨r, hr⟩ := giveGrant_other s.ala ht q.amount s.rif.ringTime
  have is := (tag t).trans hr
  exact ⟨(congrArg TagRt.grant is :), (congrArg TagRt.time is :)⟩

/-- A head test grants heads in their order, and stops at one that does not fit or whose tag is being shed. -/
theorem headTestUpTo_granted (own : Option TagIx) (n : Nat) (s : State) (hn : s.ala.queue.length ≤ n)
    (hd : (s.ala.queue.map Claim.tag).Nodup) :
    let u := headTestUpTo own n s
    ∃ l, s.ala.queue = l ++ u.ala.queue ∧
      (∀ q ∈ l, (u.tag q.tag).grant = q.amount ∧ (u.tag q.tag).time = s.rif.ringTime ∧
        (s.tag q.tag).shedding = false) ∧
      (∀ q rest, u.ala.queue = q :: rest → (s.tag q.tag).shedding = true ∨ ¬u.fits q = true) ∧
      ∀ t : TagIx, (∀ q ∈ l, q.tag ≠ t) → (u.tag t).grant = (s.tag t).grant ∧ (u.tag t).time = (s.tag t).time := by
  induction n generalizing s with
  | zero =>
    have empty : s.ala.queue = [] := List.eq_nil_of_length_eq_zero (Nat.le_zero.mp hn)
    exact ⟨[], rfl, nofun, fun q rest h => absurd (empty.symm.trans h) nofun, fun t _ => ⟨rfl, rfl⟩⟩
  | succ n ih =>
    cases hq : s.ala.queue with
    | nil =>
      have stays : headTestUpTo own (n + 1) s = s := by rw [headTestUpTo, hq]
      rw [stays]
      exact ⟨[], by rw [hq]; rfl, nofun, fun q rest h => absurd (hq.symm.trans h) nofun, fun t _ => ⟨rfl, rfl⟩⟩
    | cons q rest =>
      rw [headTestUpTo_cons hq]
      rw [hq] at hn hd
      obtain ⟨fresh, nodup⟩ := List.nodup_cons.mp hd
      split
      · next fits =>
        have queue := grantHead_queue hq own
        have time : (s.grantHead q own).rif.ringTime = s.rif.ringTime :=
          (congrArg (fun t : State => t.rif.ringTime) (calm_grantHead s q rest own hq fits.1).eq :)
        obtain ⟨grantHere, timeHere, elsewhere, shedding⟩ := grantHead_tag s q own
        obtain ⟨l, split, granted, stops, others⟩ := ih (s.grantHead q own)
          (by rw [queue]; exact Nat.le_of_succ_le_succ hn) (by rw [queue]; exact nodup)
        rw [queue] at split
        have untouched : ∀ p ∈ l, p.tag ≠ q.tag := fun p hp e =>
          fresh (e ▸ List.mem_map_of_mem (split ▸ List.mem_append_left _ hp))
        refine ⟨q :: l, by rw [split]; rfl, fun p hp => ?_, fun p tail h => ?_, fun t ht => ?_⟩
        · obtain rfl | hp := List.mem_cons.mp hp
          · obtain ⟨sameGrant, sameTime⟩ := others p.tag untouched
            exact ⟨sameGrant.trans grantHere, sameTime.trans timeHere, fits.2⟩
          · obtain ⟨grant, at_, idle⟩ := granted p hp
            exact ⟨grant, at_.trans time, (shedding p.tag).symm.trans idle⟩
        · rw [← shedding p.tag]
          exact stops p tail h
        · obtain ⟨grant, at_⟩ := others t fun p hp => ht p (List.mem_cons_of_mem _ hp)
          obtain ⟨grant', at'⟩ := elsewhere t (ht q List.mem_cons_self).symm
          exact ⟨grant.trans grant', at_.trans at'⟩
      · next stays =>
        refine ⟨[], hq.symm, nofun, fun p tail h => ?_, fun t _ => ⟨rfl, rfl⟩⟩
        obtain ⟨rfl, -⟩ := List.cons.inj (hq.symm.trans h)
        by_cases idle : (s.tag q.tag).shedding = true
        · exact .inl idle
        · exact .inr fun fits => stays ⟨fits, Bool.not_eq_true _ ▸ idle⟩

/-- The claim that stands alone in the Claim Queue before the head test. -/
theorem joinQueue_alone {s : State} (h : s.ala.queue = []) (t : TagIx) (n : Nat) (who : Claimant) :
    let q : Claim := { tag := t, amount := n, who := who, increase := false }
    let x : State := { s with ala := { s.ala with queue := [q] } }
    (s.joinQueue t n who false).1 =
      if s.ala.sum + n ≤ s.budget ∧ (s.tag t).shedding = false then x.headGiven q [] else x := by
  intro q x
  have queued : (s.joinQueue t n who false).1 = x.headTest (some t) :=
    congrArg (fun y => State.headTest y (some t)) (enqueue_empty h q)
  have fits : x.fits q = true ↔ s.ala.sum + n ≤ s.budget := fits_iff x q
  have given : x.grantHead q (some t) = x.headGiven q [] := (grantHead_eq (s := x) rfl _).trans (if_pos rfl)
  rw [queued, headTest_cons (s := x) rfl, given, headTest_nil rfl]
  exact if_congr (and_congr_left' fits) rfl rfl

theorem joinQueue_fits {s : State} {t : TagIx} {n : Nat} (h : s.ala.queue = []) (hs : (s.tag t).shedding = false)
    (hf : s.ala.sum + n ≤ s.budget) (who : Claimant) :
    let p := s.joinQueue t n who false
    p.2 = .granted ∧ (p.1.tag t).grant = n ∧ (p.1.tag t).time = s.rif.ringTime ∧ p.1.ala.queue = [] := by
  intro p
  have given := (joinQueue_alone h t n who).trans (if_pos ⟨hf, hs⟩)
  have empty : p.1.ala.queue = [] := by rw [given]; rfl
  have answer : p.2 = if p.1.ala.queued t = true then .queued else .granted := rfl
  have free : p.1.ala.queued t = false := by rw [AlaRt.queued, empty]; rfl
  obtain ⟨grant, time⟩ := giveGrant_given
    { s.ala with queue := [{ tag := t, amount := n, who := who, increase := false }] } t n s.rif.ringTime
  refine ⟨answer.trans (if_neg (Bool.eq_false_iff.mp free)), ?_, ?_, empty⟩
  · rw [given]
    exact grant
  · rw [given]
    exact time

theorem joinQueue_waits {s : State} {t : TagIx} {n : Nat} (h : s.ala.queue = []) (hf : s.budget < s.ala.sum + n)
    (who : Claimant) :
    let p := s.joinQueue t n who false
    p.2 = .queued ∧ p.1.ala.queue = [{ tag := t, amount := n, who := who, increase := false }] := by
  intro p
  have waits := (joinQueue_alone h t n who).trans (if_neg fun g => hf.not_ge g.1)
  have queue : p.1.ala.queue = [{ tag := t, amount := n, who := who, increase := false }] := by rw [waits]
  exact ⟨(joinQueue_answer ..).2.mpr ⟨_, by rw [queue]; exact List.mem_singleton_self _, rfl⟩, queue⟩

/-! ### The shed pass (R72) -/

/-- A tag is not shed before another: its class is lower, or the same with a rank that is not higher. -/
def State.shedsAfter (s : State) (k t : TagIx) : Prop :=
  s.settings.tags[k].cls < s.settings.tags[t].cls ∨
    (s.settings.tags[k].cls = s.settings.tags[t].cls ∧ (s.tag k).rank.getD 0 ≤ (s.tag t).rank.getD 0)

theorem shedsAfter_refl (s : State) (t : TagIx) : s.shedsAfter t t := .inr ⟨rfl, le_rfl⟩

theorem shedsAfter_trans {s : State} {i j k : TagIx} (h : s.shedsAfter i j) (g : s.shedsAfter j k) :
    s.shedsAfter i k := by
  unfold State.shedsAfter at *
  omega

/-- The choice of the next tag to shed between the best so far and another one. -/
def State.shedChoice (s : State) (best : Option TagIx) (t : TagIx) : Option TagIx :=
  let c := s.settings.tags[t].cls
  if c = 0 then best
  else
    match best with
    | none => some t
    | some b =>
      let d := s.settings.tags[b].cls
      if d < c ∨ (d = c ∧ (s.tag b).rank.getD 0 < (s.tag t).rank.getD 0) then some t else best

theorem nextShed_eq (s : State) :
    s.nextShed = (selectIx (fun r : TagRt => r.grant != 0) s.ala.tags).foldl s.shedChoice none := rfl

theorem shedChoice_none (s : State) (t : TagIx) :
    s.shedChoice none t = if s.settings.tags[t].cls = 0 then none else some t := rfl

theorem shedChoice_some {s : State} {b : TagIx} (hb : s.settings.tags[b].cls ≠ 0) (t : TagIx) :
    ∃ x, s.shedChoice (some b) t = some x ∧ s.settings.tags[x].cls ≠ 0 ∧ s.shedsAfter b x ∧ s.shedsAfter t x := by
  unfold State.shedChoice
  dsimp only
  split
  · next h0 => exact ⟨b, rfl, hb, shedsAfter_refl s b, .inl (by rw [h0]; exact Fin.pos_of_ne_zero hb)⟩
  · next h0 =>
    split
    · next later => exact ⟨t, rfl, h0, later.imp_right fun h => ⟨h.1, h.2.le⟩, shedsAfter_refl s t⟩
    · next earlier =>
      refine ⟨b, rfl, hb, shedsAfter_refl s b, ?_⟩
      unfold State.shedsAfter
      omega

theorem foldl_shedChoice_some {s : State} {b : TagIx} (hb : s.settings.tags[b].cls ≠ 0) (l : List TagIx) :
    ∃ x, l.foldl s.shedChoice (some b) = some x ∧ s.settings.tags[x].cls ≠ 0 ∧ s.shedsAfter b x ∧
      ∀ k ∈ l, s.shedsAfter k x := by
  induction l generalizing b with
  | nil => exact ⟨b, rfl, hb, shedsAfter_refl s b, nofun⟩
  | cons t l ih =>
    obtain ⟨y, chosen, hy, best, new⟩ := shedChoice_some hb t
    obtain ⟨x, found, hx, above, all⟩ := ih hy
    refine ⟨x, by rw [List.foldl_cons, chosen, found], hx, shedsAfter_trans best above, fun k hk => ?_⟩
    obtain rfl | hk := List.mem_cons.mp hk
    · exact shedsAfter_trans new above
    · exact all k hk

theorem foldl_shedChoice_none {s : State} {l : List TagIx} {x : TagIx} (h : l.foldl s.shedChoice none = some x) :
    s.settings.tags[x].cls ≠ 0 ∧ ∀ k ∈ l, s.shedsAfter k x := by
  induction l with
  | nil => cases h
  | cons t l ih =>
    rw [List.foldl_cons, shedChoice_none] at h
    split at h
    · next h0 =>
      obtain ⟨hx, all⟩ := ih h
      refine ⟨hx, fun k hk => ?_⟩
      obtain rfl | hk := List.mem_cons.mp hk
      · exact .inl (by rw [h0]; exact Fin.pos_of_ne_zero hx)
      · exact all k hk
    · next h0 =>
      obtain ⟨y, found, hy, first, all⟩ := foldl_shedChoice_some h0 l
      cases found.symm.trans h
      refine ⟨hy, fun k hk => ?_⟩
      obtain rfl | hk := List.mem_cons.mp hk
      · exact first
      · exact all k hk

theorem nextShed_last {s : State} {t : TagIx} (h : s.nextShed = some t) (k : TagIx) (hk : (s.tag k).grant ≠ 0) :
    s.shedsAfter k t :=
  (foldl_shedChoice_none ((nextShed_eq s).symm.trans h)).2 k ((mem_selectIx _ _ _).mpr (bne_iff_ne.mpr hk))

theorem sheddable_iff (s : State) (t : TagIx) :
    s.sheddable t = true ↔ (s.tag t).grant ≠ 0 ∧ s.settings.tags[t].cls ≠ 0 := by
  simp [State.sheddable]

theorem nextShed_eq_none (s : State) :
    s.nextShed = none ↔ ∀ t, (s.tag t).grant ≠ 0 → s.settings.tags[t].cls = 0 := by
  refine ⟨fun h t hg => nextShed_none h t hg, fun h => Option.eq_none_iff_forall_ne_some.mpr fun t ht => ?_⟩
  obtain ⟨granted, cls⟩ := (sheddable_iff s t).mp (nextShed_sheddable ht)
  exact cls (h t granted)

/-! ### The shed of one tag -/

theorem requestShed_eq (s : State) (t : TagIx) (c : ChanIx) :
    s.requestShed t c =
      if (s.chan c).state ≠ .masked ∧ s.settings.chans[c].owner = .allocator then
        (s.request c .allocator).modTag t fun r => { r with shedding := true }
      else s.request c .allocator := by
  refine if_congr ?_ rfl rfl
  rw [Bool.and_eq_true, Bool.not_eq_true', Bool.eq_false_iff, Ne, isMasked_iff, beq_iff_eq]
  rfl

theorem cnvShed_eq (s : State) (t : TagIx) :
    s.cnvShed t = if s.part = .operating ∧ s.settings.conv.shedTrips = true ∧ s.cnv.state ≠ .off ∧
      s.cnv.state ≠ .tripped then s.tripCnv .shed t else s := by
  refine if_congr ?_ rfl rfl
  simp [operating_iff, and_assoc]

theorem yawShed_inhibits (s : State) (t : TagIx) : (s.yawShed t).yaw.inhibit.shed = true := by
  unfold State.yawShed
  dsimp only
  split
  · rw [stopYaw_yaw, stopped_inhibit]
    rfl
  · rfl

theorem yawShed_stopsMove {s : State} {t : TagIx} (ht : s.settings.yaw.tag = t) (hd : s.yaw.state = .driving) :
    (s.yawShed t).yaw.state ≠ .driving ∧ (s.yawShed t).yaw.stopCause = .shed ∧
      (s.yawShed t).yaw.faultPending = false := by
  have stops : s.yawShed t = (s.putInhibit .shed true).stopYaw .shed false := if_pos ⟨ht, hd⟩
  rw [stops, stopYaw_yaw]
  cases (s.putInhibit .shed true).isMasked (s.putInhibit .shed true).settings.yaw.stop with
  | true => exact ⟨nofun, rfl, rfl⟩
  | false => exact ⟨nofun, rfl, rfl⟩

/-- Settles O57, from the claim by the state of its tag, the head test and the shed pass. -/
theorem claimsAndSheds : Obligations.ClaimsAndSheds := by
  refine ⟨fun s t n who => ?_, enqueue_between, fun s own => ?_, fun s => ?_, fun s c => ?_, fun s t => ?_⟩
  · intro g p waits usable
    refine ⟨fun h => claimTag_unusable h n who, fun h => ?_⟩
    have claim : p = _ := claimTag_usable h.1 h.2 n who
    have joins (inc : Bool) (hp : p = s.joinQueue t n who inc) :
        p.1 = (s.enqueue { tag := t, amount := n, who := who, increase := inc }).headTest (some t) ∧
          (p.2 = .queued ↔ ∃ q ∈ p.1.ala.queue, q.tag = t) := by
      rw [hp]
      exact ⟨rfl, (joinQueue_answer ..).2⟩
    refine ⟨?_, fun hg hn => claim.trans ((if_pos hg).trans (if_pos hn)),
      fun hg hn => claim.trans ((if_neg hg).trans (if_pos hn)), fun hn hle => ?_, fun hg hn hq hf => ?_,
      fun hg hn hf => ?_, fun hg hn => ?_⟩
    · exact claimTag_answered h.1 h.2 n who
    · exact claim.trans ((if_neg (hn.trans_le hle).ne').trans ((if_neg hn.ne').trans (if_pos hle)))
    · have given := claim.trans ((if_neg hg.ne').trans ((if_neg (hg.trans hn).ne').trans ((if_neg hn.not_ge).trans
        (if_pos ⟨hf, hq⟩))))
      obtain ⟨grant, time⟩ := giveGrant_given s.ala t n s.rif.ringTime
      rw [given]
      exact ⟨rfl, grant, time, (AlaRt.giveGrant_queue ..).trans hq⟩
    · exact joins true (claim.trans ((if_neg hg.ne').trans ((if_neg (hg.trans hn).ne').trans ((if_neg hn.not_ge).trans
        (if_neg fun h => hf h.symm)))))
    · have joined : p = s.joinQueue t n who false := claim.trans ((if_pos hg).trans (if_neg hn.ne'))
      obtain ⟨is, answer⟩ := joins false joined
      refine ⟨is, answer, fun hq hs hf => ?_, fun hq hf => ?_⟩
      · rw [joined]
        exact joinQueue_fits hq hs hf who
      · rw [joined]
        exact joinQueue_waits hq hf who
  · intro u
    refine ⟨fun h => headTest_nil h own, fun q rest hq => ?_, fun law => ?_⟩
    · intro fits given told
      have head : s.grantHead q own = told := by
        rw [grantHead_eq hq, takeGrant_eq]
        exact if_congr Iff.rfl rfl (by cases q.who <;> rfl)
      have test := headTest_cons hq own
      have may : s.fits q = true ∧ (s.tag q.tag).shedding = false ↔ fits :=
        (and_congr_left' (fits_iff s q)).trans and_comm
      obtain ⟨rank, ranks⟩ := AlaRt.giveGrant_rank s.ala q.tag q.amount s.rif.ringTime
      obtain ⟨grant, time⟩ := giveGrant_given s.ala q.tag q.amount s.rif.ringTime
      refine ⟨fun hf => test.trans (if_neg (mt may.mp hf)), fun hf => ⟨?_, ?_⟩, grant, time, rank, fun t ht => ⟨?_, ?_⟩⟩
      · rw [← head]
        exact test.trans (if_pos (may.mpr hf))
      · rw [← head, grantHead_ala]
        exact congrArg (fun l => { s.ala.giveGrant q.tag q.amount s.rif.ringTime with queue := l })
          (congrArg List.tail hq)
      · exact (AlaRt.giveGrant_grant ..).trans (if_neg (Ne.symm ht))
      · exact (ranks t ht).trans ((AlaRt.dropRank_rank ..).trans (if_neg (Ne.symm ht)))
    · obtain ⟨l, split, granted, stops, others⟩ := headTestUpTo_granted own _ s le_rfl law.1
      refine ⟨l, split, granted, fun q rest h => (stops q rest h).imp_right fun hf => ?_, fun t ht => (others t ht).1⟩
      rw [fits_iff] at hf
      exact not_le.mp hf
  · intro u cls
    refine ⟨fun t ht => ?_, nextShed_eq_none s, fun h => ?_, fun hb hn => ?_, fun t hb hn => shedPass_next hb hn, ?_⟩
    · obtain ⟨granted, class0⟩ := (sheddable_iff s t).mp (nextShed_sheddable ht)
      exact ⟨granted, class0, nextShed_last ht⟩
    · exact (shedPass_end (.inl h)).trans (congrArg State.headTest (if_neg h.not_gt))
    · exact (shedPass_end (.inr hn)).trans (congrArg State.headTest (if_pos hb))
    · have settings : u.settings = s.settings := (reach_shedPass s).settings
      have within := shedPass_budget s
      rw [State.budget, settings]
      exact within
  · refine ⟨_, fun t => ?_, rfl, rfl⟩
    rw [tabulate_get]
    split
    · rfl
    · rfl
  · intro cfg a cleared asked
    refine ⟨fun k => ?_, AlaRt.clearGrant_rank_same .., fun q hq ht => ?_, ?_, cnvShed_eq s t, yawShed_inhibits s t, yawShed_stopsMove⟩
    · exact (AlaRt.clearGrant_grant ..).trans (if_congr eq_comm rfl rfl)
    · rw [clearGrant_queue] at hq
      obtain ⟨q', -, rfl⟩ := List.mem_map.mp hq
      split at ht
      · next same => rw [if_pos same]
      · next other => exact absurd ht other
    · have shed : s.shedFrom t = asked := by
        have mode : (s.ala.clearGrant t).mode = s.ala.mode := AlaRt.clearGrant_mode ..
        rw [State.shedFrom, mode]
        cases hs : cfg.shed with
        | none =>
          simp only [asked, hs]
          rfl
        | some c =>
          have evt : Evt ({ s with ala := a } : State) cleared := evt_raise ..
          have chan : cleared.chan c = s.chan c := chan_of_seq evt.seq c
          have requested := requestShed_eq cleared t c
          rw [chan, evt.settings] at requested
          simp only [asked, hs]
          exact requested
      rw [shedTag_eq, shed]
      cases cfg.owner <;> rfl

end Sys2Proof.Machine
end

section
/-! PROOFS. The stored writes that move other blocks, first half: writes of the Sample Map, the signal records, the Limit
Table and the capacities (R2, R3, R12, R35, R64). -/

namespace Sys2Proof.Machine

/-! ### A write that passes its checks -/

theorem judge_passes {s : State} {checks : List (Bool × Status)} (h : ∀ c ∈ checks, c.1 = false) (clamped : Bool)
    (t : State) : s.judge checks clamped t = (t, if clamped then .okClamped else .ok) := by
  have none : checks.find? Prod.fst = none := List.find?_eq_none.mpr fun c hc => Bool.eq_false_iff.mp (h c hc)
  rw [State.judge, none]

/-- A stored write of one whole entry, with the hand-overs it makes. -/
theorem writeAt_stored {s t : State} (ready : Ready s) (src : Node) {r : Region} {n stride : Nat}
    (hr : r.size = n * stride) (i : Fin n) {len : Octet} {d : List Word} (hl : d.length = len.toNat)
    (h1 : 1 ≤ len.toNat) (h2 : len.toNat ≤ 32) (h : len.toNat ≤ stride)
    (hw : s.writeRegion r (stride * i) d = (t, .ok)) :
    s.writeAt src (addressIn r (wordNat (stride * i))) len d =
      (t.answered (writeAnswer src r (stride * i) .ok)).settle := by
  obtain ⟨off, inside⟩ := entry_offset hr i h h1
  have written := writeAt_addressIn (st := .ok) (t := t) (off := wordNat (stride * i)) ready src r hl h1 h2
    (by rw [off]; exact inside) (by rw [off]; exact hw)
  rwa [off] at written

/-- A table of which one entry is looked at beside the one just stored. -/
theorem any_zip_set {α : Type} {n : Nat} (v : Vector α n) (i : Fin n) (x : α) (p : α → Bool) :
    (((indices n).zip (v.set i x).toList).any fun y => y.1 != i && p y.2) = false ↔
      ∀ j : Fin n, j ≠ i → p v[j] = false := by
  rw [indices_zip, List.any_map, List.any_eq_false]
  have other {j : Fin n} (hj : j ≠ i) : (v.set i x)[j] = v[j] := updAt_other v (fun _ => x) (Ne.symm hj)
  refine ⟨fun h j hj => ?_, fun h j _ => ?_⟩
  · have := h j (mem_indices j)
    rw [Function.comp_apply, other hj] at this
    simpa [hj] using this
  · by_cases hj : j = i
    · simp [hj]
    · rw [Function.comp_apply, other hj, h j hj, Bool.and_false]
      nofun

/-! ### The Sample Map (R2) -/

theorem clashes_one {α : Type} [BEq α] [LawfulBEq α] (v : Vector SampleEntry 128) (f : SampleEntry → α) (i : MapIx)
    {x : SampleEntry} (h : x.valid = true → ∀ j : MapIx, j ≠ i → v[j].valid = true → f v[j] ≠ f x) :
    clashes (storeEntries v [(i, x)]) f [(i, x)] = false := by
  show ((x.valid && (((indices 128).zip (v.set i x).toList).any fun y => y.1 != i && y.2.valid && f y.2 == f x)) || false) =
    false
  rw [Bool.or_false, Bool.and_eq_false_iff, ← Bool.not_eq_true, ← imp_iff_not_or]
  intro hx
  have others := (any_zip_set v i x fun y => y.valid && f y == f x).mpr fun j hj => by
    cases hv : v[j].valid with
    | false => rfl
    | true => simpa using h hx j hj hv
  simpa only [Bool.and_assoc] using others

theorem nodeIx_isSome {n : Node} (h : 1 ≤ n.toNat ∧ n.toNat ≤ 55) : (nodeIx n).isNone = false := by
  rw [nodeIx, dif_pos h]
  rfl

theorem writeSampleMap_whole {s : State} (hc : s.capture = none) (i : MapIx) {x : SampleEntry} (hx : x.legal)
    (hv : x.valid = true → s.settings.signals[x.target].feed = .sampled ∧
      ∀ j : MapIx, j ≠ i → s.settings.sampleMap[j].valid = true →
        (s.settings.sampleMap[j].source, s.settings.sampleMap[j].channel) ≠ (x.source, x.channel) ∧
        (s.settings.sampleMap[j].target, s.settings.sampleMap[j].slot) ≠ (x.target, x.slot)) :
    s.writeSampleMap (7 * i) x.words = (s.storeSampleMap [(i, x)], .ok) := by
  have parsed : writtenEntries 128 7 (fun i => s.settings.sampleMap[i].words) sampleEntryOf (7 * i) x.words =
      some [(i, x, false)] :=
    writtenEntries_fixed (stride := 7) i (by decide : 1 ≤ 7) le_rfl rfl (sampleEntry_readBack x hx)
  obtain ⟨-, -, -, -, -, ordered, -, source⟩ := hx
  rw [State.writeSampleMap, parsed]
  refine (judge_passes ?_ _ _).trans rfl
  simp only [List.forall_mem_cons]
  refine ⟨?_, ?_, clashes_one _ _ i fun h j hj hj' => ((hv h).2 j hj hj').1,
    clashes_one _ _ i fun h j hj hj' => ((hv h).2 j hj hj').2, ?_, (capture_iff s).mpr hc, nofun⟩
  · show ((x.valid && (nodeIx x.source).isNone) || false) = false
    cases h : x.valid with
    | false => rfl
    | true => rw [nodeIx_isSome (source h)]; rfl
  · show (decide (x.high < x.low) || false) = false
    rw [decide_eq_false (not_lt.mpr ordered)]
    rfl
  · show ((x.valid && s.settings.signals[x.target].feed != .sampled) || false) = false
    cases h : x.valid with
    | false => rfl
    | true => rw [(hv h).1]; rfl

/-! ### Signal records (R12) -/

theorem writeSignals_whole {s : State} (hc : s.capture = none) (i : SigIx) {x : SignalCfg} (hx : x.legal)
    (hf : x.feed ≠ .sampled → (∀ k : MapIx, s.settings.sampleMap[k].valid = true → s.settings.sampleMap[k].target ≠ i) ∧
      ∀ j : SigIx, j ≠ i → s.settings.signals[j].feed ≠ x.feed) :
    s.writeSignals (32 * i) x.words = (s.storeSignals [(i, x)], .ok) := by
  have parsed : writtenEntries 96 32 (fun i => s.settings.signals[i].words) signalOf (32 * i) x.words =
      some [(i, x, false)] :=
    writtenEntries_fixed (stride := 32) i (by decide : 1 ≤ 4) (by decide : 4 ≤ 32) rfl (signal_readBack x hx)
  have runtime : hitsRuntime 96 32 4 26 (32 * i) x.words.length = false :=
    hitsRuntime_whole i (by decide : 1 ≤ 4) (by decide : 4 ≤ 32) (by decide : 4 ≤ 4)
  rw [State.writeSignals, parsed]
  refine (judge_passes ?_ _ _).trans rfl
  simp only [List.forall_mem_cons]
  refine ⟨?_, ?_, (capture_iff s).mpr hc, runtime, nofun⟩
  · show ((x.feed != .sampled && anyConfigured s.settings i) || false) = false
    by_cases h : x.feed = .sampled
    · rw [h]
      rfl
    · have entries : s.settings.sampleMap.toList = (List.finRange 128).map fun e => s.settings.sampleMap[e] :=
        List.ext_getElem (by simp) fun i h1 h2 => by simp
      have free : anyConfigured s.settings i = false := by
        rw [anyConfigured, entries, List.any_map, List.any_eq_false]
        intro k _ hk
        obtain ⟨valid, target⟩ := Bool.and_eq_true_iff.mp hk
        exact (hf h).1 k valid (beq_iff_eq.mp target)
      rw [free, Bool.and_false]
      rfl
  · show ((x.feed != .sampled && ((indices 96).zip (s.settings.signals.set i x).toList).any fun y =>
      y.1 != i && y.2.feed == x.feed) || false) = false
    by_cases h : x.feed = .sampled
    · rw [h]
      rfl
    · rw [(any_zip_set s.settings.signals i x fun y => y.feed == x.feed).mpr fun j hj =>
        beq_eq_false_iff_ne.mpr ((hf h).2 j hj), Bool.and_false]
      rfl

theorem storeSignals_eq (s : State) (i : SigIx) (x : SignalCfg) :
    let t : State := { s with settings := { s.settings with signals := s.settings.signals.set i x } }
    let r := resetSignal t.settings i
    s.storeSignals [(i, x)] =
      if s.settings.signals[i].feed = x.feed ∧ s.settings.signals[i].merge = x.merge then t
      else { t with
        signals := s.signals.set i r
        work := s.work ++ (if r.value ≠ s.signals[i].value ∨ r.quality ≠ s.signals[i].quality ∨ r.quality = .lost then
          [.update i r.value r.quality .change] else []) } := by
  intro t r
  show t.storeSignalRuntime s.settings.signals i x = _
  refine if_congr Iff.rfl rfl ?_
  have entry : (t.modSignal i fun _ => r).signals[i] = r := modSignal_same ..
  have moved : (signalMoved t (t.modSignal i fun _ => r) i || (t.modSignal i fun _ => r).signals[i].quality == .lost) = true ↔
      r.value ≠ s.signals[i].value ∨ r.quality ≠ s.signals[i].quality ∨ r.quality = .lost := by
    rw [signalMoved, entry, Bool.or_eq_true, Bool.or_eq_true, bne_iff_ne, bne_iff_ne, beq_iff_eq, or_assoc]
  have told : (t.modSignal i fun _ => r).notify i .change =
      { t with signals := s.signals.set i r, work := s.work ++ [.update i r.value r.quality .change] } := by
    rw [State.notify, entry]
    rfl
  refine (if_congr moved told rfl).trans ?_
  split
  · rfl
  · exact congrArg (fun l => { t with signals := s.signals.set i r, work := l }) (List.append_nil _).symm

/-! ### Evaluations in a management write (R3) -/

/-- The record of a signal after an evaluation that a management write causes. -/
def State.reevaluated (s : State) (i : SigIx) : SignalRt :=
  { s.signals[i] with
    value := s.newValue i, quality := s.newQuality i
    lossRaised := if s.newQuality i = s.signals[i].quality then s.signals[i].lossRaised else false }

/-- The update that such an evaluation hands to the readers, if any. -/
def State.reevaluation (s : State) (i : SigIx) : List Work :=
  if s.newValue i ≠ s.signals[i].value ∨ s.newQuality i ≠ s.signals[i].quality then
    [.update i (s.newValue i) (s.newQuality i) .change] else []

theorem evaluateWrite_eq (s : State) (i : SigIx) :
    s.evaluateWrite i = { s with signals := s.signals.set i (s.reevaluated i), work := s.work ++ s.reevaluation i } := by
  have merged : (s.setMerged i).signals[i] =
      { s.signals[i] with value := s.newValue i, quality := s.newQuality i } := modSignal_same ..
  have cleared : (s.setMerged i).clearLoss i s.signals[i].quality =
      { s with signals := s.signals.set i (s.reevaluated i) } := by
    unfold State.clearLoss
    rw [merged, State.reevaluated]
    split
    · rfl
    · exact modSignal_modSignal ..
  have entry : ({ s with signals := s.signals.set i (s.reevaluated i) } : State).signals[i] = s.reevaluated i :=
    updAt_same s.signals i fun _ => s.reevaluated i
  have told : ({ s with signals := s.signals.set i (s.reevaluated i) } : State).notify i .change =
      { s with signals := s.signals.set i (s.reevaluated i)
               work := s.work ++ [.update i (s.newValue i) (s.newQuality i) .change] } := by
    rw [State.notify, entry]
    rfl
  have moved : signalMoved s { s with signals := s.signals.set i (s.reevaluated i) } i = true ↔
      s.newValue i ≠ s.signals[i].value ∨ s.newQuality i ≠ s.signals[i].quality := by
    rw [signalMoved, entry, Bool.or_eq_true, bne_iff_ne, bne_iff_ne]
    rfl
  show (if signalMoved s ((s.setMerged i).clearLoss i s.signals[i].quality) i = true
    then ((s.setMerged i).clearLoss i s.signals[i].quality).notify i .change
    else (s.setMerged i).clearLoss i s.signals[i].quality) = _
  rw [cleared, told]
  refine (if_congr moved rfl rfl).trans ?_
  rw [State.reevaluation]
  split
  · rfl
  · exact congrArg (fun l => { s with signals := s.signals.set i (s.reevaluated i), work := l })
      (List.append_nil _).symm

theorem reevaluated_congr {s t : State} {i : SigIx} (hs : t.settings = s.settings) (h : t.signals[i] = s.signals[i]) :
    t.reevaluated i = s.reevaluated i ∧ t.reevaluation i = s.reevaluation i := by
  have quality : t.newQuality i = s.newQuality i := by rw [State.newQuality, State.newQuality, hs, h]
  have value : t.newValue i = s.newValue i := by rw [State.newValue, State.newValue, hs, h, quality]
  rw [State.reevaluated, State.reevaluated, State.reevaluation, State.reevaluation, h, quality, value]
  exact ⟨rfl, rfl⟩

/-- Each signal is evaluated as it stood before the first one was. -/
theorem evaluateWrites (l : List SigIx) (s : State) (hl : l.Nodup) :
    let u := l.foldl State.evaluateWrite s
    u = { s with signals := u.signals, work := u.work } ∧ (∀ j ∈ l, u.signals[j] = s.reevaluated j) ∧
      (∀ j : SigIx, j ∉ l → u.signals[j] = s.signals[j]) ∧ u.work = s.work ++ l.flatMap s.reevaluation := by
  induction l generalizing s with
  | nil => exact ⟨rfl, nofun, fun _ _ => rfl, (List.append_nil _).symm⟩
  | cons i l ih =>
    obtain ⟨fresh, nodup⟩ := List.nodup_cons.mp hl
    have first := evaluateWrite_eq s i
    obtain ⟨only, done, others, work⟩ := ih (s.evaluateWrite i) nodup
    have settings : (s.evaluateWrite i).settings = s.settings := by rw [first]
    have here : (s.evaluateWrite i).signals[i] = s.reevaluated i :=
      (signal_of_signals_eq (congrArg State.signals first :) i).trans (updAt_same s.signals i fun _ => s.reevaluated i)
    have elsewhere {j : SigIx} (hj : j ≠ i) : (s.evaluateWrite i).signals[j] = s.signals[j] :=
      (signal_of_signals_eq (congrArg State.signals first :) j).trans
        (updAt_other s.signals (fun _ => s.reevaluated i) (Ne.symm hj))
    have same {j : SigIx} (hj : j ∈ l) := reevaluated_congr settings (elsewhere (j := j) fun e => fresh (e ▸ hj))
    refine ⟨?_, fun j hj => ?_, fun j hj => ?_, ?_⟩
    · exact only.trans (congrArg (fun t : State => { t with
        signals := (l.foldl State.evaluateWrite (s.evaluateWrite i)).signals
        work := (l.foldl State.evaluateWrite (s.evaluateWrite i)).work }) first)
    · by_cases h : j ∈ l
      · exact (done j h).trans (same h).1
      · obtain rfl := (List.mem_cons.mp hj).resolve_right h
        exact (others j h).trans here
    · obtain ⟨hi, hl⟩ := not_or.mp (mt List.mem_cons.mpr hj)
      exact (others j hl).trans (elsewhere hi)
    · have told : l.flatMap (s.evaluateWrite i).reevaluation = l.flatMap s.reevaluation :=
        List.flatMap_congr fun j hj => (same hj).2
      have handed : (s.evaluateWrite i).work = s.work ++ s.reevaluation i := by rw [first]
      rw [List.foldl_cons, work, told, handed, List.append_assoc]
      rfl

/-! ### The contributors that a map write clears (R3) -/

theorem modSlot_other {s : State} {i j : SigIx} {k m : SlotIx} (f : Contributor → Contributor) (h : ¬(i = j ∧ k = m)) :
    (s.modSlot i k f).signals[j].slots[m] = s.signals[j].slots[m] := by
  by_cases hi : i = j
  · subst hi
    exact (congrArg (fun r : SignalRt => r.slots[m]) (modSignal_same ..)).trans (updAt_other _ _ fun e => h ⟨rfl, e⟩)
  · exact congrArg (fun r : SignalRt => r.slots[m]) (modSignal_signal_other _ hi)

/-- Contributors are cleared, each once or more. -/
theorem clearSlots (l : List (SigIx × SlotIx)) (s : State) :
    let u := l.foldl (fun s x => s.modSlot x.1 x.2 Contributor.cleared) s
    u = { s with signals := u.signals } ∧
      (∀ j : SigIx, u.signals[j] = { s.signals[j] with slots := u.signals[j].slots }) ∧
      (∀ (j : SigIx) (k : SlotIx), (j, k) ∈ l → u.signals[j].slots[k] = s.signals[j].slots[k].cleared) ∧
      ∀ (j : SigIx) (k : SlotIx), (j, k) ∉ l → u.signals[j].slots[k] = s.signals[j].slots[k] := by
  induction l generalizing s with
  | nil => exact ⟨rfl, fun _ => rfl, nofun, fun _ _ _ => rfl⟩
  | cons x l ih =>
    obtain ⟨only, kept, cleared, others⟩ := ih (s.modSlot x.1 x.2 Contributor.cleared)
    refine ⟨only, fun j => ?_, fun j k h => ?_, fun j k h => ?_⟩
    · have first : (s.modSlot x.1 x.2 Contributor.cleared).signals[j] =
          { s.signals[j] with slots := (s.modSlot x.1 x.2 Contributor.cleared).signals[j].slots } := by
        by_cases hj : x.1 = j
        · subst hj
          have entry := modSignal_same s x.1 fun r => { r with slots := updAt r.slots x.2 Contributor.cleared }
          exact entry.trans (congrArg (fun v => { s.signals[x.1] with slots := v })
            (congrArg SignalRt.slots entry).symm)
        · have entry : (s.modSlot x.1 x.2 Contributor.cleared).signals[j] = s.signals[j] := modSignal_signal_other _ hj
          rw [entry]
      have later := kept j
      rw [first] at later
      exact later
    · by_cases hx : x = (j, k)
      · subst hx
        have now : (s.modSlot j k Contributor.cleared).signals[j].slots[k] = s.signals[j].slots[k].cleared :=
          modSlot_slot ..
        by_cases hl : (j, k) ∈ l
        · exact (cleared j k hl).trans ((congrArg Contributor.cleared now :).trans rfl)
        · exact (others j k hl).trans now
      · have hl := (List.mem_cons.mp h).resolve_left fun e => hx e.symm
        exact (cleared j k hl).trans (congrArg Contributor.cleared (modSlot_other _ fun e => hx (Prod.ext e.1 e.2)))
    · obtain ⟨hx, hl⟩ := not_or.mp (mt List.mem_cons.mpr h)
      exact (others j k hl).trans (modSlot_other _ fun e => hx (Prod.ext e.1 e.2).symm)

/-! ### A stored map write (R3) -/

theorem eraseDups_nodup {α : Type} [BEq α] [LawfulBEq α] (l : List α) : l.eraseDups.Nodup := by
  generalize hn : l.length = n
  induction n using Nat.strong_induction_on generalizing l with
  | _ n ih =>
    cases l with
    | nil => simp
    | cons a l =>
      have shorter := List.length_filter_le (fun b => !b == a) l
      rw [List.length_cons] at hn
      rw [List.eraseDups_cons, List.nodup_cons, List.mem_eraseDups]
      exact ⟨by simp, ih _ (by omega) _ rfl⟩

theorem mem_feeds (e : SampleEntry) (j : SigIx) (k : SlotIx) :
    (j, k) ∈ e.feeds ↔ e.valid = true ∧ e.target = j ∧ e.slot = k := by
  rw [SampleEntry.feeds]
  split
  · next h => simp [h, eq_comm]
  · next h => simp [h]

/-- The contributors that a written entry fed before the write and feeds after it. -/
def mapHits (old new : SampleEntry) : List (SigIx × SlotIx) := old.feeds ++ new.feeds

/-- The signals of those contributors, each once. -/
def mapSignals (old new : SampleEntry) : List SigIx := ((mapHits old new).map Prod.fst).eraseDups

theorem mem_mapHits (old new : SampleEntry) (j : SigIx) (k : SlotIx) :
    (j, k) ∈ mapHits old new ↔ (old.valid = true ∧ old.target = j ∧ old.slot = k) ∨
      (new.valid = true ∧ new.target = j ∧ new.slot = k) := by
  rw [mapHits, List.mem_append, mem_feeds, mem_feeds]

theorem mem_mapSignals (old new : SampleEntry) (j : SigIx) :
    j ∈ mapSignals old new ↔ ∃ k, (j, k) ∈ mapHits old new := by
  rw [mapSignals, List.mem_eraseDups, List.mem_map]
  exact ⟨fun ⟨⟨_, k⟩, h, e⟩ => ⟨k, e ▸ h⟩, fun ⟨k, h⟩ => ⟨(j, k), h, rfl⟩⟩

/-- The map stored, the decimation phase 0, and the contributors that the entry fed and feeds cleared. -/
def State.mapCleared (s : State) (i : MapIx) (x : SampleEntry) : State :=
  (mapHits s.settings.sampleMap[i] x).foldl (fun s x => s.modSlot x.1 x.2 Contributor.cleared)
    { s with
      settings := { s.settings with sampleMap := s.settings.sampleMap.set i x }
      phases := s.phases.set i 0 }

theorem storeSampleMap_eq (s : State) (i : MapIx) (x : SampleEntry) :
    s.storeSampleMap [(i, x)] =
      (mapSignals s.settings.sampleMap[i] x).foldl State.evaluateWrite (s.mapCleared i x) := by
  have hits : ([(i, x)].flatMap fun e => s.settings.sampleMap[e.1].feeds ++ e.2.feeds) =
      mapHits s.settings.sampleMap[i] x := by
    rw [List.flatMap_cons, List.flatMap_nil, List.append_nil]
    rfl
  rw [State.storeSampleMap, hits]
  rfl

theorem newQuality_of_slots {s t : State} {j : SigIx} (hs : t.settings = s.settings)
    (h : t.signals[j].slots = s.signals[j].slots) : t.newQuality j = s.newQuality j := by
  simp only [State.newQuality, hs, h]

theorem mem_reevaluation (s : State) (j : SigIx) (w : Work) :
    w ∈ s.reevaluation j ↔ (s.newValue j ≠ s.signals[j].value ∨ s.newQuality j ≠ s.signals[j].quality) ∧
      w = .update j (s.newValue j) (s.newQuality j) .change := by
  rw [State.reevaluation]
  split
  · next h => exact List.mem_singleton.trans (and_iff_right h).symm
  · next h => exact iff_of_false List.not_mem_nil fun g => h g.1

theorem storeSampleMap_spec {s : State} (hw : s.work = []) (i : MapIx) (x : SampleEntry) :
    let u := s.storeSampleMap [(i, x)]
    let hit (j : SigIx) (k : SlotIx) : Prop := (j, k) ∈ mapHits s.settings.sampleMap[i] x
    let moved (j : SigIx) : Prop :=
      u.signals[j].value ≠ s.signals[j].value ∨ u.signals[j].quality ≠ s.signals[j].quality
    u.settings = { s.settings with sampleMap := s.settings.sampleMap.set i x } ∧
    u.phases = s.phases.set i 0 ∧ u.sequences = s.sequences ∧
    u = { s with settings := u.settings, phases := u.phases, signals := u.signals, work := u.work } ∧
    (∀ (j : SigIx) (k : SlotIx), (hit j k → u.signals[j].slots[k] = s.signals[j].slots[k].cleared) ∧
      (¬hit j k → u.signals[j].slots[k] = s.signals[j].slots[k])) ∧
    (∀ j : SigIx, (∀ k, ¬hit j k) → u.signals[j] = s.signals[j]) ∧
    (∀ j : SigIx, (∃ k, hit j k) → s.settings.signals[j].feed = .sampled →
      u.signals[j].quality = u.newQuality j ∧
      u.signals[j].value = (if u.newQuality j = .unused then 0
        else (u.signals[j].merged s.settings.signals[j].merge).getD s.signals[j].value) ∧
      u.signals[j].lossRaised = (if u.signals[j].quality = s.signals[j].quality then s.signals[j].lossRaised
        else false) ∧
      u.signals[j].lastSlot = s.signals[j].lastSlot ∧
      (moved j → Work.update j u.signals[j].value u.signals[j].quality .change ∈ u.work)) ∧
    ∀ w ∈ u.work, ∃ j k, hit j k ∧ moved j ∧ w = .update j u.signals[j].value u.signals[j].quality .change := by
  intro u hit moved
  let old := s.settings.sampleMap[i]
  let stored : State := { s with
    settings := { s.settings with sampleMap := s.settings.sampleMap.set i x }, phases := s.phases.set i 0 }
  let v := s.mapCleared i x
  obtain ⟨clearedOnly, kept, cleared, uncleared⟩ := clearSlots (mapHits old x) stored
  obtain ⟨only, evaluated, others, work⟩ := evaluateWrites (mapSignals old x) v (eraseDups_nodup _)
  rw [← storeSampleMap_eq] at only evaluated others work
  have kept (j : SigIx) : v.signals[j] = { s.signals[j] with slots := v.signals[j].slots } := kept j
  have only : u = { v with signals := u.signals, work := u.work } := only
  have clearedOnly : v = { stored with signals := v.signals } := clearedOnly
  have eq : u = { stored with signals := u.signals, work := u.work } :=
    only.trans (congrArg (fun t : State => { t with signals := u.signals, work := u.work }) clearedOnly)
  have settings : u.settings = stored.settings := (congrArg State.settings eq :)
  have settingsV : v.settings = stored.settings := (congrArg State.settings clearedOnly :)
  have told : u.work = (mapSignals old x).flatMap v.reevaluation := by
    have none : v.work = [] := (congrArg State.work clearedOnly).trans hw
    exact work.trans (by rw [none, List.nil_append])
  have entry (j : SigIx) (hj : j ∈ mapSignals old x) : u.signals[j] = { s.signals[j] with
      value := v.newValue j, quality := v.newQuality j
      lossRaised := if v.newQuality j = s.signals[j].quality then s.signals[j].lossRaised else false
      slots := v.signals[j].slots } := by
    refine (evaluated j hj).trans ?_
    rw [State.reevaluated, kept j]
  have slots (j : SigIx) : u.signals[j].slots = v.signals[j].slots := by
    by_cases hj : j ∈ mapSignals old x
    · rw [entry j hj]
    · rw [others j hj]
  have untouched (j : SigIx) (hj : ∀ k, ¬hit j k) : v.signals[j] = s.signals[j] := by
    have same : v.signals[j].slots = s.signals[j].slots :=
      Vector.ext fun m hm => uncleared j ⟨m, hm⟩ (hj ⟨m, hm⟩)
    exact (kept j).trans (congrArg (fun l => { s.signals[j] with slots := l }) same)
  have here (j : SigIx) : v.signals[j].value = s.signals[j].value ∧ v.signals[j].quality = s.signals[j].quality :=
    ⟨(congrArg SignalRt.value (kept j) :), (congrArg SignalRt.quality (kept j) :)⟩
  have movedIff (j : SigIx) (hj : j ∈ mapSignals old x) :
      moved j ↔ v.newValue j ≠ v.signals[j].value ∨ v.newQuality j ≠ v.signals[j].quality := by
    rw [(here j).1, (here j).2]
    exact Iff.of_eq (by rw [show moved j = (u.signals[j].value ≠ s.signals[j].value ∨
      u.signals[j].quality ≠ s.signals[j].quality) from rfl, entry j hj])
  refine ⟨settings, (congrArg State.phases eq :), (congrArg State.sequences eq :), ?_, fun j k => ⟨fun h => ?_, fun h => ?_⟩,
    fun j hj => ?_, fun j hj hf => ?_, fun w hw => ?_⟩
  · have phases : u.phases = stored.phases := (congrArg State.phases eq :)
    rw [settings, phases]
    exact eq
  · rw [slots]
    exact cleared j k h
  · rw [slots]
    exact uncleared j k h
  · exact (others j fun h => by
      obtain ⟨k, hk⟩ := (mem_mapSignals ..).mp h
      exact hj k hk).trans (untouched j hj)
  · have member := (mem_mapSignals old x j).mpr hj
    have is := entry j member
    have quality : u.newQuality j = v.newQuality j := newQuality_of_slots (settings.trans settingsV.symm) (slots j)
    have merged (m : MergeMode) : u.signals[j].merged m = v.signals[j].merged m := by
      rw [is, kept j]
      rfl
    have value : v.newValue j = if v.newQuality j = .unused then 0
        else (v.signals[j].merged v.settings.signals[j].merge).getD v.signals[j].value :=
      newValue_sampled (by rw [settingsV]; exact hf)
    refine ⟨?_, ?_, ?_, (congrArg SignalRt.lastSlot is :), fun hm => ?_⟩
    · rw [is, quality]
    · rw [quality, merged, ← (here j).1]
      rw [settingsV] at value
      exact (congrArg SignalRt.value is :).trans value
    · rw [is]
    · rw [told]
      refine List.mem_flatMap.mpr ⟨j, member, (mem_reevaluation ..).mpr ⟨(movedIff j member).mp hm, ?_⟩⟩
      rw [is]
  · rw [told] at hw
    obtain ⟨j, member, hw⟩ := List.mem_flatMap.mp hw
    obtain ⟨hm, rfl⟩ := (mem_reevaluation ..).mp hw
    obtain ⟨k, hk⟩ := (mem_mapSignals ..).mp member
    refine ⟨j, k, hk, (movedIff j member).mpr hm, ?_⟩
    rw [entry j member]

/-! ### The Limit Table (R34, R35) -/

theorem writeLimits_whole {s : State} (hc : s.capture = none) (i : LimIx) {x : LimitCfg} (hx : x.legal)
    (hr : s.convAtRest = true ∨ (x.blocks = false ∧ s.settings.limits[i].blocks = false)) :
    s.writeLimits (16 * i) x.words = (s.storeLimits [(i, x)], .ok) := by
  have parsed : writtenEntries 48 16 (fun i => s.settings.limits[i].words) limitOf (16 * i) x.words =
      some [(i, x, false)] :=
    writtenEntries_fixed (stride := 16) i (by decide : 1 ≤ 13) (by decide : 13 ≤ 16) rfl (limit_readBack x hx)
  have runtime : hitsRuntime 48 16 13 16 (16 * i) x.words.length = false :=
    hitsRuntime_whole i (by decide : 1 ≤ 13) (by decide : 13 ≤ 16) (by decide : 13 ≤ 13)
  obtain ⟨-, -, -, -, -, -, -, valid⟩ := hx
  rw [State.writeLimits, runtime, if_neg Bool.false_ne_true, parsed]
  refine (judge_passes ?_ _ _).trans rfl
  simp only [List.forall_mem_cons]
  refine ⟨?_, ?_, ?_, (capture_iff s).mpr hc, nofun⟩
  · show ((x.valid && !(decide (32 ≤ x.code) && decide (x.code ≤ 127))) || false) = false
    cases h : x.valid with
    | false => rfl
    | true =>
      obtain ⟨low, high, -⟩ := valid h
      rw [decide_eq_true low, decide_eq_true high]
      rfl
  · show ((x.valid && !x.ordered) || false) = false
    cases h : x.valid with
    | false => rfl
    | true =>
      obtain ⟨-, -, ordered⟩ := valid h
      rw [ordered]
      rfl
  · show (!s.convAtRest && ((x.blocks || s.settings.limits[i].blocks) || false)) = false
    obtain rest | ⟨new, old⟩ := hr
    · rw [rest]
      rfl
    · rw [new, old, Bool.or_false, Bool.or_false, Bool.and_false]

theorem anyTripped_congr {s t : State} (hs : t.settings = s.settings) (hl : t.limits = s.limits) (p : LimitCfg → Bool) :
    t.anyTripped p = s.anyTripped p := by
  rw [State.anyTripped, hs, hl, State.anyTripped]

/-- The holds are those that the TRIPPED entries call for, once they have been brought up to date (R32). -/
theorem updateHolds_due (s : State) : s.updateHolds.holds = s.updateHolds.heldNow := by
  have steady := Steady.updateHolds s
  have part : s.updateHolds.operating = s.operating := by
    rw [State.operating, (reach_updateHolds s).part, State.operating]
  have tripped := anyTripped_congr steady.settings steady.limits
  rw [steady.holds, State.heldNow, State.heldNow]
  unfold State.converterHoldDue State.limitInhibitDue State.fullCoolingDue
  rw [part, tripped, tripped, tripped]
  rfl

/-! ### The capacities (R64) -/

theorem writeAllocator_capacities {s : State} (hc : s.capture = none) (g m b : Word) :
    let u : State := { s with settings := { s.settings with
      gridCap := g.toNat, sagCap := m.toNat, backupCap := b.toNat } }
    s.writeAllocator 0 [g, m, b] = (u.capacityMoved s.budget, .ok) := by
  intro u
  have words : overlay s.allocatorWords 0 0 [g, m, b] = [g, m, b] ++ s.allocatorWords.drop 3 :=
    overlay_front 0 (by decide : 3 ≤ 6)
  have untouched : touches 0 [g, m, b].length 3 6 = false := rfl
  rw [State.writeAllocator, untouched, if_neg Bool.false_ne_true, words]
  refine (judge_passes ?_ _ _).trans rfl
  simp only [List.forall_mem_cons]
  exact ⟨(capture_iff s).mpr hc, nofun⟩

end Sys2Proof.Machine
end

section
/-! PROOFS. O28, second half: what CLC's restart at a cooling write leaves (R136), and the stored writes. -/

namespace Sys2Proof.Machine

/-! ### What the end of a wait leaves of CLC -/

/-- CLC and the frames of class 1 stay as they are. -/
structure ClcKept (s t : State) : Prop where
  clc : t.clc = s.clc
  class1 : t.rif.class1 = s.rif.class1

namespace ClcKept

variable {s t u : State}

theorem refl (s : State) : ClcKept s s := ⟨rfl, rfl⟩

theorem trans (a : ClcKept s t) (b : ClcKept t u) : ClcKept s u := ⟨b.clc.trans a.clc, b.class1.trans a.class1⟩

theorem request (s : State) (c : ChanIx) (who : Requester) : ClcKept s (s.request c who) := by
  unfold State.request
  split
  · exact ⟨rfl, rfl⟩
  · exact ⟨(onlySignals_raise ..).clc, (congrArg (fun x : State => x.rif.class1) (evt_raise ..).eq :)⟩
  all_goals exact refl s

theorem notifyOwner (s : State) (c : ChanIx) (e : RunEnd) : ClcKept s (s.notifyOwner c e) := by
  rw [notifyOwner_eq]
  exact ⟨rfl, rfl⟩

theorem requestStepLink (s : State) (c : ChanIx) (st : Step) : ClcKept s (s.requestStepLink c st) := by
  cases st with
  | link e => exact request ..
  | _ => exact refl s

theorem requestLink (s : State) (c : ChanIx) : ClcKept s (s.requestLink c) := by
  unfold State.requestLink
  split
  · exact refl s
  · exact request ..

theorem finishRun (s : State) (c : ChanIx) : ClcKept s (s.finishRun c) := by
  have ended : ClcKept s ((s.modChan c fun r => r.endRun (s.desc c)).releaseEngine c) := ⟨rfl, rfl⟩
  exact ended.trans ((requestStepLink ..).trans ((requestLink ..).trans (notifyOwner ..)))

theorem completeWait (s : State) (c : ChanIx) : ClcKept s (s.completeWait c) := by
  have completed : ClcKept s (s.modChan c ChanRt.completeStep) := ⟨rfl, rfl⟩
  unfold State.completeWait
  dsimp only
  split
  · exact completed.trans (finishRun ..)
  · exact completed.trans ⟨rfl, rfl⟩

end ClcKept

/-! ### Commands outside OPERATING -/

theorem heaterCommand_idle {s : State} (h : s.part ≠ .operating) (on : Bool) : s.heaterCommand on = s :=
  if_neg fun ho => h ((operating_iff s).mp ho)

theorem stageCommand_idle {s : State} (h : s.part ≠ .operating) : s.stageCommand = s :=
  if_neg fun ho => h ((operating_iff s).mp ho)

theorem formCf_clc (s : State) :
    s.formCf.clc = { s.clc with cf := (s.stage s.clc.actual).capacity * s.health / 16384 } :=
  (onlySignals_publish ..).clc

theorem changeStage_idle {s : State} (h : s.part ≠ .operating) (k : StageIx) :
    (s.changeStage k).rif.class1 = s.rif.class1 ∧ (s.changeStage k).clc.heldHeater = s.clc.heldHeater := by
  let a := (s.modClc fun c => { c with actual := k, dwell := 0, dwellDue := false, heldReported := false }).formCf
  have only : OnlySignals _ a := onlySignals_publish ..
  have idle : a.part ≠ .operating := by
    rw [only.part]
    exact h
  have is : s.changeStage k = a := stageCommand_idle idle
  rw [is]
  exact ⟨(congrArg (fun x : State => x.rif.class1) only :), (congrArg ClcRt.heldHeater only.clc :)⟩

theorem heaterCommand_heater (s : State) (on : Bool) : (s.heaterCommand on).clc.heater = s.clc.heater := by
  unfold State.heaterCommand
  split_ifs <;> rfl

theorem changeStage_heater (s : State) (k : StageIx) : (s.changeStage k).clc.heater = s.clc.heater :=
  (stageCommand_heater _).trans (congrArg ClcRt.heater (formCf_clc _) :)

/-! ### What releases, withdrawals and head tests leave of CLC -/

/-- What a release, a withdrawal or a head test leaves: outside OPERATING no frame is sent, the heaters change only
where their claim is granted, which then waits no more, no claim joins the Claim Queue, and a tag without a claim keeps
its grant. -/
structure Yielded (s t : State) : Prop extends Granted s t where
  sent : s.part ≠ .operating → t.rif.class1 = s.rif.class1 ∧ t.clc.heldHeater = s.clc.heldHeater
  heater : s.clc.heater ≠ .claiming → t.clc.heater = s.clc.heater
  claims : s.ala.claimsOk → t.ala.claimsOk
  switched : s.ala.claimsOk → s.clc.heater = .claiming → t.clc.heater ≠ .claiming →
    ∀ q ∈ t.ala.queue, s.settings.clc.heaterTag ≠ some q.tag
  queue : ∀ q ∈ t.ala.queue, ∃ p ∈ s.ala.queue, p.tag = q.tag ∧ p.who = q.who
  work : s.work <+: t.work

namespace Yielded

variable {s t u : State}

theorem refl (s : State) : Yielded s s :=
  ⟨.refl s, fun _ => ⟨rfl, rfl⟩, fun _ => rfl, id, fun _ h g => absurd h g, fun q hq => ⟨q, hq, rfl, rfl⟩,
    List.prefix_rfl⟩

theorem trans (a : Yielded s t) (b : Yielded t u) : Yielded s u where
  toGranted := a.toGranted.trans b.toGranted
  sent hp := by
    obtain ⟨class1, held⟩ := a.sent hp
    obtain ⟨class1', held'⟩ := b.sent (by rw [a.part]; exact hp)
    exact ⟨class1'.trans class1, held'.trans held⟩
  heater h := by
    have first := a.heater h
    exact (b.heater (by rw [first]; exact h)).trans first
  claims h := b.claims (a.claims h)
  switched hc hs hu q hq := by
    by_cases ht : t.clc.heater = .claiming
    · rw [← a.settings]
      exact b.switched (a.claims hc) ht hu q hq
    · obtain ⟨p, hp, tag, -⟩ := b.queue q hq
      rw [← tag]
      exact a.switched hc hs ht p hp
  queue q hq := by
    obtain ⟨p, hp, tag, who⟩ := b.queue q hq
    obtain ⟨o, ho, tag', who'⟩ := a.queue p hp
    exact ⟨o, ho, tag'.trans tag, who'.trans who⟩
  work := a.work.trans b.work

theorem ite (p : Prop) [Decidable p] {a b : State} (ha : p → Yielded s a) (hb : ¬p → Yielded s b) :
    Yielded s (if p then a else b) := by
  split
  · exact ha ‹_›
  · exact hb ‹_›

/-- A step that leaves CLC and class 1. -/
theorem of_quiet (g : Granted s t) (hc : t.clc = s.clc) (h1 : t.rif.class1 = s.rif.class1)
    (claims : s.ala.claimsOk → t.ala.claimsOk)
    (queue : ∀ q ∈ t.ala.queue, ∃ p ∈ s.ala.queue, p.tag = q.tag ∧ p.who = q.who) (work : s.work <+: t.work) :
    Yielded s t where
  toGranted := g
  sent _ := ⟨h1, by rw [hc]⟩
  heater _ := by rw [hc]
  claims := claims
  switched _ hs ht := absurd (by rw [hc]; exact hs) ht
  queue := queue
  work := work

/-- What a grant told to CLC leaves of its heaters and its frames. -/
theorem clcGranted_heater (s : State) (t : TagIx) :
    (s.part ≠ .operating → (s.clcGranted t).rif.class1 = s.rif.class1 ∧
      (s.clcGranted t).clc.heldHeater = s.clc.heldHeater) ∧
    ((s.clcGranted t).clc.heater = s.clc.heater ∨ s.clc.heater = .claiming ∧ s.settings.clc.heaterTag = some t) := by
  have other : (s.part ≠ .operating → (s.otherGranted t).rif.class1 = s.rif.class1 ∧
      (s.otherGranted t).clc.heldHeater = s.clc.heldHeater) ∧
      ((s.otherGranted t).clc.heater = s.clc.heater ∨
        s.clc.heater = .claiming ∧ s.settings.clc.heaterTag = some t) := by
    unfold State.otherGranted
    split
    · next heats =>
      exact ⟨fun hp => by rw [heaterCommand_idle (s := s.modClc _) hp]; exact ⟨rfl, rfl⟩, .inr heats⟩
    · split
      · exact ⟨fun hp => by rw [stageCommand_idle (s := s.modClc _) hp]; exact ⟨rfl, rfl⟩, .inl (stageCommand_heater _)⟩
      · exact ⟨fun _ => ⟨rfl, rfl⟩, .inl rfl⟩
  unfold State.clcGranted
  split
  · split
    · exact ⟨fun hp => changeStage_idle (s := s.modClc _) hp _, .inl (changeStage_heater (s.modClc _) _)⟩
    · exact other
  · exact other

theorem grantHead {q : Claim} {rest : List Claim} (hq : s.ala.queue = q :: rest) (hf : s.fits q = true)
    (own : Option TagIx) : Yielded s (s.grantHead q own) := by
  have calm := calm_grantHead s q rest own hq hf
  have left : ∀ p ∈ (s.grantHead q own).ala.queue, p ∈ rest := by
    rw [grantHead_queue hq]
    exact fun p hp => hp
  have told : ((s.part ≠ .operating → (s.grantHead q own).rif.class1 = s.rif.class1 ∧
      (s.grantHead q own).clc.heldHeater = s.clc.heldHeater)) ∧
      ((s.grantHead q own).clc.heater = s.clc.heater ∨
        s.clc.heater = .claiming ∧ s.settings.clc.heaterTag = some q.tag) := by
    rw [grantHead_eq hq]
    split
    · exact ⟨fun _ => ⟨rfl, rfl⟩, .inl rfl⟩
    · cases q.who with
      | clc => exact clcGranted_heater (s.headGiven q rest) q.tag
      | chan c =>
        have kept : ClcKept s ((s.headGiven q rest).chanGranted c) := by
          unfold State.chanGranted
          split
          · exact ClcKept.trans (t := s.headGiven q rest) ⟨rfl, rfl⟩ (ClcKept.completeWait _ c)
          · exact ⟨rfl, rfl⟩
        exact ⟨fun _ => ⟨kept.class1, congrArg ClcRt.heldHeater kept.clc⟩, .inl (congrArg ClcRt.heater kept.clc)⟩
  refine ⟨Granted.grantHead s q own, told.1, fun h => told.2.resolve_right fun g => h g.1, calm.claims,
    fun hc hs ht p hp => ?_, fun p hp => ⟨p, hq ▸ List.mem_cons_of_mem _ (left p hp), rfl, rfl⟩, calm.work⟩
  obtain ⟨-, tag⟩ := told.2.resolve_left fun same => ht (same.trans hs)
  have nodup := hc.1
  rw [hq, List.map_cons, List.nodup_cons] at nodup
  rw [tag]
  exact fun same => nodup.1 (Option.some.inj same ▸ List.mem_map_of_mem (left p hp))

theorem headTestUpTo (own : Option TagIx) (n : Nat) (s : State) : Yielded s (headTestUpTo own n s) := by
  induction n generalizing s with
  | zero => exact refl s
  | succ n ih =>
    cases hq : s.ala.queue with
    | nil =>
      rw [Machine.headTestUpTo, hq]
      exact refl s
    | cons q rest =>
      rw [headTestUpTo_cons hq]
      exact ite _ (fun h => (grantHead hq h.1 own).trans (ih _)) fun _ => refl s

theorem headTest (s : State) : Yielded s s.headTest := headTestUpTo ..

theorem freeTag (s : State) (t : TagIx) : Yielded s (s.freeTag t) := by
  by_cases h : (s.tag t).grant = 0
  · rw [freeTag_of_noGrant h]
    exact refl s
  · rw [freeTag_of_granted h]
    refine trans (of_quiet (t := s.released t) (.of_eq rfl) rfl rfl (AlaRt.clearGrant_claims t) (fun q hq => ?_)
      (List.prefix_append ..)) (headTest _)
    rw [State.released, clearGrant_queue] at hq
    obtain ⟨p, hp, rfl⟩ := List.mem_map.mp hq
    refine ⟨p, hp, ?_⟩
    split
    · exact ⟨rfl, rfl⟩
    · exact ⟨rfl, rfl⟩

theorem withdraw (s : State) (who : Claimant) (t : TagIx) : Yielded s (s.withdraw who t) := by
  refine ite _ (fun _ => trans (of_quiet (t := s.modAla _) (.of_eq rfl) rfl rfl (fun hc => ?_) (fun q hq => ?_)
    List.prefix_rfl) (headTest _)) fun _ => refl s
  · exact ⟨hc.1.sublist (List.filter_sublist.map _), fun q hq => hc.2 q (List.mem_filter.mp hq).1⟩
  · exact ⟨q, (List.mem_filter.mp hq).1, rfl, rfl⟩

end Yielded

/-! ### Grants that stay -/

theorem headTestUpTo_tag (own : Option TagIx) (n : Nat) (s : State) {t : TagIx} (h : ∀ q ∈ s.ala.queue, q.tag ≠ t) :
    ((headTestUpTo own n s).tag t).grant = (s.tag t).grant := by
  induction n generalizing s with
  | zero => rfl
  | succ n ih =>
    cases hq : s.ala.queue with
    | nil => rw [headTestUpTo, hq]
    | cons q rest =>
      rw [headTestUpTo_cons hq]
      rw [hq] at h
      split
      · obtain ⟨-, -, others, -⟩ := grantHead_tag s q own
        have rest' : ∀ p ∈ (s.grantHead q own).ala.queue, p.tag ≠ t := by
          rw [grantHead_queue hq]
          exact fun p hp => h p (List.mem_cons_of_mem _ hp)
        exact (ih _ rest').trans (others t (h q List.mem_cons_self).symm).1
      · rfl

theorem withdraw_tag {s : State} {who : Claimant} {t k : TagIx}
    (h : ∀ q ∈ s.ala.queue, q.tag = k → q.tag = t ∧ q.who = who) :
    ((s.withdraw who t).tag k).grant = (s.tag k).grant := by
  unfold State.withdraw
  split
  · refine headTestUpTo_tag none _ (s.modAla _) fun q hq hk => ?_
    obtain ⟨mem, other⟩ := List.mem_filter.mp hq
    obtain ⟨tag, who'⟩ := h q mem hk
    simp [tag, who'] at other
  · rfl

theorem released_tag (s : State) (t k : TagIx) :
    ((s.released t).tag k).grant = if t = k then 0 else (s.tag k).grant := AlaRt.clearGrant_grant ..

theorem released_queue {s : State} {t k : TagIx} (h : ∀ q ∈ s.ala.queue, q.tag ≠ k) :
    ∀ q ∈ (s.released t).ala.queue, q.tag ≠ k := fun q hq => by
  obtain ⟨p, hp, tag⟩ := AlaRt.mem_clearGrant_queue hq
  exact tag ▸ h p hp

theorem freeTag_tag {s : State} (t : TagIx) {k : TagIx} (h : ∀ q ∈ s.ala.queue, q.tag ≠ k) :
    ((s.freeTag t).tag k).grant = if t = k then 0 else (s.tag k).grant := by
  by_cases hg : (s.tag t).grant = 0
  · rw [freeTag_of_noGrant hg]
    split
    · next same => rw [← same, hg]
    · rfl
  · rw [freeTag_of_granted hg]
    exact (headTestUpTo_tag none _ _ (released_queue h)).trans (released_tag s t k)

theorem freeTag_keeps {s : State} {t k : TagIx} (hc : s.ala.claimsOk) (hk : t ≠ k) (hg : (s.tag k).grant ≠ 0) :
    ((s.freeTag t).tag k).grant ≠ 0 := by
  by_cases h : (s.tag t).grant = 0
  · rw [freeTag_of_noGrant h]
    exact hg
  · rw [freeTag_of_granted h]
    refine headTestUpTo_grants none _ _ (fun q hq => ((AlaRt.clearGrant_claims t hc).2 q hq).1) k ?_
    rw [released_tag, if_neg hk]
    exact hg

/-! ### The restart of the stages (R136) -/

/-- CLC without its stage claim, the claim still queued. -/
def State.unclaimed (s : State) (held : Bool) : State :=
  s.modClc fun c => { c with stageClaim := none, heldReported := held }

/-- The stage claim withdrawn, if one waits, before the fan tag is freed. -/
def State.stageWithdrawn (s : State) (t : TagIx) : State :=
  if s.clc.stageClaim = none then s.unclaimed s.clc.heldReported else (s.unclaimed false).withdraw .clc t

theorem restartClaims_none {s : State} (h : s.settings.clc.fanTag = none) : s.restartClaims = s := by
  have kept : s.dropStageClaim = s := by
    rw [State.dropStageClaim, h]
    split
    · next claim => cases claim
    · rfl
  simp only [State.restartClaims, kept, h]

theorem restartClaims_some {s : State} {t : TagIx} (h : s.settings.clc.fanTag = some t) :
    s.restartClaims = (s.stageWithdrawn t).freeTag t := by
  have dropped : s.dropStageClaim = s.stageWithdrawn t := by
    unfold State.dropStageClaim State.stageWithdrawn
    cases hs : s.clc.stageClaim with
    | none =>
      have same : s.unclaimed s.clc.heldReported = s := by
        have clc : { s.clc with stageClaim := none } = s.clc := by rw [← hs]
        exact congrArg (fun c => { s with clc := c }) clc
      rw [if_pos rfl, same]
    | some k =>
      rw [h, if_neg nofun]
      rfl
  have settings : (s.stageWithdrawn t).settings.clc.fanTag = some t := by
    rw [← dropped, (Staged.dropStageClaim s).settings]
    exact h
  unfold State.restartClaims
  rw [dropped]
  simp only [settings]

theorem stageWithdrawn_yields (s : State) (t : TagIx) : ∃ held, Yielded (s.unclaimed held) (s.stageWithdrawn t) := by
  unfold State.stageWithdrawn
  split
  · exact ⟨_, .refl _⟩
  · exact ⟨_, .withdraw ..⟩

theorem stageWithdrawn_tag {s : State} {t : TagIx}
    (h : ∀ q ∈ s.ala.queue, q.tag = t → q.who = .clc ∧ s.clc.stageClaim ≠ none) :
    ((s.stageWithdrawn t).tag t).grant = (s.tag t).grant ∧ ∀ q ∈ (s.stageWithdrawn t).ala.queue, q.tag ≠ t := by
  unfold State.stageWithdrawn
  split
  · next none => exact ⟨rfl, fun q hq tag => (h q hq tag).2 none⟩
  · refine ⟨withdraw_tag fun q hq tag => ⟨tag, (h q hq tag).1⟩, fun q hq tag => ?_⟩
    obtain ⟨mem, other⟩ := withdraw_queue _ _ _ q hq
    exact other ⟨tag, (h q mem tag).1⟩

theorem stageWithdrawn_claims {s : State} {t : TagIx} (h : s.clc.stageClaim ≠ none) :
    ∀ q ∈ (s.stageWithdrawn t).ala.queue, ¬(q.tag = t ∧ q.who = .clc) := by
  unfold State.stageWithdrawn
  rw [if_neg h]
  exact fun q hq => (withdraw_queue _ _ _ q hq).2

theorem stageWithdrawn_keeps {s : State} (hc : ClaimLaw s) (t k : TagIx) (hk : (s.tag k).grant ≠ 0) :
    ((s.stageWithdrawn t).tag k).grant ≠ 0 := by
  unfold State.stageWithdrawn
  split
  · exact hk
  · exact withdraw_grants (s := s.unclaimed false) hc _ t k hk

/-- What the withdrawal and the release of the fan tag leave, where there is one. -/
structure FanFreed (s c : State) (t : TagIx) : Prop where
  stageClaim : c.clc.stageClaim = none
  claims : s.clc.stageClaim ≠ none → ∀ q ∈ c.ala.queue, ¬(q.tag = t ∧ q.who = .clc)
  freed : (∀ q ∈ s.ala.queue, q.tag = t → q.who = .clc ∧ s.clc.stageClaim ≠ none) →
    (c.tag t).grant = 0 ∧ (∀ q ∈ c.ala.queue, q.tag ≠ t) ∧ ((s.tag t).grant ≠ 0 → s.settings.tags[t].owner ≠ .none →
      Work.released s.settings.tags[t].owner t ∈ c.work)

/-- The state after the claims of the stages have been given up, seen from the one before it. -/
structure Restarting (s c : State) : Prop where
  yields : ∃ claim held, Yielded (s.modClc fun r => { r with stageClaim := claim, heldReported := held }) c
  fan : ∀ t, s.settings.clc.fanTag = some t → FanFreed s c t
  keeps : ClaimLaw s → ∀ t : TagIx, s.settings.clc.fanTag ≠ some t → (s.tag t).grant ≠ 0 → (c.tag t).grant ≠ 0

theorem restartClaims_restarting (s : State) : Restarting s s.restartClaims := by
  cases hf : s.settings.clc.fanTag with
  | none =>
    rw [restartClaims_none hf]
    exact ⟨⟨s.clc.stageClaim, s.clc.heldReported, .refl s⟩, fun t ht => absurd (hf.symm.trans ht) nofun, fun _ _ _ h => h⟩
  | some f =>
    rw [restartClaims_some hf]
    obtain ⟨held, withdrawn⟩ := stageWithdrawn_yields s f
    have freed := Yielded.freeTag (s.stageWithdrawn f) f
    have settings : (s.stageWithdrawn f).settings = s.settings := withdrawn.settings
    refine ⟨⟨none, held, withdrawn.trans freed⟩, fun t ht => ?_, fun hc t ht hg => ?_⟩
    · obtain rfl : f = t := Option.some.inj (hf.symm.trans ht)
      refine ⟨(withdrawn.trans freed).stageClaim rfl, fun h q hq => ?_, fun h => ?_⟩
      · obtain ⟨p, hp, tag, who⟩ := freed.queue q hq
        rw [← tag, ← who]
        exact stageWithdrawn_claims h p hp
      · obtain ⟨grant, none⟩ := stageWithdrawn_tag h
        refine ⟨(freeTag_tag f none).trans (if_pos rfl), fun q hq => ?_, fun hg ho => ?_⟩
        · obtain ⟨p, hp, tag, -⟩ := freed.queue q hq
          exact tag ▸ none p hp
        · obtain ⟨-, notice⟩ := freeTag_letGo (s := s.stageWithdrawn f) (by rw [grant]; exact hg) none
          rw [settings] at notice
          exact notice ho
    · have other : f ≠ t := fun e => ht (hf.trans (congrArg some e))
      exact freeTag_keeps (withdrawn.claims hc) other (stageWithdrawn_keeps hc f t hg)

/-- The heaters turned off, under the settings before the write. -/
theorem heatersOff_cases (c : State) :
    (c.clc.heater = .on ∧ ∃ t, c.settings.clc.heaterTag = some t ∧
      c.heatersOff = (c.modClc fun r => { r with heater := .off }).freeTag t) ∨
    (c.clc.heater = .claiming ∧ ∃ t, c.settings.clc.heaterTag = some t ∧
      c.heatersOff = (c.modClc fun r => { r with heater := .off }).withdraw .clc t) ∨
    ((c.clc.heater = .off ∨ c.settings.clc.heaterTag = none) ∧ c.heatersOff = c) := by
  unfold State.heatersOff
  cases c.clc.heater with
  | off => exact .inr (.inr ⟨.inl rfl, rfl⟩)
  | on =>
    cases c.settings.clc.heaterTag with
    | none => exact .inr (.inr ⟨.inr rfl, rfl⟩)
    | some t => exact .inl ⟨rfl, t, rfl, rfl⟩
  | claiming =>
    cases c.settings.clc.heaterTag with
    | none => exact .inr (.inr ⟨.inr rfl, rfl⟩)
    | some t => exact .inr (.inl ⟨rfl, t, rfl, rfl⟩)

theorem restartStages_spec (s : State) :
    s.restartStages.clc = { s.clc with
      actual := 0, target := 0, dwell := 0, dwellDue := false
      cf := (s.stage 0).capacity * s.health / 16384 } ∧
    s.restartStages.settings = s.settings ∧ s.restartStages.ala = s.ala ∧
    s.restartStages.rif.class1 = s.rif.class1 ∧ s.work <+: s.restartStages.work := by
  let a := s.modClc fun c => { c with actual := 0, target := 0, dwell := 0, dwellDue := false }
  let b := a.modClc fun c => { c with cf := (s.stage 0).capacity * s.health / 16384 }
  have only : OnlySignals b s.restartStages := onlySignals_publish ..
  exact ⟨only.clc, only.settings, only.ala, (congrArg (fun x : State => x.rif.class1) only :), (calm_formCf a).work⟩

theorem FanFreed.yielded {s c d : State} {t : TagIx} (h : FanFreed s c t) {heater : Heater}
    (y : Yielded (c.modClc fun r => { r with heater := heater }) d)
    (hg : (∀ q ∈ c.ala.queue, q.tag ≠ t) → (c.tag t).grant = 0 → (d.tag t).grant = 0) : FanFreed s d t where
  stageClaim := y.stageClaim h.stageClaim
  claims hs q hq := by
    obtain ⟨p, hp, tag, who⟩ := y.queue q hq
    rw [← tag, ← who]
    exact h.claims hs p hp
  freed hq := by
    obtain ⟨grant, none, notice⟩ := h.freed hq
    refine ⟨hg none grant, fun q hq => ?_, fun a b => y.work.subset (notice a b)⟩
    obtain ⟨p, hp, tag, -⟩ := y.queue q hq
    exact tag ▸ none p hp

theorem FanFreed.heatersOff {s c : State} {t : TagIx} (h : FanFreed s c t) : FanFreed s c.heatersOff t := by
  obtain ⟨-, f, -, is⟩ | ⟨-, f, -, is⟩ | ⟨-, is⟩ := heatersOff_cases c
  · rw [is]
    refine h.yielded (.freeTag ..) fun none grant => ?_
    rw [freeTag_tag (s := c.modClc _) f none]
    split
    · rfl
    · exact grant
  · rw [is]
    exact h.yielded (.withdraw ..) fun none grant =>
      (withdraw_tag (s := c.modClc _) fun q hq tag => absurd tag (none q hq)).trans grant
  · rw [is]
    exact h

theorem heatersOff_yields (c : State) :
    ∃ heater, Yielded (c.modClc fun r => { r with heater := heater }) c.heatersOff := by
  obtain ⟨-, t, -, is⟩ | ⟨-, t, -, is⟩ | ⟨-, is⟩ := heatersOff_cases c
  · exact ⟨.off, by rw [is]; exact .freeTag ..⟩
  · exact ⟨.off, by rw [is]; exact .withdraw ..⟩
  · exact ⟨c.clc.heater, by rw [is]; exact .refl c⟩

/-- What a restart of CLC leaves of the flow, the frames and the settings before the second half of the write. -/
structure Rested (s d : State) : Prop where
  duty : d.clc.duty = s.clc.duty
  class1 : d.rif.class1 = s.rif.class1
  heldHeater : d.clc.heldHeater = s.clc.heldHeater
  settings : d.settings = s.settings

theorem Restarting.rested {s c : State} (h : Restarting s c) (hp : s.part = .configuration) : Rested s c := by
  obtain ⟨claim, held, y⟩ := h.yields
  obtain ⟨class1, heldHeater⟩ := y.sent fun e => PartState.noConfusion (hp.symm.trans e)
  exact ⟨y.duty, class1, heldHeater, y.settings⟩

theorem Restarting.part {s c : State} (h : Restarting s c) : c.part = s.part := by
  obtain ⟨claim, held, y⟩ := h.yields
  exact y.part

theorem Rested.heatersOff {s c : State} (h : Rested s c) (hp : c.part = .configuration) : Rested s c.heatersOff := by
  obtain ⟨heater, y⟩ := heatersOff_yields c
  obtain ⟨class1, heldHeater⟩ := y.sent fun e => PartState.noConfusion (hp.symm.trans e)
  exact ⟨y.duty.trans h.duty, class1.trans h.class1, heldHeater.trans h.heldHeater, y.settings.trans h.settings⟩

/-- The stages begin anew under the new settings (R136). -/
theorem restarted {s d : State} (rest : Rested s d) (fan : ∀ t, s.settings.clc.fanTag = some t → FanFreed s d t)
    (f : Settings → Settings) :
    let u := (d.withSettings f).restartStages
    u.clc.actual = 0 ∧ u.clc.target = 0 ∧ u.clc.dwell = 0 ∧ u.clc.dwellDue = false ∧
      u.clc.duty = s.clc.duty ∧ u.rif.class1 = s.rif.class1 ∧
      u.clc.cf = u.settings.stages[0].capacity * (match s.clc.duty with
        | .a => 16384
        | .b => 16384
        | .changeover => 8192
        | .noFlow => u.settings.clc.noFlowFactor) / 16384 ∧
      ∀ t, s.settings.clc.fanTag = some t → u.clc.stageClaim = none ∧
        (s.clc.stageClaim ≠ none → ∀ q ∈ u.ala.queue, ¬(q.tag = t ∧ q.who = .clc)) ∧
        ((∀ q ∈ s.ala.queue, q.tag = t → q.who = .clc ∧ s.clc.stageClaim ≠ none) →
          (u.tag t).grant = 0 ∧ ((s.tag t).grant ≠ 0 → s.settings.tags[t].owner ≠ .none →
            Work.released s.settings.tags[t].owner t ∈ u.work)) := by
  intro u
  obtain ⟨clc, settings, ala, class1, work⟩ := restartStages_spec (d.withSettings f)
  have ala : u.ala = d.ala := ala
  have clc : u.clc = { d.clc with
      actual := 0, target := 0, dwell := 0, dwellDue := false
      cf := ((d.withSettings f).stage 0).capacity * (d.withSettings f).health / 16384 } := clc
  refine ⟨by rw [clc], by rw [clc], by rw [clc], by rw [clc], (congrArg ClcRt.duty clc :).trans rest.duty,
    class1.trans rest.class1, (congrArg ClcRt.cf clc :).trans ?_, fun t ht => ?_⟩
  · rw [settings, ← rest.duty]
    rfl
  · have freed := fan t ht
    refine ⟨(congrArg ClcRt.stageClaim clc :).trans freed.stageClaim, fun h => ?_, fun h => ?_⟩
    · rw [ala]
      exact freed.claims h
    · obtain ⟨grant, -, notice⟩ := freed.freed h
      exact ⟨by rw [State.tag, ala]; exact grant, fun a b => work.subset (notice a b)⟩

/-- The heaters after a write of the cooling parameters (R136) [52]. -/
theorem heatersOff_off {s c : State} (h : Restarting s c) {t : TagIx} (ht : s.settings.clc.heaterTag = some t) :
    c.heatersOff.clc.heater = .off ∧
      (s.clc.heater = .on → (∀ q ∈ s.ala.queue, q.tag ≠ t) → (c.heatersOff.tag t).grant = 0) ∧
      (ClaimLaw s → s.clc.heater = .claiming → ∀ q ∈ c.heatersOff.ala.queue, ¬(q.tag = t ∧ q.who = .clc)) := by
  obtain ⟨claim, held, y⟩ := h.yields
  have tag : c.settings.clc.heaterTag = some t := by
    rw [y.settings]
    exact ht
  obtain ⟨heater, f, hf, is⟩ | ⟨heater, f, hf, is⟩ | ⟨heater, is⟩ := heatersOff_cases c
  · obtain rfl : t = f := Option.some.inj (tag.symm.trans hf)
    have z := Yielded.freeTag (c.modClc fun r => { r with heater := .off }) t
    rw [is]
    refine ⟨z.heater nofun, fun _ none => ?_, fun law claiming q hq own => ?_⟩
    · have none' : ∀ q ∈ c.ala.queue, q.tag ≠ t := fun q hq e => by
        obtain ⟨p, hp, same, -⟩ := y.queue q hq
        exact none p hp (same.trans e)
      exact (freeTag_tag (s := c.modClc _) t none').trans (if_pos rfl)
    · obtain ⟨p, hp, same, -⟩ := z.queue q hq
      exact y.switched law claiming (by rw [heater]; nofun) p hp (ht.trans (congrArg some (same.trans own.1).symm))
  · obtain rfl : t = f := Option.some.inj (tag.symm.trans hf)
    have z := Yielded.withdraw (c.modClc fun r => { r with heater := .off }) .clc t
    rw [is]
    refine ⟨z.heater nofun, fun on => ?_, fun _ _ q hq => (withdraw_queue _ _ _ q hq).2⟩
    have stays := y.heater fun e => Heater.noConfusion (on.symm.trans e)
    exact absurd (heater.symm.trans (stays.trans on)) nofun
  · obtain off | none := heater
    · rw [is]
      refine ⟨off, fun on => ?_, fun law claiming q hq own => ?_⟩
      · have stays := y.heater fun e => Heater.noConfusion (on.symm.trans e)
        exact absurd (off.symm.trans (stays.trans on)) nofun
      · exact y.switched law claiming (by rw [off]; nofun) q hq (ht.trans (congrArg some own.1.symm))
    · exact absurd (tag.symm.trans none) nofun

theorem heatersOff_keeps {s c : State} (h : Restarting s c) (law : ClaimLaw s) {t : TagIx}
    (hf : s.settings.clc.fanTag ≠ some t) (hh : s.settings.clc.heaterTag ≠ some t) (hg : (s.tag t).grant ≠ 0) :
    (c.heatersOff.tag t).grant ≠ 0 := by
  obtain ⟨claim, held, y⟩ := h.yields
  have kept := h.keeps law t hf hg
  have claims : ClaimLaw c := y.claims law
  obtain ⟨-, f, tag, is⟩ | ⟨-, f, tag, is⟩ | ⟨-, is⟩ := heatersOff_cases c
  · have other : f ≠ t := fun e => hh (by rw [← e, ← tag, y.settings]; rfl)
    rw [is]
    exact freeTag_keeps (s := c.modClc _) claims other kept
  · rw [is]
    exact withdraw_grants (s := c.modClc _) claims _ f t kept
  · rw [is]
    exact kept

/-! ### The writes -/

theorem clcChecks_pass {s : State} (hc : s.capture = none) (hp : s.part = .configuration) :
    ∀ c ∈ s.clcChecks, c.1 = false := by
  have notOperating : s.operating = false := by
    rw [State.operating, hp]
    rfl
  rw [State.clcChecks, List.forall_mem_cons, List.forall_mem_cons]
  exact ⟨notOperating, (capture_iff s).mpr hc, nofun⟩

theorem writeClc_whole {s : State} (hc : s.capture = none) (hp : s.part = .configuration) {x : ClcCfg} (hx : x.legal) :
    s.writeClc 0 x.words =
      (((s.restartClaims.heatersOff).withSettings fun st => { st with clc := x }).restartStages, .ok) := by
  have parsed : clcOf (overlay s.settings.clc.words 0 0 x.words) = some (x, false) := by
    rw [overlay_whole (ws := s.settings.clc.words) (data := x.words) 0 rfl]
    exact clc_readBack x hx
  rw [State.writeClc, parsed]
  exact judge_passes (clcChecks_pass hc hp) false _

theorem writeStages_whole {s : State} (hc : s.capture = none) (hp : s.part = .configuration) (k : StageIx) {x : Stage}
    (hx : x.legal) (ho : stagesOrdered (s.settings.stages.set k x) = true) :
    s.writeStages (8 * k) x.words = ((s.restartClaims.withSettings fun st =>
      { st with stages := s.settings.stages.set k x }).restartStages, .ok) := by
  have parsed : writtenEntries 6 8 (fun i => s.settings.stages[i].words) (fun ws => some (stageOf ws)) (8 * k) x.words =
      some [(k, x, false)] :=
    writtenEntries_fixed (stride := 8) k (by decide : 1 ≤ 7) (by decide : 7 ≤ 8) rfl
      (congrArg some (stage_readBack x hx))
  rw [State.writeStages, parsed]
  refine (judge_passes ?_ false _).trans rfl
  rw [List.forall_mem_cons]
  exact ⟨by rw [show storeEntries s.settings.stages (unmark [(k, x, false)]) = s.settings.stages.set k x from rfl, ho]; rfl,
    clcChecks_pass hc hp⟩

theorem stages_address (k : StageIx) :
    addressIn .clcParams (wordNat (32 + 8 * k)) = addressIn .stages (wordNat (8 * k)) := by
  revert k
  decide

/-- Settles O28, from each table's write rule and, for the cooling writes, from the restart of CLC. -/
theorem storedWritesMoveBlocks : Obligations.StoredWritesMoveBlocks := by
  refine fun s src ready idle => ⟨fun i x hx hv => ?map, fun i x hx hf => ?signals, fun i x hx hr => ?limits,
    fun g m b => ?capacities, ?cooling⟩
  case map =>
    intro u
    have written := writeAt_stored (r := .sampleMap) (n := 128) (stride := 7) (len := 7) ready src rfl i rfl (by decide)
      (by decide) (by decide) (writeSampleMap_whole idle i hx hv)
    obtain ⟨settings, phases, sequences, only, slots, others, evaluated, told⟩ := storeSampleMap_spec ready.noWork i x
    simp only [mem_mapHits] at slots others evaluated told
    exact ⟨congrArg Host.Outcome.next written, settings, phases, sequences, only, slots, others, evaluated, told⟩
  case signals =>
    intro u
    have written := writeAt_stored (r := .signals) (n := 96) (stride := 32) (len := 4) ready src rfl i rfl (by decide)
      (by decide) (by decide) (writeSignals_whole idle i hx hf)
    refine ⟨congrArg Host.Outcome.next written, ?_⟩
    by_cases same : s.settings.signals[i].feed = x.feed ∧ s.settings.signals[i].merge = x.merge
    · have eq : u = { s with settings := { s.settings with signals := s.settings.signals.set i x } } :=
        (storeSignals_eq s i x).trans (if_pos same)
      rw [eq]
      exact ⟨rfl, fun moved => absurd same fun h => moved.elim (fun f => f h.1.symm) fun m => m h.2.symm,
        fun _ _ => rfl, rfl, fun _ _ => ⟨rfl, ready.noWork⟩⟩
    · let r := resetSignal { s.settings with signals := s.settings.signals.set i x } i
      let told : List Work :=
        if r.value ≠ s.signals[i].value ∨ r.quality ≠ s.signals[i].quality ∨ r.quality = .lost then
          [.update i r.value r.quality .change] else []
      have eq : u = { s with
          settings := { s.settings with signals := s.settings.signals.set i x }
          signals := s.signals.set i r, work := s.work ++ told } :=
        (storeSignals_eq s i x).trans (if_neg same)
      have entry : u.signals[i] = r :=
        (signal_of_signals_eq (congrArg State.signals eq :) i).trans (updAt_same s.signals i fun _ => r)
      have work : u.work = told := by
        rw [eq, ready.noWork]
        rfl
      refine ⟨(congrArg State.settings eq :), fun _ => ⟨?_, ?_⟩, fun j hj => ?_, ?_,
        fun feed merge => absurd ⟨feed.symm, merge.symm⟩ same⟩
      · rw [entry, eq]
      · rw [entry]
        exact work
      · exact (signal_of_signals_eq (congrArg State.signals eq :) j).trans
          (updAt_other s.signals (fun _ => r) (Ne.symm hj))
      · rw [eq]
  case limits =>
    intro u
    have written := writeAt_stored (r := .limits) (n := 48) (stride := 16) (len := 13) ready src rfl i rfl (by decide)
      (by decide) (by decide) (writeLimits_whole idle i hx hr)
    let stored : State := { s with
      settings := { s.settings with limits := s.settings.limits.set i x }, limits := s.limits.set i resetLimit }
    have steady := Steady.updateHolds stored
    have due := updateHolds_due stored
    exact ⟨congrArg Host.Outcome.next written, steady.settings, steady.limits, congrArg Holds.converter due,
      congrArg Holds.yaw due, congrArg Holds.cooling due⟩
  case capacities =>
    intro u v
    exact congrArg Host.Outcome.next (writeAt_addressIn (off := 0) ready src .allocator rfl (by decide) (by decide)
      (by decide) (writeAllocator_capacities idle g m b))
  case cooling =>
    intro restarted
    refine ⟨fun x hx hp => ?_, fun k x hx hp ho => ?_⟩
    · intro u
      have begun := restartClaims_restarting s
      have rest := (begun.rested hp).heatersOff (begun.part.trans hp)
      have anew := Machine.restarted rest (fun t ht => (begun.fan t ht).heatersOff) fun st => { st with clc := x }
      have written := writeAt_addressIn (off := 0) (len := 23) ready src .clcParams rfl (by decide) (by decide)
        (by decide) (writeClc_whole idle hp hx)
      obtain ⟨clc, settings, ala, -⟩ := restartStages_spec
        (s.restartClaims.heatersOff.withSettings fun st => { st with clc := x })
      refine ⟨congrArg Host.Outcome.next written, settings.trans (congrArg (fun st => { st with clc := x }) rest.settings),
        anew, (congrArg ClcRt.heldHeater clc :).trans rest.heldHeater, fun t ht => ?_, fun law t hf hh hg => ?_⟩
      · obtain ⟨off, freed, withdrawn⟩ := heatersOff_off begun ht
        refine ⟨(congrArg ClcRt.heater clc :).trans off, fun on none => ?_, fun law claiming => ?_⟩
        · rw [State.tag, ala]
          exact freed on none
        · rw [ala]
          exact withdrawn law claiming
      · rw [State.tag, ala]
        exact heatersOff_keeps begun law hf hh hg
    · intro u
      have begun := restartClaims_restarting s
      have rest := begun.rested hp
      have anew := Machine.restarted rest begun.fan fun st => { st with stages := s.settings.stages.set k x }
      have written := writeAt_stored (r := .stages) (n := 6) (stride := 8) (len := 7) ready src rfl k rfl (by decide)
        (by decide) (by decide) (writeStages_whole idle hp k hx ho)
      obtain ⟨clc, settings, -⟩ := restartStages_spec
        (s.restartClaims.withSettings fun st => { st with stages := s.settings.stages.set k x })
      obtain ⟨claim, held, y⟩ := begun.yields
      refine ⟨congrArg Host.Outcome.next ?_, settings.trans (congrArg (fun st => { st with
        stages := s.settings.stages.set k x }) rest.settings), anew, fun hh => ?_⟩
      · show s.writeAt src (addressIn .clcParams (wordNat (32 + 8 * k))) 7 x.words = _
        rw [stages_address]
        exact written
      · exact (congrArg ClcRt.heater clc :).trans (y.heater hh)

end Sys2Proof.Machine
end

section
/-! PROOFS. O53: the stage tests, stage changes and grants of CLC (R138 to R141), flow windows and changeovers (R143,
R144), sheds (R145) and heater tests (R147). -/

namespace Sys2Proof.Machine

/-! ### The stage chosen by a test -/

/-- The last of the stages that meet a condition is the highest. -/
theorem getLast?_of_highest {p : StageIx → Bool} {k : StageIx} (hk : p k = true) (hn : ∀ j, k < j → p j = false) :
    ((indices 6).filter p).getLast? = some k := by
  have sorted : ((indices 6).filter p).reverse.Pairwise (· > ·) := by
    rw [List.pairwise_reverse, indices_eq]
    exact (List.pairwise_lt_finRange 6).filter _
  have mem : k ∈ ((indices 6).filter p).reverse := List.mem_reverse.mpr (List.mem_filter.mpr ⟨mem_indices k, hk⟩)
  rw [← List.head?_reverse]
  cases hl : ((indices 6).filter p).reverse with
  | nil => rw [hl] at mem; cases mem
  | cons x xs =>
    rw [hl] at mem sorted
    obtain rfl | hx := List.mem_cons.mp mem
    · rfl
    · have hj : x ∈ ((indices 6).filter p).reverse := hl ▸ List.mem_cons_self
      have fails := hn x ((List.pairwise_cons.mp sorted).1 k hx)
      exact absurd ((List.mem_filter.mp (List.mem_reverse.mp hj)).2.symm.trans fails) nofun

theorem getLast?_of_none {p : StageIx → Bool} (h : ∀ j, p j = false) : ((indices 6).filter p).getLast? = none := by
  rw [List.filter_eq_nil_iff.mpr fun j _ => Bool.eq_false_iff.mp (h j)]
  rfl

theorem usable_false (q : Quality) : q.usable = false ↔ q = .lost ∨ q = .unused := by
  cases q <;> simp [Quality.usable]

theorem calledStage_full {s : State} {q : Quality} (h : s.clc.fullHold = true ∨ q = .lost ∨ q = .unused) (v : Int) :
    s.calledStage v q = 5 :=
  if_pos (h.imp_right (usable_false q).mpr)

theorem calledStage_of {s : State} {q : Quality} (h : ¬(s.clc.fullHold = true ∨ q = .lost ∨ q = .unused)) (v : Int) :
    s.calledStage v q = ((indices 6).filter fun j => decide ((s.stage j).entry ≤ v)).getLast?.getD 0 :=
  if_neg fun g => h (g.imp_right (usable_false q).mp)

theorem unfannedStage_of {s : State} {k a : StageIx} (hk : k ≤ a) (h0 : (s.stage k).amount = 0)
    (hn : ∀ j : StageIx, k < j → j ≤ a → (s.stage j).amount ≠ 0) : s.unfannedStage a = k := by
  rw [State.unfannedStage, getLast?_of_highest (k := k) (by simp [hk, h0]) fun j hj => ?_]
  · rfl
  · by_cases hja : j ≤ a
    · simp [hja, hn j hj hja]
    · simp [hja]

theorem unfannedStage_none {s : State} {a : StageIx} (hn : ∀ j : StageIx, j ≤ a → (s.stage j).amount ≠ 0) :
    s.unfannedStage a = 0 := by
  rw [State.unfannedStage, getLast?_of_none fun j => ?_]
  · rfl
  · by_cases hja : j ≤ a
    · simp [hja, hn j hja]
    · simp [hja]

/-! ### The stage tests (R138 to R140) -/

theorem dropStageClaim_eq (s : State) :
    s.dropStageClaim = match s.clc.stageClaim, s.settings.clc.fanTag with
      | some _, some t =>
        (s.modClc fun c => { c with stageClaim := none, heldReported := false }).withdraw .clc t
      | _, _ => s := rfl

theorem dropStageClaim_noFan {s : State} (h : s.settings.clc.fanTag = none) : s.dropStageClaim = s := by
  rw [State.dropStageClaim, h]
  split
  · next claim => cases claim
  · rfl

theorem dropStageClaim_noClaim {s : State} (h : s.clc.stageClaim = none) : s.dropStageClaim = s := by
  rw [State.dropStageClaim, h]

theorem dropStageClaim_claim {s : State} {t : TagIx} {k : StageIx} (hf : s.settings.clc.fanTag = some t)
    (hk : s.clc.stageClaim = some k) :
    s.dropStageClaim = (s.modClc fun c => { c with stageClaim := none, heldReported := false }).withdraw .clc t := by
  rw [State.dropStageClaim, hf, hk]

/-- What the withdrawal of the stage claim leaves for the tests. -/
theorem dropStageClaim_clc (s : State) :
    s.dropStageClaim.clc.actual = s.clc.actual ∧ s.dropStageClaim.clc.target = s.clc.target ∧
      s.dropStageClaim.clc.dwell = s.clc.dwell ∧ s.dropStageClaim.clc.fullHold = s.clc.fullHold ∧
      s.dropStageClaim.settings = s.settings ∧
      (s.settings.clc.fanTag ≠ none → s.dropStageClaim.clc.stageClaim = none) := by
  cases hk : s.clc.stageClaim with
  | none =>
    rw [dropStageClaim_noClaim hk]
    exact ⟨rfl, rfl, rfl, rfl, rfl, fun _ => hk⟩
  | some k =>
    cases hf : s.settings.clc.fanTag with
    | none =>
      rw [dropStageClaim_noFan hf]
      exact ⟨rfl, rfl, rfl, rfl, rfl, absurd rfl⟩
    | some t =>
      rw [dropStageClaim_claim hf hk]
      have granted := Granted.withdraw (s.modClc fun c => { c with stageClaim := none, heldReported := false }) .clc t
      exact ⟨granted.actual rfl, granted.target, (congrArg ClcRt.dwell (granted.idle rfl) :), granted.fullHold,
        granted.settings, fun _ => granted.stageClaim rfl⟩

theorem dropStageClaim_twice (s : State) : s.dropStageClaim.dropStageClaim = s.dropStageClaim := by
  by_cases hf : s.settings.clc.fanTag = none
  · rw [dropStageClaim_noFan hf, dropStageClaim_noFan hf]
  · obtain ⟨-, -, -, -, -, none⟩ := dropStageClaim_clc s
    exact dropStageClaim_noClaim (none hf)

theorem downDue_iff (s : State) (v : Int) (q : Quality) :
    s.downDue v q = true ↔ 0 < s.clc.actual ∧ (q = .good ∨ q = .degraded) ∧ v < (s.stage s.clc.actual).exit ∧
      (s.stage s.clc.actual).dwell * 1024 ≤ s.clc.dwell ∧ s.clc.fullHold = false := by
  simp [State.downDue, State.dwellElapsed, usable_iff, and_assoc]

theorem upDue_iff (s : State) :
    s.upDue = true ↔ s.clc.actual < s.clc.target ∧ (s.stage s.clc.actual).dwell * 1024 ≤ s.clc.dwell ∧
      s.clc.stageClaim = none := by
  simp [State.upDue, State.dwellElapsed, and_assoc]

/-- The state in which the stage tests are taken: with no claim for a stage that is not called for. -/
def State.tested (s : State) : State := if s.clc.target ≤ s.clc.actual then s.dropStageClaim else s

theorem stageTestAt_eq {s : State} (h : s.part = .operating) (v : Int) (q : Quality) :
    s.stageTestAt v q =
      if s.tested.downDue v q = true then s.tested.stageDown (s.tested.clc.actual - 1)
      else if s.tested.upDue = true then s.tested.stageUp (s.tested.clc.actual + 1) else s.tested :=
  if_pos ((operating_iff s).mpr h)

theorem tested_downDue (s : State) (v : Int) (q : Quality) : s.tested.downDue v q = s.downDue v q := by
  unfold State.tested
  split
  · obtain ⟨actual, -, dwell, hold, settings, -⟩ := dropStageClaim_clc s
    rw [State.downDue, State.downDue, State.dwellElapsed, State.dwellElapsed, State.stage, State.stage, actual, dwell,
      hold, settings]
  · rfl

theorem tested_actual (s : State) : s.tested.clc.actual = s.clc.actual := by
  unfold State.tested
  split
  · exact (dropStageClaim_clc s).1
  · rfl

/-- A stage down begins with the withdrawal of the stage claim, whether it has been withdrawn already or not. -/
theorem tested_stageDown (s : State) (k : StageIx) : s.tested.stageDown k = s.stageDown k := by
  unfold State.tested
  split
  · unfold State.stageDown
    rw [dropStageClaim_twice]
  · rfl

theorem stageUp_noFan {s : State} (h : s.settings.clc.fanTag = none) (k : StageIx) : s.stageUp k = s.changeStage k := by
  rw [State.stageUp, h]

theorem stageUp_claim {s : State} {t : TagIx} (h : s.settings.clc.fanTag = some t) (k : StageIx) :
    let q := s.claimTag t (s.stage k).amount .clc
    (q.2 = .granted → s.stageUp k = q.1.changeStage k) ∧
      (q.2 = .queued → s.stageUp k = (q.1.modClc fun c => { c with stageClaim := some k }).reportHeld k) ∧
      (q.2 = .refused → s.stageUp k = q.1.reportHeld k) := by
  intro q
  rw [State.stageUp, h]
  refine ⟨fun hq => ?_, fun hq => ?_, fun hq => ?_⟩
  all_goals
    show (match q.2 with
      | .granted => q.1.changeStage k
      | .queued => (q.1.modClc fun c => { c with stageClaim := some k }).reportHeld k
      | .refused => q.1.reportHeld k) = _
    rw [hq]

theorem stageDown_noFan {s : State} (h : s.settings.clc.fanTag = none) (k : StageIx) :
    s.stageDown k = s.changeStage k := by
  unfold State.stageDown
  rw [dropStageClaim_noFan h]
  simp only [h]

theorem stageDown_claim {s : State} {t : TagIx} (h : s.settings.clc.fanTag = some t) (k : StageIx) :
    let q := s.dropStageClaim.claimTag t (s.stage k).amount .clc
    (q.2 = .granted → s.stageDown k = q.1.changeStage k) ∧
      (q.2 = .queued → s.stageDown k = (q.1.withdraw .clc t).changeStage (s.unfannedStage k)) ∧
      (q.2 = .refused → s.stageDown k = q.1.changeStage (s.unfannedStage k)) := by
  intro q
  obtain ⟨-, -, -, -, settings, -⟩ := dropStageClaim_clc s
  have stages : s.dropStageClaim.unfannedStage k = s.unfannedStage k ∧ s.dropStageClaim.stage k = s.stage k := by
    unfold State.unfannedStage State.stage
    rw [settings]
    exact ⟨rfl, rfl⟩
  have is : s.stageDown k = match q.2 with
      | .granted => q.1.changeStage k
      | .queued => (q.1.withdraw .clc t).changeStage (s.unfannedStage k)
      | .refused => q.1.changeStage (s.unfannedStage k) := by
    unfold State.stageDown
    dsimp only
    simp only [settings, h, stages] <;> rfl
  rw [is]
  exact ⟨fun hq => by rw [hq], fun hq => by rw [hq], fun hq => by rw [hq]⟩

/-! ### Stage changes and commands (R141, R146) -/

theorem health_eq (s : State) :
    s.health = match s.clc.duty with
      | .a => 16384
      | .b => 16384
      | .changeover => 8192
      | .noFlow => s.settings.clc.noFlowFactor := rfl

theorem class1Room_iff (s : State) : s.class1Room = true ↔ s.rif.class1.length < 6 := decide_eq_true_iff

theorem stageCommand_eq (s : State) :
    s.stageCommand = { s with
      clc := { s.clc with heldStage := if s.part = .operating ∧ 6 ≤ s.rif.class1.length then some s.stageFrame
        else s.clc.heldStage }
      rif := { s.rif with class1 := s.rif.class1 ++
        (if s.part = .operating ∧ s.rif.class1.length < 6 then [s.stageFrame] else []) } } := by
  by_cases hp : s.part = .operating
  · rw [State.stageCommand, if_pos ((operating_iff s).mpr hp)]
    by_cases room : s.rif.class1.length < 6
    · rw [if_pos ((class1Room_iff s).mpr room), if_pos ⟨hp, room⟩, if_neg fun h => room.not_ge h.2]
      rfl
    · rw [if_neg (mt (class1Room_iff s).mp room), if_neg fun h => room h.2, List.append_nil,
        if_pos ⟨hp, not_lt.mp room⟩]
      rfl
  · rw [stageCommand_idle hp, if_neg fun h => hp h.1, List.append_nil, if_neg fun h => hp h.1]

theorem heaterCommand_eq (s : State) (on : Bool) :
    s.heaterCommand on = { s with
      clc := { s.clc with heldHeater := if s.part = .operating ∧ ¬s.rif.class1.length < 6 then some (s.heaterFrame on)
        else s.clc.heldHeater }
      rif := { s.rif with class1 := s.rif.class1 ++
        (if s.part = .operating ∧ s.rif.class1.length < 6 then [s.heaterFrame on] else []) } } := by
  by_cases hp : s.part = .operating
  · rw [State.heaterCommand, if_pos ((operating_iff s).mpr hp)]
    by_cases room : s.rif.class1.length < 6
    · rw [if_pos ((class1Room_iff s).mpr room), if_pos ⟨hp, room⟩, if_neg fun h => h.2 room]
      rfl
    · rw [if_neg (mt (class1Room_iff s).mp room), if_neg fun h => room h.2, List.append_nil,
        if_pos ⟨hp, room⟩]
      rfl
  · rw [heaterCommand_idle hp, if_neg fun h => hp h.1, List.append_nil, if_neg fun h => hp h.1]

/-- The stage command depends on CLC, ALA and the settings alone. -/
theorem stageFrame_congr {s t : State} (hs : t.settings = s.settings) (ha : t.ala = s.ala)
    (hc : t.clc.actual = s.clc.actual) (hd : t.clc.duty = s.clc.duty) : t.stageFrame = s.stageFrame := by
  unfold State.stageFrame State.dutyPump State.stage State.tag
  rw [hs, ha, hc, hd]

theorem stageFrame_eq (s : State) :
    let pump (t : TagIx) (o : OutIx) : List CmdItem :=
      [{ output := o, value := if (s.tag t).grant = 0 then 0 else (s.stage s.clc.actual).pump }]
    s.stageFrame = { dest := s.settings.clc.node, items :=
      { output := s.settings.clc.fanOutput, value := (s.stage s.clc.actual).fan } ::
        match s.clc.duty with
        | .a => pump s.settings.clc.pumpATag s.settings.clc.pumpAOutput
        | .b => pump s.settings.clc.pumpBTag s.settings.clc.pumpBOutput
        | .changeover => []
        | .noFlow => [] } := by
  intro pump
  unfold State.stageFrame State.dutyPump
  cases s.clc.duty <;> rfl

theorem formCf_eq (s : State) :
    s.formCf = (s.modClc fun c => { c with cf := (s.stage c.actual).capacity * s.health / 16384 }).publish .coolingFactor
      ((s.stage s.clc.actual).capacity * s.health / 16384 : Nat) := rfl

/-- A stage change, before its command. -/
def State.staged (s : State) (k : StageIx) : State :=
  (s.modClc fun c => { c with
    actual := k, dwell := 0, dwellDue := false, heldReported := false
    cf := (s.stage k).capacity * s.health / 16384 }).publish .coolingFactor
    ((s.stage k).capacity * s.health / 16384 : Nat)

theorem changeStage_eq (s : State) (k : StageIx) : s.changeStage k = (s.staged k).stageCommand := rfl

theorem staged_only (s : State) (k : StageIx) : OnlySignals (s.modClc fun c => { c with
    actual := k, dwell := 0, dwellDue := false, heldReported := false
    cf := (s.stage k).capacity * s.health / 16384 }) (s.staged k) := onlySignals_publish ..

/-! ### Grants told to CLC (R139, R147, R148) -/

theorem dutyPump_iff (s : State) (t : TagIx) :
    s.dutyPump.map Prod.fst = some t ↔ (s.clc.duty = .a ∧ t = s.settings.clc.pumpATag) ∨
      (s.clc.duty = .b ∧ t = s.settings.clc.pumpBTag) := by
  unfold State.dutyPump
  cases s.clc.duty <;> simp [eq_comm]

theorem clcGranted_staged {s : State} {t : TagIx} {k : StageIx} (hk : s.clc.stageClaim = some k)
    (hf : s.settings.clc.fanTag = some t) :
    s.clcGranted t = ((s.modClc fun c => { c with stageClaim := none }).changeStage k).hand .stageTest := by
  rw [State.clcGranted, hk]
  exact if_pos hf

theorem clcGranted_other {s : State} {t : TagIx} (h : ¬(s.clc.stageClaim ≠ none ∧ s.settings.clc.fanTag = some t)) :
    s.clcGranted t = s.otherGranted t := by
  unfold State.clcGranted
  split
  · next k hk => exact if_neg fun hf => h ⟨by rw [hk]; nofun, hf⟩
  · rfl

/-! ### Flow windows (R143) -/

theorem pumpCommanded_iff (s : State) (t : TagIx) (o : OutIx) (h : s.dutyPump = some (t, o)) :
    s.pumpCommanded = true ↔ (s.tag t).grant ≠ 0 ∧ 0 < (s.stage s.clc.actual).pump := by
  rw [State.pumpCommanded, h]
  simp

theorem lowCounts_iff (s : State) :
    let carries (t : TagIx) := (s.tag t).grant ≠ 0 ∧ 0 < (s.stage s.clc.actual).pump
    s.lowCounts = true ↔ (s.clc.duty = .a ∧ carries s.settings.clc.pumpATag) ∨
      (s.clc.duty = .b ∧ carries s.settings.clc.pumpBTag) ∨ s.clc.duty = .changeover := by
  intro carries
  have pump := pumpCommanded_iff s
  unfold State.lowCounts
  cases hd : s.clc.duty with
  | a =>
    have is := pump s.settings.clc.pumpATag s.settings.clc.pumpAOutput (by rw [State.dutyPump, hd])
    simpa using is
  | b =>
    have is := pump s.settings.clc.pumpBTag s.settings.clc.pumpBOutput (by rw [State.dutyPump, hd])
    simpa using is
  | changeover => simp
  | noFlow => simp

theorem judgeFlow_eq {s : State} (hp : s.part = .operating) (hl : s.clc.low ≤ 255) (flow : Nat) :
    let more := s.modClc fun c => { c with low := min 255 (c.low + 1) }
    s.judgeFlow flow = if flow < s.settings.clc.flowMin ∧ s.lowCounts = true then
        if s.settings.clc.lowWindows ≤ min 255 (s.clc.low + 1) then more.changeoverDue else more
      else s.modClc fun c => { c with low := 0 } := by
  intro more
  have same : (s.modClc fun c => { c with low := satSucc 255 c.low }) = more :=
    congrArg (fun n => s.modClc fun c => { c with low := n }) (satSucc_eq_min hl)
  rw [State.judgeFlow, if_pos ((operating_iff s).mpr hp), same]
  rfl

/-! ### Changes of the duty state (R143, R144, R146) -/

/-- The health that R146 gives to a duty state. -/
def Settings.healthOf (st : Settings) : Duty → Nat
  | .a => 16384
  | .b => 16384
  | .changeover => 8192
  | .noFlow => st.clc.noFlowFactor

theorem health_of (s : State) : s.health = s.settings.healthOf s.clc.duty := by
  unfold State.health Settings.healthOf
  cases s.clc.duty <;> rfl

theorem dropPumpClaim_duty {s : State} {t : TagIx} {o : OutIx} (h : s.dutyPump = some (t, o)) :
    s.dropPumpClaim =
      if s.clc.pumpClaim = true then (s.modClc fun c => { c with pumpClaim := false }).withdraw .clc t else s := by
  unfold State.dropPumpClaim
  rw [h]
  cases s.clc.pumpClaim <;> rfl

theorem dropPumpClaim_none {s : State} (h : s.clc.pumpClaim = false) : s.dropPumpClaim = s := by
  rw [State.dropPumpClaim, h]

theorem dropPumpClaim_noPump {s : State} (h : s.dutyPump = none) : s.dropPumpClaim = s := by
  rw [State.dropPumpClaim, h]
  cases s.clc.pumpClaim <;> rfl

/-- A channel that has been requested stays as it is through withdrawals. -/
theorem withdraw_requested {s : State} {c : ChanIx} (h : (s.chan c).state = .requested) (who : Claimant) (t : TagIx) :
    (s.withdraw who t).chan c = s.chan c := by
  obtain same | ⟨moved, -⟩ := (told_withdraw s who t).chan c
  · exact same
  · rw [h] at moved
    exact moved.elim nofun nofun

theorem dropPumpClaim_left (s : State) :
    s.dropPumpClaim.clc.low = s.clc.low ∧ s.dropPumpClaim.settings = s.settings ∧
      (s.clc.stageClaim = none → s.dropPumpClaim.clc.actual = s.clc.actual) ∧
      (s.dutyPump ≠ none → s.dropPumpClaim.clc.pumpClaim = false) ∧
      ∀ c : ChanIx, (s.chan c).state = .requested → s.dropPumpClaim.chan c = s.chan c := by
  cases hp : s.clc.pumpClaim with
  | false =>
    rw [dropPumpClaim_none hp]
    exact ⟨rfl, rfl, fun _ => rfl, fun _ => hp, fun _ _ => rfl⟩
  | true =>
    cases hd : s.dutyPump with
    | none =>
      rw [dropPumpClaim_noPump hd]
      exact ⟨rfl, rfl, fun _ => rfl, absurd rfl, fun _ _ => rfl⟩
    | some x =>
      have is := (dropPumpClaim_duty (t := x.1) (o := x.2) hd).trans (if_pos hp)
      have granted := Granted.withdraw (s.modClc fun c => { c with pumpClaim := false }) .clc x.1
      rw [is]
      exact ⟨granted.low, granted.settings, fun hs => granted.actual hs, fun _ => granted.pump rfl,
        fun c hc => withdraw_requested (s := s.modClc fun r => { r with pumpClaim := false }) hc .clc x.1⟩

theorem setDuty_eq (s : State) (d : Duty) (f : ChangeFrom) :
    s.setDuty d f = (s.dropPumpClaim.modClc fun c => { c with duty := d, changeFrom := f }).formCf := rfl

theorem setDuty_spec (s : State) (d : Duty) (f : ChangeFrom) :
    let w := s.dropPumpClaim
    (s.setDuty d f).clc = { w.clc with
      duty := d, changeFrom := f
      cf := (s.stage w.clc.actual).capacity * s.settings.healthOf d / 16384 } ∧
    OnlySignals (w.modClc fun _ => (s.setDuty d f).clc) (s.setDuty d f) := by
  intro w
  obtain ⟨-, settings, -⟩ := dropPumpClaim_left s
  let x := w.modClc fun c => { c with duty := d, changeFrom := f }
  have clc : (s.setDuty d f).clc = { x.clc with cf := (x.stage x.clc.actual).capacity * x.health / 16384 } :=
    formCf_clc x
  have only : OnlySignals (x.modClc fun c => { c with cf := (x.stage x.clc.actual).capacity * x.health / 16384 })
    (s.setDuty d f) := onlySignals_publish ..
  refine ⟨?_, ?_⟩
  · have stage : x.stage x.clc.actual = s.stage w.clc.actual := by
      show w.settings.stages[w.clc.actual] = s.settings.stages[w.clc.actual]
      rw [settings]
    have health : x.health = s.settings.healthOf d := by
      rw [health_of]
      show w.settings.healthOf d = _
      rw [settings]
    rw [clc, stage, health]
    rfl
  · rw [clc]
    exact only

/-- What a change of the duty state leaves, seen from the state before it. -/
structure DutySet (s u : State) (d : Duty) (f : ChangeFrom) : Prop where
  duty : u.clc.duty = d
  changeFrom : u.clc.changeFrom = f
  low : u.clc.low = s.clc.low
  pump : s.dutyPump ≠ none → u.clc.pumpClaim = false
  cf : u.clc.cf = (s.stage u.clc.actual).capacity * s.settings.healthOf d / 16384
  actual : s.clc.stageClaim = none → u.clc.actual = s.clc.actual
  chan : ∀ c : ChanIx, (s.chan c).state = .requested → (u.chan c).state = .requested

theorem setDuty_set (s : State) (d : Duty) (f : ChangeFrom) : DutySet s (s.setDuty d f) d f := by
  obtain ⟨clc, only⟩ := setDuty_spec s d f
  obtain ⟨low, -, actual, pump, chan⟩ := dropPumpClaim_left s
  refine ⟨(congrArg ClcRt.duty clc :), (congrArg ClcRt.changeFrom clc :), (congrArg ClcRt.low clc :).trans low,
    fun h => (congrArg ClcRt.pumpClaim clc :).trans (pump h), ?_,
    fun h => (congrArg ClcRt.actual clc :).trans (actual h), fun c hc => ?_⟩
  · rw [clc]
  · rw [chan_of_seq only.seq c]
    exact (congrArg ChanRt.state (chan c hc)).trans hc

theorem DutySet.raised {s u : State} {d : Duty} {f : ChangeFrom} (h : DutySet s u d f) (code : Code) (l : List Int) :
    DutySet s (u.raise code l) d f := by
  have clc := (onlySignals_raise u code l).clc
  refine ⟨?_, ?_, ?_, fun hd => ?_, ?_, fun hs => ?_, fun c hc => ?_⟩
  · rw [clc, h.duty]
  · rw [clc, h.changeFrom]
  · rw [clc, h.low]
  · rw [clc, h.pump hd]
  · rw [clc, h.cf]
  · rw [clc, h.actual hs]
  · rw [chan_of_seq (onlySignals_raise u code l).seq c]
    exact h.chan c hc

/-! ### Changeovers (R143) -/

/-- The counter cleared for a changeover. -/
def State.lowCleared (s : State) : State := s.modClc fun c => { c with low := 0 }

/-- A changeover that failed: no flow, with event 21. -/
def State.flowLost (x : State) : State := (x.setDuty .noFlow .none).raise 21 []

theorem requestChangeover_none (s : State) (f : ChangeFrom) : s.requestChangeover none f = s.lowCleared.flowLost := rfl

theorem requestChangeover_masked {s : State} {c : ChanIx} (h : (s.chan c).state = .masked) (f : ChangeFrom) :
    s.requestChangeover (some c) f = (s.lowCleared.raise 7 [(c : Int), Requester.cooling.number]).flowLost := by
  rw [← request_of_masked (s := s.lowCleared) h .cooling]
  exact if_pos ((isMasked_iff s.lowCleared c).mpr h)

theorem requestChangeover_free {s : State} {c : ChanIx} (h : (s.chan c).state ≠ .masked) (f : ChangeFrom) :
    s.requestChangeover (some c) f =
      ((s.lowCleared.request c .cooling).setDuty .changeover f).raise 20 [(f.code : Int), s.flowNumber] :=
  if_neg (mt (isMasked_iff s.lowCleared c).mp h)

theorem changeoverDue_duty {s : State} {ch : Option ChanIx} (h : (s.clc.duty = .a ∧ ch = s.settings.clc.aToB) ∨
    (s.clc.duty = .b ∧ ch = s.settings.clc.bToA)) :
    s.changeoverDue = s.requestChangeover ch (if s.clc.duty = .a then .a else .b) := by
  obtain ⟨hd, rfl⟩ | ⟨hd, rfl⟩ := h
  · rw [State.changeoverDue, hd, if_pos rfl]
  · rw [State.changeoverDue, hd, if_neg nofun]

/-- At the limit of low flows in CHANGEOVER the channel of the running changeover is requested again. -/
theorem changeoverDue_running {s : State} {ch : Option ChanIx} (hd : s.clc.duty = .changeover)
    (hc : (s.clc.changeFrom = .a ∧ ch = s.settings.clc.aToB) ∨ (s.clc.changeFrom = .b ∧ ch = s.settings.clc.bToA)) :
    s.changeoverDue = ch.elim s.lowCleared fun c => s.lowCleared.request c .cooling := by
  unfold State.changeoverDue
  obtain ⟨hf, rfl⟩ | ⟨hf, rfl⟩ := hc
  · rw [hd, hf]
    show (match s.settings.clc.aToB with
      | none => s.lowCleared
      | some c => s.lowCleared.request c .cooling) = _
    cases s.settings.clc.aToB <;> rfl
  · rw [hd, hf]
    show (match s.settings.clc.bToA with
      | none => s.lowCleared
      | some c => s.lowCleared.request c .cooling) = _
    cases s.settings.clc.bToA <;> rfl

/-- What the changeover of a duty pump leaves (R143). -/
structure ChangedOver (s u : State) (d : Duty) (f : ChangeFrom) : Prop where
  low : u.clc.low = 0
  pump : u.clc.pumpClaim = false
  duty : u.clc.duty = d
  changeFrom : u.clc.changeFrom = f
  cf : u.clc.cf = (s.stage u.clc.actual).capacity * s.settings.healthOf d / 16384
  actual : s.clc.stageClaim = none → u.clc.actual = s.clc.actual

theorem DutySet.changedOver {s x u : State} {d : Duty} {f : ChangeFrom} (h : DutySet x u d f)
    (hc : x.clc = s.lowCleared.clc) (hs : x.settings = s.settings) (hd : s.clc.duty = .a ∨ s.clc.duty = .b) :
    ChangedOver s u d f where
  low := by rw [h.low, hc]; rfl
  pump := h.pump <| by
    rw [State.dutyPump, hc, hs]
    show (match s.clc.duty with
      | .a => _
      | .b => _
      | .changeover => none
      | .noFlow => none) ≠ none
    obtain hd | hd := hd <;> rw [hd] <;> nofun
  duty := h.duty
  changeFrom := h.changeFrom
  cf := by
    rw [h.cf, State.stage, hs]
    rfl
  actual hn := by
    have kept := h.actual (by rw [hc]; exact hn)
    rw [kept, hc]
    rfl

/-! ### Outcomes of the changeover channels (R144) -/

theorem dutyMoved_same {s : State} {d : Duty} (h : s.clc.duty = d) : s.dutyMoved d = s := if_pos h

theorem dutyMoved_other {s : State} {d : Duty} (h : s.clc.duty ≠ d) :
    s.dutyMoved d = ((s.setDuty d .none).modClc fun c => { c with low := 0 }).stageCommand := if_neg h

/-- The state whose stage command a move of the duty sends. -/
def State.dutied (s : State) (d : Duty) : State := { s with clc := { s.clc with duty := d } }

theorem dutyMoved_sends {s : State} {d : Duty} (h : s.clc.duty ≠ d) (hp : s.clc.pumpClaim = false) :
    (s.dutyMoved d).rif.class1 = s.rif.class1 ++
        (if s.part = .operating ∧ s.rif.class1.length < 6 then [(s.dutied d).stageFrame] else []) ∧
      (s.dutyMoved d).clc.heldStage =
        (if s.part = .operating ∧ 6 ≤ s.rif.class1.length then some (s.dutied d).stageFrame else s.clc.heldStage) := by
  obtain ⟨clc, only⟩ := setDuty_spec s d .none
  have kept : s.dropPumpClaim = s := dropPumpClaim_none hp
  rw [kept] at clc only
  let x := (s.setDuty d .none).modClc fun c => { c with low := 0 }
  have class1 : x.rif.class1 = s.rif.class1 := (congrArg (fun t : State => t.rif.class1) only :)
  have part : x.part = s.part := only.part
  have held : x.clc.heldStage = s.clc.heldStage := (congrArg ClcRt.heldStage clc :)
  have frame : x.stageFrame = (s.dutied d).stageFrame :=
    stageFrame_congr only.settings only.ala (congrArg ClcRt.actual clc :) (congrArg ClcRt.duty clc :)
  have sent := stageCommand_eq x
  rw [dutyMoved_other h, ← frame, ← class1, ← part, ← held]
  exact ⟨(congrArg (fun t : State => t.rif.class1) sent :), (congrArg (fun t : State => t.clc.heldStage) sent :)⟩

theorem dutyMoved_clc {s : State} {d : Duty} (h : s.clc.duty ≠ d) :
    (s.dutyMoved d).clc.duty = d ∧ (s.dutyMoved d).clc.changeFrom = .none ∧ (s.dutyMoved d).clc.low = 0 ∧
      (s.dutyPump ≠ none → (s.dutyMoved d).clc.pumpClaim = false) ∧ (s.dutyMoved d).settings = s.settings ∧
      (s.dutyMoved d).clc.cf =
        ((s.dutyMoved d).stage (s.dutyMoved d).clc.actual).capacity * s.settings.healthOf d / 16384 := by
  have set := setDuty_set s d .none
  obtain ⟨-, only⟩ := setDuty_spec s d .none
  obtain ⟨-, settings, -⟩ := dropPumpClaim_left s
  let x := (s.setDuty d .none).modClc fun c => { c with low := 0 }
  have sent := stageCommand_eq x
  have settings : (s.dutyMoved d).settings = s.settings := by
    rw [dutyMoved_other h, sent]
    exact only.settings.trans settings
  have clc : (s.dutyMoved d).clc = { (s.setDuty d .none).clc with
      low := 0, heldStage := (s.dutyMoved d).clc.heldStage } := by
    rw [dutyMoved_other h]
    exact (congrArg State.clc sent).trans (by rw [sent]; rfl)
  refine ⟨(congrArg ClcRt.duty clc :).trans set.duty, (congrArg ClcRt.changeFrom clc :).trans set.changeFrom,
    (congrArg ClcRt.low clc :), fun hd => (congrArg ClcRt.pumpClaim clc :).trans (set.pump hd), settings, ?_⟩
  have actual : (s.dutyMoved d).clc.actual = (s.setDuty d .none).clc.actual := (congrArg ClcRt.actual clc :)
  rw [State.stage, settings, actual]
  exact (congrArg ClcRt.cf clc :).trans set.cf

theorem runningChangeover_iff (s : State) (c : ChanIx) :
    s.runningChangeover = some c ↔ s.clc.duty = .changeover ∧
      ((s.clc.changeFrom = .a ∧ s.settings.clc.aToB = some c) ∨
        (s.clc.changeFrom = .b ∧ s.settings.clc.bToA = some c)) := by
  unfold State.runningChangeover
  cases s.clc.duty <;> cases s.clc.changeFrom <;> simp

/-! ### Heaters (R147) -/

theorem claimTag_refused {s : State} {t : TagIx} {n : Nat} {who : Claimant} (h : (s.claimTag t n who).2 = .refused) :
    s.claimTag t n who = (s, .refused) := by
  by_cases usable : s.settings.tags[t].valid = true ∧ ¬∃ q ∈ s.ala.queue, q.tag = t
  · exact absurd h (claimTag_answered usable.1 usable.2 n who)
  · exact claimTag_unusable usable n who

theorem heatCalled_iff (s : State) (v : Int) (q : Quality) :
    s.heatCalled v q = true ↔ (q = .good ∨ q = .degraded) ∧ (s.settings.clc.humOn : Int) < v ∧
      (s.cnv.state = .off ∨ s.cnv.state = .standby) := by
  simp [State.heatCalled, usable_iff, and_assoc]

theorem heatEnds_iff (s : State) (v : Int) (q : Quality) :
    s.heatEnds v q = true ↔ ¬(q = .good ∨ q = .degraded) ∨ v < s.settings.clc.humOff ∨
      ¬(s.cnv.state = .off ∨ s.cnv.state = .standby) := by
  rw [← usable_iff]
  simp [State.heatEnds, or_assoc]

/-- The heater test with a heater tag, in OPERATING. -/
theorem heaterTestAt_tag {s : State} {t : TagIx} (hp : s.part = .operating) (ht : s.settings.clc.heaterTag = some t)
    (v : Int) (q : Quality) :
    s.heaterTestAt v q = match s.clc.heater with
      | .off =>
        if s.heatCalled v q = true then
          match (s.claimTag t s.settings.clc.heaterAmount .clc).2 with
          | .granted =>
            ((s.claimTag t s.settings.clc.heaterAmount .clc).1.modClc fun c => { c with heater := .on }).heaterCommand true
          | .queued => (s.claimTag t s.settings.clc.heaterAmount .clc).1.modClc fun c => { c with heater := .claiming }
          | .refused => (s.claimTag t s.settings.clc.heaterAmount .clc).1
        else s
      | .claiming => if s.heatEnds v q = true then s.dropHeaterClaim t else s
      | .on =>
        if s.heatEnds v q = true then
          ((s.heaterCommand false).freeTag t).modClc fun c => { c with heater := .off }
        else s := by
  unfold State.heaterTestAt
  rw [(operating_iff s).mpr hp, ht] <;> rfl

theorem heaterTestAt_idle {s : State} (h : s.part ≠ .operating ∨ s.settings.clc.heaterTag = none) (v : Int)
    (q : Quality) : s.heaterTestAt v q = s := by
  unfold State.heaterTestAt
  split
  · next t ho ht =>
    obtain hp | hn := h
    · exact absurd ((operating_iff s).mp ho) hp
    · exact absurd (ht.symm.trans hn) nofun
  · rfl

/-! ### Sheds (R145) -/

theorem clcShed_fan {s : State} {t : TagIx} (h : s.settings.clc.fanTag = some t) :
    s.clcShed t = (s.dropStageClaim.changeStage (s.unfannedStage s.clc.actual)).stageTest := by
  obtain ⟨actual, -, -, -, settings, -⟩ := dropStageClaim_clc s
  have stage : s.dropStageClaim.unfannedStage s.dropStageClaim.clc.actual = s.unfannedStage s.clc.actual := by
    unfold State.unfannedStage State.stage
    rw [settings, actual]
  rw [← stage]
  exact if_pos h

theorem clcShed_heater {s : State} {t : TagIx} (hf : s.settings.clc.fanTag ≠ some t)
    (hh : s.settings.clc.heaterTag = some t) :
    s.clcShed t = ((if s.clc.heater = .claiming then s.dropHeaterClaim t else s).modClc fun c =>
      { c with heater := .off }).heaterCommand false :=
  (if_neg hf).trans (if_pos hh)

theorem clcShed_other {s : State} {t : TagIx} (hf : s.settings.clc.fanTag ≠ some t)
    (hh : s.settings.clc.heaterTag ≠ some t) :
    s.clcShed t = if ((s.clc.duty = .a ∧ t = s.settings.clc.pumpATag) ∨ (s.clc.duty = .b ∧ t = s.settings.clc.pumpBTag)) ∧
      s.part = .operating then s.pumpShed else s :=
  (if_neg hf).trans ((if_neg hh).trans (if_congr (and_congr (dutyPump_iff s t) (operating_iff s)) rfl rfl))

/-- Settles O53, from the lemmas on each test, grant, changeover, outcome and shed. -/
theorem coolingStages : Obligations.CoolingStages := by
  refine ⟨fun s => ?_, fun s v r => ?_, fun s k => ?_, fun s t => ?_, fun s flow => ?_, fun s ch hd hc => ?_,
    fun s c e => ?_, fun s t => ?_, fun s v r => ?_⟩
  · refine ⟨rfl, rfl, fun i v q => ?_⟩
    intro formed full
    have target (k : StageIx) (h : s.calledStage v q = k) : s.formTarget v q = formed k := by
      rw [State.formTarget, h]
    refine ⟨fun h => target 5 (calledStage_full h v), fun h => ⟨fun k hk hj => target k ?_, fun hj => target 0 ?_⟩, ?_⟩
    · rw [calledStage_of h, getLast?_of_highest (decide_eq_true hk) fun j hkj => decide_eq_false (not_le.mpr (hj j hkj))]
      rfl
    · rw [calledStage_of h, getLast?_of_none fun j => decide_eq_false (not_le.mpr (hj j))]
      rfl
    · have settings : (if i = s.settings.clc.coolant then s.formTarget v q else s).settings = s.settings := by
        split
        · exact (Steady.formTarget s v q).settings
        · rfl
      exact if_congr (by rw [settings]) rfl rfl
  · intro p a took elapsed down up dropped
    have drops : s.dropStageClaim = dropped := rfl
    obtain ⟨actual, target, -⟩ := dropStageClaim_clc s
    refine ⟨fun hp => if_neg (mt (operating_iff s).mp hp), fun hp => ?_⟩
    have test : took = _ := stageTestAt_eq hp v r
    rw [tested_downDue, tested_actual, tested_stageDown] at test
    have stays : ¬s.clc.target ≤ a → s.tested = s := fun h => if_neg h
    refine ⟨fun hd ht => ?_, fun hd hu ht => ?_, fun hd hu => ?_, fun hd => ?_⟩
    · have tested : s.tested = dropped := (if_pos ht).trans drops
      rw [test, if_neg (mt (downDue_iff s v r).mp hd), if_neg fun h => ?_, tested]
      have above := ((upDue_iff _).mp h).1
      rw [tested, ← drops, actual, target] at above
      exact above.not_ge ht
    · rw [test, if_neg (mt (downDue_iff s v r).mp hd), stays ht.not_ge, if_neg (mt (upDue_iff s).mp hu)]
    · have climbs : took = s.stageUp (a + 1) := by
        rw [test, if_neg (mt (downDue_iff s v r).mp hd), stays hu.1.not_ge, if_pos ((upDue_iff s).mpr hu)]
      rw [climbs]
      exact ⟨fun hf => stageUp_noFan hf _, fun t hf => stageUp_claim hf _⟩
    · have falls : took = s.stageDown (a - 1) := by rw [test, if_pos ((downDue_iff s v r).mpr hd)]
      rw [falls]
      refine ⟨fun hf => stageDown_noFan hf _, fun t hf => ?_⟩
      obtain ⟨granted, queued, refused⟩ := stageDown_claim hf (a - 1)
      refine ⟨granted, fun k hk h0 hj => ?_⟩
      rw [unfannedStage_of hk h0 hj] at queued refused
      exact ⟨queued, refused⟩
  · intro p u health pump frame cf
    let x := s.modClc fun c => { c with actual := k, dwell := 0, dwellDue := false, heldReported := false, cf := cf }
    have only : OnlySignals x (s.staged k) := staged_only s k
    have class1 : (s.staged k).rif.class1 = s.rif.class1 := (congrArg (fun t : State => t.rif.class1) only :)
    have sends : (s.staged k).stageFrame = frame :=
      (stageFrame_congr only.settings only.ala (congrArg ClcRt.actual only.clc) (congrArg ClcRt.duty only.clc)).trans
        (stageFrame_eq x)
    have sent := stageCommand_eq (s.staged k)
    rw [← changeStage_eq, sends, only.part, only.clc, class1] at sent
    exact ⟨formCf_eq s, changeStage_eq s k, (congrArg State.clc sent :), (congrArg (fun t : State => t.rif.class1) sent :)⟩
  · intro p u room frame staged heated pumped
    refine ⟨fun k hk hf => clcGranted_staged hk hf, fun hs hh => ?_, fun hs hh hp => ?_, fun hs hh hp => ?_⟩
    · exact (clcGranted_other hs).trans ((if_pos hh).trans (heaterCommand_eq (s.modClc fun c => { c with heater := .on }) true))
    · exact (clcGranted_other hs).trans ((if_neg hh).trans (if_pos ⟨hp.1, (dutyPump_iff s t).mpr hp.2⟩))
    · exact (clcGranted_other hs).trans ((if_neg hh).trans (if_neg fun h => hp ⟨h.1, (dutyPump_iff s t).mp h.2⟩))
  · intro p carries counts more
    refine ⟨fun hp => if_neg (mt (operating_iff s).mp hp), fun hp hl => ?_, fun ch hd => ?_⟩
    · have judged := judgeFlow_eq hp hl flow
      have due : (flow < s.settings.clc.flowMin ∧ s.lowCounts = true) ↔ counts :=
        and_congr_right' (lowCounts_iff s)
      exact ⟨fun hn => judged.trans (if_neg (mt due.mp hn)),
        fun hc hn => judged.trans ((if_pos (due.mpr hc)).trans (if_neg hn.not_ge)),
        fun hc hn => judged.trans ((if_pos (due.mpr hc)).trans (if_pos hn))⟩
    · intro u free zero pump dropped moved failed
      let f : ChangeFrom := if s.clc.duty = .a then .a else .b
      have duty : s.clc.duty = .a ∨ s.clc.duty = .b := hd.imp And.left And.left
      have is : u = s.requestChangeover ch f := changeoverDue_duty hd
      have carrier : ∃ o, zero.dutyPump = some (pump, o) := by
        show ∃ o, s.dutyPump = some (pump, o)
        unfold State.dutyPump
        obtain ha | hb := duty
        · exact ⟨_, by simp only [ha, pump, if_true] <;> rfl⟩
        · exact ⟨_, by simp only [hb, pump, if_neg (nofun : Duty.b ≠ Duty.a)] <;> rfl⟩
      obtain ⟨o, carrier⟩ := carrier
      have sets (x : State) (hc : x.clc = zero.clc) (hs : x.settings = s.settings) (d : Duty) (g : ChangeFrom) :
          x.setDuty d g = moved x d g := by
        have drops : x.dropPumpClaim = dropped x := by
          refine dropPumpClaim_duty (o := o) ?_
          rw [State.dutyPump, hc, hs]
          exact carrier
        rw [setDuty_eq, drops]
      have raised (code : Code) (l : List Int) : (zero.raise code l).clc = zero.clc ∧
          (zero.raise code l).settings = s.settings :=
        ⟨(onlySignals_raise zero code l).clc, (onlySignals_raise zero code l).settings⟩
      have requested (c : ChanIx) : (zero.request c .cooling).clc = zero.clc ∧
          (zero.request c .cooling).settings = s.settings :=
        ⟨(ClcKept.request zero c .cooling).clc, (Granted.request zero c .cooling).settings⟩
      have lost (x : State) (hc : x.clc = zero.clc) (hs : x.settings = s.settings) : x.flowLost = failed x ∧
          ChangedOver s x.flowLost .noFlow .none :=
        ⟨congrArg (fun y => State.raise y 21 []) (sets x hc hs .noFlow .none),
          ((setDuty_set x .noFlow .none).raised 21 []).changedOver hc hs duty⟩
      have refusedNone (hn : ch = none) : u = zero.flowLost := by
        rw [is, hn]
        rfl
      have refusedMasked (c : ChanIx) (hc : ch = some c) (hm : (s.chan c).state = .masked) :
          u = (zero.raise 7 [(c : Int), Requester.cooling.number]).flowLost := by
        rw [is, hc]
        exact requestChangeover_masked hm f
      have accepted (c : ChanIx) (hc : ch = some c) (hm : (s.chan c).state ≠ .masked) :
          u = ((zero.request c .cooling).setDuty .changeover f).raise 20 [(f.code : Int), s.flowNumber] := by
        rw [is, hc]
        exact requestChangeover_free hm f
      have results : (free → ChangedOver s u .changeover f) ∧ (¬free → ChangedOver s u .noFlow .none) := by
        refine ⟨fun ⟨c, hc, hm⟩ => ?_, fun hn => ?_⟩
        · rw [accepted c hc hm]
          exact ((setDuty_set _ _ _).raised ..).changedOver (requested c).1 (requested c).2 duty
        · cases hch : ch with
          | none =>
            rw [refusedNone hch]
            exact (lost zero rfl rfl).2
          | some c =>
            have hm : (s.chan c).state = .masked := Classical.byContradiction fun hm => hn ⟨c, hch, hm⟩
            rw [refusedMasked c hch hm]
            exact (lost _ (raised ..).1 (raised ..).2).2
      have always : u.clc.low = 0 ∧ u.clc.pumpClaim = false ∧ (s.clc.stageClaim = none → u.clc.actual = s.clc.actual) := by
        by_cases hf : free
        · exact ⟨(results.1 hf).low, (results.1 hf).pump, (results.1 hf).actual⟩
        · exact ⟨(results.2 hf).low, (results.2 hf).pump, (results.2 hf).actual⟩
      refine ⟨fun hn => (refusedNone hn).trans (lost zero rfl rfl).1,
        fun c hc hm => (refusedMasked c hc hm).trans (lost _ (raised ..).1 (raised ..).2).1,
        fun c hc hm => (accepted c hc hm).trans ?_, always.1, always.2.1, fun hf => ?_, fun hf => ?_, always.2.2⟩
      · have code : (f.code : Int) = if s.clc.duty = .a then 1 else 2 := by
          show ((if s.clc.duty = .a then ChangeFrom.a else .b).code : Int) = _
          split
          · rfl
          · rfl
        have flow : s.flowNumber = match s.clc.flow with
            | some n => (n : Int)
            | none => Config.noFlowNumber := by
          unfold State.flowNumber
          cases s.clc.flow <;> rfl
        rw [sets _ (requested c).1 (requested c).2, code, flow] <;> rfl
      · have done := results.1 hf
        refine ⟨done.duty, done.changeFrom, done.cf, fun c hc hi => ?_⟩
        have asked : ((zero.request c .cooling).chan c).state = .requested := by
          rw [request_of_idle (s := zero) hi, chan_modChan]
          rfl
        rw [accepted c hc (by rw [hi]; nofun)]
        exact ((setDuty_set _ _ _).raised ..).chan c asked
      · have done := results.2 hf
        exact ⟨done.duty, done.changeFrom, done.cf⟩
  · intro cleared
    have is : s.changeoverDue = ch.elim cleared fun c => cleared.request c .cooling := changeoverDue_running hd hc
    refine ⟨fun hn => by rw [is, hn]; rfl, fun c hch => ?_⟩
    have asked : s.changeoverDue = cleared.request c .cooling := by
      rw [is, hch]
      rfl
    exact ⟨asked, fun hi hm => asked.trans (request_of_active (s := cleared) hi hm .cooling)⟩
  · intro p got running moved
    have moves (d : Duty) : moved d (s.dutyMoved d) := by
      refine ⟨dutyMoved_same, fun h => ?_⟩
      intro v
      obtain ⟨duty, changeFrom, low, pump, -, cf⟩ := dutyMoved_clc h
      refine ⟨duty, changeFrom, low, fun hd => pump ?_, cf, fun hp => dutyMoved_sends h hp⟩
      unfold State.dutyPump
      obtain hd | hd := hd <;> rw [hd] <;> nofun
    have ended (he : e ≠ .terminal) :
        got = if s.runningChangeover = some c then (s.dutyMoved .noFlow).raise 21 [(c : Int)] else s := by
      cases e with
      | terminal => exact absurd rfl he
      | fault => rfl
      | aborted => rfl
    have runs := runningChangeover_iff s c
    refine ⟨fun he h => ?_, fun he h1 h2 => ?_, fun he h1 h2 => ?_, fun he h => ?_, fun he h => ?_⟩
    · subst he
      have is : got = s.dutyMoved .b := if_pos h
      rw [is]
      exact moves .b
    · subst he
      have is : got = s.dutyMoved .a := (if_neg h1).trans (if_pos h2)
      rw [is]
      exact moves .a
    · subst he
      exact (if_neg h1).trans (if_neg h2)
    · exact ⟨_, moves .noFlow, (ended he).trans (if_pos (runs.mpr h))⟩
    · exact (ended he).trans (if_neg (mt runs.mp h))
  · intro p a dropped pump
    refine ⟨fun hf => ?_, fun hf hh => ⟨fun hc => ?_, fun hc => ?_⟩, fun hf hh => ⟨fun hp ho => ?_, fun hn => ?_⟩⟩
    · have drops : s.dropStageClaim = dropped := by
        show s.dropStageClaim = match s.clc.stageClaim with
          | some _ => _
          | none => s
        cases hk : s.clc.stageClaim with
        | none => exact dropStageClaim_noClaim hk
        | some k => exact dropStageClaim_claim hf hk
      have shed := clcShed_fan hf
      rw [drops] at shed
      refine ⟨fun k hk h0 hj => ?_, fun hj => ?_⟩
      · rw [shed, unfannedStage_of hk h0 hj]
      · rw [shed, unfannedStage_none hj]
    · rw [clcShed_heater hf hh, if_neg hc]
    · rw [clcShed_heater hf hh, if_pos hc]
      rfl
    · exact (clcShed_other hf hh).trans (if_pos ⟨hp, ho⟩)
    · exact (clcShed_other hf hh).trans (if_neg fun h => hn.elim (fun a => a h.1) fun b => b h.2)
  · intro p took usable atRest called ends
    refine ⟨fun h => heaterTestAt_idle h v r, fun hp t ht => ?_⟩
    intro q
    have test := heaterTestAt_tag hp ht v r
    refine ⟨fun hh => ⟨fun hc => ?_, fun hc => ⟨fun hq => ?_, fun hq => ?_, fun hq => ?_⟩⟩,
      fun hh => ⟨fun he => ?_, fun he => ?_⟩, fun hh => ⟨fun he => ?_, fun he => ?_⟩⟩
    all_goals rw [hh] at test
    · exact test.trans (if_neg (mt (heatCalled_iff s v r).mp hc))
    · refine test.trans ((if_pos ((heatCalled_iff s v r).mpr hc)).trans ?_)
      rw [show (s.claimTag t s.settings.clc.heaterAmount .clc).2 = _ from hq]
    · refine test.trans ((if_pos ((heatCalled_iff s v r).mpr hc)).trans ?_)
      rw [show (s.claimTag t s.settings.clc.heaterAmount .clc).2 = _ from hq]
    · refine test.trans ((if_pos ((heatCalled_iff s v r).mpr hc)).trans ?_)
      rw [claimTag_refused (t := t) (n := s.settings.clc.heaterAmount) (who := .clc) hq]
    · exact test.trans (if_pos ((heatEnds_iff s v r).mpr he))
    · exact test.trans (if_neg (mt (heatEnds_iff s v r).mp he))
    · exact test.trans (if_pos ((heatEnds_iff s v r).mpr he))
    · exact test.trans (if_neg (mt (heatEnds_iff s v r).mp he))

end Sys2Proof.Machine
end

section
/-! SUPPORT. A trip of CNV: the abort of the awaited channel, the Block Command, the trip channel and what is recorded
(R80, R81). -/

namespace Sys2Proof.Machine

/-! ### The abort of a channel -/

theorem abortedChan_same (s : State) (c : ChanIx) : (s.abortedChan c).chan c = (s.chan c).abortedRun :=
  Vector.getElem_set_self ..

theorem abortedChan_other (s : State) {c d : ChanIx} (h : d ≠ c) : (s.abortedChan d).chan c = s.chan c :=
  Vector.getElem_set_ne d.isLt c.isLt fun e => h (Fin.ext e)

theorem abortChan_eq {s : State} {c : ChanIx} (h : (s.chan c).state ≠ .masked) (p : Party) :
    s.abortChan c p =
      let v := (s.withdrawChan c).abortedChan c
      (v.raise 9 [(c : Int), ((v.chan c).current : Int), p.code]).notifyOwner c .aborted := by
  rw [abortedChan_eq]
  exact if_neg fun m => h ((isMasked_iff s c).mp m)

theorem abortChan_masked (s : State) (c : ChanIx) (p : Party) : ((s.abortChan c p).chan c).state = .masked := by
  by_cases h : (s.chan c).state = .masked
  · rw [State.abortChan, if_pos ((isMasked_iff s c).mpr h)]
    exact h
  · rw [abortChan_eq h, notifyOwner_chan, chan_of_seq (evt_raise ..).seq, abortedChan_same]
    rfl

/-- The abort of another channel reaches one that does not wait for a claim with a request at most. -/
theorem abortChan_called {s : State} {c d : ChanIx} (hd : d ≠ c) (h : (s.chan c).state ≠ .waiting .claim) (p : Party) :
    (s.chan c).Called ((s.abortChan d p).chan c) := by
  by_cases hm : (s.chan d).state = .masked
  · rw [State.abortChan, if_pos ((isMasked_iff s d).mpr hm)]
    exact .inl rfl
  · rw [abortChan_eq hm, notifyOwner_chan, chan_of_seq (evt_raise ..).seq, abortedChan_other _ hd]
    obtain e | ⟨t, e⟩ := withdrawChan_cases s d <;> rw [e]
    · exact .inl rfl
    · exact (Roused.withdraw ..).called c h

theorem calm_abortAwaited (s : State) (aw : ConvAwait) : Calm s (s.abortAwaited aw) := by
  cases aw with
  | precharge => exact calm_abortChan ..
  | run => exact calm_abortChan ..
  | stop => exact calm_abortChan ..
  | trip => exact .refl s
  | none => exact .refl s

/-- The trip channel is none of the channels that a trip aborts. -/
theorem abortAwaited_trip {s : State} {aw : ConvAwait}
    (distinct : [s.settings.conv.precharge, s.settings.conv.run, s.settings.conv.stop, s.settings.conv.trip].Nodup)
    (h : (s.chan s.settings.conv.trip).state ≠ .waiting .claim) :
    (s.chan s.settings.conv.trip).Called ((s.abortAwaited aw).chan s.settings.conv.trip) := by
  simp only [List.nodup_cons, List.mem_cons, not_or] at distinct
  cases aw with
  | precharge => exact abortChan_called distinct.1.2.2.1 h _
  | run => exact abortChan_called distinct.2.1.2.1 h _
  | stop => exact abortChan_called distinct.2.2.1.1 h _
  | trip => exact .inl rfl
  | none => exact .inl rfl

/-! ### The request of the trip channel -/

theorem request_requested {s : State} {c : ChanIx} (h : (s.chan c).state = .idle ∨ (s.chan c).state = .requested)
    (who : Requester) : ((s.request c who).chan c).state = .requested := by
  obtain h | h := h
  · rw [request_of_idle h, chan_modChan]
    rfl
  · rw [request_of_active (by rw [h]; nofun) (by rw [h]; nofun)]
    exact h

theorem requestTrip_masked {s : State} (h : (s.chan s.settings.conv.trip).state = .masked) :
    s.requestTrip = (s.raise 7 [(s.settings.conv.trip : Int), Requester.conversion.number]).furtherCause
      .channelRefused s.settings.conv.trip := by
  rw [State.requestTrip, if_pos ((isMasked_iff ..).mpr h), request_of_masked h]

theorem requestTrip_taken {s : State} (h : (s.chan s.settings.conv.trip).state ≠ .masked) :
    s.requestTrip = (s.modCnv fun r => { r with awaited := .trip }).request s.settings.conv.trip .conversion := by
  rw [State.requestTrip, if_neg fun m => h ((isMasked_iff ..).mp m)]

theorem furtherCause_seq (s : State) (cause : TripCause) (detail : Nat) : (s.furtherCause cause detail).seq = s.seq :=
  (evt_raise ..).seq

theorem furtherCause_cnv (s : State) (cause : TripCause) (detail : Nat) :
    (s.furtherCause cause detail).cnv = { s.cnv with further := satSucc 255 s.cnv.further } := (Calm.raise ..).cnv

theorem furtherCause_class0 (s : State) (cause : TripCause) (detail : Nat) :
    (s.furtherCause cause detail).rif.class0 = placeBlockIn s.settings.conv.group s.rif.class0 := (Calm.raise ..).class0

theorem furtherCause_work (s : State) (cause : TripCause) (detail : Nat) : s.work <+: (s.furtherCause cause detail).work :=
  (Calm.raise (s := (s.placeBlock).modCnv _) ..).work

/-- A channel that is not IDLE keeps its record when the trip channel is requested. -/
theorem requestTrip_chan {s : State} {c : ChanIx} (h : (s.chan c).state ≠ .idle) :
    s.requestTrip.chan c = s.chan c := by
  by_cases m : (s.chan s.settings.conv.trip).state = .masked
  · rw [requestTrip_masked m, chan_of_seq (furtherCause_seq ..), chan_of_seq (evt_raise ..).seq]
  · rw [requestTrip_taken m]
    exact request_chan (s := s.modCnv _) h ..

/-! ### Class 0 -/

/-- A Block Command stands last where one has just been placed (R176). -/
theorem placeBlockIn_last (d : Node) {q : List Class0} (h : class0Shape q = true) :
    ∃ e, (placeBlockIn d q).getLast? = some (.block e) := by
  obtain rfl | ⟨g, rfl⟩ | ⟨_, _, _, _, rfl⟩ | ⟨_, _, _, _, rfl⟩ | ⟨_, _, _, _, _, _, _, rfl⟩ := class0Shape_cases h
  · exact ⟨_, rfl⟩
  · cases g <;> exact ⟨_, rfl⟩
  all_goals exact ⟨_, rfl⟩

theorem placeBlock_eq {s x : State} (h : x.settings = s.settings) :
    x.placeBlock =
      { x with rif := { x.rif with class0 := placeBlockIn s.settings.conv.group x.rif.class0 } } := by
  rw [← h]
  rfl

/-! ### The trip -/

/-- The part behind the abort of the awaited channel, before the Block Command is placed. -/
def State.tripBegun (s : State) (cause : TripCause) (detail : Nat) : State :=
  ((s.modCnv fun c => c.trip cause detail s.rif.ringTime).hand .convChanged).abortAwaited s.cnv.awaited

/-- The part behind event 12, before the trip channel is requested. -/
def State.tripTold (s : State) (cause : TripCause) (detail : Nat) : State :=
  (s.tripBegun cause detail).placeBlock.raise 12 [(cause.code : Int), (detail : Int), (s.cnv.state.code : Int)]

theorem tripCnv_tripped {s : State} (ho : s.part = .operating) (h : s.cnv.state = .tripped) (cause : TripCause)
    (detail : Nat) : s.tripCnv cause detail = s.furtherCause cause detail := by
  rw [State.tripCnv, if_pos ((operating_iff s).mpr ho), if_pos h]

theorem tripCnv_begins {s : State} (ho : s.part = .operating) (h : s.cnv.state ≠ .tripped) (cause : TripCause)
    (detail : Nat) : s.tripCnv cause detail = (s.tripTold cause detail).requestTrip := by
  rw [State.tripCnv, if_pos ((operating_iff s).mpr ho), if_neg h]
  rfl

section Begun

variable (s : State) (cause : TripCause) (detail : Nat)

theorem calm_tripBegun :
    Calm ((s.modCnv fun c => c.trip cause detail s.rif.ringTime).hand .convChanged) (s.tripBegun cause detail) :=
  calm_abortAwaited ..

theorem tripBegun_settings : (s.tripBegun cause detail).settings = s.settings := (calm_tripBegun ..).settings

theorem tripBegun_cnv : (s.tripBegun cause detail).cnv = s.cnv.trip cause detail s.rif.ringTime := (calm_tripBegun ..).cnv

theorem tripBegun_class0 : (s.tripBegun cause detail).rif.class0 = s.rif.class0 := (calm_tripBegun ..).class0

theorem tripTold_settings : (s.tripTold cause detail).settings = s.settings :=
  (evt_raise ..).settings.trans (tripBegun_settings ..)

theorem tripTold_cnv : (s.tripTold cause detail).cnv = s.cnv.trip cause detail s.rif.ringTime :=
  (Calm.raise ..).cnv.trans (tripBegun_cnv ..)

theorem tripTold_class0 :
    (s.tripTold cause detail).rif.class0 = placeBlockIn s.settings.conv.group s.rif.class0 := by
  refine (Calm.raise ..).class0.trans ?_
  rw [placeBlock_eq (tripBegun_settings ..), tripBegun_class0]

theorem tripTold_chan (c : ChanIx) : (s.tripTold cause detail).chan c = (s.tripBegun cause detail).chan c :=
  chan_of_seq (evt_raise ..).seq c

theorem tripTold_work : Work.convChanged ∈ (s.tripTold cause detail).work :=
  (Calm.raise (s := (s.tripBegun cause detail).placeBlock) ..).work.subset
    ((calm_tripBegun s cause detail).work.subset (List.mem_append_right _ (List.mem_singleton_self _)))

end Begun

/-! ### What the request of the trip channel leaves -/

theorem requestTrip_cnv (s : State) :
    let refused := (s.chan s.settings.conv.trip).state = .masked
    s.requestTrip.cnv = { s.cnv with
      awaited := if refused then s.cnv.awaited else .trip
      further := if refused then satSucc 255 s.cnv.further else s.cnv.further } := by
  intro refused
  by_cases m : refused
  · rw [requestTrip_masked m, furtherCause_cnv, (Calm.raise ..).cnv, if_pos m, if_pos m]
  · rw [requestTrip_taken m, (calm_request ..).cnv, if_neg m, if_neg m]
    rfl

theorem requestTrip_alw (s : State) : s.requestTrip.alw = s.alw := by
  by_cases m : (s.chan s.settings.conv.trip).state = .masked
  · rw [requestTrip_masked m]
    exact (Calm.raise ..).alw.trans (Calm.raise ..).alw
  · rw [requestTrip_taken m]
    exact (calm_request ..).alw

theorem requestTrip_work (s : State) : s.work <+: s.requestTrip.work := by
  by_cases m : (s.chan s.settings.conv.trip).state = .masked
  · rw [requestTrip_masked m]
    exact (Calm.raise ..).work.trans (furtherCause_work ..)
  · rw [requestTrip_taken m]
    exact (calm_request (s.modCnv _) ..).work

/-- A Block Command that has been placed stays, or is placed once more. -/
theorem requestTrip_class0 (s : State) :
    s.requestTrip.rif.class0 = s.rif.class0 ∨
      s.requestTrip.rif.class0 = placeBlockIn s.settings.conv.group s.rif.class0 := by
  by_cases m : (s.chan s.settings.conv.trip).state = .masked
  · rw [requestTrip_masked m, furtherCause_class0, (Calm.raise ..).class0, (Calm.raise ..).settings]
    exact .inr rfl
  · rw [requestTrip_taken m]
    exact .inl (calm_request ..).class0

/-! ### What a trip leaves, in OPERATING or not -/

theorem tripCnv_settings (s : State) (cause : TripCause) (detail : Nat) :
    (s.tripCnv cause detail).settings = s.settings := (Within.tripCnv ..).1

theorem tripCnv_mode (s : State) (cause : TripCause) (detail : Nat) :
    (s.tripCnv cause detail).ala.mode = s.ala.mode := (Within.tripCnv ..).2.1

theorem tripCnv_alw (s : State) (cause : TripCause) (detail : Nat) : (s.tripCnv cause detail).alw = s.alw := by
  by_cases ho : s.part = .operating
  · by_cases h : s.cnv.state = .tripped
    · rw [tripCnv_tripped ho h]
      exact (Calm.raise ..).alw
    · rw [tripCnv_begins ho h, requestTrip_alw]
      exact (Calm.raise ..).alw.trans (calm_tripBegun ..).alw
  · rw [State.tripCnv, if_neg fun o => ho ((operating_iff s).mp o)]

theorem tripCnv_blind (s : State) (cause : TripCause) (detail : Nat) :
    (s.tripCnv cause detail).cnv.blind = s.cnv.blind := by
  by_cases ho : s.part = .operating
  · by_cases h : s.cnv.state = .tripped
    · rw [tripCnv_tripped ho h, furtherCause_cnv]
    · rw [tripCnv_begins ho h, requestTrip_cnv, tripTold_cnv]
      rfl
  · rw [State.tripCnv, if_neg fun o => ho ((operating_iff s).mp o)]

/-! ### The trip of a part that is in OPERATING -/

section Trips

variable {s : State} {cause : TripCause} {detail : Nat}

/-- The trip channel is MASKED when the trip requests it. -/
abbrev State.tripRefused (s : State) (cause : TripCause) (detail : Nat) : Prop :=
  ((s.tripBegun cause detail).chan s.settings.conv.trip).state = .masked

theorem tripRefused_iff : ((s.tripTold cause detail).chan (s.tripTold cause detail).settings.conv.trip).state = .masked ↔
    s.tripRefused cause detail := by
  rw [tripTold_settings, tripTold_chan]

theorem tripCnv_cnv (ho : s.part = .operating) (h : s.cnv.state ≠ .tripped) :
    (s.tripCnv cause detail).cnv = { s.cnv with
      state := .tripped, awaited := if s.tripRefused cause detail then .none else .trip, breaker := false
      cause := cause, detail := detail, time := s.rif.ringTime
      further := if s.tripRefused cause detail then 1 else 0, autostartPending := false } := by
  rw [tripCnv_begins ho h, requestTrip_cnv, tripTold_cnv]
  simp only [tripRefused_iff]
  rfl

theorem tripCnv_work (ho : s.part = .operating) (h : s.cnv.state ≠ .tripped) :
    Work.convChanged ∈ (s.tripCnv cause detail).work := by
  rw [tripCnv_begins ho h]
  exact (requestTrip_work _).subset (tripTold_work ..)

/-- Class 0 behind a trip: one placement, or two. -/
theorem tripCnv_class0 (ho : s.part = .operating) (h : s.cnv.state ≠ .tripped) :
    ∃ q, (s.tripCnv cause detail).rif.class0 = placeBlockIn s.settings.conv.group q ∧
      (class0Shape s.rif.class0 = true → class0Shape q = true) := by
  rw [tripCnv_begins ho h]
  obtain e | e := requestTrip_class0 (s.tripTold cause detail)
  · exact ⟨_, e.trans (tripTold_class0 ..), id⟩
  · rw [tripTold_settings, tripTold_class0] at e
    exact ⟨_, e, placeBlockIn_shape _ _⟩

theorem tripCnv_masked (ho : s.part = .operating) (h : s.cnv.state ≠ .tripped) {c : ChanIx}
    (hm : ((s.tripBegun cause detail).chan c).state = .masked) : ((s.tripCnv cause detail).chan c).state = .masked := by
  have told : (s.tripTold cause detail).chan c = (s.tripBegun cause detail).chan c := tripTold_chan ..
  rw [tripCnv_begins ho h, requestTrip_chan (by rw [told, hm]; nofun), told]
  exact hm

theorem tripCnv_requested (ho : s.part = .operating) (h : s.cnv.state ≠ .tripped)
    (distinct : [s.settings.conv.precharge, s.settings.conv.run, s.settings.conv.stop, s.settings.conv.trip].Nodup)
    (idle : (s.chan s.settings.conv.trip).state = .idle) :
    ((s.tripCnv cause detail).chan s.settings.conv.trip).state = .requested := by
  have begun : (s.chan s.settings.conv.trip).Called ((s.tripBegun cause detail).chan s.settings.conv.trip) :=
    abortAwaited_trip (s := (s.modCnv _).hand _) distinct fun w => ChanState.noConfusion (idle.symm.trans w)
  have ready : ((s.tripTold cause detail).chan s.settings.conv.trip).state = .idle ∨
      ((s.tripTold cause detail).chan s.settings.conv.trip).state = .requested := by
    rw [tripTold_chan]
    obtain e | ⟨-, e⟩ := begun <;> rw [e]
    · exact .inl idle
    · exact .inr rfl
  have taken : ((s.tripTold cause detail).chan (s.tripTold cause detail).settings.conv.trip).state ≠ .masked := by
    rw [tripTold_settings]
    obtain e | e := ready <;> rw [e] <;> nofun
  rw [tripCnv_begins ho h, requestTrip_taken taken, tripTold_settings]
  exact request_requested (s := (s.tripTold cause detail).modCnv _) ready _

theorem tripCnv_taken (ho : s.part = .operating) (h : s.cnv.state ≠ .tripped) (hr : ¬s.tripRefused cause detail) :
    s.tripCnv cause detail =
      ((s.tripTold cause detail).modCnv fun c => { c with awaited := .trip }).request s.settings.conv.trip
        .conversion := by
  rw [tripCnv_begins ho h, requestTrip_taken (mt tripRefused_iff.mp hr), tripTold_settings]

/-- A refused trip channel is the first further cause. -/
theorem tripCnv_refused (ho : s.part = .operating) (h : s.cnv.state ≠ .tripped) (hr : s.tripRefused cause detail) :
    s.tripCnv cause detail =
      ((((s.tripTold cause detail).raise 7 [(s.settings.conv.trip : Int), Requester.conversion.number]).placeBlock).modCnv
        fun c => { c with further := 1 }).raise 12 [(TripCause.channelRefused.code : Int), (s.settings.conv.trip : Int)] := by
  have cnv := (Calm.raise (s := s.tripTold cause detail) 7
    [(s.settings.conv.trip : Int), Requester.conversion.number]).cnv.trans (tripTold_cnv s cause detail)
  rw [tripCnv_begins ho h, requestTrip_masked (tripRefused_iff.mpr hr), tripTold_settings, State.furtherCause]
  refine congrArg (fun c => State.raise { State.placeBlock _ with cnv := c } _ _) ?_
  rw [show (State.placeBlock _).cnv = _ from cnv]
  rfl

end Trips

end Sys2Proof.Machine
end

section
/-! SUPPORT. A computation of CNV and ALW by its stages: classification, allowance, limits, reference and supply mode
(R87 to R92, R98 to R110). -/

namespace Sys2Proof.Machine

/-! ### The ride-through curve (R89) -/

/-- The point of the curve is exceeded. -/
def ConvCfg.exceeded (p : ConvCfg) (mf dip : Nat) (j : Fin 4) : Prop := mf < p.levels[j] ∧ p.times[j] < dip

theorem curvePoint_none {p : ConvCfg} {mf dip : Nat} (h : ∀ j, ¬p.exceeded mf dip j) : p.curvePoint mf dip = none := by
  refine (congrArg (Option.map _) (List.find?_eq_none.mpr fun x hx => ?_)).trans (Option.map_none _)
  obtain ⟨i, hi, rfl⟩ := List.getElem_of_mem hx
  have bound : i < 4 := by simpa using hi
  have none : ¬(mf < p.levels[i] ∧ p.times[i] < dip) := h ⟨i, bound⟩
  simpa using none

theorem curvePoint_first {p : ConvCfg} {mf dip : Nat} {j : Fin 4} (h : p.exceeded mf dip j)
    (first : ∀ i, i < j → ¬p.exceeded mf dip i) : p.curvePoint mf dip = some (j : Nat) := by
  refine Option.map_eq_some_iff.mpr ⟨((p.levels[j], p.times[j]), (j : Nat)), ?_, rfl⟩
  refine List.find?_eq_some_iff_getElem.mpr ⟨?_, j, by simp, by simp, fun i hi => ?_⟩
  · have found : mf < p.levels[j] ∧ p.times[j] < dip := h
    simpa using found
  · have bound : i < 4 := hi.trans j.isLt
    have before : ¬(mf < p.levels[i] ∧ p.times[i] < dip) := first ⟨i, bound⟩ hi
    simpa [imp_iff_not_or] using before

/-! ### The transitions by mf (R88) -/

theorem classify_grid {s : State} (h : s.cnv.state = .running ∨ s.cnv.state = .postDip) (mf : Nat) :
    s.classify mf = if mf < s.settings.conv.dipEntry then s.enterDip mf else s := by
  obtain h | h := h <;> rw [State.classify, h]

theorem classify_dip {s : State} (h : s.cnv.state = .rideThrough) (mf : Nat) :
    s.classify mf = if s.settings.conv.dipExit ≤ mf then s.setConv .postDip else s.advanceDip mf := by
  rw [State.classify, h]

theorem classify_rest {s : State} (hr : s.cnv.state ≠ .running) (hp : s.cnv.state ≠ .postDip)
    (hd : s.cnv.state ≠ .rideThrough) (mf : Nat) : s.classify mf = s := by
  unfold State.classify
  split
  · next h => exact absurd h hr
  · next h => exact absurd h hd
  · next h => exact absurd h hp
  all_goals rfl

/-- The dip timer has advanced by one (R88). -/
def State.dipAdvanced (s : State) : State := s.modCnv fun c => { c with dip := satSucc 65535 c.dip }

theorem advanceDip_none {s : State} {mf : Nat} (h : ∀ j, ¬s.settings.conv.exceeded mf s.dipAdvanced.cnv.dip j) :
    s.advanceDip mf = s.dipAdvanced := by
  have point : s.dipAdvanced.settings.conv.curvePoint mf s.dipAdvanced.cnv.dip = none := curvePoint_none h
  show (match s.dipAdvanced.settings.conv.curvePoint mf s.dipAdvanced.cnv.dip with
    | none => s.dipAdvanced
    | some k => s.dipAdvanced.tripCnv .curve k) = s.dipAdvanced
  rw [point]

theorem advanceDip_first {s : State} {mf : Nat} {j : Fin 4} (h : s.settings.conv.exceeded mf s.dipAdvanced.cnv.dip j)
    (first : ∀ i, i < j → ¬s.settings.conv.exceeded mf s.dipAdvanced.cnv.dip i) :
    s.advanceDip mf = s.dipAdvanced.tripCnv .curve j := by
  have point : s.dipAdvanced.settings.conv.curvePoint mf s.dipAdvanced.cnv.dip = some (j : Nat) :=
    curvePoint_first h first
  show (match s.dipAdvanced.settings.conv.curvePoint mf s.dipAdvanced.cnv.dip with
    | none => s.dipAdvanced
    | some k => s.dipAdvanced.tripCnv .curve k) = s.dipAdvanced.tripCnv .curve j
  rw [point]

/-- A classification keeps the count of blind computations and the settings. -/
theorem classify_keeps (s : State) (mf : Nat) :
    (s.classify mf).settings = s.settings ∧ (s.classify mf).cnv.blind = s.cnv.blind := by
  have dip : (s.enterDip mf).settings = s.settings ∧ (s.enterDip mf).cnv.blind = s.cnv.blind :=
    ⟨(Calm.raise ..).settings, by rw [State.enterDip, (Calm.raise ..).cnv]; rfl⟩
  have advanced : (s.advanceDip mf).settings = s.settings ∧ (s.advanceDip mf).cnv.blind = s.cnv.blind := by
    unfold State.advanceDip
    dsimp only
    split
    · exact ⟨rfl, rfl⟩
    · exact ⟨tripCnv_settings .., tripCnv_blind ..⟩
  by_cases hd : s.cnv.state = .rideThrough
  · rw [classify_dip hd]
    split
    · exact ⟨rfl, rfl⟩
    · exact advanced
  · by_cases hg : s.cnv.state = .running ∨ s.cnv.state = .postDip
    · rw [classify_grid hg]
      split
      · exact dip
      · exact ⟨rfl, rfl⟩
    · rw [classify_rest (fun h => hg (.inl h)) (fun h => hg (.inr h)) hd]
      exact ⟨rfl, rfl⟩

/-! ### What a computation reads (R98) -/

theorem mem_gridSignals (s : State) (i : SigIx) : i ∈ s.gridSignals ↔
    i = s.settings.conv.gridA ∨ i = s.settings.conv.gridB ∨ i = s.settings.conv.gridC := by
  simp [State.gridSignals]

theorem gridNotGood_iff (s : State) (i : SigIx) :
    i ∈ s.gridNotGood ↔ i ∈ s.gridSignals ∧ s.signals[i].quality ≠ .good := by
  simp [State.gridNotGood, bne_iff_ne]

theorem gridNotGood_nil (s : State) : s.gridNotGood = [] ↔ s.signals[s.settings.conv.gridA].quality = .good ∧
    s.signals[s.settings.conv.gridB].quality = .good ∧ s.signals[s.settings.conv.gridC].quality = .good := by
  rw [List.eq_nil_iff_forall_not_mem]
  simp only [gridNotGood_iff, mem_gridSignals, not_and, not_not]
  refine ⟨fun h => ⟨h _ (.inl rfl), h _ (.inr (.inl rfl)), h _ (.inr (.inr rfl))⟩, fun ⟨ha, hb, hc⟩ i hi => ?_⟩
  obtain rfl | rfl | rfl := hi
  · exact ha
  · exact hb
  · exact hc

theorem mem_temperatures (s : State) (w : Int) : w ∈ s.temperatures ↔ ∃ i ∈ s.settings.conv.temps,
    w = s.signals[i].value ∧ (s.signals[i].quality = .good ∨ s.signals[i].quality = .degraded) := by
  simp only [State.temperatures, List.mem_map, List.mem_filter, usable_iff]
  exact ⟨fun ⟨i, ⟨hi, hq⟩, hw⟩ => ⟨i, hi, hw.symm, hq⟩, fun ⟨i, hi, hw, hq⟩ => ⟨i, ⟨hi, hq⟩, hw.symm⟩⟩

theorem hottest_eq {l : List Int} {t : Int} (ht : t ∈ l) (hm : ∀ w ∈ l, w ≤ t) : hottest l = some t := by
  have same : hottest l = l.max? := by cases l <;> rfl
  rw [same]
  exact List.max?_eq_some_iff.mpr ⟨ht, hm⟩

/-! ### The reference (R110) -/

theorem isRunning_iff (k : ConvState) : k.isRunning = true ↔ k = .running ∨ k = .rideThrough ∨ k = .postDip := by
  cases k <;> simp [ConvState.isRunning]

theorem sendReference_eq {s x : State} (h : x.settings = s.settings) :
    x.sendReference =
      if x.cnv.state = .running ∨ x.cnv.state = .rideThrough ∨ x.cnv.state = .postDip then
        { x with rif := { x.rif with
          class0 := placeRefIn (.ref s.settings.conv.group x.alw.lastIq x.alw.lastIp) x.rif.class0 } }
      else x := by
  rw [← h]
  exact if_congr (isRunning_iff _) rfl rfl

/-! ### The active limit (R109) -/

/-- The ramp step of POST_DIP, before its end is tested. -/
def State.ramped (s : State) (ramp : Nat) : State :=
  s.modAlw fun r => { r with ramp := ramp, ipLimit := min r.ipReq ramp }

theorem formLimit_running {s : State} (h : s.cnv.state = .running) (entered : Bool) :
    s.formLimit entered = s.modAlw fun r => { r with ipLimit := r.ipReq } := by
  rw [State.formLimit, h]

theorem formLimit_rideThrough {s : State} (h : s.cnv.state = .rideThrough) (entered : Bool) :
    s.formLimit entered = s.modAlw fun r => { r with ipLimit := r.ipReq, rideLimit := r.ipReq } := by
  rw [State.formLimit, h]

theorem formLimit_postDip {s : State} (h : s.cnv.state = .postDip) (entered : Bool) :
    let ramp := s.settings.alw.rampStep entered s.alw.ramp s.alw.rideLimit
    s.formLimit entered =
      if s.alw.ipReq ≤ ramp then ((s.ramped ramp).setConv .running).raise 14 [] else s.ramped ramp := by
  rw [State.formLimit, h]
  rfl

theorem formLimit_stopped {s : State} (h : s.cnv.state = .off ∨ s.cnv.state = .charging ∨ s.cnv.state = .standby ∨
    s.cnv.state = .stopping ∨ s.cnv.state = .tripped) (entered : Bool) :
    s.formLimit entered = s.modAlw fun r => { r with ipLimit := 0 } := by
  obtain h | h | h | h | h := h <;> rw [State.formLimit, h]

theorem clampRequest_eq (cap : Nat) (r : Int) : (clampRequest cap r : Int) = max 0 (min (cap : Int) r) :=
  Int.toNat_of_nonneg (le_max_left ..)

/-! ### A computation that is not blind -/

theorem classified_keeps (s : State) (x : Readings) :
    (s.classified x).settings = s.settings ∧ (s.classified x).cnv.blind = 0 := by
  let m := (s.modCnv fun r => { r with blind := 0 }).formMagnitude x
  obtain ⟨settings, blind⟩ := classify_keeps m m.alw.mf
  have magnitude : m.settings = s.settings ∧ m.cnv.blind = 0 :=
    ⟨publish_settings .., congrArg CnvRt.blind (calm_publish (State.modAlw _ _) .gridMagnitude _).cnv⟩
  exact ⟨settings.trans magnitude.1, blind.trans magnitude.2⟩

/-! ### A blind computation (R87, R102) -/

theorem blindTest_eq (s : State) (x : Readings) :
    let n := if s.cnv.blind < 65535 then s.cnv.blind + 1 else s.cnv.blind
    let a := s.modCnv fun c => { c with blind := n }
    let b := if n = 1 then a.raise 15 (x.notGood.map fun (i : SigIx) => (i : Int)) else a
    let c := if (s.cnv.state = .running ∨ s.cnv.state = .rideThrough ∨ s.cnv.state = .postDip) ∧
      s.settings.conv.blindLimit < n then b.tripCnv .blind 0 else b
    s.blindTest x = if c.cnv.state = .rideThrough then c.modCnv fun r =>
      { r with dip := if r.dip < 65535 then r.dip + 1 else r.dip } else c := by
  intro n a b c
  have cnv : b.cnv = a.cnv := by
    unfold b
    split
    · exact (Calm.raise ..).cnv
    · rfl
  have settings : b.settings = s.settings := by
    unfold b
    split
    · exact (Calm.raise ..).settings
    · rfl
  have tripped : c = if b.cnv.state.isRunning = true ∧ b.settings.conv.blindLimit < b.cnv.blind then b.tripCnv .blind 0
      else b := by
    refine if_congr (and_congr ?_ ?_) rfl rfl
    · rw [cnv]
      exact (isRunning_iff _).symm
    · rw [cnv, settings]
      exact .rfl
  rw [tripped]
  rfl

theorem blindTest_keeps (s : State) (x : Readings) : (s.blindTest x).settings = s.settings ∧
    (s.blindTest x).alw = s.alw ∧ (s.blindTest x).ala.mode = s.ala.mode := by
  have raised (u : State) (d : List Int) : (u.raise 15 d).settings = u.settings ∧ (u.raise 15 d).alw = u.alw ∧
      (u.raise 15 d).ala.mode = u.ala.mode :=
    ⟨(Calm.raise ..).settings, (Calm.raise ..).alw, congrArg AlaRt.mode (evt_raise ..).ala⟩
  have trips (u : State) : (u.tripCnv .blind 0).settings = u.settings ∧ (u.tripCnv .blind 0).alw = u.alw ∧
      (u.tripCnv .blind 0).ala.mode = u.ala.mode :=
    ⟨tripCnv_settings .., tripCnv_alw .., tripCnv_mode ..⟩
  rw [blindTest_eq]
  split_ifs <;> simp [raised, trips]

theorem autostartTest_mode (s : State) : s.autostartTest.ala.mode = s.ala.mode := by
  by_cases h : s.cnv.autostartPending = true ∧ s.cnv.state = .off ∧ s.ala.mode = .grid ∧
      (s.chan s.settings.conv.precharge).state = .idle
  · rw [autostartTest_due h]
    exact (calm_request (State.hand _ _) ..).shrinks.1
  · rw [State.autostartTest, if_neg h]

end Sys2Proof.Machine
end

section
/-! SUPPORT. The ride-through of CNV with its computations: the parts of the obligation together. -/

namespace Sys2Proof.Machine

/-- Settles O56: the transitions by mf, the trip, the computation by its stages, and the updates CNV takes. -/
theorem rideThrough : Obligations.RideThrough := by
  refine ⟨fun s mf => ?classify, fun s cause detail ho distinct => ?trip, fun s => ?computation, fun s x => ?formed,
    fun s mf => ?mode, fun s i v q => ?update, fun s => ?request, fun s entered => ?limit⟩
  case classify =>
    intro p k enters dip on exceeded
    refine ⟨fun h => ?_, fun h => ?_, fun hr hp hd => classify_rest hr hp hd mf⟩
    · rw [classify_grid h]
      exact ⟨fun low => if_pos low, fun high => if_neg (not_lt.mpr high)⟩
    · rw [classify_dip h]
      refine ⟨fun high => if_pos high, fun low => ?_⟩
      rw [if_neg (not_le.mpr low)]
      exact ⟨fun none => advanceDip_none none, fun j found first => advanceDip_first found first⟩
  case trip =>
    intro p t u refused
    have placed (x : State) (hx : x.settings = s.settings) : x.placeBlock = { x with rif := { x.rif with
      class0 := placeBlockIn p.group x.rif.class0 } } := placeBlock_eq hx
    have told : s.tripTold cause detail = State.raise { u with rif := { u.rif with
        class0 := placeBlockIn p.group u.rif.class0 } } 12 [(cause.code : Int), (detail : Int), (s.cnv.state.code : Int)] :=
      congrArg (fun x => State.raise x 12 _) (placed u (tripBegun_settings ..))
    refine ⟨fun h => ⟨tripCnv_cnv ho h, tripCnv_work ho h, ?_, fun shape => ?_, tripCnv_requested ho h distinct,
      fun e => tripCnv_masked ho h ?_, fun e => tripCnv_masked ho h ?_, fun e => tripCnv_masked ho h ?_,
      tripCnv_mode .., fun taken => ?_, fun masked => ?_⟩, fun h => ?_⟩
    · obtain ⟨q, class0, -⟩ := tripCnv_class0 (cause := cause) (detail := detail) ho h
      rw [BlockQueued, class0]
      exact placeBlockIn_block ..
    · obtain ⟨q, class0, kept⟩ := tripCnv_class0 (cause := cause) (detail := detail) ho h
      rw [class0]
      exact placeBlockIn_last _ (kept shape)
    · rw [State.tripBegun, e]
      exact abortChan_masked ..
    · rw [State.tripBegun, e]
      exact abortChan_masked ..
    · rw [State.tripBegun, e]
      exact abortChan_masked ..
    · rw [← told]
      exact tripCnv_taken ho h taken
    · have settings := (evt_raise (s.tripTold cause detail) 7 [(p.trip : Int), Requester.conversion.number]).settings.trans
        (tripTold_settings s cause detail)
      refine (tripCnv_refused ho h masked).trans ?_
      rw [placed _ settings, told]
    · have again : t = s.furtherCause cause detail := tripCnv_tripped ho h ..
      rw [again]
      exact ⟨furtherCause_cnv .., furtherCause_seq .., furtherCause_class0 .., rfl⟩
  case computation =>
    intro p good running referred
    have sent (x : State) (hx : x.settings = s.settings) : x.sendReference = referred x := sendReference_eq hx
    refine ⟨fun ho v q hq => ?_, gridNotGood_nil s, ⟨rfl, rfl, rfl, rfl, rfl, ?_, mem_temperatures s⟩, fun x =>
      ⟨fun none => ?_, fun some => ?_⟩⟩
    · intro seen
      have found : ¬q = .lost := by obtain rfl | rfl := hq <;> nofun
      refine (if_pos ⟨(operating_iff s).mpr ho, (mem_gridSignals s _).mpr (.inr (.inr rfl))⟩).trans ?_
      exact (if_neg found).trans (if_pos ⟨rfl, (usable_iff q).mpr hq⟩)
    · exact List.filter_congr fun i _ => by simp [bne, beq_eq_decide]
    · intro c entered y m
      obtain ⟨settings, blind⟩ := classified_keeps s x
      have bool : (s.cnv.state == .rideThrough && c.cnv.state == .postDip) = entered := by
        simp [entered, Bool.decide_and, beq_eq_decide]
      have limited : c.limited x s.cnv.state = referred y := by
        rw [State.limited, bool]
        exact sent y ((base_limits c x entered).settings.trans settings)
      refine ⟨rfl, rfl, rfl, rfl, blind, ?_⟩
      rw [State.computation, if_pos none, ← limited]
    · intro n a named b c d e
      have list : named = x.notGood.map fun (i : SigIx) => (i : Int) := by simp [named, List.map_eq_flatMap]
      have test : s.blindTest x = d := by
        rw [blindTest_eq, ← list]
      obtain ⟨settings, alw, mode⟩ := blindTest_keeps s x
      rw [test] at settings alw mode
      have blind : s.blindComputation x = referred e := by
        rw [← sent e settings, State.blindComputation, test]
        refine congrArg State.sendReference ?_
        show _ = ({ d with alw := { s.alw with
          history := [], lastBlind := true
          rideLimit := if d.cnv.state = .rideThrough then s.alw.lastIp else s.alw.rideLimit } } : State)
        rw [← alw]
        by_cases hd : d.cnv.state = .rideThrough
        · rw [if_pos hd]
          exact if_pos hd
        · rw [if_neg hd]
          exact if_neg hd
      have whole : s.computation x = (referred e).autostartTest := by
        rw [State.computation, if_neg some, blind]
      refine ⟨whole, ?_, rfl, rfl⟩
      rw [whole, autostartTest_mode]
      refine Eq.trans ?_ mode
      unfold referred
      split <;> rfl
  case formed =>
    intro h kept v mf
    refine ⟨(calm_publish ..).alw, rfl, ?_, ?_, fun none => ?_, fun t ht hm => ?_⟩
    all_goals simp only [v, formAllowance_alw]
    · rfl
    · rfl
    · rw [none]
      exact ⟨rfl, rfl⟩
    · rw [hottest_eq ht hm]
      exact ⟨rfl, rfl⟩
  case mode =>
    intro p mode absent
    refine ⟨rfl, fun h => if_pos h, fun h hd => ?_, fun h hd high => ?_, fun h hd low => ?_, fun m => ?_⟩
    · exact (if_neg h).trans (if_pos hd)
    · exact (if_neg h).trans ((if_neg hd).trans (if_pos high))
    · exact (if_neg h).trans ((if_neg hd).trans (if_neg (not_le.mpr low)))
    · intro u
      exact ⟨fun same => if_pos same.symm, fun other => if_neg fun same => other same.symm⟩
  case update =>
    intro p grid running
    refine ⟨rfl, fun ho hg => ?_, fun ho hq hi => ?_, fun h => if_neg fun ⟨ho, hg⟩ => ?_⟩
    · refine (if_pos ⟨(operating_iff s).mpr ho, (mem_gridSignals s i).mpr hg⟩).trans ((if_pos rfl).trans ?_)
      exact congrArg (State.setMode · .backup) (if_congr (isRunning_iff _) rfl rfl)
    · have skipped : ¬(i = s.settings.conv.gridC ∧ q.usable = true) := fun ⟨hc, hu⟩ =>
        hi.elim (fun other => other hc) fun unused => by rw [unused] at hu; exact Bool.noConfusion hu
      rw [State.gridUpdate, if_neg hq, if_neg skipped, ite_self]
    · exact h.elim (fun out => out ((operating_iff s).mp ho)) fun other => other ((mem_gridSignals s i).mp hg)
  case request =>
    exact ⟨rfl, fun x => ⟨clampRequest_eq .., rfl⟩⟩
  case limit =>
    intro u k
    refine ⟨(formLimit_running · entered), (formLimit_rideThrough · entered), (formLimit_stopped · entered), fun h => ?_⟩
    · intro ramp
      have branches : u = if s.alw.ipReq ≤ ramp then ((s.ramped ramp).setConv .running).raise 14 [] else s.ramped ramp :=
        formLimit_postDip h entered
      by_cases reached : s.alw.ipReq ≤ ramp
      · rw [if_pos reached] at branches
        rw [branches]
        refine ⟨(Calm.raise ..).alw, ?_, fun short => absurd reached (not_le.mpr short), fun _ => rfl⟩
        rw [(Calm.raise ..).cnv]
        exact iff_of_true rfl reached
      · rw [if_neg reached] at branches
        rw [branches]
        refine ⟨rfl, iff_of_false (fun e => ?_) reached, fun _ => rfl, fun done => absurd done reached⟩
        exact ConvState.noConfusion (h.symm.trans e)

end Sys2Proof.Machine
end
